-- ==== Sys2Proof/Word.lean ====
section
/-! DEFINITION. The bytes and addresses of the wire (spec/00_scope.md R10) and the named value sets the spec
gives its registers and arguments. Everything that computes with them stands in Decode.lean and Machine/. -/

namespace Sys2Proof

/-- A byte, 0..255 (R10). -/
abbrev Byte := BitVec 8

/-- A Target flash address: `ADDR_BITS = 24` (R9). -/
abbrev Addr := BitVec 24

/-- A 16-bit register value: `CKSUM16` (R29), `CRC_LOCAL` and `CRC_DEV` (R33). -/
abbrev Half := BitVec 16

/-- `VARIANT` (R3, R18). -/
inductive Variant where
  | framed
  | g10
deriving DecidableEq, Repr

/-- The byte order a 16-bit value is received in (R44). -/
inductive ByteOrder where
  | le
  | be
deriving DecidableEq, Repr

/-- The parity of the line, where one is enabled (R9 `PARITY`, D40). -/
inductive Parity where
  | even
  | odd
deriving DecidableEq, Repr

/-- The two image buffers (R36). -/
inductive Buf where
  | code
  | data
deriving DecidableEq, Repr

/-- `CMODE`, the mode flag of the block controller (R32). -/
inductive CMode where
  | erase
  | program
  | verify
deriving DecidableEq, Repr

/-- `SEQ`, the state of the handshake sequencer (R16). -/
inductive SeqState where
  | idle
  | held
  | syncing
  | synced
  | ready
deriving DecidableEq, Repr

/-- The two control lines (R11). -/
inductive Signal where
  | reset
  | clock
deriving DecidableEq, Repr

/-- The error kinds of R157, `noError` being `NONE`. -/
inductive ErrKind where
  | noError
  | io
  | timeout
  | formatError
  | checksumError
  | lengthMismatch
  | deviceRejected
  | programFailed
  | mismatchError
  | checksumMismatch
  | initializationFailed
  | synchronizationFailed
  | payloadTooLarge
  | sizeMismatch
  | badRequest
deriving DecidableEq, Repr

/-- The fourteen requests of the request port (R78). -/
inductive Req where
  | init
  | resetCmd
  | setBaud
  | setLinkBaud
  | signature
  | blockErase
  | blankCheck
  | checksum
  | blockProgram
  | blockVerify
  | region
  | g10EraseWrite
  | g10CrcCheck
  | resetAndRun
deriving DecidableEq, Repr

/-- The eight framed opcodes (R68). -/
inductive Opcode where
  | reset
  | verify
  | blockErase
  | blankCheck
  | program
  | baudSet
  | checksum
  | siliconSignature
deriving DecidableEq, Repr

/-- The named delays of the `Wait` events (R187). -/
inductive Delay where
  | settleReset
  | settleClock
  | sync
  | run
  | progSettle (bs : Nat)
  | verifyFrame
deriving DecidableEq, Repr

/-- Where an encoded unit stands: the Caller's request port (R78), or one of the wire's vocabularies: command frames
(R61), data frames (R62), unframed bytes (R67), or the frames the Target sends (R63). -/
inductive Port where
  | request
  | command
  | data
  | raw
  | response
deriving DecidableEq, Repr

end Sys2Proof
end

