-- ==== Sys2Proof/Config.lean ====
section
/-! DEFINITION. The constants the spec fixes and the parameters it leaves to each implementation
(spec/00_scope.md R9). A model takes every parameter as an argument (R9): `Params` is a field of State that no step
changes, so that a statement about all states is a statement about all parameters. -/

namespace Sys2Proof

namespace Config

/-- `ACK` (R72). -/
def ack : Byte := 0x06#8
/-- `NACK` (R72). -/
def nack : Byte := 0x15#8
/-- `ST_BLANK_FAIL` (R72). -/
def stBlankFail : Byte := 0x1B#8
/-- `ERASED`, the erased-byte value (R9). -/
def erased : Byte := 0xFF#8
/-- `CMD_PAYLOAD_MAX` (R9). -/
def cmdPayloadMax : Nat := 255
/-- `DATA_PAYLOAD_MAX` (R9). -/
def dataPayloadMax : Nat := 256
/-- `MAX_RESP_LEN` (R9, D5). -/
def maxRespLen : Nat := 256
/-- `CODE_BASE` (R9, R48). -/
def codeBase : Addr := 0x000000#24
/-- `DATA_BASE` (R9, R48). -/
def dataBase : Addr := 0x0F1000#24
/-- `G10_POLL_MAX` (R9, R148). -/
def g10PollMax : Nat := 100
/-- `G10_WORD` (R9, R149). -/
def g10Word : Nat := 4
/-- The largest `VOLTAGE_MV` a request may carry (R97, D15). -/
def voltageMax : Nat := 25599

end Config

/-- One row of the protocol-version table: what `VARIANT_OF` and `BLOCK_SIZE` give for one selector value. -/
structure ProtoRow where
  proto     : Nat
  variant   : Variant
  blockSize : Nat
deriving DecidableEq, Repr

/-- The parameters of R9. A table is a list of its rows, so that the whole is plain data. -/
structure Params where
  /-- command-start marker -/
  soh : Byte
  /-- data-start marker -/
  stx : Byte
  /-- final terminator -/
  etx : Byte
  /-- continuation terminator -/
  etb : Byte
  /-- `ECHO` -/
  echo : Bool
  /-- `SYNC_BYTE` -/
  syncByte : Byte
  /-- `INIT_BAUD` -/
  initBaud : Nat
  /-- `BAUD_CODE`: rate to baud-code byte; a rate with no row has no code -/
  baudCodes : List (Nat × Byte)
  /-- `PARITY` -/
  parity : Option Parity
  /-- `VARIANT_OF` and `BLOCK_SIZE`, row by row -/
  protos : List ProtoRow
  /-- what `VARIANT_OF` gives for a selector with no row -/
  otherVariant : Variant
  /-- what `BLOCK_SIZE` gives for a selector with no row -/
  otherBlockSize : Nat
  /-- `DATA_GRANULE`. DESIGN CHOICE: one number for all protocols, so an instance that wants R9's default, `BLOCK_SIZE`,
  for several block sizes needs one `Params` for each (log entry 26). -/
  dataGranule : Nat
  /-- `DATA_SIZE_MAX` -/
  dataSizeMax : Nat
  /-- `BLANK_CHECK_OPT` -/
  blankCheckOpt : Option Byte
  /-- `CKSUM_ORDER` -/
  cksumOrder : ByteOrder
  /-- `G10_MODE_SET` -/
  g10ModeSet : Byte
  /-- `G10_ERASE_WRITE` -/
  g10EraseWrite : Byte
  /-- `G10_CRC_CHECK` -/
  g10CrcCheck : Byte
  /-- `G10_CAP`: capacity code to bytes; a code with no row has none (R144) -/
  g10Caps : List (Byte × Nat)
  /-- `CRC_INIT` -/
  crcInit : Half
  /-- `CRC_XOROUT` -/
  crcXorout : Half
  /-- `G10_CRC_ORDER` -/
  g10CrcOrder : ByteOrder
  /-- `T_SETTLE_RESET`, in microseconds, as are the delays below (R187) -/
  tSettleReset : Nat
  /-- `T_SETTLE_CLOCK` -/
  tSettleClock : Nat
  /-- `T_SYNC` -/
  tSync : Nat
  /-- `T_RUN` -/
  tRun : Nat
  /-- `T_PROG_SETTLE`: block size to delay; a size with no row has the nominal one -/
  tProgSettle : List (Nat × Nat)
  /-- `T_VERIFY_FRAME` -/
  tVerifyFrame : Nat
  /-- `T_READ`, the read window, which the Transport owns (R47) -/
  tRead : Nat
deriving DecidableEq, Repr

/-- One instance of the parameters: the values R9 suggests, and for those it gives no suggestion for the conventions of
spec/95_test_vectors.md. DESIGN CHOICE where neither gives a value (log entry 2). `State.reset` and
`decodeTableWord` need one instance; no statement rests on it but one about a written-out word. -/
def Params.suggested : Params where
  soh := 0x01#8
  stx := 0x02#8
  etx := 0x03#8
  etb := 0x17#8
  echo := true
  syncByte := 0x00#8
  initBaud := 115200
  baudCodes := [(115200, 0x00#8), (250000, 0x01#8), (500000, 0x02#8), (1000000, 0x03#8)]
  parity := none
  protos := [⟨1, .framed, 1024⟩, ⟨4, .g10, 1024⟩]
  otherVariant := .framed
  otherBlockSize := 1024
  dataGranule := 1024
  dataSizeMax := 0x0F000
  blankCheckOpt := some 0x00#8
  cksumOrder := .le
  g10ModeSet := 0xA1#8
  g10EraseWrite := 0xA2#8
  g10CrcCheck := 0xA3#8
  g10Caps := [(0x01#8, 512), (0x03#8, 1024), (0x07#8, 2048), (0x0F#8, 4096), (0x1F#8, 8192), (0x3F#8, 16384), (0x7F#8, 32768), (0xFF#8, 65536)]
  crcInit := 0xFFFF#16
  crcXorout := 0x0000#16
  g10CrcOrder := .be
  tSettleReset := 1000
  tSettleClock := 1000
  tSync := 1000
  tRun := 10000
  tProgSettle := []
  tVerifyFrame := 10000
  tRead := 1000000

end Sys2Proof
end

