-- ==== Sys2Proof/Syntax.lean ====
section
/-! DEFINITION. The instructions: one constructor per row of spec/opcode_table.json. Seventeen are units of the wire
(spec/30_encoding.md R59 to R68), fourteen are requests of the Caller (R78). An operand is what the row's encoding
carries; a request's operands are the arguments of R78. -/

namespace Sys2Proof

/-- The instructions of the Engine. -/
inductive Instr where
  /-- opcode 0x00 (R96) -/
  | reset
  /-- opcode 0x13: the range and, in its data frames, the bytes to compare (R105) -/
  | verify (s e : Addr) (bytes : List Byte)
  /-- opcode 0x22 (R101) -/
  | blockErase (a : Addr)
  /-- opcode 0x32 (R102) -/
  | blankCheck (s e : Addr)
  /-- opcode 0x40: the range and, in its data frames, the bytes to write (R104) -/
  | program (s e : Addr) (bytes : List Byte)
  /-- opcode 0x9A: the baud code and the voltage byte (R97) -/
  | baudSet (code volt : Byte)
  /-- opcode 0xB0 (R103) -/
  | checksum (s e : Addr)
  /-- opcode 0xC0 (R100) -/
  | siliconSignature
  /-- the synchronisation byte (R115) -/
  | sync
  /-- the G10 mode-set byte (R119) -/
  | g10ModeSet
  /-- the G10 erase-write byte and the exchange it opens (R145) -/
  | g10EraseWrite
  /-- the G10 CRC-check byte and the exchange it opens (R153) -/
  | g10CrcCheck
  /-- ACK after the capacity check (R146) -/
  | g10Ack
  /-- NACK after the capacity check (R146) -/
  | g10Nack
  /-- a 4-byte image word (R149) -/
  | g10Word (b0 b1 b2 b3 : Byte)
  /-- a data frame (R62, R86) -/
  | dataFrame (bytes : List Byte) (last : Bool)
  /-- a response frame, its end marker `ETX` when `last` (R63, R89) -/
  | responseFrame (bytes : List Byte) (last : Bool)
  /-- request 0x01 (R112, R119) -/
  | reqInit (proto rate mv : Nat) (delayed : Bool) (verbose : Nat)
  /-- request 0x02 (R96) -/
  | reqResetCmd
  /-- request 0x03 (R97) -/
  | reqSetBaud (rate mv : Nat)
  /-- request 0x04 (R98) -/
  | reqSetLinkBaud (rate : Nat)
  /-- request 0x05 (R100) -/
  | reqSignature
  /-- request 0x06 (R101) -/
  | reqBlockErase (a : Addr)
  /-- request 0x07 (R102) -/
  | reqBlankCheck (s e : Addr)
  /-- request 0x08 (R103) -/
  | reqChecksum (s e : Addr)
  /-- request 0x09 (R104) -/
  | reqBlockProgram (s e : Addr) (buf : Buf) (off : Nat)
  /-- request 0x0A (R105) -/
  | reqBlockVerify (s e : Addr) (buf : Buf) (off : Nat)
  /-- request 0x0B (R125) -/
  | reqRegion (mode : CMode) (buf : Buf) (base : Addr) (size : Nat)
  /-- request 0x0C (R145) -/
  | reqG10EraseWrite (size : Nat)
  /-- request 0x0D (R153) -/
  | reqG10CrcCheck (size : Nat)
  /-- request 0x0E (R123) -/
  | reqResetAndRun (mode : Nat)
deriving DecidableEq, Repr

/-- Why bytes are no instruction. -/
inductive Reject where
  /-- there are no bytes -/
  | empty
  /-- the start marker is not the one of the unit's kind -/
  | badStart
  /-- the bytes end before the unit does -/
  | truncated
  /-- the end marker is neither of the two, or not the one this frame must have -/
  | badEnd
  /-- the checksum does not sum to 0 (R65) -/
  | badChecksum
  /-- an opcode outside the eight (R76) -/
  | unknownOpcode
  /-- a payload that is not the one R71 gives the opcode -/
  | badPayload
  /-- an unframed byte that is none of R67's -/
  | unknownRaw
  /-- a request code outside R78 -/
  | unknownCode
  /-- arguments that are not those R78 gives the request -/
  | badArguments
  /-- bytes are left over after the unit -/
  | trailing
  /-- the operands break a bound of WellFormed.lean -/
  | illFormed
deriving DecidableEq, Repr

end Sys2Proof
end

