-- ==== Sys2Proof/WellFormed.lean ====
section
/-! DEFINITION. What is well formed: an instruction whose operands its encoding can carry, and a set of parameters
that keeps the constraints the spec puts on it. What a request checks when it is presented (R78) is not here: a request
that fails it is well formed and is refused with BadRequest. -/

namespace Sys2Proof

/-- A range and the bytes its data frames carry: `s <= e`, one byte for each address (R104 to R106). -/
def rangeBytesOk (s e : Addr) (bytes : List Byte) : Bool :=
  s.toNat ≤ e.toNat && bytes.length == e.toNat - s.toNat + 1

/-- A payload a data or a response frame can carry: `1 <= n <= 256` (R62, R63). -/
def frameBytesOk (bytes : List Byte) : Bool :=
  1 ≤ bytes.length && bytes.length ≤ Config.dataPayloadMax

/-- An integer argument that its field of the request port can carry (log entry 4). -/
def argOk (n : Nat) : Bool := n < 2 ^ 32

/-- The operands are within the bounds of their encoding. -/
def Instr.wellFormed : Instr → Bool
  | .reset => true
  | .verify s e bytes => rangeBytesOk s e bytes
  | .blockErase _ => true
  | .blankCheck s e => s.toNat ≤ e.toNat
  | .program s e bytes => rangeBytesOk s e bytes
  | .baudSet _ _ => true
  | .checksum s e => s.toNat ≤ e.toNat
  | .siliconSignature => true
  | .sync => true
  | .g10ModeSet => true
  | .g10EraseWrite => true
  | .g10CrcCheck => true
  | .g10Ack => true
  | .g10Nack => true
  | .g10Word _ _ _ _ => true
  | .dataFrame bytes _ => frameBytesOk bytes
  | .responseFrame bytes _ => frameBytesOk bytes
  | .reqInit proto rate mv _ verbose => argOk proto && argOk rate && argOk mv && argOk verbose
  | .reqResetCmd => true
  | .reqSetBaud rate mv => argOk rate && argOk mv
  | .reqSetLinkBaud rate => argOk rate
  | .reqSignature => true
  | .reqBlockErase _ => true
  | .reqBlankCheck _ _ => true
  | .reqChecksum _ _ => true
  | .reqBlockProgram _ _ _ off => argOk off
  | .reqBlockVerify _ _ _ off => argOk off
  | .reqRegion _ _ _ size => argOk size
  | .reqG10EraseWrite size => argOk size
  | .reqG10CrcCheck size => argOk size
  | .reqResetAndRun mode => argOk mode

/-- `n` is a power of two, at least 1 (D18). -/
def isPowerOfTwo (n : Nat) : Bool := n != 0 && 2 ^ n.log2 == n

/-- The constraints of the spec on its parameters: `SOH != STX` and `ETX != ETB` (R60), every block size a power of two
(D18), and the three fixed points of the capacity table (R144). -/
def Params.valid (p : Params) : Bool :=
  p.soh != p.stx && p.etx != p.etb
    && isPowerOfTwo p.otherBlockSize && p.protos.all (fun r => isPowerOfTwo r.blockSize)
    && p.g10Caps.lookup 0x01#8 == some 512 && p.g10Caps.lookup 0x03#8 == some 1024
    && p.g10Caps.lookup 0xFF#8 == some 65536

/-- The unframed bytes can be told apart by their value. The spec does not ask for it (a receiver knows them by their
place in the exchange); reading one back from its byte alone does (log entry 5). -/
def Params.rawDistinct (p : Params) : Bool :=
  decide ([p.syncByte, p.g10ModeSet, p.g10EraseWrite, p.g10CrcCheck, Config.ack, Config.nack].Nodup)

end Sys2Proof
end

