-- ==== Sys2Proof/Decode.lean ====
section
/-! DEFINITION. The frame codec's pure part (spec/40_frame_codec.md R83 to R88), the codes of spec/30_encoding.md, the
decoder, total on any bytes, and after it the encoder, written from the same tables. -/

namespace Sys2Proof

/-! ## Bytes, addresses, sums -/

/-- The sum of the bytes mod 256, the ordinary one with the carry dropped (R12, R65, C1). -/
def byteSum : List Byte → Byte
  | [] => 0#8
  | b :: r => b + byteSum r

/-- `cks` (R83): what makes the covered bytes sum to 0 mod 256. -/
def cks (s : List Byte) : Byte := -byteSum s

/-- The payload length a LEN byte stands for (R64). -/
def declen (len : Byte) : Nat := if len == 0#8 then 256 else len.toNat

/-- `LE3` (R10, R43). -/
def le3 (a : Addr) : List Byte := [a.extractLsb' 0 8, a.extractLsb' 8 8, a.extractLsb' 16 8]

/-- `b0 | b1 << 8 | b2 << 16` (R43, R70). -/
def ofLe3 (b0 b1 b2 : Byte) : Addr :=
  b0.setWidth 24 ||| b1.setWidth 24 <<< 8 ||| b2.setWidth 24 <<< 16

/-- An address range as it stands in a payload (R69). -/
def rangePayload (s e : Addr) : List Byte := le3 s ++ le3 e

/-- The payload of blank-check: the range and the option byte if there is one (R69, R102). -/
def blankPayload (p : Params) (s e : Addr) : List Byte := rangePayload s e ++ p.blankCheckOpt.toList

/-- An integer argument on the request port: four bytes, low byte first (log entry 4). -/
def le4 (n : Nat) : List Byte :=
  [BitVec.ofNat 8 n, BitVec.ofNat 8 (n / 2 ^ 8), BitVec.ofNat 8 (n / 2 ^ 16), BitVec.ofNat 8 (n / 2 ^ 24)]

/-! ## Codes -/

/-- The opcode byte (R68). -/
def Opcode.byte : Opcode → Byte
  | .reset => 0x00#8
  | .verify => 0x13#8
  | .blockErase => 0x22#8
  | .blankCheck => 0x32#8
  | .program => 0x40#8
  | .baudSet => 0x9A#8
  | .checksum => 0xB0#8
  | .siliconSignature => 0xC0#8

/-- The eight opcodes in the order of R68. -/
def Opcode.all : List Opcode :=
  [.reset, .verify, .blockErase, .blankCheck, .program, .baudSet, .checksum, .siliconSignature]

/-- The opcode a byte stands for, if any (R68, R76). -/
def Opcode.ofByte (b : Byte) : Option Opcode := Opcode.all.find? fun o => o.byte == b

/-- The request code (R78). -/
def Req.code : Req → Byte
  | .init => 0x01#8
  | .resetCmd => 0x02#8
  | .setBaud => 0x03#8
  | .setLinkBaud => 0x04#8
  | .signature => 0x05#8
  | .blockErase => 0x06#8
  | .blankCheck => 0x07#8
  | .checksum => 0x08#8
  | .blockProgram => 0x09#8
  | .blockVerify => 0x0A#8
  | .region => 0x0B#8
  | .g10EraseWrite => 0x0C#8
  | .g10CrcCheck => 0x0D#8
  | .resetAndRun => 0x0E#8

/-- The fourteen requests in the order of R78. -/
def Req.all : List Req :=
  [.init, .resetCmd, .setBaud, .setLinkBaud, .signature, .blockErase, .blankCheck, .checksum, .blockProgram,
    .blockVerify, .region, .g10EraseWrite, .g10CrcCheck, .resetAndRun]

/-- The request a code stands for, if any (R78). -/
def Req.ofCode (b : Byte) : Option Req := Req.all.find? fun r => r.code == b

/-- The `ERR` code (R157). -/
def ErrKind.code : ErrKind → Nat
  | .noError => 0
  | .io => 1
  | .timeout => 2
  | .formatError => 3
  | .checksumError => 4
  | .lengthMismatch => 5
  | .deviceRejected => 6
  | .programFailed => 7
  | .mismatchError => 8
  | .checksumMismatch => 9
  | .initializationFailed => 10
  | .synchronizationFailed => 11
  | .payloadTooLarge => 12
  | .sizeMismatch => 13
  | .badRequest => 14

/-- The code of `SEQ` (R16). -/
def SeqState.code : SeqState → Nat
  | .idle => 0
  | .held => 1
  | .syncing => 2
  | .synced => 3
  | .ready => 4

/-- The code of `VARIANT` (R18). -/
def Variant.code : Variant → Nat
  | .framed => 0
  | .g10 => 1

/-- The code of `CMODE` (R32). -/
def CMode.code : CMode → Nat
  | .erase => 0
  | .program => 1
  | .verify => 2

/-- `BLOCK_SIZE` (R9, R19). -/
def Params.blockSize (p : Params) (proto : Nat) : Nat :=
  match p.protos.find? (fun r => r.proto == proto) with
  | some r => r.blockSize
  | none => p.otherBlockSize

/-- `VARIANT_OF` (R9, R18). -/
def Params.variantOf (p : Params) (proto : Nat) : Variant :=
  match p.protos.find? (fun r => r.proto == proto) with
  | some r => r.variant
  | none => p.otherVariant

/-- `BAUD_CODE` (R9, R69). -/
def Params.baudCode (p : Params) (rate : Nat) : Option Byte := p.baudCodes.lookup rate

/-- `G10_CAP` (R9, R144). -/
def Params.g10Cap (p : Params) (code : Byte) : Option Nat := p.g10Caps.lookup code

/-- The nominal `T_PROG_SETTLE(bs)`, `ceil(1.5 * bs / 1024)` ms, in microseconds (R187). -/
def progSettleNominal (bs : Nat) : Nat := (3 * bs + 2047) / 2048 * 1000

/-- The lower bound in microseconds a `Wait` stands for (R187). No rule's outcome depends on it. -/
def Params.duration (p : Params) : Delay → Nat
  | .settleReset => p.tSettleReset
  | .settleClock => p.tSettleClock
  | .sync => p.tSync
  | .run => p.tRun
  | .progSettle bs => (p.tProgSettle.lookup bs).getD (progSettleNominal bs)
  | .verifyFrame => p.tVerifyFrame

/-! ## Frames -/

/-- The bytes of the command frame of R61. -/
def commandBytes (p : Params) (opc : Byte) (pl : List Byte) : List Byte :=
  let len := BitVec.ofNat 8 (pl.length + 1)
  [p.soh, len, opc] ++ pl ++ [cks (len :: opc :: pl), p.etx]

/-- `encode_command` (R85). -/
def encodeCommand (p : Params) (opc : Byte) (pl : List Byte) : Except ErrKind (List Byte) :=
  if pl.length > Config.cmdPayloadMax then .error .payloadTooLarge else .ok (commandBytes p opc pl)

/-- The end marker of a data frame (R62). -/
def endMarker (p : Params) (last : Bool) : Byte := if last then p.etx else p.etb

/-- The bytes of the data frame of R62. A response frame has the same layout (R63). -/
def dataBytes (p : Params) (pl : List Byte) (last : Bool) : List Byte :=
  let len := BitVec.ofNat 8 pl.length
  [p.stx, len] ++ pl ++ [cks (len :: pl), endMarker p last]

/-- `encode_data` (R86, R87). -/
def encodeData (p : Params) (pl : List Byte) (last : Bool) : Except ErrKind (List Byte) :=
  if pl.length > Config.dataPayloadMax then .error .payloadTooLarge
  else if pl.length = 0 then .error .badRequest
  else .ok (dataBytes p pl last)

/-- How many data frames carry `bs` bytes: `ceil(bs/256)` (R106, R109). -/
def frameCount (bs : Nat) : Nat := (bs + 255) / 256

/-- The first `k` payloads of at most 256 bytes, in ascending order (R106). -/
def chunks : Nat → List Byte → List (List Byte)
  | 0, _ => []
  | k + 1, bytes => bytes.take 256 :: chunks k (bytes.drop 256)

/-- The payloads of the data frames that carry `bytes` (R106). -/
def framesOf (bytes : List Byte) : List (List Byte) := chunks (frameCount bytes.length) bytes

/-- The data frames of a transfer, `ETB` before the last and `ETX` on it (R106). -/
def dataPhase (p : Params) : List (List Byte) → List Byte
  | [] => []
  | [c] => dataBytes p c true
  | c :: r => dataBytes p c false ++ dataPhase p r

/-! ## The decoder -/

/-- Read one frame that starts with `start`: its covered bytes after LEN, its end marker, and the bytes after it
(R64, R65, R66). -/
def takeFrame (start : Byte) : List Byte → Except Reject (List Byte × Byte × List Byte)
  | [] => .error .empty
  | [b] => .error (if b == start then .truncated else .badStart)
  | b :: len :: tail =>
    if b != start then .error .badStart
    else
      match tail.drop (declen len) with
      | sum :: term :: rest =>
        if len + byteSum (tail.take (declen len)) + sum == 0#8 then .ok (tail.take (declen len), term, rest)
        else .error .badChecksum
      | _ => .error .truncated

/-- Read the data frames that carry `n` more bytes, at most `fuel` of them, to the end of the bytes (R106). -/
def takeData (p : Params) : Nat → Nat → List Byte → Except Reject (List Byte)
  | 0, _, _ => .error .truncated
  | fuel + 1, n, bs =>
    match takeFrame p.stx bs with
    | .error r => .error r
    | .ok (body, term, rest) =>
      if body.length != min 256 n then .error .badPayload
      else if n ≤ 256 then
        if term != p.etx then .error .badEnd else if rest.isEmpty then .ok body else .error .trailing
      else if term != p.etb then .error .badEnd
      else
        match takeData p fuel (n - 256) rest with
        | .error r => .error r
        | .ok more => .ok (body ++ more)

/-- Accept an instruction only when nothing is left over. -/
def closed (rest : List Byte) (i : Instr) : Except Reject Instr :=
  if rest.isEmpty then .ok i else .error .trailing

/-- The instruction of a command frame with opcode `o` and payload `pl`, `rest` following the frame (R71). -/
def ofCommand (p : Params) (o : Opcode) (pl rest : List Byte) : Except Reject Instr :=
  match o, pl with
  | .reset, [] => closed rest .reset
  | .siliconSignature, [] => closed rest .siliconSignature
  | .blockErase, [a0, a1, a2] => closed rest (.blockErase (ofLe3 a0 a1 a2))
  | .baudSet, [code, volt] => closed rest (.baudSet code volt)
  | .checksum, [s0, s1, s2, e0, e1, e2] => closed rest (.checksum (ofLe3 s0 s1 s2) (ofLe3 e0 e1 e2))
  | .blankCheck, s0 :: s1 :: s2 :: e0 :: e1 :: e2 :: opt =>
    if opt == p.blankCheckOpt.toList then closed rest (.blankCheck (ofLe3 s0 s1 s2) (ofLe3 e0 e1 e2))
    else .error .badPayload
  | .program, [s0, s1, s2, e0, e1, e2] =>
    let s := ofLe3 s0 s1 s2
    let e := ofLe3 e0 e1 e2
    let n := e.toNat - s.toNat + 1
    (takeData p (frameCount n) n rest).map fun bytes => .program s e bytes
  | .verify, [s0, s1, s2, e0, e1, e2] =>
    let s := ofLe3 s0 s1 s2
    let e := ofLe3 e0 e1 e2
    let n := e.toNat - s.toNat + 1
    (takeData p (frameCount n) n rest).map fun bytes => .verify s e bytes
  | _, _ => .error .badPayload

/-- Decode a command frame and what follows it (R61, R71). -/
def decodeCommand (p : Params) (bs : List Byte) : Except Reject Instr :=
  match takeFrame p.soh bs with
  | .error r => .error r
  | .ok (body, term, rest) =>
    if term != p.etx then .error .badEnd
    else
      match body with
      | [] => .error .truncated
      | opc :: pl =>
        match Opcode.ofByte opc with
        | none => .error .unknownOpcode
        | some o => ofCommand p o pl rest

/-- Decode a data or a response frame: its payload, and whether its end marker is `ETX` (R62, R63, R77). -/
def decodeDataFrame (p : Params) (bs : List Byte) : Except Reject (List Byte × Bool) :=
  match takeFrame p.stx bs with
  | .error r => .error r
  | .ok (body, term, rest) =>
    if !rest.isEmpty then .error .trailing
    else if term == p.etx then .ok (body, true)
    else if term == p.etb then .ok (body, false)
    else .error .badEnd

/-- Decode an unframed byte (R67). Where the parameters give two of them one value, the first in R67's order is read
(log entry 5). -/
def decodeRaw (p : Params) : List Byte → Except Reject Instr
  | [] => .error .empty
  | [b] =>
    if b == p.syncByte then .ok .sync
    else if b == p.g10ModeSet then .ok .g10ModeSet
    else if b == p.g10EraseWrite then .ok .g10EraseWrite
    else if b == p.g10CrcCheck then .ok .g10CrcCheck
    else if b == Config.ack then .ok .g10Ack
    else if b == Config.nack then .ok .g10Nack
    else .error .unknownRaw
  | [b0, b1, b2, b3] => .ok (.g10Word b0 b1 b2 b3)
  | _ => .error .unknownRaw

/-- Read an integer argument. -/
def takeNat : List Byte → Option (Nat × List Byte)
  | b0 :: b1 :: b2 :: b3 :: r => some (b0.toNat + b1.toNat * 2 ^ 8 + b2.toNat * 2 ^ 16 + b3.toNat * 2 ^ 24, r)
  | _ => none

/-- Read an address argument. -/
def takeAddr : List Byte → Option (Addr × List Byte)
  | b0 :: b1 :: b2 :: r => some (ofLe3 b0 b1 b2, r)
  | _ => none

/-- Read a Boolean argument. DESIGN CHOICE: 0 is false and 1 is true (log entry 4). -/
def takeBool : List Byte → Option (Bool × List Byte)
  | b :: r => if b == 0#8 then some (false, r) else if b == 1#8 then some (true, r) else none
  | _ => none

/-- Read a buffer argument. DESIGN CHOICE: 0 stands for CODE and 1 for DATA, and no other byte for a buffer; R32, R36 and
R78 give no codes (log entry 4). -/
def takeBuf : List Byte → Option (Buf × List Byte)
  | b :: r => if b == 0#8 then some (.code, r) else if b == 1#8 then some (.data, r) else none
  | _ => none

/-- Read a mode argument, by the codes of R32. -/
def takeMode : List Byte → Option (CMode × List Byte)
  | b :: r =>
    if b == 0#8 then some (.erase, r) else if b == 1#8 then some (.program, r)
    else if b == 2#8 then some (.verify, r) else none
  | _ => none

/-- The request with its arguments, in the order R78 lists them, and the bytes after them. DESIGN CHOICE: the opaque
`mode` of RESET_AND_RUN and the opaque selector of INIT are integer arguments (log entries 4 and 24). -/
def takeRequest (r : Req) (args : List Byte) : Option (Instr × List Byte) :=
  match r with
  | .init => do
    let (proto, args) ← takeNat args
    let (rate, args) ← takeNat args
    let (mv, args) ← takeNat args
    let (delayed, args) ← takeBool args
    let (verbose, args) ← takeNat args
    some (.reqInit proto rate mv delayed verbose, args)
  | .resetCmd => some (.reqResetCmd, args)
  | .setBaud => do
    let (rate, args) ← takeNat args
    let (mv, args) ← takeNat args
    some (.reqSetBaud rate mv, args)
  | .setLinkBaud => do
    let (rate, args) ← takeNat args
    some (.reqSetLinkBaud rate, args)
  | .signature => some (.reqSignature, args)
  | .blockErase => do
    let (a, args) ← takeAddr args
    some (.reqBlockErase a, args)
  | .blankCheck => do
    let (s, args) ← takeAddr args
    let (e, args) ← takeAddr args
    some (.reqBlankCheck s e, args)
  | .checksum => do
    let (s, args) ← takeAddr args
    let (e, args) ← takeAddr args
    some (.reqChecksum s e, args)
  | .blockProgram => do
    let (s, args) ← takeAddr args
    let (e, args) ← takeAddr args
    let (buf, args) ← takeBuf args
    let (off, args) ← takeNat args
    some (.reqBlockProgram s e buf off, args)
  | .blockVerify => do
    let (s, args) ← takeAddr args
    let (e, args) ← takeAddr args
    let (buf, args) ← takeBuf args
    let (off, args) ← takeNat args
    some (.reqBlockVerify s e buf off, args)
  | .region => do
    let (mode, args) ← takeMode args
    let (buf, args) ← takeBuf args
    let (base, args) ← takeAddr args
    let (size, args) ← takeNat args
    some (.reqRegion mode buf base size, args)
  | .g10EraseWrite => do
    let (size, args) ← takeNat args
    some (.reqG10EraseWrite size, args)
  | .g10CrcCheck => do
    let (size, args) ← takeNat args
    some (.reqG10CrcCheck size, args)
  | .resetAndRun => do
    let (mode, args) ← takeNat args
    some (.reqResetAndRun mode, args)

/-- Decode a request: its code (R78), then its arguments (log entry 4). -/
def decodeRequest : List Byte → Except Reject Instr
  | [] => .error .empty
  | code :: args =>
    match Req.ofCode code with
    | none => .error .unknownCode
    | some r =>
      match takeRequest r args with
      | none => .error .badArguments
      | some (i, rest) => closed rest i

/-- Accept a well-formed instruction only. -/
def guardWellFormed (i : Instr) : Except Reject Instr := if i.wellFormed then .ok i else .error .illFormed

/-- What the bytes of one unit spell, before its operands are checked. -/
def parse (p : Params) : Port → List Byte → Except Reject Instr
  | .request, bs => decodeRequest bs
  | .command, bs => decodeCommand p bs
  | .data, bs => (decodeDataFrame p bs).map fun d => .dataFrame d.1 d.2
  | .raw, bs => decodeRaw p bs
  | .response, bs => (decodeDataFrame p bs).map fun d => .responseFrame d.1 d.2

/-- THE DECODER: the one instruction the bytes of a unit spell on the port they stand on, or the reason they spell
none. -/
def decode (p : Params) (port : Port) (bs : List Byte) : Except Reject Instr :=
  match parse p port bs with
  | .error r => .error r
  | .ok i => guardWellFormed i

/-! ## The encoder -/

/-- A Boolean argument, by the model's codes (log entry 4). -/
def boolByte (b : Bool) : Byte := if b then 1#8 else 0#8

/-- A buffer argument, by the model's codes (log entry 4). -/
def bufByte : Buf → Byte
  | .code => 0#8
  | .data => 1#8

/-- A mode argument, by the codes of R32. -/
def modeByte (m : CMode) : Byte := BitVec.ofNat 8 m.code

/-- The port an instruction's encoding stands on. -/
def Instr.port : Instr → Port
  | .reset => .command
  | .verify _ _ _ => .command
  | .blockErase _ => .command
  | .blankCheck _ _ => .command
  | .program _ _ _ => .command
  | .baudSet _ _ => .command
  | .checksum _ _ => .command
  | .siliconSignature => .command
  | .sync => .raw
  | .g10ModeSet => .raw
  | .g10EraseWrite => .raw
  | .g10CrcCheck => .raw
  | .g10Ack => .raw
  | .g10Nack => .raw
  | .g10Word _ _ _ _ => .raw
  | .dataFrame _ _ => .data
  | .responseFrame _ _ => .response
  | .reqInit _ _ _ _ _ => .request
  | .reqResetCmd => .request
  | .reqSetBaud _ _ => .request
  | .reqSetLinkBaud _ => .request
  | .reqSignature => .request
  | .reqBlockErase _ => .request
  | .reqBlankCheck _ _ => .request
  | .reqChecksum _ _ => .request
  | .reqBlockProgram _ _ _ _ => .request
  | .reqBlockVerify _ _ _ _ => .request
  | .reqRegion _ _ _ _ => .request
  | .reqG10EraseWrite _ => .request
  | .reqG10CrcCheck _ => .request
  | .reqResetAndRun _ => .request

/-- The request an instruction is, if it is one (R78). -/
def Instr.request : Instr → Option Req
  | .reset => none
  | .verify _ _ _ => none
  | .blockErase _ => none
  | .blankCheck _ _ => none
  | .program _ _ _ => none
  | .baudSet _ _ => none
  | .checksum _ _ => none
  | .siliconSignature => none
  | .sync => none
  | .g10ModeSet => none
  | .g10EraseWrite => none
  | .g10CrcCheck => none
  | .g10Ack => none
  | .g10Nack => none
  | .g10Word _ _ _ _ => none
  | .dataFrame _ _ => none
  | .responseFrame _ _ => none
  | .reqInit _ _ _ _ _ => some .init
  | .reqResetCmd => some .resetCmd
  | .reqSetBaud _ _ => some .setBaud
  | .reqSetLinkBaud _ => some .setLinkBaud
  | .reqSignature => some .signature
  | .reqBlockErase _ => some .blockErase
  | .reqBlankCheck _ _ => some .blankCheck
  | .reqChecksum _ _ => some .checksum
  | .reqBlockProgram _ _ _ _ => some .blockProgram
  | .reqBlockVerify _ _ _ _ => some .blockVerify
  | .reqRegion _ _ _ _ => some .region
  | .reqG10EraseWrite _ => some .g10EraseWrite
  | .reqG10CrcCheck _ => some .g10CrcCheck
  | .reqResetAndRun _ => some .resetAndRun

/-- THE ENCODER: the bytes of a well-formed instruction. -/
def encode (p : Params) : Instr → List Byte
  | .reset => commandBytes p Opcode.reset.byte []
  | .verify s e bytes => commandBytes p Opcode.verify.byte (rangePayload s e) ++ dataPhase p (framesOf bytes)
  | .blockErase a => commandBytes p Opcode.blockErase.byte (le3 a)
  | .blankCheck s e => commandBytes p Opcode.blankCheck.byte (blankPayload p s e)
  | .program s e bytes => commandBytes p Opcode.program.byte (rangePayload s e) ++ dataPhase p (framesOf bytes)
  | .baudSet code volt => commandBytes p Opcode.baudSet.byte [code, volt]
  | .checksum s e => commandBytes p Opcode.checksum.byte (rangePayload s e)
  | .siliconSignature => commandBytes p Opcode.siliconSignature.byte []
  | .sync => [p.syncByte]
  | .g10ModeSet => [p.g10ModeSet]
  | .g10EraseWrite => [p.g10EraseWrite]
  | .g10CrcCheck => [p.g10CrcCheck]
  | .g10Ack => [Config.ack]
  | .g10Nack => [Config.nack]
  | .g10Word b0 b1 b2 b3 => [b0, b1, b2, b3]
  | .dataFrame bytes last => dataBytes p bytes last
  | .responseFrame bytes last => dataBytes p bytes last
  | .reqInit proto rate mv delayed verbose =>
    Req.init.code :: (le4 proto ++ le4 rate ++ le4 mv ++ [boolByte delayed] ++ le4 verbose)
  | .reqResetCmd => [Req.resetCmd.code]
  | .reqSetBaud rate mv => Req.setBaud.code :: (le4 rate ++ le4 mv)
  | .reqSetLinkBaud rate => Req.setLinkBaud.code :: le4 rate
  | .reqSignature => [Req.signature.code]
  | .reqBlockErase a => Req.blockErase.code :: le3 a
  | .reqBlankCheck s e => Req.blankCheck.code :: (le3 s ++ le3 e)
  | .reqChecksum s e => Req.checksum.code :: (le3 s ++ le3 e)
  | .reqBlockProgram s e buf off => Req.blockProgram.code :: (le3 s ++ le3 e ++ [bufByte buf] ++ le4 off)
  | .reqBlockVerify s e buf off => Req.blockVerify.code :: (le3 s ++ le3 e ++ [bufByte buf] ++ le4 off)
  | .reqRegion mode buf base size => Req.region.code :: ([modeByte mode, bufByte buf] ++ le3 base ++ le4 size)
  | .reqG10EraseWrite size => Req.g10EraseWrite.code :: le4 size
  | .reqG10CrcCheck size => Req.g10CrcCheck.code :: le4 size
  | .reqResetAndRun mode => Req.resetAndRun.code :: le4 mode

/-! ## The opcode table's words -/

/-- How many bytes of arguments a request has on the request port. -/
def Req.argBytes : Req → Nat
  | .init => 17
  | .resetCmd => 0
  | .setBaud => 8
  | .setLinkBaud => 4
  | .signature => 0
  | .blockErase => 3
  | .blankCheck => 6
  | .checksum => 6
  | .blockProgram => 11
  | .blockVerify => 11
  | .region => 9
  | .g10EraseWrite => 4
  | .g10CrcCheck => 4
  | .resetAndRun => 4

/-- The command frame of an opcode whose operand bytes are all zero, with the one data frame such a range has where the
command streams. The table numbers the OPC byte's bits only; LEN, SUM and the markers are not operands and follow from
R61 and R62. -/
def zeroCommand (p : Params) (o : Opcode) : List Byte :=
  match o with
  | .reset => commandBytes p o.byte []
  | .siliconSignature => commandBytes p o.byte []
  | .blockErase => commandBytes p o.byte (le3 0#24)
  | .baudSet => commandBytes p o.byte [0#8, 0#8]
  | .checksum => commandBytes p o.byte (rangePayload 0#24 0#24)
  | .blankCheck => commandBytes p o.byte (blankPayload p 0#24 0#24)
  | .program => commandBytes p o.byte (rangePayload 0#24 0#24) ++ dataBytes p [0#8] true
  | .verify => commandBytes p o.byte (rangePayload 0#24 0#24) ++ dataBytes p [0#8] true

/-- The `k` bytes of a table word, the first the least significant. -/
def wordBytes : Nat → Nat → List Byte
  | 0, _ => []
  | k + 1, w => BitVec.ofNat 8 w :: wordBytes k (w / 256)

/-- Where a word of spec/opcode_table.json stands and the bytes that carry it. An 8-bit word is an opcode byte, else a
request code, else an unframed byte; 0x06 is both a request code and ACK and is read as the request (log entry 6). -/
def tableUnit (p : Params) (nbits w : Nat) : Port × List Byte :=
  let bytes := wordBytes ((nbits + 7) / 8) w
  match bytes with
  | [b] =>
    match Opcode.ofByte b with
    | some o => (.command, zeroCommand p o)
    | none =>
      match Req.ofCode b with
      | some r => (.request, b :: List.replicate r.argBytes 0#8)
      | none => (.raw, [b])
  | [_, _, _, _] => (.raw, bytes)
  | b :: _ => if b == p.soh then (.command, bytes) else (.data, bytes)
  | [] => (.raw, [])

/-- The instruction the decoder reads from a word of spec/opcode_table.json. -/
def decodeTableWord (nbits w : Nat) : Option Instr :=
  let u := tableUnit Params.suggested nbits w
  match decode Params.suggested u.1 u.2 with
  | .ok i => some i
  | .error _ => none

end Sys2Proof
end

