-- ==== Sys2Proof/Machine/State.lean ====
section
/-! DEFINITION. The state of the Engine (spec/10_state.md), of the Transport it drives (spec/20_memory.md R47) and of
the Caller's image buffers (R36), as plain data, with the reasons a step can stop and the state after reset. A register
the spec resets to `none` (R41) is an Option: `none` is a value the spec itself gives it, and reading it is the fault
R41 and I21 name. -/

namespace Sys2Proof.Machine

/-- The Engine's registers, by name (spec/10_state.md). -/
inductive Reg where
  | SEQ | OP | PROTO | VARIANT | BLOCK_SZ | LINK_BAUD | LINE_RESET | LINE_CLOCK
  | DEV_CODE | DEV_NAME | FW_VER | ID_VALID | CODE_END | DATA_END | CODE_SIZE | DATA_SIZE | FREQ | VMODE
  | NOT_BLANK | CKSUM16 | LAST_STATUS
  | ERR | ERR_STATUS | ERR_ADDR | ERR_CAUSE | ERR_OP
  | CMODE | RBUF | RBASE | RSIZE | NBLK | BIDX | FIDX
  | G10_RESP0 | G10_RESP1 | G10_CAP_CODE | POLL_CNT | WIDX | CRC_LOCAL | CRC_DEV | CRC_OK
  | TARGET_BAUD | VOLTAGE_MV | DELAYED_START | PROTO_IN | VERBOSE
deriving DecidableEq, Repr

/-- What the result view shows of a register: a number (a code where the register holds one), a Boolean, raw bytes or
a buffer's name. -/
inductive RegVal where
  | num (n : Nat)
  | flag (b : Bool)
  | bytes (s : List Byte)
  | buf (b : Buf)
deriving DecidableEq, Repr

/-- The reasons the machine stops with a fault. Every one is safe: the model stops where the spec gives no value. -/
inductive Fault where
  /-- A register that holds `none` is read (R41, I21): by the result view, or by a rule that needs its value. Raised
  by `needReg` and `viewReg`. Safe. -/
  | readNone (r : Reg)
  /-- An image buffer offset that does not exist is read or written (R45: `off + n <= len(buf)`). Raised by `memRead`
  and `Input.store`. Safe. -/
  | beyondBuffer (b : Buf)
deriving DecidableEq, Repr

/-- The reasons the machine refuses to go on. Every one is safe. -/
inductive Refusal where
  /-- exec has no meaning for the instruction yet. Raised by exec. Safe. -/
  | notModelled (mnemonic : String)
  /-- The Caller breaks a duty while a request is in progress: it writes a buffer (R37, R185) or moves the Transport
  otherwise than by closing it (R58). The spec gives the model no such move (D42). Raised by `callerMove`. Safe. -/
  | callerBusy
  /-- The Caller reads a register while a request is in progress: the view is exposed only when `OP = NONE` (R42, I2).
  Raised by `viewReg`. Safe. -/
  | viewBusy
deriving DecidableEq, Repr

/-- An image buffer: `size` bytes at offsets 0 .. size-1, `cells` listing in rising order those that do not hold the
erased-byte value, which an unlisted offset reads as (R36). -/
structure Memory where
  size  : Nat := 0
  cells : List Host.Cell := []
deriving DecidableEq, Repr

/-- Sequencer, operation and session registers (R16 to R21). -/
structure SeqRegs where
  seq       : SeqState := .idle
  op        : Option Req := none
  proto     : Option Nat := none
  variant   : Option Variant := none
  blockSz   : Option Nat := none
  linkBaud  : Option Nat := none
  lineReset : Option Bool := none
  lineClock : Option Bool := none
deriving DecidableEq, Repr

/-- Device identity registers (R22 to R25). -/
structure IdRegs where
  devCode  : Option (List Byte) := none
  devName  : Option (List Byte) := none
  fwVer    : Option (List Byte) := none
  idValid  : Bool := false
  codeEnd  : Option Addr := none
  dataEnd  : Option Addr := none
  codeSize : Option Nat := none
  dataSize : Option Nat := none
deriving DecidableEq, Repr

/-- The two bytes of the last ACKed set_baud response (R26). -/
structure BaudRegs where
  freq  : Option Byte := none
  vmode : Option Byte := none
deriving DecidableEq, Repr

/-- Result and status registers (R28 to R30). -/
structure ResultRegs where
  notBlank   : Option Bool := none
  cksum16    : Option Half := none
  lastStatus : Option Byte := none
deriving DecidableEq, Repr

/-- The error registers (R31, R157). `op` is `ERR_OP`, a request code. -/
structure ErrRegs where
  kind   : ErrKind := .noError
  status : Option Byte := none
  addr   : Option Addr := none
  cause  : Option ErrKind := none
  op     : Option Byte := none
deriving DecidableEq, Repr

/-- Block controller registers (R32). -/
structure BlockRegs where
  cmode : Option CMode := none
  rbuf  : Option Buf := none
  rbase : Option Addr := none
  rsize : Option Nat := none
  nblk  : Option Nat := none
  bidx  : Option Nat := none
  fidx  : Option Nat := none
deriving DecidableEq, Repr

/-- G10 registers (R33). -/
structure G10Regs where
  resp0    : Option Byte := none
  resp1    : Option Byte := none
  capCode  : Option Byte := none
  pollCnt  : Option Nat := none
  widx     : Option Nat := none
  crcLocal : Option Half := none
  crcDev   : Option Half := none
  crcOk    : Option Bool := none
deriving DecidableEq, Repr

/-- The latched configuration inputs (R34). -/
structure ArgRegs where
  targetBaud   : Option Nat := none
  voltageMv    : Option Nat := none
  delayedStart : Option Bool := none
  protoIn      : Option Nat := none
  verbose      : Option Nat := none
deriving DecidableEq, Repr

/-- The Transport (R47): whether it is open, its receive queue, oldest byte first (R38), and what it was last told to
drive and use. An Engine reset does not touch it (R176). -/
structure Transport where
  isOpen : Bool := true
  rxq    : List Byte := []
  rate   : Option Nat := none
  parity : Option (Option Parity) := none
  reset  : Option Bool := none
  clock  : Option Bool := none
  wiring : Option Nat := none
deriving DecidableEq, Repr

/-- What the outside world does at one call of the Transport: the free value of R6 and I1, as plain data. -/
structure Tick where
  /-- the bytes the line delivers into the receive queue by the end of the call -/
  deliver : List Byte := []
  /-- the Transport reports a failure (for a write, a short write) -/
  fail    : Bool := false
  /-- how many bytes a failing write had put on the wire -/
  wrote   : Nat := 0
deriving DecidableEq, Repr

/-- What reaches the Engine between two primitives of R11, before one of them begins (R7, R165): a primitive itself is
preempted by nothing. -/
structure Moment where
  /-- the Engine is reset (R176) -/
  reset : Bool := false
  /-- the codes of the requests presented while the Engine is busy (R79) -/
  busy  : List Byte := []
  /-- the Caller closes the Transport (R169) -/
  close : Bool := false
deriving DecidableEq, Repr

/-- One line of a wire transcript (R80), written when its primitive completes. -/
inductive Event where
  /-- bytes sent, a frame written out in full -/
  | tx (s : List Byte)
  /-- `ECHO n` -/
  | echo (n : Nat)
  /-- `RX RESP`: the payload of a response decoded without error -/
  | rxResp (pl : List Byte)
  /-- `RX RAW` -/
  | rxRaw (s : List Byte)
  /-- `RX none`: a read attempt of the G10 poll without data -/
  | rxNone
  /-- `LINE` -/
  | line (sig : Signal) (level : Bool)
  /-- `BAUD` -/
  | baud (rate : Nat)
  /-- `PARITY` -/
  | parity (p : Option Parity)
  /-- `FLUSH` -/
  | flush
  /-- `WAIT` -/
  | wait (d : Delay)
deriving DecidableEq, Repr

/-- A diagnostic event (R136, R174). -/
inductive Diag where
  /-- erase mode left a blank block untouched (R130) -/
  | blankLeft (s : Addr)
  /-- program mode skipped an erased block (R131) -/
  | ffSkip (s : Addr)
  /-- an error, with its operation and address (R174) -/
  | error (kind : ErrKind) (op : Option Byte) (addr : Option Addr)
deriving DecidableEq, Repr

/-- A diagnostic event as the Engine emits it, with the value `VERBOSE` holds then: whether it is recorded depends on
that value (R136, R174). -/
structure Emitted where
  level : Option Nat
  event : Diag
deriving DecidableEq, Repr

/-- What the outside world does between two instructions. -/
inductive Input where
  /-- the Caller presents a request, or a unit of the wire is to be run (log entry 1) -/
  | present (port : Port) (bytes : List Byte)
  /-- the Caller opens the Transport (R47) -/
  | openTransport
  /-- the Caller closes the Transport (R169) -/
  | closeTransport
  /-- the level of `READY_IN` (R117) -/
  | ready (level : Bool)
  /-- the Caller gives a buffer of this size, filled with the erased-byte value (R36) -/
  | allocate (b : Buf) (size : Nat)
  /-- the Caller writes bytes into a buffer (R36, R55) -/
  | store (b : Buf) (off : Nat) (bytes : List Byte)
  /-- the line delivers bytes (R38) -/
  | deliver (bytes : List Byte)
  /-- the reset input (R176) -/
  | engineReset
  /-- the Caller reads a register through the result view (R42) -/
  | read (r : Reg)
deriving DecidableEq, Repr

/-- The whole state. `script`, `moments`, `inputs`, `hist`, `diags` and `view` are the model's own: the future of the
outside world at the Transport calls, between two primitives and between two instructions, the transcript, the events
R174 emits and the last value the result view showed. -/
structure State where
  params  : Params
  seqr    : SeqRegs := {}
  ident   : IdRegs := {}
  baud    : BaudRegs := {}
  result  : ResultRegs := {}
  err     : ErrRegs := {}
  blk     : BlockRegs := {}
  g10     : G10Regs := {}
  args    : ArgRegs := {}
  code    : Memory := {}
  data    : Memory := {}
  line    : Transport := {}
  readyIn : Bool := false
  script  : List Tick := []
  moments : List Moment := []
  inputs  : List Input := []
  hist    : List Event := []
  diags   : List Emitted := []
  view    : Option (Reg × RegVal) := none
deriving DecidableEq, Repr

/-- The Engine right after reset (R41, R176), for any parameters: every register as R41's table has it. -/
def State.resetWith (p : Params) : State := { params := p }

/-- The machine right after reset, for the one instance of the parameters it takes (log entry 2). -/
def State.reset : State := State.resetWith Params.suggested

end Sys2Proof.Machine
end

