-- ==== Sys2Proof/Machine/Memory.lean ====
section
/-! DEFINITION. The image buffers (spec/10_state.md R36, spec/20_memory.md R45): one canonical form, the read of one
byte, `MemRead`, and the Caller's writes. -/

namespace Sys2Proof.Machine

/-- The offsets listed rise from `lo` on, and none lists the value an unlisted one reads as. -/
def Memory.rising : Nat → List Host.Cell → Bool
  | _, [] => true
  | lo, (k, v) :: r => lo ≤ k && v != Config.erased && Memory.rising (k + 1) r

/-- The canonical form: rising offsets inside the buffer, none listed with the erased-byte value. -/
def Memory.wf (m : Memory) : Bool := Memory.rising 0 m.cells && m.cells.all fun c => c.1 < m.size

/-- The byte listed at an offset, else the erased-byte value (R36). -/
def Memory.lookup : List Host.Cell → Nat → Byte
  | [], _ => Config.erased
  | (k, v) :: r, a => if k = a then v else Memory.lookup r a

/-- The read of one byte. -/
def Memory.get (m : Memory) (a : Nat) : Byte := Memory.lookup m.cells a

/-- Put a byte at an offset of a canonical list. -/
def Memory.put : List Host.Cell → Nat → Byte → List Host.Cell
  | [], a, v => if v = Config.erased then [] else [(a, v)]
  | (k, w) :: r, a, v =>
    if a < k then (if v = Config.erased then (k, w) :: r else (a, v) :: (k, w) :: r)
    else if a = k then (if v = Config.erased then r else (a, v) :: r)
    else (k, w) :: Memory.put r a v

/-- Put bytes at rising offsets from `a` on. -/
def Memory.putAll : List Host.Cell → Nat → List Byte → List Host.Cell
  | cells, _, [] => cells
  | cells, a, v :: r => Memory.putAll (Memory.put cells a v) (a + 1) r

/-- The Caller's write of `bytes` at `off`, where the buffer has those offsets. -/
def Memory.write (m : Memory) (off : Nat) (bytes : List Byte) : Option Memory :=
  if off + bytes.length ≤ m.size then some { m with cells := Memory.putAll m.cells off bytes } else none

/-- A buffer as the Caller gives it, pre-filled with the erased-byte value (R36, R180). -/
def Memory.filled (size : Nat) : Memory := { size := size }

/-- The `n` bytes from offset `a` on of a canonical list whose offsets are all at least `a`, in one pass. -/
def Memory.sliceFrom : Nat → List Host.Cell → Nat → List Byte
  | 0, _, _ => []
  | n + 1, [], a => Config.erased :: Memory.sliceFrom n [] (a + 1)
  | n + 1, (k, v) :: r, a =>
    if k = a then v :: Memory.sliceFrom n r (a + 1) else Config.erased :: Memory.sliceFrom n ((k, v) :: r) (a + 1)

/-- Bytes `off` to `off+n-1` of a canonical buffer (R45). -/
def Memory.slice (m : Memory) (off n : Nat) : List Byte :=
  Memory.sliceFrom n (m.cells.dropWhile fun c => c.1 < off) off

/-- The buffer a name stands for (R36). -/
def State.buffer (s : State) : Buf → Memory
  | .code => s.code
  | .data => s.data

/-- The state with another buffer under a name. -/
def State.withBuffer (s : State) (b : Buf) (m : Memory) : State :=
  match b with
  | .code => { s with code := m }
  | .data => { s with data := m }

end Sys2Proof.Machine
end

