-- ==== Sys2Proof/Machine/Ops.lean ====
section
/-! DEFINITION. The primitives of spec/00_scope.md R11 over the state, what ends a rule early, and the shared operation
of raising an error (spec/60_exceptions.md R158), with the acceptance of the next request beside it (R79, R167). -/

namespace Sys2Proof.Machine

/-- An error as a rule raises it: its kind and the information R157 records with it. -/
structure Err where
  kind   : ErrKind
  status : Option Byte := none
  addr   : Option Addr := none
  cause  : Option ErrKind := none
deriving DecidableEq, Repr

/-- What ends a rule before its last line. -/
inductive Stop where
  /-- an error is raised (R158) -/
  | raised (e : Err)
  /-- step 1 of the handshake holds for `READY_IN` (R117) -/
  | held
  /-- the Engine is reset in the middle of the rule (R176) -/
  | reset
  /-- the model stops with a fault -/
  | faulted (f : Fault)
deriving DecidableEq, Repr

/-- A rule or a part of one: it runs on a state and either gives a value and a next state, or stops at a state. -/
abbrev Eng (α : Type) := EStateM Stop State α

/-! ## State and events -/

/-- The state. -/
def getState : Eng State := fun s => .ok s s

/-- Change the state. -/
def update (f : State → State) : Eng Unit := fun s => .ok () (f s)

/-- End with an error, as a primitive does that fails (R11, R92, R93). -/
def abort {α : Type} (e : Err) : Eng α := fun s => .error (.raised e) s

/-- Stop at the hold of a delayed start (R117). -/
def hold : Eng Unit := fun s => .error .held s

/-- Stop with a fault. -/
def failWith {α : Type} (f : Fault) : Eng α := fun s => .error (.faulted f) s

/-- The value of a register a rule reads; `none` is a fault (R41, I21). -/
def needReg {α : Type} (r : Reg) (v : Option α) : Eng α :=
  match v with
  | some a => pure a
  | none => failWith (.readNone r)

/-- Add a line to the transcript. -/
def State.log (s : State) (e : Event) : State := { s with hist := s.hist ++ [e] }

/-- Bytes the line delivers enter the receive queue (R38). -/
def State.receive (s : State) (bytes : List Byte) : State :=
  { s with line := { s.line with rxq := s.line.rxq ++ bytes } }

/-- Open or close the Transport. -/
def State.setOpen (s : State) (b : Bool) : State := { s with line := { s.line with isOpen := b } }

/-- A diagnostic event is emitted (R136, R174), under the value `VERBOSE` holds. Emitting reads no register (log entry 12). -/
def State.emit (s : State) (d : Diag) : State := { s with diags := s.diags ++ [⟨s.args.verbose, d⟩] }

/-! ## Errors, acceptance, reset -/

/-- `raise` as R158 performs it: the five error registers together, `ERR_OP <- OP`, and `OP <- NONE`. -/
def State.takeError (s : State) (e : Err) : State :=
  let s := s.emit (.error e.kind (s.seqr.op.map Req.code) e.addr)
  { s with
    err := { kind := e.kind, status := e.status, addr := e.addr, cause := e.cause, op := s.seqr.op.map Req.code }
    seqr := { s.seqr with op := none } }

/-- A refused request: `ERR` and `ERR_OP`, and no other register (R79). -/
def State.refuse (s : State) (code : Byte) : State :=
  { s with err := { s.err with kind := .badRequest, op := some code } }

/-- A unit of the wire that the Engine may not run now, turned away as a request is; it has no request code (log
entry 1). -/
def State.refuseUnit (s : State) : State := { s with err := { s.err with kind := .badRequest, op := none } }

/-- An accepted request: the error registers are cleared and `OP` is set (R79). -/
def State.accept (s : State) (r : Req) : State := { s with err := {}, seqr := { s.seqr with op := some r } }

/-- The end of a request: `OP <- NONE` (R17, R79). -/
def State.endRequest (s : State) : State := { s with seqr := { s.seqr with op := none } }

/-- Engine reset (R176): every register as in R41; the Transport, the buffers and the world outside are untouched. -/
def State.engineReset (s : State) : State :=
  { s with seqr := {}, ident := {}, baud := {}, result := {}, err := {}, blk := {}, g10 := {}, args := {} }

/-! ## Primitives

A rule runs one primitive of R11 at a time, and nothing preempts a primitive (R7, R17, R165). What reaches the Engine
from outside, a request at a busy Engine, a close of the Transport or an Engine reset, reaches it between two of them: each
primitive takes the next entry of `moments` before its own effect (log entry 10). -/

/-- What arrives before one primitive: the Transport is closed (R169), requests are refused (R79), and a reset abandons
the rule (R176). DESIGN CHOICE: while a wire row runs on its own, with `OP = NONE`, a request is refused as at a busy Engine
(log entries 1 and 10). -/
def arrive (m : Moment) : Eng Unit := fun s =>
  let s := m.busy.foldl State.refuse (if m.close then s.setOpen false else s)
  if m.reset then .error .reset s else .ok () s

/-- Every primitive begins so: what arrives before it. The end of the list is a world that stays away. -/
def moment : Eng Unit := do
  let s ← getState
  let m := s.moments.headD {}
  update fun s => { s with moments := s.moments.tail }
  arrive m

/-- A primitive that does not use the Transport and only changes the state: a register write, a Wait or an event (R11). -/
def primitive (f : State → State) : Eng Unit := do
  moment
  update f

/-- Register writes in this order, each a primitive of its own (R11). -/
def writes : List (State → State) → Eng Unit
  | [] => pure ()
  | f :: r => do
    primitive f
    writes r

/-- `raise E(info)`, a primitive of its own (R11, R158). -/
def raise {α : Type} (e : Err) : Eng α := do
  moment
  abort e

/-- The outcome of a rule: its end, the error it raised taken (R158), the hold (R117), or the reset (R176). -/
def finish (m : Eng Unit) (s : State) : Host.Outcome State Fault Refusal :=
  match m s with
  | .ok _ t => .next t
  | .error (.raised e) t => .next (t.takeError e)
  | .error .held t => .next t
  | .error .reset t => .next t.engineReset
  | .error (.faulted f) _ => .fault f

/-- Run `m`, giving an error it raises another form and the state at the error another shape. -/
def onRaise {α : Type} (f : Err → Err) (g : State → State) (m : Eng α) : Eng α := fun s =>
  match m s with
  | .ok a t => .ok a t
  | .error (.raised e) t => .error (.raised (f e)) (g t)
  | .error .held t => .error .held t
  | .error .reset t => .error .reset t
  | .error (.faulted x) t => .error (.faulted x) t

/-! ## The Transport -/

/-- A primitive that uses the Transport begins so: on a closed Transport it is `Io` (R165, R169), and calls nothing. -/
def transport : Eng Unit := do
  moment
  let s ← getState
  if s.line.isOpen then pure () else abort { kind := .io }

/-- What the line does at the next Transport call. The end of the script is a silent line. -/
def nextTick : Eng Tick := fun s => .ok (s.script.headD {}) { s with script := s.script.tail }

/-- A primitive of one Transport call without a result: `set_baud`, `set_parity`, `set_line` or `flush` (R47). The bytes
the line delivers meanwhile enter the queue first. DESIGN CHOICE: a call that fails leaves the Transport's rate, parity,
line level and queue as they were (log entry 20). -/
def control (act : State → State) (ev : Event) : Eng Unit := do
  transport
  let t ← nextTick
  if t.fail then abort { kind := .io } else update fun s => (act (s.receive t.deliver)).log ev

/-- The Transport takes a rate. -/
def State.setRate (s : State) (rate : Nat) : State := { s with line := { s.line with rate := some rate } }

/-- The Transport takes a parity. -/
def State.setParity (s : State) (p : Option Parity) : State := { s with line := { s.line with parity := some p } }

/-- `SetBaud(rate)`. -/
def setBaud (rate : Nat) : Eng Unit := control (fun s => s.setRate rate) (.baud rate)

/-- `SetParity(p)`. -/
def setParity (p : Option Parity) : Eng Unit := control (fun s => s.setParity p) (.parity p)

/-- The Transport drives a line. -/
def State.drive (s : State) (sig : Signal) (level : Bool) : State :=
  match sig with
  | .reset => { s with line := { s.line with reset := some level } }
  | .clock => { s with line := { s.line with clock := some level } }

/-- `LINE_RESET` or `LINE_CLOCK` takes the level driven (R21). -/
def State.driven (s : State) (sig : Signal) (level : Bool) : State :=
  match sig with
  | .reset => { s with seqr := { s.seqr with lineReset := some level } }
  | .clock => { s with seqr := { s.seqr with lineClock := some level } }

/-- `SetLine(sig, level)` and the register that holds the level (R113, R114, R123). -/
def setLine (sig : Signal) (level : Bool) : Eng Unit := do
  control (fun s => s.drive sig level) (.line sig level)
  primitive fun s => s.driven sig level

/-- The receive queue holds these bytes. -/
def State.setQueue (s : State) (bytes : List Byte) : State := { s with line := { s.line with rxq := bytes } }

/-- `Flush()` empties the receive queue (R51). -/
def flush : Eng Unit := control (fun s => s.setQueue []) .flush

/-- `Wait(T)`: an event; it does not observe the Transport (R7, R169). -/
def waitFor (d : Delay) : Eng Unit := primitive fun s => s.log (.wait d)

/-- The Transport's `write` (R47): all bytes written, or `Io`; the bytes of a short write stay sent (R160). -/
def writeBytes (bytes : List Byte) : Eng Unit := do
  let t ← nextTick
  if t.fail then do
    update fun s => if t.wrote = 0 then s else s.log (.tx (bytes.take t.wrote))
    abort { kind := .io }
  else update fun s => (s.receive t.deliver).log (.tx bytes)

/-- Take at most `want` bytes from the front of the receive queue (R38). -/
def dequeue (want : Nat) : Eng (List Byte) := fun s =>
  .ok (s.line.rxq.take want) (s.setQueue (s.line.rxq.drop want))

/-- The Transport's `read` (R47): at most `want` of the bytes the line has delivered within the window, none at all
being "no data". -/
def readBytes (want : Nat) : Eng (List Byte) := do
  let t ← nextTick
  if t.fail then abort { kind := .io }
  else do
    update fun s => s.receive t.deliver
    dequeue want

/-- The read loop of R92 with `need` bytes to come; `fuel` reads are enough, since each gives a byte or ends it. -/
def recvLoop : Nat → Nat → List Byte → Eng (List Byte)
  | 0, _, acc => pure acc
  | fuel + 1, need, acc =>
    if need = 0 then pure acc
    else do
      let r ← readBytes need
      if r.isEmpty then abort { kind := .timeout } else recvLoop fuel (need - r.length) (acc ++ r)

/-- The reads of `n` bytes (R92). -/
def readExact (n : Nat) : Eng (List Byte) := recvLoop n n []

/-- `RecvExact(n)` (R92). -/
def recvExact (n : Nat) : Eng (List Byte) := do
  transport
  readExact n

/-- `RecvExact(n)` of unframed bytes, with its line of the transcript. -/
def recvRaw (n : Nat) : Eng (List Byte) := do
  let r ← recvExact n
  update fun s => s.log (.rxRaw r)
  pure r

/-- `RecvByte()`: one read attempt for one byte (R11, R148). -/
def recvByte : Eng (Option Byte) := do
  transport
  let r ← readBytes 1
  update fun s => s.log (match r with | [] => .rxNone | b :: _ => .rxRaw [b])
  pure r.head?

/-- `Send(s)`: write the bytes, then read and drop their echo without comparing it (R93). One primitive (R11). -/
def send (bytes : List Byte) : Eng Unit := do
  transport
  writeBytes bytes
  let s ← getState
  if s.params.echo then do
    let _ ← readExact bytes.length
    update fun s => s.log (.echo bytes.length)
  else pure ()

/-- `MemRead(buf, off, n)` (R45). -/
def memRead (b : Buf) (off n : Nat) : Eng (List Byte) := do
  moment
  let s ← getState
  if off + n ≤ (s.buffer b).size then pure ((s.buffer b).slice off n) else failWith (.beyondBuffer b)

/-- `emit Diag(d)` (R11, R136, R174). -/
def emit (d : Diag) : Eng Unit := primitive fun s => s.emit d

end Sys2Proof.Machine
end

