-- ==== Sys2Proof/Machine/Flags.lean ====
section
/-! DEFINITION. The status register and the flags of the Engine (spec/10_state.md R28, R30, R35) and what computes them:
the status check (R95), the per-frame checks (R107, R108), the erased-block test (R129) and the CRC (R152). -/

namespace Sys2Proof.Machine

/-- Byte `i` of a payload that decode has given. Every payload is as long as its rule expects. -/
def byteAt (pl : List Byte) (i : Nat) : Byte := pl.getD i 0#8

/-- `LAST_STATUS` (R30). -/
def State.setStatus (s : State) (b : Byte) : State := { s with result := { s.result with lastStatus := some b } }

/-- `NOT_BLANK` (R28). -/
def State.setNotBlank (s : State) (b : Bool) : State := { s with result := { s.result with notBlank := some b } }

/-- `CKSUM16` (R29). -/
def State.setCksum (s : State) (v : Half) : State := { s with result := { s.result with cksum16 := some v } }

/-- `FIDX` (R32). -/
def State.setFrame (s : State) (k : Nat) : State := { s with blk := { s.blk with fidx := some k } }

/-- The status check (R95). -/
def statusCheck (pl : List Byte) : Eng Unit := do
  primitive fun s => s.setStatus (byteAt pl 0)
  if byteAt pl 0 = Config.ack then pure ()
  else raise { kind := .deviceRejected, status := some (byteAt pl 0) }

/-- The check of a data frame's response, `kind` being `ProgramFailed` (R107) or `MismatchError` (R108): both bytes must
equal ACK. -/
def frameCheck (kind : ErrKind) (a : Addr) (pl : List Byte) : Eng Unit := do
  primitive fun s => s.setStatus (byteAt pl 0)
  if byteAt pl 0 = Config.ack ∧ byteAt pl 1 = Config.ack then pure () else raise { kind := kind, addr := some a }

/-- The completion response of program (R104). -/
def completionCheck (a : Addr) (pl : List Byte) : Eng Unit := do
  primitive fun s => s.setStatus (byteAt pl 0)
  if byteAt pl 0 = Config.ack then pure () else raise { kind := .programFailed, addr := some a }

/-- The erased-block test (R129). -/
def allErased (blk : List Byte) : Bool := blk.all fun b => b == Config.erased

/-- One bit of the CRC (R152). -/
def crcBit (c : Half) : Half := if c.getLsbD 15 then c <<< 1 ^^^ 0x1021#16 else c <<< 1

/-- One byte of the CRC: eight bits, the most significant first (R152). -/
def crcByte (c : Half) (b : Byte) : Half :=
  crcBit (crcBit (crcBit (crcBit (crcBit (crcBit (crcBit (crcBit (c ^^^ b.setWidth 16 <<< 8))))))))

/-- The CRC of bytes from a running value on. -/
def crcRun : Half → List Byte → Half
  | c, [] => c
  | c, b :: r => crcRun (crcByte c b) r

/-- `crc16` (R152). -/
def crc16 (p : Params) (bytes : List Byte) : Half := crcRun p.crcInit bytes ^^^ p.crcXorout

end Sys2Proof.Machine
end

