-- ==== Sys2Proof/Machine/Operands.lean ====
section
/-! DEFINITION. Operand assembly and field extraction (spec/30_encoding.md R69, R70, R75), the size and block arithmetic
(spec/10_state.md R24, R25, R32), and the preconditions of the requests (R78). -/

namespace Sys2Proof.Machine

/-- The voltage byte, `voltage_mV div 100` (R69, D15). -/
def voltageByte (mv : Nat) : Byte := BitVec.ofNat 8 (mv / 100)

/-- A received 16-bit value: `d0 | d1 << 8` in order LE, `d0 << 8 | d1` in order BE (R44, R70). -/
def value16 (order : ByteOrder) (d0 d1 : Byte) : Half :=
  match order with
  | .le => d0.setWidth 16 ||| d1.setWidth 16 <<< 8
  | .be => d0.setWidth 16 <<< 8 ||| d1.setWidth 16

/-- The number of addresses of an inclusive range (R104: `e - s + 1`). -/
def rangeLength (s e : Addr) : Nat := e.toNat - s.toNat + 1

/-! ## The signature record (R75) -/

/-- Bytes 0..2: `DEV_CODE`. -/
def sigDevCode (d : List Byte) : List Byte := d.take 3

/-- Bytes 3..12: `DEV_NAME`. -/
def sigDevName (d : List Byte) : List Byte := (d.drop 3).take 10

/-- Bytes 13..15: `CODE_END`. -/
def sigCodeEnd (d : List Byte) : Addr := ofLe3 (d.getD 13 0#8) (d.getD 14 0#8) (d.getD 15 0#8)

/-- Bytes 16..18: `DATA_END`. -/
def sigDataEnd (d : List Byte) : Addr := ofLe3 (d.getD 16 0#8) (d.getD 17 0#8) (d.getD 18 0#8)

/-- Bytes 19..21: `FW_VER`. -/
def sigFwVer (d : List Byte) : List Byte := (d.drop 19).take 3

/-- `CODE_SIZE`, without wrap-around (R24). -/
def codeSizeOf (codeEnd : Addr) : Nat := codeEnd.toNat + 1

/-- `DATA_SIZE`, over the integers, 0 where the size is not a sensible one (R25). `DATA_GRANULE` is one number for all
protocols (log entry 26). -/
def dataSizeOf (p : Params) (dataEnd : Addr) : Nat :=
  let s : Int := (dataEnd.toNat : Int) - (Config.dataBase.toNat : Int) + 1
  if s ≤ 0 ∨ s % (p.dataGranule : Int) ≠ 0 ∨ s > (p.dataSizeMax : Int) then 0 else s.toNat

/-- The identity registers a signature record gives (R100). -/
def identOf (p : Params) (d : List Byte) : IdRegs where
  devCode := some (sigDevCode d)
  devName := some (sigDevName d)
  fwVer := some (sigFwVer d)
  idValid := true
  codeEnd := some (sigCodeEnd d)
  dataEnd := some (sigDataEnd d)
  codeSize := some (codeSizeOf (sigCodeEnd d))
  dataSize := some (dataSizeOf p (sigDataEnd d))

/-! ## Blocks and words -/

/-- `NBLK`: the whole blocks of a region (R32, R126: `size & ~(bs-1) = bs * (size div bs)`). -/
def blockCount (size bs : Nat) : Nat := size / bs

/-- The first address of block `i` (R127). -/
def blockStart (base : Addr) (bs i : Nat) : Addr := BitVec.ofNat 24 (base.toNat + i * bs)

/-- The last address of block `i`, inclusive (R127). -/
def blockEnd (base : Addr) (bs i : Nat) : Addr := BitVec.ofNat 24 (base.toNat + i * bs + bs - 1)

/-- The Target address of G10 word `w` (R150). DESIGN CHOICE: past 2^24 it is taken mod 2^24, the width of `ERR_ADDR`
(log entry 25). -/
def wordAddr (w : Nat) : Addr := BitVec.ofNat 24 (Config.codeBase.toNat + Config.g10Word * w)

/-! ## Preconditions (R78), besides `OP = NONE` -/

/-- `VARIANT = FRAMED` and `SEQ = READY`. -/
def framedReady (s : State) : Bool := s.seqr.variant == some .framed && s.seqr.seq == .ready

/-- `VARIANT = G10` and `SEQ = READY`. -/
def g10Ready (s : State) : Bool := s.seqr.variant == some .g10 && s.seqr.seq == .ready

/-- The range checks of R97: a rate with a code, and a voltage whose quotient fits a byte. -/
def rateOk (rate mv : Nat) (s : State) : Bool := (s.params.baudCode rate).isSome && decide (mv ≤ Config.voltageMax)

/-- `s <= e` (R78). -/
def rangeOk (a e : Addr) : Bool := decide (a.toNat ≤ e.toNat)

/-- `off + (e-s+1) <= len(buf)` (R78). -/
def sourceOk (a e : Addr) (b : Buf) (off : Nat) (s : State) : Bool :=
  decide (off + rangeLength a e ≤ (s.buffer b).size)

/-- The bounds of a region: `size <= len(buf)` (R78), and no block past the 24-bit address space (R125). -/
def regionOk (b : Buf) (base : Addr) (size : Nat) (s : State) : Bool :=
  match s.seqr.blockSz with
  | some bs => decide (size ≤ (s.buffer b).size) && decide (base.toNat + blockCount size bs * bs ≤ 2 ^ 24)
  | none => false

/-- The bounds of a G10 image (R78). -/
def imageOk (size : Nat) (s : State) : Bool := decide (size ≤ s.code.size)

/-- What SET_BAUD asks for. -/
def baudOk (rate mv : Nat) (s : State) : Bool := framedReady s && rateOk rate mv s

/-- What BLANK_CHECK and CHECKSUM ask for. -/
def rangeReady (a e : Addr) (s : State) : Bool := framedReady s && rangeOk a e

/-- What BLOCK_PROGRAM and BLOCK_VERIFY ask for. -/
def sourceReady (a e : Addr) (b : Buf) (off : Nat) (s : State) : Bool := rangeReady a e s && sourceOk a e b off s

/-- What REGION asks for. -/
def regionReady (b : Buf) (base : Addr) (size : Nat) (s : State) : Bool := framedReady s && regionOk b base size s

/-- What G10_CRC_CHECK asks for. -/
def imageReady (size : Nat) (s : State) : Bool := g10Ready s && imageOk size s

/-- What G10_ERASE_WRITE asks for: a size that is a multiple of 4 besides (R143). -/
def wordsReady (size : Nat) (s : State) : Bool := imageReady size s && size % Config.g10Word == 0

/-- Where the Engine sends the synchronisation byte (R115, R121). -/
def syncReady (s : State) : Bool := s.seqr.variant == some .framed && s.seqr.seq == .syncing

/-- Where the Engine sends mode-set (R119, R121). -/
def modeSetReady (s : State) : Bool := s.seqr.variant == some .g10 && s.seqr.seq == .syncing

/-- Where the Engine sends baud-set and decodes responses: in a framed session, `READY` or in step 4 of the
handshake. -/
def baudReady (s : State) : Bool :=
  s.seqr.variant == some .framed && (s.seqr.seq == .ready || s.seqr.seq == .synced)

/-- What every state allows. -/
def always (_ : State) : Bool := true

end Sys2Proof.Machine
end

