-- ==== Sys2Proof/Machine/Codec.lean ====
section
/-! DEFINITION. The frame codec over the Transport (spec/40_frame_codec.md R88 to R95), the data-frame phase shared by
program and verify (spec/41_commands.md R106), and the two data rows of the opcode table. -/

namespace Sys2Proof.Machine

/-- The checks of R89 on the bytes after the header, in the spec's order: the end marker, then the checksum. -/
def checkRest (p : Params) (len : Byte) (n : Nat) (rest : List Byte) : Option ErrKind :=
  if byteAt rest (n + 1) ≠ p.etx ∧ byteAt rest (n + 1) ≠ p.etb then some .formatError
  else if len + byteSum (rest.take n) + byteAt rest n ≠ 0#8 then some .checksumError
  else none

/-- The checks of R89 on the 2-byte header, in the spec's order: the start marker, the largest length, the expected
length. -/
def checkHeader (p : Params) (expected : Nat) (hdr : List Byte) : Option ErrKind :=
  if byteAt hdr 0 ≠ p.stx then some .formatError
  else if declen (byteAt hdr 1) > Config.maxRespLen then some .formatError
  else if declen (byteAt hdr 1) ≠ expected then some .lengthMismatch
  else none

/-- `decode_response(expected_len)` (R89). -/
def decodeResponse (expected : Nat) : Eng (List Byte) := do
  let hdr ← recvExact 2
  let s ← getState
  match checkHeader s.params expected hdr with
  | some k => raise { kind := k }
  | none => do
    let rest ← recvExact (expected + 2)
    let s ← getState
    match checkRest s.params (byteAt hdr 1) expected rest with
    | some k => raise { kind := k }
    | none => do
      update fun s => s.log (.rxResp (rest.take expected))
      pure (rest.take expected)

/-- Send an encoded frame; an encoder's error is raised before anything reaches the wire (R88). -/
def sendFrame (frame : Except ErrKind (List Byte)) : Eng Unit :=
  match frame with
  | .error k => raise { kind := k }
  | .ok bytes => send bytes

/-- `exchange(opc, p, n)` (R94). -/
def exchange (o : Opcode) (pl : List Byte) (n : Nat) : Eng (List Byte) := do
  let s ← getState
  sendFrame (encodeCommand s.params o.byte pl)
  decodeResponse n

/-- `status_exchange(opc, p)` (R81): an exchange of one status byte and its check. -/
def statusExchange (o : Opcode) (pl : List Byte) : Eng Unit := do
  let r ← exchange o pl 1
  statusCheck r

/-- `Send(encode_data(p, is_last))` (R86, R106). -/
def sendData (bytes : List Byte) (last : Bool) : Eng Unit := do
  let s ← getState
  sendFrame (encodeData s.params bytes last)

/-- Whether a transfer writes or compares (R106). -/
inductive StreamMode where
  | program
  | verify
deriving DecidableEq, Repr

/-- The error of a data frame that is not answered by two ACKs (R107, R108). -/
def StreamMode.error : StreamMode → ErrKind
  | .program => .programFailed
  | .verify => .mismatchError

/-- The settle delay after a data frame: in verify mode only (R106, D44). -/
def settleFrame (mode : StreamMode) : Eng Unit :=
  match mode with
  | .program => pure ()
  | .verify => waitFor .verifyFrame

/-- Where a transfer takes its frames from, each when its turn comes: the operand of a row run on its own, cut as R109
cuts it. -/
def operandFrames (bytes : List Byte) : List (Eng (List Byte)) := (framesOf bytes).map pure

/-- Where a transfer takes its frames from: `bs` bytes of a buffer from an offset on, read frame by frame (R106). -/
def bufferFrames (b : Buf) (off bs : Nat) : List (Eng (List Byte)) :=
  (List.range (frameCount bs)).map fun k => memRead b (off + 256 * k) (min 256 (bs - 256 * k))

/-- One data frame of a transfer and its response (R106). -/
def streamFrame (mode : StreamMode) (a : Addr) (k : Nat) (read : Eng (List Byte)) (last : Bool) : Eng Unit := do
  primitive fun s => s.setFrame k
  let c ← read
  sendData c last
  settleFrame mode
  let pl ← decodeResponse 2
  frameCheck mode.error a pl

/-- `stream` (R106): the frames from index `k` on, each answered before the next is sent. -/
def stream (mode : StreamMode) (a : Addr) : Nat → List (Eng (List Byte)) → Eng Unit
  | _, [] => pure ()
  | k, read :: r => do
    streamFrame mode a k read r.isEmpty
    stream mode a (k + 1) r

/-- Run a unit of the wire on its own: while no request is in progress (R8), and where the rules that send it may send
it, else it is turned away (log entry 1). -/
def runUnit (allowed : State → Bool) (m : Eng Unit) (s : State) : Host.Outcome State Fault Refusal :=
  if s.seqr.op.isNone && allowed s then finish m s else .next s.refuseUnit

/-- data-frame: the Engine sends one data frame (R86). It reads no response: R106 does that. Only program and verify
send one, in a framed session that is READY (R3, R106; log entry 1). -/
def execDataFrame (bytes : List Byte) (last : Bool) (s : State) : Host.Outcome State Fault Refusal :=
  runUnit framedReady (sendData bytes last) s

/-- The line delivers one response frame, and the Engine decodes it, expecting its length (R63, R89). -/
def takeResponse (bytes : List Byte) (last : Bool) : Eng Unit := do
  let s ← getState
  match encodeData s.params bytes last with
  | .error k => raise { kind := k }
  | .ok frame => do
    update fun s => s.receive frame
    let _ ← decodeResponse bytes.length
    pure ()

/-- response-frame: the Target's frame arrives behind whatever the receive queue holds and is decoded (R89). Only a
framed session decodes responses, when it is READY or in step 4 of its handshake (R3, R94; log entry 1). -/
def execResponseFrame (bytes : List Byte) (last : Bool) (s : State) : Host.Outcome State Fault Refusal :=
  runUnit baudReady (takeResponse bytes last) s

/-- Bytes the line delivers that are no response frame: decode rejects them with a named error (R77, R89). DESIGN CHOICE:
the length expected, which R89 has a command rule supply, is the one their LEN byte claims; bytes too short to hold a LEN
byte, fewer than two, are decoded as if it were 0x00, so 256 is expected (log entry 14). -/
def takeMalformed (bytes : List Byte) : Eng Unit := do
  update fun s => s.receive bytes
  let _ ← decodeResponse (declen (byteAt bytes 1))
  pure ()

end Sys2Proof.Machine
end

