-- ==== Sys2Proof/Machine/Commands.lean ====
section
/-! DEFINITION. The eight framed commands (spec/41_commands.md): the body of each rule, which the requests, the handshake
and the block controller run, and the meaning of each command's row of the opcode table run on its own. -/

namespace Sys2Proof.Machine

/-- `FREQ` and `VMODE`, in the order of R97. -/
def modeWrites (freq vmode : Byte) : List (State → State) :=
  [fun s => { s with baud := { s.baud with freq := some freq } },
    fun s => { s with baud := { s.baud with vmode := some vmode } }]

/-- The identity registers take a signature record, in the order of R100: `ID_VALID` last. -/
def identityWrites (d : List Byte) : List (State → State) :=
  [fun s => { s with ident := { s.ident with devCode := some (sigDevCode d) } },
    fun s => { s with ident := { s.ident with devName := some (sigDevName d) } },
    fun s => { s with ident := { s.ident with codeEnd := some (sigCodeEnd d) } },
    fun s => { s with ident := { s.ident with dataEnd := some (sigDataEnd d) } },
    fun s => { s with ident := { s.ident with fwVer := some (sigFwVer d) } },
    fun s => { s with ident := { s.ident with codeSize := some (codeSizeOf (sigCodeEnd d)) } },
    fun s => { s with ident := { s.ident with dataSize := some (dataSizeOf s.params (sigDataEnd d)) } },
    fun s => { s with ident := { s.ident with idValid := true } }]

/-- reset (R96). -/
def resetBody : Eng Unit := statusExchange .reset []

/-- baud-set with its two payload bytes (R97). -/
def baudSetBody (code volt : Byte) : Eng Unit := do
  let pl ← exchange .baudSet [code, volt] 3
  statusCheck pl
  writes (modeWrites (byteAt pl 1) (byteAt pl 2))

/-- silicon-signature (R100). No identity register is written unless the data response decodes without error. -/
def signatureBody : Eng Unit := do
  statusExchange .siliconSignature []
  let d ← decodeResponse 22
  writes (identityWrites d)

/-- block-erase (R101). -/
def eraseBody (a : Addr) : Eng Unit := statusExchange .blockErase (le3 a)

/-- What a status byte answers to a blank-check (R102): ACK is blank, `ST_BLANK_FAIL` not blank, any other an error. -/
def blankAnswer (b : Byte) : Option Bool :=
  if b = Config.ack then some false else if b = Config.stBlankFail then some true else none

/-- blank-check (R102). It gives the value it writes to `NOT_BLANK`. -/
def blankBody (a e : Addr) : Eng Bool := do
  let s ← getState
  let pl ← exchange .blankCheck (blankPayload s.params a e) 1
  primitive fun s => s.setStatus (byteAt pl 0)
  match blankAnswer (byteAt pl 0) with
  | some nb => do
    primitive fun s => s.setNotBlank nb
    pure nb
  | none => raise { kind := .deviceRejected, status := some (byteAt pl 0) }

/-- blank-check for its writes alone. -/
def blankUnit (a e : Addr) : Eng Unit := do
  let _ ← blankBody a e
  pure ()

/-- checksum (R103). -/
def checksumBody (a e : Addr) : Eng Unit := do
  statusExchange .checksum (rangePayload a e)
  let d ← decodeResponse 2
  primitive fun s => s.setCksum (value16 s.params.cksumOrder (byteAt d 0) (byteAt d 1))

/-- program (R104). -/
def programBody (a e : Addr) (frames : List (Eng (List Byte))) : Eng Unit := do
  statusExchange .program (rangePayload a e)
  stream .program a 0 frames
  waitFor (.progSettle (rangeLength a e))
  let pl ← decodeResponse 1
  completionCheck a pl

/-- verify (R105). No completion response is read. -/
def verifyBody (a e : Addr) (frames : List (Eng (List Byte))) : Eng Unit := do
  statusExchange .verify (rangePayload a e)
  stream .verify a 0 frames

/-! ## The rows of the opcode table

Run on its own, a command needs `VARIANT = FRAMED` and `SEQ = READY` (spec/41_commands.md); the handshake sends baud-set
with `SEQ = SYNCED` (R116); silicon-signature needs `ID_VALID = false` (R100). -/

/-- Where the Engine sends silicon-signature. -/
def signatureReady (s : State) : Bool := framedReady s && !s.ident.idValid

/-- reset, opcode 0x00 (R96). -/
def execReset (s : State) : Host.Outcome State Fault Refusal := runUnit framedReady resetBody s

/-- verify, opcode 0x13 (R105). -/
def execVerify (a e : Addr) (bytes : List Byte) (s : State) : Host.Outcome State Fault Refusal :=
  runUnit framedReady (verifyBody a e (operandFrames bytes)) s

/-- block-erase, opcode 0x22 (R101). -/
def execBlockErase (a : Addr) (s : State) : Host.Outcome State Fault Refusal := runUnit framedReady (eraseBody a) s

/-- blank-check, opcode 0x32 (R102). -/
def execBlankCheck (a e : Addr) (s : State) : Host.Outcome State Fault Refusal :=
  runUnit framedReady (blankUnit a e) s

/-- program, opcode 0x40 (R104). -/
def execProgram (a e : Addr) (bytes : List Byte) (s : State) : Host.Outcome State Fault Refusal :=
  runUnit framedReady (programBody a e (operandFrames bytes)) s

/-- baud-set, opcode 0x9A (R97). DESIGN CHOICE: R97 speaks of rates, and the row run on its own carries the code byte
itself, so every code byte is sent, also one that `BAUD_CODE` gives to no rate (log entry 1). -/
def execBaudSet (code volt : Byte) (s : State) : Host.Outcome State Fault Refusal :=
  runUnit baudReady (baudSetBody code volt) s

/-- checksum, opcode 0xB0 (R103). -/
def execChecksum (a e : Addr) (s : State) : Host.Outcome State Fault Refusal := runUnit framedReady (checksumBody a e) s

/-- silicon-signature, opcode 0xC0 (R100). -/
def execSiliconSignature (s : State) : Host.Outcome State Fault Refusal := runUnit signatureReady signatureBody s

end Sys2Proof.Machine
end

