-- ==== Sys2Proof/Machine/Requests.lean ====
section
/-! DEFINITION. The request port (spec/30_encoding.md R78, R79) and the requests that run one command or one local
operation (spec/41_commands.md R96 to R105). -/

namespace Sys2Proof.Machine

/-- Request acceptance (R79): refused, or the error registers cleared, the arguments latched, `OP` set, the rule run and
`OP` cleared. -/
def runRequest (r : Req) (allowed : State → Bool) (latch : State → State) (m : Eng Unit) (s : State) :
    Host.Outcome State Fault Refusal :=
  if s.seqr.op.isNone && allowed s then finish (do m; primitive State.endRequest) (latch (s.accept r))
  else .next (s.refuse r.code)

/-- A request without latched arguments (R34). -/
def noLatch (s : State) : State := s

/-- `TARGET_BAUD` and `VOLTAGE_MV` are latched (R34). -/
def latchBaud (rate mv : Nat) (s : State) : State :=
  { s with args := { s.args with targetBaud := some rate, voltageMv := some mv } }

/-- `set_baud(rate, voltage_mV)` (R97). An accepted request's rate has a code (R78). -/
def setBaudRate (rate mv : Nat) : Eng Unit := do
  let s ← getState
  match s.params.baudCode rate with
  | some code => baudSetBody code (voltageByte mv)
  | none => raise { kind := .badRequest }

/-- `LINK_BAUD` (R20). -/
def State.setLinkBaud (s : State) (rate : Nat) : State := { s with seqr := { s.seqr with linkBaud := some rate } }

/-- `SetBaud(rate); LINK_BAUD <- rate` (R98, R113, R116). -/
def setLinkBaud (rate : Nat) : Eng Unit := do
  setBaud rate
  primitive fun s => s.setLinkBaud rate

/-- RESET_CMD (R96). -/
def execReqResetCmd (s : State) : Host.Outcome State Fault Refusal :=
  runRequest .resetCmd framedReady noLatch resetBody s

/-- SET_BAUD (R97). The link's own rate stays as it is (D17). -/
def execReqSetBaud (rate mv : Nat) (s : State) : Host.Outcome State Fault Refusal :=
  runRequest .setBaud (baudOk rate mv) (latchBaud rate mv) (setBaudRate rate mv) s

/-- SET_LINK_BAUD (R98). -/
def execReqSetLinkBaud (rate : Nat) (s : State) : Host.Outcome State Fault Refusal :=
  runRequest .setLinkBaud always noLatch (setLinkBaud rate) s

/-- SIGNATURE (R100), once in a session (R27). -/
def execReqSignature (s : State) : Host.Outcome State Fault Refusal :=
  runRequest .signature signatureReady noLatch signatureBody s

/-- BLOCK_ERASE (R101). -/
def execReqBlockErase (a : Addr) (s : State) : Host.Outcome State Fault Refusal :=
  runRequest .blockErase framedReady noLatch (eraseBody a) s

/-- BLANK_CHECK (R102). -/
def execReqBlankCheck (a e : Addr) (s : State) : Host.Outcome State Fault Refusal :=
  runRequest .blankCheck (rangeReady a e) noLatch (blankUnit a e) s

/-- CHECKSUM (R103). -/
def execReqChecksum (a e : Addr) (s : State) : Host.Outcome State Fault Refusal :=
  runRequest .checksum (rangeReady a e) noLatch (checksumBody a e) s

/-- BLOCK_PROGRAM (R104). -/
def execReqBlockProgram (a e : Addr) (b : Buf) (off : Nat) (s : State) : Host.Outcome State Fault Refusal :=
  runRequest .blockProgram (sourceReady a e b off) noLatch
    (programBody a e (bufferFrames b off (rangeLength a e))) s

/-- BLOCK_VERIFY (R105). -/
def execReqBlockVerify (a e : Addr) (b : Buf) (off : Nat) (s : State) : Host.Outcome State Fault Refusal :=
  runRequest .blockVerify (sourceReady a e b off) noLatch
    (verifyBody a e (bufferFrames b off (rangeLength a e))) s

end Sys2Proof.Machine
end

