-- ==== Sys2Proof/Machine/G10.lean ====
section
/-! DEFINITION. The whole-image variant (spec/44_g10_variant.md R143 to R156): its unframed units and its two
requests. -/

namespace Sys2Proof.Machine

/-- `G10_RESP0`, `G10_RESP1` and `G10_CAP_CODE`, in the order of R145 and R153. -/
def responseWrites (r0 r1 code : Byte) : List (State → State) :=
  [fun s => { s with g10 := { s.g10 with resp0 := some r0 } }, fun s => { s with g10 := { s.g10 with resp1 := some r1 } },
    fun s => { s with g10 := { s.g10 with capCode := some code } }]

/-- `POLL_CNT` (R33). -/
def State.setPoll (s : State) (n : Nat) : State := { s with g10 := { s.g10 with pollCnt := some n } }

/-- `WIDX` (R33). -/
def State.setWord (s : State) (w : Nat) : State := { s with g10 := { s.g10 with widx := some w } }

/-- `CRC_DEV` (R33, R153). -/
def State.setCrcDev (s : State) (dev : Half) : State := { s with g10 := { s.g10 with crcDev := some dev } }

/-- `CRC_LOCAL` (R33, R153). -/
def State.setCrcLocal (s : State) (loc : Half) : State := { s with g10 := { s.g10 with crcLocal := some loc } }

/-- `CRC_OK` (R33, R154). -/
def State.setCrcOk (s : State) (same : Bool) : State := { s with g10 := { s.g10 with crcOk := some same } }

/-- The opening exchange of both G10 operations: a command byte, and a 3-byte response into its registers, bytes 0 and 1
unchecked (R145, R153). -/
def openImage (cmd : Byte) : Eng Unit := do
  send [cmd]
  let r ← recvRaw 3
  writes (responseWrites (byteAt r 0) (byteAt r 1) (byteAt r 2))

/-- The erase-write byte and its response (R145). -/
def eraseWriteOpen : Eng Unit := do
  let s ← getState
  openImage s.params.g10EraseWrite

/-- The CRC-check byte and its response (R153). -/
def crcCheckOpen : Eng Unit := do
  let s ← getState
  openImage s.params.g10CrcCheck

/-- ACK after the capacity check (R146). -/
def ackUnit : Eng Unit := send [Config.ack]

/-- NACK, and then the size mismatch with the capacity code reported (R146, R147). -/
def nackUnit : Eng Unit := do
  send [Config.nack]
  let s ← getState
  let code ← needReg .G10_CAP_CODE s.g10.capCode
  raise { kind := .sizeMismatch, status := some code }

/-- The capacity check (R146): a code the table does not map to the image's size is a mismatch. -/
def capacityCheck (size : Nat) : Eng Unit := do
  let s ← getState
  let code ← needReg .G10_CAP_CODE s.g10.capCode
  if s.params.g10Cap code = some size then ackUnit else nackUnit

/-- The erase-complete poll (R148) with `left` attempts left and `used` used up. -/
def pollLoop : Nat → Nat → Eng Unit
  | 0, _ => raise { kind := .timeout }
  | left + 1, used => do
    primitive fun s => s.setPoll (used + 1)
    let b ← recvByte
    if b = some Config.ack then pure () else pollLoop left (used + 1)

/-- The erase-complete poll (R148). -/
def poll : Eng Unit := do
  primitive fun s => s.setPoll 0
  pollLoop Config.g10PollMax 0

/-- One word and its acknowledgement (R149, R151). `WIDX` is read only when the word is not acknowledged. -/
def wordUnit (bytes : List Byte) : Eng Unit := do
  send bytes
  let a ← recvRaw 1
  if byteAt a 0 = Config.ack then pure ()
  else do
    let s ← getState
    let w ← needReg .WIDX s.g10.widx
    raise { kind := .programFailed, addr := some (wordAddr w) }

/-- The `n` words from `w` on (R145, R149). -/
def wordLoop : Nat → Nat → Eng Unit
  | 0, _ => pure ()
  | n + 1, w => do
    primitive fun s => s.setWord w
    let bytes ← memRead .code (Config.g10Word * w) Config.g10Word
    wordUnit bytes
    wordLoop n (w + 1)

/-- G10_ERASE_WRITE's rule (R145); an image of size 0 is absent (R143). -/
def eraseWriteBody (size : Nat) : Eng Unit :=
  if size = 0 then pure ()
  else do
    eraseWriteOpen
    capacityCheck size
    poll
    wordLoop (size / Config.g10Word) 0

/-- The CRC compare (R154). -/
def crcCompare (dev loc : Half) : Eng Unit := do
  primitive fun s => s.setCrcOk (loc == dev)
  if loc = dev then pure () else raise { kind := .checksumMismatch }

/-- G10_CRC_CHECK once the device's value is read (R153): `CRC_DEV` takes it, then the image is read, then `CRC_LOCAL`
takes its CRC, and then the two are compared. -/
def crcRegisters (dev : Half) (size : Nat) : Eng Unit := do
  primitive fun s => s.setCrcDev dev
  let image ← memRead .code 0 size
  let s ← getState
  primitive fun t => t.setCrcLocal (crc16 s.params image)
  crcCompare dev (crc16 s.params image)

/-- G10_CRC_CHECK's rule (R153). -/
def crcCheckBody (size : Nat) : Eng Unit :=
  if size = 0 then pure ()
  else do
    crcCheckOpen
    capacityCheck size
    let d ← recvRaw 2
    let s ← getState
    crcRegisters (value16 s.params.g10CrcOrder (byteAt d 0) (byteAt d 1)) size

/-- g10-erase-write: the command byte and the response it opens with (R145). -/
def execG10EraseWrite (s : State) : Host.Outcome State Fault Refusal := runUnit g10Ready eraseWriteOpen s

/-- g10-crc-check: the command byte and the response it opens with (R153). -/
def execG10CrcCheck (s : State) : Host.Outcome State Fault Refusal := runUnit g10Ready crcCheckOpen s

/-- g10-ack (R146). -/
def execG10Ack (s : State) : Host.Outcome State Fault Refusal := runUnit g10Ready ackUnit s

/-- g10-nack (R146): its own effect is the abort that follows it. -/
def execG10Nack (s : State) : Host.Outcome State Fault Refusal := runUnit g10Ready nackUnit s

/-- g10-word (R149, R151). -/
def execG10Word (b0 b1 b2 b3 : Byte) (s : State) : Host.Outcome State Fault Refusal :=
  runUnit g10Ready (wordUnit [b0, b1, b2, b3]) s

/-- G10_ERASE_WRITE (R145), refused unless the size is a multiple of 4 (R143). -/
def execReqG10EraseWrite (size : Nat) (s : State) : Host.Outcome State Fault Refusal :=
  runRequest .g10EraseWrite (wordsReady size) noLatch
    (eraseWriteBody size) s

/-- G10_CRC_CHECK (R153). -/
def execReqG10CrcCheck (size : Nat) (s : State) : Host.Outcome State Fault Refusal :=
  runRequest .g10CrcCheck (imageReady size) noLatch (crcCheckBody size) s

end Sys2Proof.Machine
end

