-- ==== Sys2Proof/Machine/Handshake.lean ====
section
/-! DEFINITION. The reset and handshake sequencer (spec/42_handshake.md R112 to R124): INIT in both variants, with its
hold for READY_IN, the two unframed units of the handshake, and RESET_AND_RUN. -/

namespace Sys2Proof.Machine

/-- `SEQ <- q` (R16). -/
def State.setSeq (s : State) (q : SeqState) : State := { s with seqr := { s.seqr with seq := q } }

/-- The register writes of an accepted INIT, in the order of R40, and `SEQ` at IDLE behind them, where step 1 begins
(R113, R117, R121). DEDUCED (log entry 16). -/
def sessionWrites (proto : Nat) : List (State → State) :=
  [fun s => { s with seqr := { s.seqr with proto := some proto } },
    fun s => { s with seqr := { s.seqr with variant := some (s.params.variantOf proto) } },
    fun s => { s with seqr := { s.seqr with blockSz := some (s.params.blockSize proto) } },
    fun s => { s with ident := { s.ident with idValid := false } },
    fun s => { s with ident := { s.ident with devCode := none } }, fun s => { s with ident := { s.ident with devName := none } },
    fun s => { s with ident := { s.ident with fwVer := none } }, fun s => { s with ident := { s.ident with codeEnd := none } },
    fun s => { s with ident := { s.ident with dataEnd := none } }, fun s => { s with ident := { s.ident with codeSize := none } },
    fun s => { s with ident := { s.ident with dataSize := none } }, fun s => { s with baud := { s.baud with freq := none } },
    fun s => { s with baud := { s.baud with vmode := none } }, fun s => s.setSeq .idle]

/-- The arguments of INIT are latched (R34). -/
def latchInit (proto rate mv : Nat) (delayed : Bool) (verbose : Nat) (s : State) : State :=
  { s with args := { targetBaud := some rate, voltageMv := some mv, delayedStart := some delayed,
                     protoIn := some proto, verbose := some verbose } }

/-- The form a handshake error is reported in: its kind becomes `kind`, the original stands in `ERR_CAUSE` and a status
byte is kept (R118, R120, R163). -/
def wrapError (kind : ErrKind) (e : Err) : Err := { kind := kind, status := e.status, cause := some e.kind }

/-- Run a part of the handshake: an error in it is wrapped and sets `SEQ <- IDLE` (R122). -/
def handshakePart {α : Type} (kind : ErrKind) (m : Eng α) : Eng α := onRaise (wrapError kind) (fun s => s.setSeq .idle) m

/-- The entry and step 1 up to the hold: line format, initial rate, both lines low (R113). -/
def stepOne : Eng Unit := do
  let s ← getState
  setParity s.params.parity
  setLinkBaud s.params.initBaud
  setLine .reset false
  setLine .clock false

/-- The hold of a delayed start (R117): it stays until `READY_IN` is asserted. -/
def holdReady : Eng Unit := do
  let s ← getState
  let delayed ← needReg .DELAYED_START s.args.delayedStart
  if delayed && !s.readyIn then hold else pure ()

/-- Step 2: the lines are released, reset first, and the queue is flushed (R114). -/
def stepTwo : Eng Unit := do
  setLine .reset true
  waitFor .settleReset
  setLine .clock true
  waitFor .settleClock
  flush
  primitive fun s => s.setSeq .syncing

/-- Step 3, framed: the synchronisation byte (R115). -/
def syncStep : Eng Unit := handshakePart .synchronizationFailed do
  let s ← getState
  send [s.params.syncByte]
  flush
  waitFor .sync
  primitive fun s => s.setSeq .synced

/-- Step 4, framed: baud negotiation, and the local switch (R116). -/
def stepFour : Eng Unit := handshakePart .initializationFailed do
  let s ← getState
  let rate ← needReg .TARGET_BAUD s.args.targetBaud
  let mv ← needReg .VOLTAGE_MV s.args.voltageMv
  setBaudRate rate mv
  setLinkBaud rate
  primitive fun s => s.setSeq .ready

/-- The check of the 2-byte answer to mode-set: the first byte that is not ACK is the one recorded (R119, R120). -/
def modeSetCheck (r : List Byte) : Eng Unit :=
  if byteAt r 0 ≠ Config.ack then raise { kind := .deviceRejected, status := some (byteAt r 0) }
  else if byteAt r 1 ≠ Config.ack then raise { kind := .deviceRejected, status := some (byteAt r 1) }
  else pure ()

/-- Steps 3 and 4, G10: the mode-set byte (R119). -/
def modeSetStep : Eng Unit := handshakePart .synchronizationFailed do
  let s ← getState
  send [s.params.g10ModeSet]
  let r ← recvRaw 2
  modeSetCheck r
  primitive fun s => s.setSeq .synced
  primitive fun s => s.setSeq .ready

/-- INIT from the hold on (R112, R119). -/
def initTail : Eng Unit := do
  primitive fun s => s.setSeq .held
  handshakePart .synchronizationFailed stepTwo
  let s ← getState
  let v ← needReg .VARIANT s.seqr.variant
  match v with
  | .framed => do
    syncStep
    stepFour
  | .g10 => modeSetStep

/-- INIT from step 1 on (R112, R119). -/
def initSteps : Eng Unit := do
  handshakePart .synchronizationFailed stepOne
  holdReady
  initTail

/-- INIT's rule: the writes of R40, then the handshake (R112, R119). -/
def initBody (proto : Nat) : Eng Unit := do
  writes (sessionWrites proto)
  initSteps

/-- INIT goes on once `READY_IN` lifts the hold (R117). -/
def resumeInit (s : State) : Host.Outcome State Fault Refusal := finish (do initTail; primitive State.endRequest) s

/-- sync: step 3 of the framed handshake on its own, which is taken only from SYNCING (R115, R121). -/
def execSync (s : State) : Host.Outcome State Fault Refusal :=
  runUnit syncReady syncStep s

/-- g10-mode-set: the G10 handshake's exchange on its own, which is taken only from SYNCING (R119, R121). -/
def execG10ModeSet (s : State) : Host.Outcome State Fault Refusal :=
  runUnit modeSetReady modeSetStep s

/-- INIT (R40, R112, R119), accepted in every `SEQ` state, its rate and voltage checked as R97 says (R78). -/
def execReqInit (proto rate mv : Nat) (delayed : Bool) (verbose : Nat) (s : State) :
    Host.Outcome State Fault Refusal :=
  runRequest .init (rateOk rate mv) (latchInit proto rate mv delayed verbose) (initBody proto) s

/-- The line sequence of RESET_AND_RUN (R123). -/
def runLines : Eng Unit := do
  setLine .reset false
  waitFor .run
  setLine .reset true

/-- The Transport takes a wiring mode (R123). -/
def State.setWiring (s : State) (mode : Nat) : State := { s with line := { s.line with wiring := some mode } }

/-- RESET_AND_RUN: `mode` goes to the Transport as its wiring mode, and `SEQ <- IDLE` whether the lines could be driven
or not (R123). -/
def resetAndRunBody (mode : Nat) : Eng Unit := do
  update fun s => s.setWiring mode
  onRaise id (fun s => s.setSeq .idle) runLines
  primitive fun s => s.setSeq .idle

/-- RESET_AND_RUN (R123, R124). -/
def execReqResetAndRun (mode : Nat) (s : State) : Host.Outcome State Fault Refusal :=
  runRequest .resetAndRun always noLatch (resetAndRunBody mode) s

end Sys2Proof.Machine
end

