-- ==== Sys2Proof/Machine/Region.lean ====
section
/-! DEFINITION. The flash block controller (spec/43_block_controller.md R125 to R137): REGION in its three modes. -/

namespace Sys2Proof.Machine

/-- Erase a block that is not blank (R130, R132). -/
def eraseIf (notBlank : Bool) (a : Addr) : Eng Unit := if notBlank then eraseBody a else pure ()

/-- Erase mode (R130). -/
def eraseBlock (a e : Addr) : Eng Unit := do
  let nb ← blankBody a e
  if nb then eraseBody a else emit (.blankLeft a)

/-- Program mode (R131, R132): `blk` is the block, and `frames` reads it again for its transfer. -/
def programBlock (a e : Addr) (blk : List Byte) (frames : List (Eng (List Byte))) : Eng Unit :=
  if allErased blk then emit (.ffSkip a)
  else do
    let nb ← blankBody a e
    eraseIf nb a
    programBody a e frames

/-- Verify mode (R133, R134). -/
def verifyBlock (a e : Addr) (blk : List Byte) (frames : List (Eng (List Byte))) : Eng Unit :=
  if allErased blk then do
    let nb ← blankBody a e
    if nb then raise { kind := .mismatchError, addr := some a } else pure ()
  else verifyBody a e frames

/-- `BIDX` (R32). -/
def State.setBlock (s : State) (i : Nat) : State := { s with blk := { s.blk with bidx := some i } }

/-- `NBLK` (R32). -/
def State.setBlocks (s : State) (n : Nat) : State := { s with blk := { s.blk with nblk := some n } }

/-- Block `i` of the region (R125, R127). Erase mode does not read the buffer (R130). -/
def regionBlock (mode : CMode) (b : Buf) (base : Addr) (bs i : Nat) : Eng Unit := do
  primitive fun s => s.setBlock i
  let a := blockStart base bs i
  let e := blockEnd base bs i
  match mode with
  | .erase => eraseBlock a e
  | .program => do
    let blk ← memRead b (i * bs) bs
    programBlock a e blk (bufferFrames b (i * bs) bs)
  | .verify => do
    let blk ← memRead b (i * bs) bs
    verifyBlock a e blk (bufferFrames b (i * bs) bs)

/-- The `n` blocks from `i` on, in ascending order (R128). -/
def regionLoop (mode : CMode) (b : Buf) (base : Addr) (bs : Nat) : Nat → Nat → Eng Unit
  | 0, _ => pure ()
  | n + 1, i => do
    regionBlock mode b base bs i
    regionLoop mode b base bs n (i + 1)

/-- The first four writes of REGION (R125). -/
def regionWrites (mode : CMode) (b : Buf) (base : Addr) (size : Nat) : List (State → State) :=
  [fun s => { s with blk := { s.blk with cmode := some mode } }, fun s => { s with blk := { s.blk with rbuf := some b } },
    fun s => { s with blk := { s.blk with rbase := some base } }, fun s => { s with blk := { s.blk with rsize := some size } }]

/-- The arguments of REGION are latched into the same four registers when it is accepted (R34); its rule writes them again
with the same values (R125). -/
def latchRegion (mode : CMode) (b : Buf) (base : Addr) (size : Nat) (s : State) : State :=
  (regionWrites mode b base size).foldl (fun t w => w t) s

/-- REGION after these (R125): a region of size 0 is absent (R140). -/
def regionBlocks (mode : CMode) (b : Buf) (base : Addr) (size : Nat) : Eng Unit :=
  if size = 0 then pure ()
  else do
    let s ← getState
    let bs ← needReg .BLOCK_SZ s.seqr.blockSz
    primitive fun s => s.setBlocks (blockCount size bs)
    regionLoop mode b base bs (blockCount size bs) 0

/-- REGION's rule (R125). -/
def regionBody (mode : CMode) (b : Buf) (base : Addr) (size : Nat) : Eng Unit := do
  writes (regionWrites mode b base size)
  regionBlocks mode b base size

/-- REGION (R125). -/
def execReqRegion (mode : CMode) (b : Buf) (base : Addr) (size : Nat) (s : State) : Host.Outcome State Fault Refusal :=
  runRequest .region (regionReady b base size) (latchRegion mode b base size) (regionBody mode b base size) s

end Sys2Proof.Machine
end

