-- ==== Sys2Proof/Machine/Dispatch.lean ====
section
/-! DEFINITION. One arm per instruction. -/

namespace Sys2Proof.Machine

def exec (i : Instr) (s : State) : Host.Outcome State Fault Refusal :=
  match i with
  -- the framed commands
  | .reset => Sys2Proof.Machine.execReset s
  | .verify a e bytes => Sys2Proof.Machine.execVerify a e bytes s
  | .blockErase a => Sys2Proof.Machine.execBlockErase a s
  | .blankCheck a e => Sys2Proof.Machine.execBlankCheck a e s
  | .program a e bytes => Sys2Proof.Machine.execProgram a e bytes s
  | .baudSet code volt => Sys2Proof.Machine.execBaudSet code volt s
  | .checksum a e => Sys2Proof.Machine.execChecksum a e s
  | .siliconSignature => Sys2Proof.Machine.execSiliconSignature s
  -- the unframed units
  | .sync => Sys2Proof.Machine.execSync s
  | .g10ModeSet => Sys2Proof.Machine.execG10ModeSet s
  | .g10EraseWrite => Sys2Proof.Machine.execG10EraseWrite s
  | .g10CrcCheck => Sys2Proof.Machine.execG10CrcCheck s
  | .g10Ack => Sys2Proof.Machine.execG10Ack s
  | .g10Nack => Sys2Proof.Machine.execG10Nack s
  | .g10Word b0 b1 b2 b3 => Sys2Proof.Machine.execG10Word b0 b1 b2 b3 s
  -- the data and response frames
  | .dataFrame bytes last => Sys2Proof.Machine.execDataFrame bytes last s
  | .responseFrame bytes last => Sys2Proof.Machine.execResponseFrame bytes last s
  -- the requests
  | .reqInit proto rate mv delayed verbose => Sys2Proof.Machine.execReqInit proto rate mv delayed verbose s
  | .reqResetCmd => Sys2Proof.Machine.execReqResetCmd s
  | .reqSetBaud rate mv => Sys2Proof.Machine.execReqSetBaud rate mv s
  | .reqSetLinkBaud rate => Sys2Proof.Machine.execReqSetLinkBaud rate s
  | .reqSignature => Sys2Proof.Machine.execReqSignature s
  | .reqBlockErase a => Sys2Proof.Machine.execReqBlockErase a s
  | .reqBlankCheck a e => Sys2Proof.Machine.execReqBlankCheck a e s
  | .reqChecksum a e => Sys2Proof.Machine.execReqChecksum a e s
  | .reqBlockProgram a e b off => Sys2Proof.Machine.execReqBlockProgram a e b off s
  | .reqBlockVerify a e b off => Sys2Proof.Machine.execReqBlockVerify a e b off s
  | .reqRegion mode b base size => Sys2Proof.Machine.execReqRegion mode b base size s
  | .reqG10EraseWrite size => Sys2Proof.Machine.execReqG10EraseWrite size s
  | .reqG10CrcCheck size => Sys2Proof.Machine.execReqG10CrcCheck size s
  | .reqResetAndRun mode => Sys2Proof.Machine.execReqResetAndRun mode s

end Sys2Proof.Machine
end

