-- ==== Sys2Proof/Machine/Caller.lean ====
section
/-! DEFINITION. What the world outside does between two instructions: a unit or a request presented and decoded, the
Caller's moves on the Transport and the buffers (spec/20_memory.md R47, R55, R58), READY_IN (R117), bytes on the line
(R38), the reset input (R176), and the result view (spec/10_state.md R42). -/

namespace Sys2Proof.Machine

/-- Fetch: decode the bytes of a presented unit and run the instruction they spell. A request code outside R78, or
arguments that are none of R78's, are refused as a request is (R79). Bytes the Engine never sends are refused as I5 says,
and bytes on the line that are no response go to decode, which rejects them (R77). -/
def present (port : Port) (bytes : List Byte) (s : State) : Host.Outcome State Fault Refusal :=
  match decode s.params port bytes with
  | .ok i => exec i s
  | .error _ =>
    match port, bytes with
    | .request, code :: _ => .next (s.refuse code)
    | .request, [] => .next s
    | .response, _ => runUnit baudReady (takeMalformed bytes) s
    | _, _ => .next s.refuseUnit

/-- A move the Caller may make only while no request is in progress (R37, R58, D42). -/
def callerMove (s t : State) : Host.Outcome State Fault Refusal :=
  if s.seqr.op.isNone then .next t else .refused .callerBusy

/-- The Caller's write of a buffer (R36, R55). -/
def storeBuffer (b : Buf) (off : Nat) (bytes : List Byte) (s : State) : Host.Outcome State Fault Refusal :=
  match (s.buffer b).write off bytes with
  | some m => callerMove s (s.withBuffer b m)
  | none => .fault (.beyondBuffer b)

/-- `READY_IN` takes a level; asserted, it lifts the hold of a delayed start (R117). -/
def readyInput (level : Bool) (s : State) : Host.Outcome State Fault Refusal :=
  let s := { s with readyIn := level }
  if level && s.seqr.op == some .init then resumeInit s else .next s

/-- A level as the registers hold it (R21). -/
def levelNum (b : Bool) : Nat := if b then 1 else 0

/-- The value a register shows, `none` where it holds none (R15, R42). -/
def regValue (s : State) : Reg → Option RegVal
  | .SEQ => some (.num s.seqr.seq.code)
  | .OP => some (.num (s.seqr.op.elim 0 fun r => r.code.toNat))
  | .PROTO => s.seqr.proto.map .num
  | .VARIANT => s.seqr.variant.map fun v => .num v.code
  | .BLOCK_SZ => s.seqr.blockSz.map .num
  | .LINK_BAUD => s.seqr.linkBaud.map .num
  | .LINE_RESET => s.seqr.lineReset.map fun b => .num (levelNum b)
  | .LINE_CLOCK => s.seqr.lineClock.map fun b => .num (levelNum b)
  | .DEV_CODE => s.ident.devCode.map .bytes
  | .DEV_NAME => s.ident.devName.map .bytes
  | .FW_VER => s.ident.fwVer.map .bytes
  | .ID_VALID => some (.flag s.ident.idValid)
  | .CODE_END => s.ident.codeEnd.map fun a => .num a.toNat
  | .DATA_END => s.ident.dataEnd.map fun a => .num a.toNat
  | .CODE_SIZE => s.ident.codeSize.map .num
  | .DATA_SIZE => s.ident.dataSize.map .num
  | .FREQ => s.baud.freq.map fun b => .num b.toNat
  | .VMODE => s.baud.vmode.map fun b => .num b.toNat
  | .NOT_BLANK => s.result.notBlank.map .flag
  | .CKSUM16 => s.result.cksum16.map fun v => .num v.toNat
  | .LAST_STATUS => s.result.lastStatus.map fun b => .num b.toNat
  | .ERR => some (.num s.err.kind.code)
  | .ERR_STATUS => s.err.status.map fun b => .num b.toNat
  | .ERR_ADDR => s.err.addr.map fun a => .num a.toNat
  | .ERR_CAUSE => s.err.cause.map fun k => .num k.code
  | .ERR_OP => s.err.op.map fun b => .num b.toNat
  | .CMODE => s.blk.cmode.map fun m => .num m.code
  | .RBUF => s.blk.rbuf.map .buf
  | .RBASE => s.blk.rbase.map fun a => .num a.toNat
  | .RSIZE => s.blk.rsize.map .num
  | .NBLK => s.blk.nblk.map .num
  | .BIDX => s.blk.bidx.map .num
  | .FIDX => s.blk.fidx.map .num
  | .G10_RESP0 => s.g10.resp0.map fun b => .num b.toNat
  | .G10_RESP1 => s.g10.resp1.map fun b => .num b.toNat
  | .G10_CAP_CODE => s.g10.capCode.map fun b => .num b.toNat
  | .POLL_CNT => s.g10.pollCnt.map .num
  | .WIDX => s.g10.widx.map .num
  | .CRC_LOCAL => s.g10.crcLocal.map fun v => .num v.toNat
  | .CRC_DEV => s.g10.crcDev.map fun v => .num v.toNat
  | .CRC_OK => s.g10.crcOk.map .flag
  | .TARGET_BAUD => s.args.targetBaud.map .num
  | .VOLTAGE_MV => s.args.voltageMv.map .num
  | .DELAYED_START => s.args.delayedStart.map .flag
  | .PROTO_IN => s.args.protoIn.map .num
  | .VERBOSE => s.args.verbose.map .num

/-- The result view (R42): exposed only when `OP = NONE` (I2); a register that holds `none` is a fault (R41, I21). -/
def viewReg (r : Reg) (s : State) : Host.Outcome State Fault Refusal :=
  if s.seqr.op.isSome then .refused .viewBusy
  else
    match regValue s r with
    | some v => .next { s with view := some (r, v) }
    | none => .fault (.readNone r)

/-- The event record (R174): the emitted events for which `VERBOSE > 0` held. An event emitted while `VERBOSE` held `none`
makes the record a read of that `none`, which is a fault (R41, I21). -/
def recorded : List Emitted → Except Fault (List Diag)
  | [] => .ok []
  | d :: r =>
    match d.level, recorded r with
    | none, _ => .error (.readNone .VERBOSE)
    | some _, .error f => .error f
    | some v, .ok ds => .ok (if 0 < v then d.event :: ds else ds)

/-- One input of the outside world. -/
def takeInput (x : Input) (s : State) : Host.Outcome State Fault Refusal :=
  match x with
  | .present port bytes => present port bytes s
  | .openTransport => callerMove s (s.setOpen true)
  | .closeTransport => .next (s.setOpen false)
  | .ready level => readyInput level s
  | .allocate b size => callerMove s (s.withBuffer b (Memory.filled size))
  | .store b off bytes => storeBuffer b off bytes s
  | .deliver bytes => .next (s.receive bytes)
  | .engineReset => .next s.engineReset
  | .read r => viewReg r s

end Sys2Proof.Machine
end

