-- ==== Sys2Proof/Machine/Step.lean ====
section
/-! DEFINITION. One step: the next input of the outside world, in program order (spec/20_memory.md R52). A request or a
unit of the wire runs to its end in one step (spec/00_scope.md R8, R13); only the hold of a delayed start leaves a
request in progress between two steps (spec/42_handshake.md R117). The steps of R7, one for each primitive, are
`primitiveStep` of Machine/Primitives.lean. -/

namespace Sys2Proof.Machine

/-- With nothing presented the Engine keeps every register (R175). -/
def step (s : State) : Host.Outcome State Fault Refusal :=
  match s.inputs with
  | [] => .next s
  | x :: rest => takeInput x { s with inputs := rest }

/-- The state with a word of spec/opcode_table.json presented, so that the next step decodes and runs it. -/
def State.withFetchWord (s : State) (nbits w : Nat) : State :=
  let u := tableUnit s.params nbits w
  { s with inputs := .present u.1 u.2 :: s.inputs }

end Sys2Proof.Machine
end

