-- ==== Sys2Proof/Machine/Primitives.lean ====
section
/-! DEFINITION. An instruction one primitive at a time (spec/00_scope.md R7, R11; spec/10_state.md R17): where it is
taken, the state its rule begins in, its rule as the primitives of R11, the state of the Engine after the first `k` of them,
and the step from there to the next. `exec` is the whole of the run. -/

namespace Sys2Proof.Machine

/-- Where an instruction is taken, besides `OP = NONE`: the precondition of a request (R78), and where the rules send a
unit of the wire (log entry 1). -/
def accepts (i : Instr) (s : State) : Bool :=
  match i with
  | .reset | .verify .. | .blockErase _ | .blankCheck .. | .program .. | .checksum .. | .dataFrame .. => framedReady s
  | .baudSet .. | .responseFrame .. => baudReady s
  | .siliconSignature => signatureReady s
  | .sync => syncReady s
  | .g10ModeSet => modeSetReady s
  | .g10EraseWrite | .g10CrcCheck | .g10Ack | .g10Nack | .g10Word .. => g10Ready s
  | .reqInit _ rate mv _ _ => rateOk rate mv s
  | .reqResetCmd | .reqBlockErase _ => framedReady s
  | .reqSetBaud rate mv => baudOk rate mv s
  | .reqSignature => signatureReady s
  | .reqBlankCheck a e | .reqChecksum a e => rangeReady a e s
  | .reqBlockProgram a e b off | .reqBlockVerify a e b off => sourceReady a e b off s
  | .reqRegion _ b base size => regionReady b base size s
  | .reqG10EraseWrite size => wordsReady size s
  | .reqG10CrcCheck size => imageReady size s
  | .reqSetLinkBaud _ | .reqResetAndRun _ => always s

/-- The arguments a request latches when it is accepted (R34, R40). -/
def latched (i : Instr) (s : State) : State :=
  match i with
  | .reqInit proto rate mv delayed verbose => latchInit proto rate mv delayed verbose s
  | .reqSetBaud rate mv => latchBaud rate mv s
  | .reqRegion mode b base size => latchRegion mode b base size s
  | .reset | .verify .. | .blockErase _ | .blankCheck .. | .program .. | .baudSet .. | .checksum .. | .siliconSignature
  | .sync | .g10ModeSet | .g10EraseWrite | .g10CrcCheck | .g10Ack | .g10Nack | .g10Word .. | .dataFrame ..
  | .responseFrame .. | .reqResetCmd | .reqSetLinkBaud _ | .reqSignature | .reqBlockErase _ | .reqBlankCheck ..
  | .reqChecksum .. | .reqBlockProgram .. | .reqBlockVerify .. | .reqG10EraseWrite _
  | .reqG10CrcCheck _ | .reqResetAndRun _ => noLatch s

/-- The state the first primitive of an instruction begins in: a request is accepted and its arguments are latched
(R79). -/
def started (i : Instr) (s : State) : State :=
  match i.request with
  | some r => latched i (s.accept r)
  | none => s

/-- The body of an instruction's rule. -/
def body (i : Instr) : Eng Unit :=
  match i with
  | .reset | .reqResetCmd => resetBody
  | .verify a e bytes => verifyBody a e (operandFrames bytes)
  | .blockErase a | .reqBlockErase a => eraseBody a
  | .blankCheck a e | .reqBlankCheck a e => blankUnit a e
  | .program a e bytes => programBody a e (operandFrames bytes)
  | .baudSet code volt => baudSetBody code volt
  | .checksum a e | .reqChecksum a e => checksumBody a e
  | .siliconSignature | .reqSignature => signatureBody
  | .sync => syncStep
  | .g10ModeSet => modeSetStep
  | .g10EraseWrite => eraseWriteOpen
  | .g10CrcCheck => crcCheckOpen
  | .g10Ack => ackUnit
  | .g10Nack => nackUnit
  | .g10Word b0 b1 b2 b3 => wordUnit [b0, b1, b2, b3]
  | .dataFrame bytes last => sendData bytes last
  | .responseFrame bytes last => takeResponse bytes last
  | .reqInit proto .. => initBody proto
  | .reqSetBaud rate mv => setBaudRate rate mv
  | .reqSetLinkBaud rate => setLinkBaud rate
  | .reqBlockProgram a e b off => programBody a e (bufferFrames b off (rangeLength a e))
  | .reqBlockVerify a e b off => verifyBody a e (bufferFrames b off (rangeLength a e))
  | .reqRegion mode b base size => regionBody mode b base size
  | .reqG10EraseWrite size => eraseWriteBody size
  | .reqG10CrcCheck size => crcCheckBody size
  | .reqResetAndRun mode => resetAndRunBody mode

/-- An instruction's rule as its primitives; a request's ends with `OP <- NONE` (R79). -/
def ruleOf (i : Instr) : Eng Unit :=
  match i.request with
  | some _ => do
    body i
    primitive State.endRequest
  | none => body i

/-- The same state, with an Engine reset to come after `k` primitives. -/
def State.resetAfter (k : Nat) (s : State) : State :=
  { s with moments := (s.moments ++ List.replicate k ({} : Moment)).take k ++ { reset := true } :: s.moments.drop k }

/-- The state a rule has reached after `k` primitives, which is where a reset would find it there (R7, R176); none where
it has ended, holds or was reset before it begins another one. -/
def stateAfter (m : Eng Unit) (k : Nat) (s : State) : Option State :=
  match m (s.resetAfter k) with
  | .error .reset u => if (s.moments.take k).any fun x => x.reset then none else some u
  | _ => none

/-- The state of the Engine after the first `k` primitives of an instruction, between two of which everything the world
does arrives (R7, R17, R165). -/
def between (i : Instr) (k : Nat) (s : State) : Option State :=
  if s.seqr.op.isNone && accepts i s then stateAfter (ruleOf i) k (started i s) else none

/-- One step of the Engine as R7 has it: from where an instruction stands after `k` primitives to where it stands after one
more, or, after the last one, to its outcome. `exec` is all of these steps, one after the other. -/
def primitiveStep (i : Instr) (k : Nat) (s : State) : State ⊕ Host.Outcome State Fault Refusal :=
  match between i (k + 1) s with
  | some u => .inl u
  | none => .inr (exec i s)

/-- `between` of a held INIT that goes on, after the first `k` primitives from the hold on (R117). -/
def betweenHeld (k : Nat) (s : State) : Option State :=
  stateAfter (do
    initTail
    primitive State.endRequest) k s

end Sys2Proof.Machine
end

