-- ==== Sys2Proof/Safety.lean ====
section
/-! DEFINITION. The terms claims are stated in: what the line is said to do during an exchange, what a rule leaves on it,
which units the Engine may put on the wire, and the invariant of the machine. -/

namespace Sys2Proof.Machine

/-! ## What the line does -/

/-- A Transport call during which nothing arrives and nothing else happens. -/
def quiet : Tick := {}

/-- A Transport call during which the line delivers `bytes` and nothing else happens. -/
def delivers (bytes : List Byte) : Tick := { deliver := bytes }

/-- The calls of one `Send` (R93) during which the line returns `echo` and, behind it, the Target answers `reply`. With
`ECHO = false` there is no echo to return and none to read. -/
def sendTicks (p : Params) (echo reply : List Byte) : List Tick :=
  if p.echo then [delivers (echo ++ reply), quiet] else [delivers reply]

/-- The calls of an exchange (R94): one `Send`, and the two reads of the response `reply` begins with (R89). -/
def exchangeTicks (p : Params) (echo reply : List Byte) : List Tick := sendTicks p echo reply ++ [quiet, quiet]

/-- What a completed `Send` leaves in the transcript (R80, R93). -/
def sendEvents (p : Params) (bytes : List Byte) : List Event :=
  .tx bytes :: if p.echo then [.echo bytes.length] else []

/-- What a completed exchange leaves in the transcript. -/
def exchangeEvents (p : Params) (bytes pl : List Byte) : List Event := sendEvents p bytes ++ [.rxResp pl]

/-- An echo of any content (R93): only its length is fixed. -/
def EchoLike (f : List Byte → List Byte) : Prop := ∀ bytes, (f bytes).length = bytes.length

/-- The calls of sending `bytes` and reading the response `pl`. -/
def talk (p : Params) (f : List Byte → List Byte) (bytes pl : List Byte) : List Tick :=
  exchangeTicks p (f bytes) (dataBytes p pl true)

/-- The calls of a command whose response is `pl` (R94). -/
def commandTicks (p : Params) (f : List Byte → List Byte) (o : Opcode) (q pl : List Byte) : List Tick :=
  talk p f (commandBytes p o.byte q) pl

/-- What a command whose response is `pl` leaves in the transcript. -/
def commandEvents (p : Params) (o : Opcode) (q pl : List Byte) : List Event :=
  exchangeEvents p (commandBytes p o.byte q) pl

/-- The calls of a transfer whose data frames are each answered by two ACKs (R106). -/
def transferTicks (p : Params) (f : List Byte → List Byte) : List (List Byte) → List Tick
  | [] => []
  | c :: r => talk p f (dataBytes p c r.isEmpty) [Config.ack, Config.ack] ++ transferTicks p f r

/-- The settle delay after a data frame, in verify mode only (R106). -/
def settleEvents : StreamMode → List Event
  | .program => []
  | .verify => [.wait .verifyFrame]

/-- What one answered data frame leaves in the transcript. -/
def frameEvents (p : Params) (mode : StreamMode) (c : List Byte) (last : Bool) (pl : List Byte) : List Event :=
  sendEvents p (dataBytes p c last) ++ settleEvents mode ++ [.rxResp pl]

/-- What a transfer leaves in the transcript. -/
def transferEvents (p : Params) (mode : StreamMode) : List (List Byte) → List Event
  | [] => []
  | c :: r => frameEvents p mode c r.isEmpty [Config.ack, Config.ack] ++ transferEvents p mode r

/-- The calls of a transfer up to the frame `c`, which is answered by `pl`, the frames before it by two ACKs. -/
def failedTicks (p : Params) (f : List Byte → List Byte) (pre : List (List Byte)) (c : List Byte) (last : Bool)
    (pl : List Byte) : List Tick :=
  pre.flatMap (fun d => talk p f (dataBytes p d false) [Config.ack, Config.ack]) ++ talk p f (dataBytes p c last) pl

/-- What they leave in the transcript. -/
def failedEvents (p : Params) (mode : StreamMode) (pre : List (List Byte)) (c : List Byte) (last : Bool)
    (pl : List Byte) : List Event :=
  pre.flatMap (fun d => frameEvents p mode d false [Config.ack, Config.ack]) ++ frameEvents p mode c last pl

/-- The calls of a program command that succeeds (R104). -/
def programTicks (p : Params) (f : List Byte → List Byte) (a e : Addr) (bytes : List Byte) : List Tick :=
  commandTicks p f .program (rangePayload a e) [Config.ack] ++ transferTicks p f (framesOf bytes)
    ++ [delivers (dataBytes p [Config.ack] true), quiet]

/-- What a program command that succeeds leaves in the transcript. -/
def programEvents (p : Params) (a e : Addr) (bytes : List Byte) : List Event :=
  commandEvents p .program (rangePayload a e) [Config.ack] ++ transferEvents p .program (framesOf bytes)
    ++ [.wait (.progSettle (rangeLength a e)), .rxResp [Config.ack]]

/-- The calls of a verify command that succeeds (R105). -/
def verifyTicks (p : Params) (f : List Byte → List Byte) (a e : Addr) (bytes : List Byte) : List Tick :=
  commandTicks p f .verify (rangePayload a e) [Config.ack] ++ transferTicks p f (framesOf bytes)

/-- What a verify command that succeeds leaves in the transcript. -/
def verifyEvents (p : Params) (a e : Addr) (bytes : List Byte) : List Event :=
  commandEvents p .verify (rangePayload a e) [Config.ack] ++ transferEvents p .verify (framesOf bytes)

/-- The status byte of a blank-check answer (R102). -/
def blankStatus (notBlank : Bool) : Byte := if notBlank then Config.stBlankFail else Config.ack

/-- The calls of a blank-check and, where the block is not blank, of its erase (R130, R132). -/
def clearTicks (p : Params) (f : List Byte → List Byte) (a e : Addr) (notBlank : Bool) : List Tick :=
  commandTicks p f .blankCheck (blankPayload p a e) [blankStatus notBlank]
    ++ if notBlank then commandTicks p f .blockErase (le3 a) [Config.ack] else []

/-- What they leave in the transcript. -/
def clearEvents (p : Params) (a e : Addr) (notBlank : Bool) : List Event :=
  commandEvents p .blankCheck (blankPayload p a e) [blankStatus notBlank]
    ++ if notBlank then commandEvents p .blockErase (le3 a) [Config.ack] else []

/-- The calls of one block that is processed without error, `notBlank` being the Target's answer to its blank-check
(R130 to R134). -/
def blockTicks (p : Params) (f : List Byte → List Byte) (mode : CMode) (a e : Addr) (blk : List Byte)
    (notBlank : Bool) : List Tick :=
  match mode with
  | .erase => clearTicks p f a e notBlank
  | .program => if allErased blk then [] else clearTicks p f a e notBlank ++ programTicks p f a e blk
  | .verify =>
    if allErased blk then commandTicks p f .blankCheck (blankPayload p a e) [Config.ack] else verifyTicks p f a e blk

/-- What one block that is processed without error leaves in the transcript. -/
def blockEvents (p : Params) (mode : CMode) (a e : Addr) (blk : List Byte) (notBlank : Bool) : List Event :=
  match mode with
  | .erase => clearEvents p a e notBlank
  | .program => if allErased blk then [] else clearEvents p a e notBlank ++ programEvents p a e blk
  | .verify =>
    if allErased blk then commandEvents p .blankCheck (blankPayload p a e) [Config.ack] else verifyEvents p a e blk

/-- What one block that is processed without error leaves in the diagnostics (R136). -/
def blockDiags (mode : CMode) (a : Addr) (blk : List Byte) (notBlank : Bool) : List Diag :=
  match mode with
  | .erase => if notBlank then [] else [.blankLeft a]
  | .program => if allErased blk then [.ffSkip a] else []
  | .verify => []

/-- The calls of the blocks from `i` on of a region of `m`, one answer for each (R127, R128). -/
def regionTicks (p : Params) (f : List Byte → List Byte) (mode : CMode) (m : Memory) (base : Addr) (bs : Nat) :
    Nat → List Bool → List Tick
  | _, [] => []
  | i, nb :: r =>
    blockTicks p f mode (blockStart base bs i) (blockEnd base bs i) (m.slice (i * bs) bs) nb
      ++ regionTicks p f mode m base bs (i + 1) r

/-- What they leave in the transcript. -/
def regionEvents (p : Params) (mode : CMode) (m : Memory) (base : Addr) (bs : Nat) : Nat → List Bool → List Event
  | _, [] => []
  | i, nb :: r =>
    blockEvents p mode (blockStart base bs i) (blockEnd base bs i) (m.slice (i * bs) bs) nb
      ++ regionEvents p mode m base bs (i + 1) r

/-- What they leave in the diagnostics. -/
def regionDiags (mode : CMode) (m : Memory) (base : Addr) (bs : Nat) : Nat → List Bool → List Diag
  | _, [] => []
  | i, nb :: r =>
    blockDiags mode (blockStart base bs i) (m.slice (i * bs) bs) nb ++ regionDiags mode m base bs (i + 1) r

/-- A mode that asks the Target whether this block is blank (R130, R131, R133). -/
def checksBlank : CMode → List Byte → Bool
  | .erase, _ => true
  | .program, blk => !allErased blk
  | .verify, blk => allErased blk

/-- A mode that erases this block where it is not blank (R130, R132). -/
def erasesBlock : CMode → List Byte → Bool
  | .erase, _ => true
  | .program, blk => !allErased blk
  | .verify, _ => false

/-- What goes before the program or verify command of a block: in program mode a blank-check, and an erase where it is
called for (R132). -/
def beforeTransfer {α : Type} (mode : StreamMode) (clearing : List α) : List α :=
  match mode with
  | .program => clearing
  | .verify => []

/-- The command that opens a transfer. -/
def StreamMode.opcode : StreamMode → Opcode
  | .program => .program
  | .verify => .verify

/-- The mode of the controller that runs it. -/
def StreamMode.region : StreamMode → CMode
  | .program => .program
  | .verify => .verify

/-- The ways in which the Target's answers make a block fail: the calls, what they leave in the transcript, and the error
(R130 to R134). -/
inductive BlockFails (p : Params) (f : List Byte → List Byte) :
    CMode → Addr → Addr → List Byte → List Tick → List Event → Err → Prop where
  /-- the blank-check is answered by neither of its two statuses (R102) -/
  | check {mode : CMode} {a e : Addr} {blk : List Byte} {b : Byte} (h : checksBlank mode blk = true)
      (hb : b ≠ Config.ack) (hn : b ≠ Config.stBlankFail) :
    BlockFails p f mode a e blk (commandTicks p f .blankCheck (blankPayload p a e) [b])
      (commandEvents p .blankCheck (blankPayload p a e) [b]) { kind := .deviceRejected, status := some b }
  /-- verify mode: a block that must be blank is not (R133) -/
  | notBlank {a e : Addr} {blk : List Byte} (h : allErased blk = true) :
    BlockFails p f .verify a e blk (commandTicks p f .blankCheck (blankPayload p a e) [blankStatus true])
      (commandEvents p .blankCheck (blankPayload p a e) [blankStatus true]) { kind := .mismatchError, addr := some a }
  /-- the erase is rejected (R101) -/
  | erase {mode : CMode} {a e : Addr} {blk : List Byte} {b : Byte} (h : erasesBlock mode blk = true)
      (hb : b ≠ Config.ack) :
    BlockFails p f mode a e blk
      (commandTicks p f .blankCheck (blankPayload p a e) [blankStatus true] ++ commandTicks p f .blockErase (le3 a) [b])
      (commandEvents p .blankCheck (blankPayload p a e) [blankStatus true] ++ commandEvents p .blockErase (le3 a) [b])
      { kind := .deviceRejected, status := some b }
  /-- the program or verify command is rejected (R104, R105) -/
  | command {mode : StreamMode} {a e : Addr} {blk : List Byte} {nb : Bool} {b : Byte} (h : allErased blk = false)
      (hb : b ≠ Config.ack) :
    BlockFails p f mode.region a e blk
      (beforeTransfer mode (clearTicks p f a e nb) ++ commandTicks p f mode.opcode (rangePayload a e) [b])
      (beforeTransfer mode (clearEvents p a e nb) ++ commandEvents p mode.opcode (rangePayload a e) [b])
      { kind := .deviceRejected, status := some b }
  /-- a data frame is not answered by two ACKs (R107, R108) -/
  | frame {mode : StreamMode} {a e : Addr} {blk c : List Byte} {nb : Bool} {pre post : List (List Byte)} {b0 b1 : Byte}
      (h : allErased blk = false) (hs : framesOf blk = pre ++ c :: post) (hb : ¬ (b0 = Config.ack ∧ b1 = Config.ack)) :
    BlockFails p f mode.region a e blk
      (beforeTransfer mode (clearTicks p f a e nb) ++ commandTicks p f mode.opcode (rangePayload a e) [Config.ack]
        ++ failedTicks p f pre c post.isEmpty [b0, b1])
      (beforeTransfer mode (clearEvents p a e nb) ++ commandEvents p mode.opcode (rangePayload a e) [Config.ack]
        ++ failedEvents p mode pre c post.isEmpty [b0, b1])
      { kind := mode.error, addr := some a }
  /-- the completion response of program is not ACK (R104) -/
  | completion {a e : Addr} {blk : List Byte} {nb : Bool} {b : Byte} (h : allErased blk = false) (hb : b ≠ Config.ack) :
    BlockFails p f .program a e blk
      (clearTicks p f a e nb ++ commandTicks p f .program (rangePayload a e) [Config.ack]
        ++ transferTicks p f (framesOf blk) ++ [delivers (dataBytes p [b] true), quiet])
      (clearEvents p a e nb ++ commandEvents p .program (rangePayload a e) [Config.ack]
        ++ transferEvents p .program (framesOf blk) ++ [.wait (.progSettle (rangeLength a e)), .rxResp [b]])
      { kind := .programFailed, addr := some a }

/-- The calls of sending unframed bytes and reading the unframed answer `reply` in one read. -/
def rawTicks (p : Params) (f : List Byte → List Byte) (bytes reply : List Byte) : List Tick :=
  sendTicks p (f bytes) reply ++ [quiet]

/-- What they leave in the transcript. -/
def rawEvents (p : Params) (bytes reply : List Byte) : List Event := sendEvents p bytes ++ [.rxRaw reply]

/-- The calls of poll attempts that give no data or a byte each (R148). -/
def pollTicks (misses : List (Option Byte)) : List Tick := misses.map fun m => delivers m.toList

/-- What poll attempts leave in the transcript. -/
def pollEvents (misses : List (Option Byte)) : List Event :=
  misses.map fun m => match m with | none => .rxNone | some b => .rxRaw [b]

/-- The `n` words of an image from word `w` on (R149). -/
def imageWords (m : Memory) : Nat → Nat → List (List Byte)
  | 0, _ => []
  | n + 1, w => m.slice (Config.g10Word * w) Config.g10Word :: imageWords m n (w + 1)

/-- The calls of words that are each acknowledged (R149, R151). -/
def wordTicks (p : Params) (f : List Byte → List Byte) (words : List (List Byte)) : List Tick :=
  words.flatMap fun b => rawTicks p f b [Config.ack]

/-- What they leave in the transcript. -/
def wordEvents (p : Params) (words : List (List Byte)) : List Event :=
  words.flatMap fun b => rawEvents p b [Config.ack]

/-- The calls of steps 1 and 2 of the handshake: parity, rate and two lines; then two lines and the flush. -/
def linesTicks : List Tick := List.replicate 7 quiet

/-- What step 1 leaves in the transcript (R113). -/
def stepOneEvents (p : Params) : List Event :=
  [.parity p.parity, .baud p.initBaud, .line .reset false, .line .clock false]

/-- What step 2 leaves in the transcript (R114). -/
def stepTwoEvents : List Event :=
  [.line .reset true, .wait .settleReset, .line .clock true, .wait .settleClock, .flush]

/-- The calls of steps 3 and 4, framed: the synchronisation byte and the flush, then baud-set answered by ACK and the
two bytes `freq` and `vmode`, then the local switch (R115, R116). -/
def syncTicks (p : Params) (f : List Byte → List Byte) (code volt freq vmode : Byte) : List Tick :=
  sendTicks p (f [p.syncByte]) [] ++ [quiet]
    ++ commandTicks p f .baudSet [code, volt] [Config.ack, freq, vmode] ++ [quiet]

/-- What they leave in the transcript. -/
def syncEvents (p : Params) (rate : Nat) (code volt freq vmode : Byte) : List Event :=
  sendEvents p [p.syncByte] ++ [.flush, .wait .sync]
    ++ commandEvents p .baudSet [code, volt] [Config.ack, freq, vmode] ++ [.baud rate]

/-- The state with this script to come, these bytes in the receive queue, and these lines added to the transcript. -/
def State.onLine (s : State) (script : List Tick) (rxq : List Byte) (events : List Event) : State :=
  { s with script := script, line := { s.line with rxq := rxq }, hist := s.hist ++ events }

/-- An exchange is over: its script used up, nothing left in the queue, its lines in the transcript, its status byte in
`LAST_STATUS` (R30). -/
def State.answered (s : State) (script : List Tick) (events : List Event) (status : Byte) : State :=
  (s.onLine script [] events).setStatus status

/-- The error registers are cleared, as when a request is accepted (R79). -/
def State.cleared (s : State) : State := { s with err := {} }

/-- What every Transport call and the end of every request may change: the queue and whether the Transport is open, the
script, the moments, the transcript, the diagnostics, the error registers and `OP`. Everything else is as in `s`. -/
def State.lineOf (s t : State) : State :=
  { s with
    line := { s.line with isOpen := t.line.isOpen, rxq := t.line.rxq }
    script := t.script, moments := t.moments, hist := t.hist, diags := t.diags, err := t.err
    seqr := { s.seqr with op := t.seqr.op } }

/-- Nothing arrives between the primitives to come. -/
def State.calm (s : State) : Prop := s.moments = []

/-- The Transport is open, nothing is left over in the receive queue, and nothing arrives between the primitives. -/
def State.lineClear (s : State) : Prop := s.line.isOpen = true ∧ s.line.rxq = [] ∧ s.calm

/-- No request arrives and no Engine reset happens at the primitives to come. -/
def State.undisturbed (s : State) : Prop := ∀ m ∈ s.moments, m.reset = false ∧ m.busy = []

/-- No Engine reset happens at the primitives to come. -/
def State.noReset (s : State) : Prop := ∀ m ∈ s.moments, m.reset = false

/-! ## The units of the wire -/

/-- A unit the Engine may send (R59 to R67): a command frame with one of the eight opcodes and at most 255 payload
bytes, a data frame with 1 to 256 payload bytes, or unframed bytes. -/
inductive WireUnit (p : Params) : List Byte → Prop where
  | command (o : Opcode) (pl : List Byte) (h : pl.length ≤ 255) : WireUnit p (commandBytes p o.byte pl)
  | data (pl : List Byte) (last : Bool) (h0 : 1 ≤ pl.length) (h : pl.length ≤ 256) : WireUnit p (dataBytes p pl last)
  | sync : WireUnit p [p.syncByte]
  | modeSet : WireUnit p [p.g10ModeSet]
  | eraseWrite : WireUnit p [p.g10EraseWrite]
  | crcCheck : WireUnit p [p.g10CrcCheck]
  | ack : WireUnit p [Config.ack]
  | nack : WireUnit p [Config.nack]
  | word (b0 b1 b2 b3 : Byte) : WireUnit p [b0, b1, b2, b3]

/-- Each line of a transcript that sends bytes sends a whole unit of the wire. -/
def sendsUnits (p : Params) (events : List Event) : Prop := ∀ bytes, Event.tx bytes ∈ events → WireUnit p bytes

/-- The last line sends the beginning of a unit, as a write that fails does (R160), and every line before it that sends
bytes sends a whole unit. -/
def cutShort (p : Params) (events : List Event) : Prop :=
  ∃ whole bytes unit, events = whole ++ [.tx bytes] ∧ sendsUnits p whole ∧ WireUnit p unit ∧ bytes <+: unit

/-- The error registers report `Io`, as the error itself or as the cause of a handshake error (R118, R120, R157). -/
def State.endedWithIo (s : State) : Prop :=
  s.err.kind = .io ∨
    (s.err.kind = .synchronizationFailed ∨ s.err.kind = .initializationFailed) ∧ s.err.cause = some .io

/-! ## The invariant -/

/-- What holds of the buffers and of each register in every state, after every single primitive too. -/
structure State.Base (s : State) : Prop where
  /-- the buffers keep their canonical form -/
  codeWf : s.code.wf = true
  dataWf : s.data.wf = true
  /-- the sequencer leaves IDLE only in a session (R16, R40) -/
  session : s.seqr.seq ≠ .idle → s.seqr.proto.isSome = true
  /-- with `ID_VALID` the identity registers hold one signature record (R22 to R27) -/
  identified : s.ident.idValid = true → ∃ d : List Byte, d.length = 22 ∧ s.ident = identOf s.params d
  /-- the poll uses at most its attempts (R33, R148) -/
  pollBound : ∀ n, s.g10.pollCnt = some n → n ≤ Config.g10PollMax

/-- `VARIANT` and `BLOCK_SZ` are those of `PROTO` (R18, R19). -/
def State.sessionAgrees (s : State) : Prop :=
  s.seqr.variant = s.seqr.proto.map s.params.variantOf ∧ s.seqr.blockSz = s.seqr.proto.map s.params.blockSize

/-- The identity registers are cleared or hold one signature record (R22 to R27). -/
def State.identityWhole (s : State) : Prop := s.ident = {} ∨ s.ident.idValid = true

/-- `CRC_OK` compares the two CRC registers (R154). -/
def State.crcCompared (s : State) : Prop :=
  ∀ b, s.g10.crcOk = some b → ∃ l d, s.g10.crcLocal = some l ∧ s.g10.crcDev = some d ∧ b = (l == d)

/-- What holds of the registers and the buffers wherever no rule is in the middle of writing the registers of one group. -/
structure State.Core (s : State) : Prop extends s.Base where
  agrees : s.sessionAgrees
  whole : s.identityWhole
  compared : s.crcCompared

/-- What holds of `u` when instruction `i` has come from `s` to `u`: the core, but that the registers a rule writes one by
one (R11) may disagree with each other until it has written the last. An INIT writes the session's registers before
anything enters the transcript (R40), the signature writes the identity registers (R100), and G10_CRC_CHECK writes
`CRC_DEV` before it reads the image whose CRC goes to `CRC_LOCAL` (R153, R154). -/
structure State.Midway (s : State) (i : Instr) (u : State) : Prop extends u.Base where
  agrees : u.sessionAgrees ∨ i.request = some .init ∧ u.hist = s.hist
  whole : u.identityWhole ∨ i = .siliconSignature ∨ i = .reqSignature ∨ i.request = some .init ∧ u.hist = s.hist
  compared : u.crcCompared ∨ i.request = some .g10CrcCheck

/-- A delayed start holds: `OP = INIT` and `SEQ = IDLE`, both lines low, `READY_IN` not asserted (R117). -/
structure State.Held (s : State) : Prop where
  op : s.seqr.op = some .init
  seq : s.seqr.seq = .idle
  delayed : s.args.delayedStart = some true
  notReady : s.readyIn = false
  proto : s.seqr.proto.isSome = true
  resetLow : s.seqr.lineReset = some false
  clockLow : s.seqr.lineClock = some false
  rate : ∃ rate mv, s.args.targetBaud = some rate ∧ s.args.voltageMv = some mv ∧ rateOk rate mv s = true

/-- The invariant of the machine between two steps: the core, and no request in progress but a held INIT. -/
def State.Inv (s : State) : Prop := s.Core ∧ (s.seqr.op = none ∨ s.Held)

end Sys2Proof.Machine
end

