-- ==== Sys2Proof/Certificates/Slice0/Obligations.lean ====
section
/-! DEFINITION. The statements for the provers. A statement about a written-out word or about `State.reset` rests on the
one instance of the parameters (log entry 2); every other is about all parameters. -/

open Sys2Proof Sys2Proof.Machine

/-! ## Encoding -/

/-- Decoding an encoded well-formed instruction gives it back, for all parameters the spec allows under which the
unframed bytes can be told apart. The last condition, and the layout of the request port, are the model's (log entries
4 and 5). -/
def Obligations.DecodeEncode : Prop :=
  ∀ (p : Params) (i : Instr), p.valid = true → p.rawDistinct = true → i.wellFormed = true →
    decode p i.port (encode p i) = .ok i

/-- Frames and bytes written out in spec/40_frame_codec.md, spec/41_commands.md and spec/95_test_vectors.md decode to
the instructions they stand for, and a request code of R78 to its request. The raw bytes are read as log entries 2 and
5 say: the suggested parameters, and the order of R67. -/
def Obligations.SpecWordsDecode : Prop :=
  decode Params.suggested .command [0x01, 0x01, 0x00, 0xFF, 0x03] = .ok .reset ∧
  decode Params.suggested .command [0x01, 0x01, 0xC0, 0x3F, 0x03] = .ok .siliconSignature ∧
  decode Params.suggested .command [0x01, 0x04, 0x22, 0x00, 0x04, 0x00, 0xD6, 0x03] = .ok (.blockErase 0x000400#24) ∧
  decode Params.suggested .command [0x01, 0x03, 0x9A, 0x00, 0x21, 0x42, 0x03] = .ok (.baudSet 0x00#8 0x21#8) ∧
  decode Params.suggested .command [0x01, 0x08, 0x32, 0x00, 0x04, 0x00, 0xFF, 0x07, 0x00, 0x00, 0xBC, 0x03] =
    .ok (.blankCheck 0x000400#24 0x0007FF#24) ∧
  decode Params.suggested .command [0x01, 0x07, 0xB0, 0x00, 0x00, 0x00, 0xFF, 0x03, 0x00, 0x47, 0x03] =
    .ok (.checksum 0x000000#24 0x0003FF#24) ∧
  decode Params.suggested .data [0x02, 0x01, 0xAA, 0x55, 0x17] = .ok (.dataFrame [0xAA#8] false) ∧
  decode Params.suggested .response [0x02, 0x01, 0x06, 0xF9, 0x03] = .ok (.responseFrame [0x06#8] true) ∧
  decode Params.suggested .raw [0x00] = .ok .sync ∧
  decode Params.suggested .raw [0x15] = .ok .g10Nack ∧
  decode Params.suggested .request [0x02] = .ok .reqResetCmd

/-- The checksum is the sum negated mod 256, over the integers (R12). -/
def Obligations.ChecksumDefinition : Prop :=
  ∀ s : List Byte, (cks s).toNat = (256 - (s.map BitVec.toNat).sum % 256) % 256

/-- For every frame an encoder produces, LEN, the covered bytes and SUM add up to 0 mod 256: these are the bytes
between the start marker and the end marker (R84). -/
def Obligations.FrameSumsToZero : Prop :=
  ∀ (p : Params) (opc : Byte) (pl frame : List Byte) (last : Bool),
    (encodeCommand p opc pl = .ok frame ∨ encodeData p pl last = .ok frame) →
      byteSum (frame.tail.take (frame.length - 2)) = 0#8

/-- A transfer of `n` bytes is cut into `ceil(n/256)` pieces of 1 to 256 bytes, which carry its bytes in order and of
which all but the last are 256 bytes long (R109, R44). -/
def Obligations.TransferPieces : Prop :=
  ∀ bytes : List Byte,
    (framesOf bytes).length = (bytes.length + 255) / 256 ∧ (framesOf bytes).flatten = bytes ∧
    (∀ c ∈ framesOf bytes, 1 ≤ c.length ∧ c.length ≤ 256) ∧ ∀ c ∈ (framesOf bytes).dropLast, c.length = 256

/-! ## The codec on the line -/

/-- Everything `decode_response` can do on a line that stays silent: which error, in the order of R162, what it leaves in
the receive queue, and when it succeeds. The end of a script is a silent line. Nothing arrives meanwhile. -/
def Obligations.DecodePriority : Prop :=
  ∀ (s : State) (n : Nat), 1 ≤ n → n ≤ 256 → s.script = [] → s.line.isOpen = true → s.calm →
    decodeResponse n s =
      let q := s.line.rxq
      if q.length < 2 then .error (.raised { kind := .timeout }) (s.onLine [] [] [])
      else if byteAt q 0 ≠ s.params.stx then .error (.raised { kind := .formatError }) (s.onLine [] (q.drop 2) [])
      else if declen (byteAt q 1) ≠ n then .error (.raised { kind := .lengthMismatch }) (s.onLine [] (q.drop 2) [])
      else if q.length < n + 4 then .error (.raised { kind := .timeout }) (s.onLine [] [] [])
      else if byteAt q (n + 3) ≠ s.params.etx ∧ byteAt q (n + 3) ≠ s.params.etb then
        .error (.raised { kind := .formatError }) (s.onLine [] (q.drop (n + 4)) [])
      else if byteSum ((q.drop 1).take (n + 2)) ≠ 0#8 then
        .error (.raised { kind := .checksumError }) (s.onLine [] (q.drop (n + 4)) [])
      else .ok ((q.drop 2).take n) (s.onLine [] (q.drop (n + 4)) [.rxResp ((q.drop 2).take n)])

/-- `RecvExact(n)` gives the next `n` bytes in whatever pieces the line delivers them, and leaves the rest (R92). -/
def Obligations.RecvExactPieces : Prop :=
  ∀ (s : State) (pieces : List (List Byte)) (n : Nat) (rest : List Tick),
    s.lineClear → (∀ c ∈ pieces, c ≠ []) → pieces.flatten.length = n →
    s.script = pieces.map delivers ++ rest →
      recvExact n s = .ok pieces.flatten (s.onLine rest [] [])

/-- The loopback: decoding what `encode_data` makes of a payload gives the payload back, for every length an encoder
takes (R90 names 1, 255 and 256); and the row response-frame decodes the frame the line delivers, with either end
marker, where a framed session decodes responses, and is turned away elsewhere. What a row does on its own, and where it
may run, is the model's (log entry 1). -/
def Obligations.ResponseFrameLoopsBack : Prop :=
  ∀ (s : State) (bytes frame : List Byte) (last : Bool) (rest : List Tick),
    s.lineClear → 1 ≤ bytes.length → bytes.length ≤ 256 → s.script = quiet :: quiet :: rest →
      (encodeData s.params bytes last = .ok frame →
        decodeResponse bytes.length (s.receive frame) = .ok bytes (s.onLine rest [] [.rxResp bytes])) ∧
      (s.seqr.op = none → baudReady s = true →
        exec (.responseFrame bytes last) s = .next (s.onLine rest [] [.rxResp bytes])) ∧
      (baudReady s = false → exec (.responseFrame bytes last) s = .next s.refuseUnit)

/-- A data frame is sent whole and its echo dropped; a payload no encoder takes is an error before anything reaches
the wire: no Transport call is made and nothing is sent (R86, R87, R88, R93). Where no framed session is READY the row is
turned away. What a row does on its own, and where it may run, is the model's (log entry 1). -/
def Obligations.DataFrameRow : Prop :=
  ∀ (s : State) (f : List Byte → List Byte) (bytes : List Byte) (last : Bool) (rest : List Tick),
    s.seqr.op = none →
    (framedReady s = false → exec (.dataFrame bytes last) s = .next s.refuseUnit) ∧
    (framedReady s = true → s.lineClear → EchoLike f → 1 ≤ bytes.length → bytes.length ≤ 256 →
      s.script = sendTicks s.params (f (dataBytes s.params bytes last)) [] ++ rest →
        exec (.dataFrame bytes last) s =
          .next (s.onLine rest [] (sendEvents s.params (dataBytes s.params bytes last)))) ∧
    (framedReady s = true → s.calm → bytes = [] → ∃ t, exec (.dataFrame bytes last) s = .next t ∧ t.err = { kind := .badRequest } ∧
      t = { s with err := t.err, diags := t.diags }) ∧
    (framedReady s = true → s.calm → 256 < bytes.length →
      ∃ t, exec (.dataFrame bytes last) s = .next t ∧ t.err = { kind := .payloadTooLarge } ∧ t = { s with err := t.err, diags := t.diags })

/-! ## The framed commands -/

/-- reset and block-erase, as rows and as requests, answered by ACK: `LAST_STATUS` is written, the error registers are
cleared by a request, and nothing else changes but the line (R96, R101, R95). What a row does on its own is the
model's (log entry 1). -/
def Obligations.StatusCommandsComplete : Prop :=
  ∀ (s : State) (f : List Byte → List Byte) (rest : List Tick) (a : Addr),
    s.seqr.op = none → framedReady s = true → s.lineClear → EchoLike f →
    (s.script = commandTicks s.params f .reset [] [Config.ack] ++ rest →
      exec .reset s = .next (s.answered rest (commandEvents s.params .reset [] [Config.ack]) Config.ack) ∧
      exec .reqResetCmd s =
        .next (s.cleared.answered rest (commandEvents s.params .reset [] [Config.ack]) Config.ack)) ∧
    (s.script = commandTicks s.params f .blockErase (le3 a) [Config.ack] ++ rest →
      exec (.blockErase a) s =
        .next (s.answered rest (commandEvents s.params .blockErase (le3 a) [Config.ack]) Config.ack) ∧
      exec (.reqBlockErase a) s =
        .next (s.cleared.answered rest (commandEvents s.params .blockErase (le3 a) [Config.ack]) Config.ack))

/-- Every command but blank-check, as a row and as a request, answered by a first status byte that is not ACK: it ends
with `DeviceRejected` and the raw byte, which is also in `LAST_STATUS`, and nothing else is written, neither `FREQ` and
`VMODE`, nor the identity registers, nor `CKSUM16`; nothing more is read and no data frame is sent (R73, R95, R97, R99,
R100, R103). What a row does on its own is the model's (log entry 1). -/
def Obligations.StatusCommandsRejected : Prop :=
  ∀ (s : State) (f : List Byte → List Byte) (rest : List Tick) (a e : Addr) (buf : Buf) (off rate mv : Nat)
      (bytes : List Byte) (code volt b x y : Byte),
    s.seqr.op = none → framedReady s = true → s.lineClear → EchoLike f → b ≠ Config.ack →
    let answer (o : Opcode) (q pl : List Byte) : Prop := s.script = commandTicks s.params f o q pl ++ rest
    let rejects (i : Instr) (u : State) (o : Opcode) (q pl : List Byte) : Prop :=
      exec i s = .next ((u.answered rest (commandEvents s.params o q pl) b).takeError
        { kind := .deviceRejected, status := some b })
    (answer .reset [] [b] →
      rejects .reset s .reset [] [b] ∧ rejects .reqResetCmd (s.accept .resetCmd) .reset [] [b]) ∧
    (answer .blockErase (le3 a) [b] →
      rejects (.blockErase a) s .blockErase (le3 a) [b] ∧
      rejects (.reqBlockErase a) (s.accept .blockErase) .blockErase (le3 a) [b]) ∧
    (answer .baudSet [code, volt] [b, x, y] →
      rejects (.baudSet code volt) s .baudSet [code, volt] [b, x, y] ∧
      (s.params.baudCode rate = some code → volt = BitVec.ofNat 8 (mv / 100) → mv ≤ 25599 →
        rejects (.reqSetBaud rate mv) (latchBaud rate mv (s.accept .setBaud)) .baudSet [code, volt] [b, x, y])) ∧
    (answer .siliconSignature [] [b] → s.ident.idValid = false →
      rejects .siliconSignature s .siliconSignature [] [b] ∧
      rejects .reqSignature (s.accept .signature) .siliconSignature [] [b]) ∧
    (answer .checksum (rangePayload a e) [b] →
      rejects (.checksum a e) s .checksum (rangePayload a e) [b] ∧
      (a.toNat ≤ e.toNat →
        rejects (.reqChecksum a e) (s.accept .checksum) .checksum (rangePayload a e) [b])) ∧
    (answer .program (rangePayload a e) [b] →
      rejects (.program a e bytes) s .program (rangePayload a e) [b] ∧
      (a.toNat ≤ e.toNat → off + (e.toNat - a.toNat + 1) ≤ (s.buffer buf).size →
        rejects (.reqBlockProgram a e buf off) (s.accept .blockProgram) .program (rangePayload a e) [b])) ∧
    (answer .verify (rangePayload a e) [b] →
      rejects (.verify a e bytes) s .verify (rangePayload a e) [b] ∧
      (a.toNat ≤ e.toNat → off + (e.toNat - a.toNat + 1) ≤ (s.buffer buf).size →
        rejects (.reqBlockVerify a e buf off) (s.accept .blockVerify) .verify (rangePayload a e) [b]))

/-- blank-check, as a row and as a request: ACK clears `NOT_BLANK`, 0x1B sets it and is no error, and any other answer
is `DeviceRejected` with `NOT_BLANK` not written (R102). What a row does on its own is the model's (log entry 1). -/
def Obligations.BlankCheckAnswers : Prop :=
  ∀ (s : State) (f : List Byte → List Byte) (rest : List Tick) (a e : Addr) (b : Byte),
    s.seqr.op = none → framedReady s = true → s.lineClear → EchoLike f →
    s.script = commandTicks s.params f .blankCheck (blankPayload s.params a e) [b] ++ rest →
      let events := commandEvents s.params .blankCheck (blankPayload s.params a e) [b]
      let rejected : Err := { kind := .deviceRejected, status := some b }
      (b = 0x06#8 ∨ b = 0x1B#8 →
        exec (.blankCheck a e) s = .next ((s.answered rest events b).setNotBlank (b == 0x1B#8)) ∧
        (a.toNat ≤ e.toNat → exec (.reqBlankCheck a e) s =
          .next ((s.cleared.answered rest events b).setNotBlank (b == 0x1B#8)))) ∧
      (b ≠ 0x06#8 → b ≠ 0x1B#8 →
        exec (.blankCheck a e) s = .next ((s.answered rest events b).takeError rejected) ∧
        (a.toNat ≤ e.toNat → exec (.reqBlankCheck a e) s =
          .next (((s.accept .blankCheck).answered rest events b).takeError rejected)))

/-- baud-set, as a row and as SET_BAUD: `FREQ` and `VMODE` take the two bytes after the status, the arguments of the
request are latched, and neither the link's rate nor `LINK_BAUD` changes (R97). What a row does on its own is the
model's (log entry 1). -/
def Obligations.BaudSetCompletes : Prop :=
  ∀ (s : State) (f : List Byte → List Byte) (rest : List Tick) (rate mv : Nat) (code volt freq vmode : Byte),
    s.seqr.op = none → framedReady s = true → s.lineClear → EchoLike f →
    s.script = commandTicks s.params f .baudSet [code, volt] [Config.ack, freq, vmode] ++ rest →
      exec (.baudSet code volt) s =
        .next { s.answered rest (commandEvents s.params .baudSet [code, volt] [Config.ack, freq, vmode]) Config.ack with
          baud := ⟨some freq, some vmode⟩ } ∧
      (s.params.baudCode rate = some code → volt = BitVec.ofNat 8 (mv / 100) → mv ≤ 25599 →
        exec (.reqSetBaud rate mv) s =
          .next { s.cleared.answered rest
              (commandEvents s.params .baudSet [code, volt] [Config.ack, freq, vmode]) Config.ack with
            baud := ⟨some freq, some vmode⟩
            args := { s.args with targetBaud := some rate, voltageMv := some mv } })

/-- SET_LINK_BAUD sets the Transport's rate and `LINK_BAUD`, in every sequencer state, and sends no byte; where the
Transport fails or is closed it ends with `Io` and `LINK_BAUD` is not written (R98). That a failing call leaves the
Transport's own rate is the model's (log entry 20). -/
def Obligations.SetLinkBaudCompletes : Prop :=
  ∀ (s : State) (rate : Nat) (rest : List Tick), s.seqr.op = none → s.calm →
    (s.line.isOpen = true → s.script = quiet :: rest → exec (.reqSetLinkBaud rate) s =
      .next { s with
        err := {}, seqr := { s.seqr with linkBaud := some rate }, line := { s.line with rate := some rate }
        script := rest, hist := s.hist ++ [.baud rate] }) ∧
    (s.line.isOpen = true ∧ s.script = { fail := true } :: rest ∨ s.line.isOpen = false ∧ s.script = rest →
      ∃ t, exec (.reqSetLinkBaud rate) s = .next t ∧ t.err = { kind := .io, op := some 0x04#8 } ∧
        t = { s with err := t.err, diags := t.diags, script := rest })

/-- silicon-signature, as a row and as SIGNATURE: the fields of the 22-byte record, the two sizes, and `ID_VALID`
(R100, R75, R24, R25). What a row does on its own is the model's (log entry 1), and so is one granule for all protocols
(log entry 26). -/
def Obligations.SignatureCompletes : Prop :=
  ∀ (s : State) (f : List Byte → List Byte) (rest : List Tick) (code name fw : List Byte) (ce de : Addr),
    s.seqr.op = none → framedReady s = true → s.ident.idValid = false → s.lineClear → EchoLike f →
    code.length = 3 → name.length = 10 → fw.length = 3 →
    s.script = commandTicks s.params f .siliconSignature [] [Config.ack] ++
        [delivers (dataBytes s.params (code ++ name ++ le3 ce ++ le3 de ++ fw) true), quiet] ++ rest →
      let events := commandEvents s.params .siliconSignature [] [Config.ack] ++
        [.rxResp (code ++ name ++ le3 ce ++ le3 de ++ fw)]
      let size : Int := (de.toNat : Int) - 0x0F1000 + 1
      let ident : IdRegs :=
        { devCode := some code, devName := some name, fwVer := some fw, idValid := true
          codeEnd := some ce, dataEnd := some de, codeSize := some (ce.toNat + 1)
          dataSize := some (if size ≤ 0 ∨ size % (s.params.dataGranule : Int) ≠ 0 ∨ size > (s.params.dataSizeMax : Int)
            then 0 else size.toNat) }
      exec .siliconSignature s = .next { s.answered rest events Config.ack with ident := ident } ∧
      exec .reqSignature s = .next { s.cleared.answered rest events Config.ack with ident := ident }

/-- checksum, as a row and as a request: `CKSUM16` in the byte order of the parameter (R103, R70). What a row does on
its own is the model's (log entry 1). -/
def Obligations.ChecksumCompletes : Prop :=
  ∀ (s : State) (f : List Byte → List Byte) (rest : List Tick) (a e : Addr) (d0 d1 : Byte),
    s.seqr.op = none → framedReady s = true → s.lineClear → EchoLike f →
    s.script = commandTicks s.params f .checksum (le3 a ++ le3 e) [Config.ack] ++
        [delivers (dataBytes s.params [d0, d1] true), quiet] ++ rest →
      let events := commandEvents s.params .checksum (le3 a ++ le3 e) [Config.ack] ++ [.rxResp [d0, d1]]
      let value : Half := match s.params.cksumOrder with
        | .le => d1 ++ d0
        | .be => d0 ++ d1
      let result : ResultRegs := { s.result with cksum16 := some value, lastStatus := some Config.ack }
      exec (.checksum a e) s = .next { s.answered rest events Config.ack with result := result } ∧
      (a.toNat ≤ e.toNat → exec (.reqChecksum a e) s =
        .next { s.cleared.answered rest events Config.ack with result := result })

/-- program, as a row and as BLOCK_PROGRAM over the bytes of its buffer: the command, its data frames each answered by
two ACKs, the settle delay and the completion response, in that order; `FIDX` ends at the last frame (R104, R106). The
buffer is in its canonical form, as every step keeps it (StepKeepsInv). What a row does on its own is the model's (log
entry 1). -/
def Obligations.ProgramCompletes : Prop :=
  ∀ (s : State) (f : List Byte → List Byte) (rest : List Tick) (a e : Addr) (b : Buf) (off : Nat) (bytes : List Byte),
    s.seqr.op = none → framedReady s = true → s.lineClear → EchoLike f → bytes ≠ [] →
    s.script = programTicks s.params f a e bytes ++ rest →
      exec (.program a e bytes) s =
        .next { s.answered rest (programEvents s.params a e bytes) Config.ack with
          blk := { s.blk with fidx := some ((framesOf bytes).length - 1) } } ∧
      ((s.buffer b).wf = true → a.toNat ≤ e.toNat → off + (e.toNat - a.toNat + 1) ≤ (s.buffer b).size →
        bytes = (s.buffer b).slice off (e.toNat - a.toNat + 1) →
        exec (.reqBlockProgram a e b off) s =
          .next { s.cleared.answered rest (programEvents s.params a e bytes) Config.ack with
            blk := { s.blk with fidx := some ((framesOf bytes).length - 1) } })

/-- verify, as a row and as BLOCK_VERIFY: as program, with the settle delay after each frame and no completion
response (R105, R106). The buffer is in its canonical form, as every step keeps it (StepKeepsInv). What a row does on its
own is the model's (log entry 1). -/
def Obligations.VerifyCompletes : Prop :=
  ∀ (s : State) (f : List Byte → List Byte) (rest : List Tick) (a e : Addr) (b : Buf) (off : Nat) (bytes : List Byte),
    s.seqr.op = none → framedReady s = true → s.lineClear → EchoLike f → bytes ≠ [] →
    s.script = verifyTicks s.params f a e bytes ++ rest →
      exec (.verify a e bytes) s =
        .next { s.answered rest (verifyEvents s.params a e bytes) Config.ack with
          blk := { s.blk with fidx := some ((framesOf bytes).length - 1) } } ∧
      ((s.buffer b).wf = true → a.toNat ≤ e.toNat → off + (e.toNat - a.toNat + 1) ≤ (s.buffer b).size →
        bytes = (s.buffer b).slice off (e.toNat - a.toNat + 1) →
        exec (.reqBlockVerify a e b off) s =
          .next { s.cleared.answered rest (verifyEvents s.params a e bytes) Config.ack with
            blk := { s.blk with fidx := some ((framesOf bytes).length - 1) } })

/-- A data frame that is not answered by two ACKs ends the transfer, in the rows and in the requests: `ProgramFailed` or
`MismatchError` with the first address of the range, `FIDX` at the frame, the first byte in `LAST_STATUS`, and no later
frame sent; and a completion response of program other than ACK is `ProgramFailed` with that address as well (R104,
R107, R108, R110). A request leaves its code in `ERR_OP`; its buffer is in its canonical form, as every step keeps it
(StepKeepsInv). What a row does on its own is the model's (log entry 1). -/
def Obligations.FrameFailureStops : Prop :=
  ∀ (s : State) (f : List Byte → List Byte) (rest : List Tick) (a e : Addr) (buf : Buf) (off : Nat) (bytes c : List Byte)
      (pre post : List (List Byte)) (b0 b1 : Byte),
    s.seqr.op = none → framedReady s = true → s.lineClear → EchoLike f →
    let source : Prop := (s.buffer buf).wf = true ∧ a.toNat ≤ e.toNat ∧ off + (e.toNat - a.toNat + 1) ≤ (s.buffer buf).size ∧
      bytes = (s.buffer buf).slice off (e.toNat - a.toNat + 1)
    let failed (u : State) (o : Opcode) (kind : ErrKind) (events : List Event) (k : Nat) : State :=
      { u.answered rest (commandEvents s.params o (rangePayload a e) [Config.ack] ++ events) b0 with
        blk := { s.blk with fidx := some k } }.takeError { kind := kind, addr := some a }
    let command (o : Opcode) : List Tick := commandTicks s.params f o (rangePayload a e) [Config.ack]
    (framesOf bytes = pre ++ c :: post → ¬ (b0 = Config.ack ∧ b1 = Config.ack) →
      let answers : List Tick := failedTicks s.params f pre c post.isEmpty [b0, b1]
      let events (mode : StreamMode) : List Event := failedEvents s.params mode pre c post.isEmpty [b0, b1]
      (s.script = command .program ++ answers ++ rest →
        exec (.program a e bytes) s = .next (failed s .program .programFailed (events .program) pre.length) ∧
        (source → exec (.reqBlockProgram a e buf off) s =
          .next (failed (s.accept .blockProgram) .program .programFailed (events .program) pre.length))) ∧
      (s.script = command .verify ++ answers ++ rest →
        exec (.verify a e bytes) s = .next (failed s .verify .mismatchError (events .verify) pre.length) ∧
        (source → exec (.reqBlockVerify a e buf off) s =
          .next (failed (s.accept .blockVerify) .verify .mismatchError (events .verify) pre.length)))) ∧
    (bytes ≠ [] → b0 ≠ Config.ack →
      s.script = command .program ++ transferTicks s.params f (framesOf bytes) ++
        [delivers (dataBytes s.params [b0] true), quiet] ++ rest →
      let events : List Event := transferEvents s.params .program (framesOf bytes) ++
        [.wait (.progSettle (rangeLength a e)), .rxResp [b0]]
      exec (.program a e bytes) s =
        .next (failed s .program .programFailed events ((framesOf bytes).length - 1)) ∧
      (source → exec (.reqBlockProgram a e buf off) s =
        .next (failed (s.accept .blockProgram) .program .programFailed events ((framesOf bytes).length - 1))))

/-! ## The handshake -/

/-- The two unframed units of the handshake, each only from SYNCING: the sync byte leads to SYNCED, and mode-set,
answered by two ACKs, to READY (R115, R119). What a row does on its own is the model's (log entry 1). -/
def Obligations.HandshakeUnitsComplete : Prop :=
  ∀ (s : State) (f : List Byte → List Byte) (rest : List Tick),
    s.seqr.op = none → s.seqr.seq = .syncing → s.lineClear → EchoLike f →
    (s.seqr.variant = some .framed → s.script = sendTicks s.params (f [s.params.syncByte]) [] ++ quiet :: rest →
      exec .sync s =
        .next ((s.onLine rest [] (sendEvents s.params [s.params.syncByte] ++ [.flush, .wait .sync])).setSeq .synced)) ∧
    (s.seqr.variant = some .g10 →
      s.script = rawTicks s.params f [s.params.g10ModeSet] [Config.ack, Config.ack] ++ rest →
      exec .g10ModeSet s =
        .next ((s.onLine rest [] (rawEvents s.params [s.params.g10ModeSet] [Config.ack, Config.ack])).setSeq .ready))

/-- INIT, framed: the register writes of R40, the primitives of R112 in order, and READY at the target rate, whatever
the receive queue held before. A delayed start does not hold when READY_IN is asserted. READY_IN as a level is DEDUCED
(log entry 11). -/
def Obligations.InitFramedCompletes : Prop :=
  ∀ (s : State) (f : List Byte → List Byte) (rest : List Tick) (proto rate mv verbose : Nat) (delayed : Bool)
      (code freq vmode : Byte),
    s.seqr.op = none → s.calm → s.line.isOpen = true → EchoLike f → s.params.variantOf proto = .framed →
    s.params.baudCode rate = some code → mv ≤ 25599 → (delayed = true → s.readyIn = true) →
    s.script = linesTicks ++ syncTicks s.params f code (BitVec.ofNat 8 (mv / 100)) freq vmode ++ rest →
      exec (.reqInit proto rate mv delayed verbose) s =
        .next { s with
          seqr :=
            { seq := .ready, op := none, proto := some proto, variant := some .framed
              blockSz := some (s.params.blockSize proto), linkBaud := some rate
              lineReset := some true, lineClock := some true }
          ident := {}, baud := ⟨some freq, some vmode⟩
          result := { s.result with lastStatus := some Config.ack }
          err := {}
          args := ⟨some rate, some mv, some delayed, some proto, some verbose⟩
          line :=
            { s.line with
              rxq := [], rate := some rate, parity := some s.params.parity, reset := some true, clock := some true }
          script := rest
          hist := s.hist ++ (stepOneEvents s.params ++ stepTwoEvents ++
            syncEvents s.params rate code (BitVec.ofNat 8 (mv / 100)) freq vmode) }

/-- INIT, G10: steps 1 and 2, then mode-set answered by two ACKs; no baud negotiation, the link stays at the initial
rate (R119). READY_IN as a level is DEDUCED (log entry 11). -/
def Obligations.InitG10Completes : Prop :=
  ∀ (s : State) (f : List Byte → List Byte) (rest : List Tick) (proto rate mv verbose : Nat) (delayed : Bool),
    s.seqr.op = none → s.calm → s.line.isOpen = true → EchoLike f → s.params.variantOf proto = .g10 →
    (s.params.baudCode rate).isSome = true → mv ≤ 25599 → (delayed = true → s.readyIn = true) →
    s.script = linesTicks ++ rawTicks s.params f [s.params.g10ModeSet] [Config.ack, Config.ack] ++ rest →
      exec (.reqInit proto rate mv delayed verbose) s =
        .next { s with
          seqr :=
            { seq := .ready, op := none, proto := some proto, variant := some .g10
              blockSz := some (s.params.blockSize proto), linkBaud := some s.params.initBaud
              lineReset := some true, lineClock := some true }
          ident := {}, baud := {}
          err := {}
          args := ⟨some rate, some mv, some delayed, some proto, some verbose⟩
          line :=
            { s.line with
              rxq := [], rate := some s.params.initBaud, parity := some s.params.parity
              reset := some true, clock := some true }
          script := rest
          hist := s.hist ++ (stepOneEvents s.params ++ stepTwoEvents ++
            rawEvents s.params [s.params.g10ModeSet] [Config.ack, Config.ack]) }

/-- A delayed start holds with `OP = INIT`, `SEQ = IDLE` and both lines low, without READY_IN; once READY_IN is asserted,
INIT goes on from step 2 to READY, framed or G10 (R117). That an accepted INIT puts SEQ at IDLE where it was elsewhere is
DEDUCED (log entry 16), and so is READY_IN as a level (log entry 11). -/
def Obligations.DelayedStartHolds : Prop :=
  (∀ (s : State) (rest : List Tick) (proto rate mv verbose : Nat),
    s.seqr.op = none → s.calm → s.line.isOpen = true → (s.params.baudCode rate).isSome = true → mv ≤ 25599 →
    s.readyIn = false → s.script = [quiet, quiet, quiet, quiet] ++ rest →
      exec (.reqInit proto rate mv true verbose) s =
        .next { s with
          seqr :=
            { seq := .idle, op := some .init, proto := some proto, variant := some (s.params.variantOf proto)
              blockSz := some (s.params.blockSize proto), linkBaud := some s.params.initBaud
              lineReset := some false, lineClock := some false }
          ident := {}, baud := {}, err := {}
          args := ⟨some rate, some mv, some true, some proto, some verbose⟩
          line :=
            { s.line with
              rate := some s.params.initBaud, parity := some s.params.parity, reset := some false
              clock := some false }
          script := rest, hist := s.hist ++ stepOneEvents s.params }) ∧
  (∀ (s : State) (f : List Byte → List Byte) (rest : List Tick) (rate mv : Nat) (code freq vmode : Byte),
    s.Held → s.calm → s.line.isOpen = true → EchoLike f → s.seqr.variant = some .framed → s.args.targetBaud = some rate →
    s.args.voltageMv = some mv → s.params.baudCode rate = some code →
    s.script = [quiet, quiet, quiet] ++ syncTicks s.params f code (BitVec.ofNat 8 (mv / 100)) freq vmode ++ rest →
      takeInput (.ready true) s =
        .next { s with
          readyIn := true
          seqr :=
            { s.seqr with
              seq := .ready, op := none, linkBaud := some rate, lineReset := some true, lineClock := some true }
          baud := ⟨some freq, some vmode⟩
          result := { s.result with lastStatus := some Config.ack }
          line := { s.line with rxq := [], rate := some rate, reset := some true, clock := some true }
          script := rest
          hist := s.hist ++
            (stepTwoEvents ++ syncEvents s.params rate code (BitVec.ofNat 8 (mv / 100)) freq vmode) }) ∧
  ∀ (s : State) (f : List Byte → List Byte) (rest : List Tick),
    s.Held → s.calm → s.line.isOpen = true → EchoLike f → s.seqr.variant = some .g10 →
    s.script = [quiet, quiet, quiet] ++ rawTicks s.params f [s.params.g10ModeSet] [Config.ack, Config.ack] ++ rest →
      takeInput (.ready true) s =
        .next { s with
          readyIn := true
          seqr := { s.seqr with seq := .ready, op := none, lineReset := some true, lineClock := some true }
          line := { s.line with rxq := [], reset := some true, clock := some true }
          script := rest
          hist := s.hist ++
            (stepTwoEvents ++ rawEvents s.params [s.params.g10ModeSet] [Config.ack, Config.ack]) }

/-- Only READY_IN lifts the hold of a delayed start: whatever else comes in but an Engine reset, a closed Transport
included, the hold stays and the transcript does not grow (R117, R169). READY_IN as a level is DEDUCED (log entry 11). -/
def Obligations.OnlyReadyLiftsHold : Prop :=
  ∀ (x : Input) (s t : State), s.Held → x ≠ .ready true → x ≠ .engineReset → takeInput x s = .next t →
    t.Held ∧ t.hist = s.hist

/-- Every accepted INIT during which nothing else happens ends in one of three ways: it holds; it reaches READY
without an error; or it ends in IDLE with one of the two handshake errors. `SynchronizationFailed` has `Io` or `Timeout` as
its cause, and with a G10 selector `DeviceRejected` too; `InitializationFailed` is reported with a framed selector only, and
any error of set_baud can be its cause; the status byte stands there where the cause is `DeviceRejected` (R117, R118, R120,
R122, R163). Which part of the handshake reports which: `Io` at any call of steps 1 and 2, a missing echo of the sync byte,
the flush behind it, a baud-set answered by another byte than ACK, the local switch, and a mode-set not answered by two
ACKs, of which the first byte that is not ACK is reported (R118, R120). That SEQ is IDLE in the hold of a second INIT too is
DEDUCED (log entry 16), and so is READY_IN as a level: that INIT holds only where READY_IN is low when step 1 ends, and not
where it was asserted before, rests on log entry 11. -/
def Obligations.InitOutcomes : Prop :=
  (∀ (s : State) (proto rate mv verbose : Nat) (delayed : Bool),
    s.seqr.op = none → rateOk rate mv s = true → s.undisturbed →
      ∃ t, exec (.reqInit proto rate mv delayed verbose) s = .next t ∧
        ((t.seqr.op = some .init ∧ t.seqr.seq = .idle ∧ delayed = true ∧ s.readyIn = false) ∨
         (t.seqr.op = none ∧ t.seqr.seq = .ready ∧ t.err = {}) ∨
         (t.seqr.op = none ∧ t.seqr.seq = .idle ∧ t.err.op = some 0x01#8 ∧ t.err.addr = none ∧ t.ident = {} ∧
          ∃ cause, t.err.cause = some cause ∧ (t.err.status.isSome = true ↔ cause = .deviceRejected) ∧
            (t.err.kind = .synchronizationFailed ∧
                (cause = .io ∨ cause = .timeout ∨ cause = .deviceRejected ∧ s.params.variantOf proto = .g10) ∨
              t.err.kind = .initializationFailed ∧ s.params.variantOf proto = .framed ∧
                cause ∈ [.io, .timeout, .formatError, .lengthMismatch, .checksumError, .deviceRejected])))) ∧
  ∀ (s : State) (f : List Byte → List Byte) (rest : List Tick) (proto rate mv verbose n : Nat) (delayed : Bool)
      (code b x y r0 r1 : Byte),
    s.seqr.op = none → s.calm → s.line.isOpen = true → EchoLike f → s.params.baudCode rate = some code → mv ≤ 25599 →
    (delayed = true → s.readyIn = true) →
    let fails (ticks : List Tick) (kind cause : ErrKind) (status : Option Byte) : Prop :=
      s.script = ticks ++ rest → ∃ t, exec (.reqInit proto rate mv delayed verbose) s = .next t ∧
        t.err = { kind := kind, status := status, cause := some cause, op := some 0x01#8 } ∧ t.seqr.seq = .idle ∧
        t.seqr.op = none ∧ t.script = rest
    let failing : List Tick := [{ fail := true }]
    let sync : List Tick := linesTicks ++ sendTicks s.params (f [s.params.syncByte]) []
    let baudSet (pl : List Byte) : List Tick :=
      sync ++ [quiet] ++ commandTicks s.params f .baudSet [code, BitVec.ofNat 8 (mv / 100)] pl
    (n < 7 → fails (List.replicate n quiet ++ failing) .synchronizationFailed .io none) ∧
    (s.params.variantOf proto = .framed →
      (s.params.echo = true → fails (linesTicks ++ [quiet, quiet]) .synchronizationFailed .timeout none) ∧
      fails (sync ++ failing) .synchronizationFailed .io none ∧
      (b ≠ Config.ack → fails (baudSet [b, x, y]) .initializationFailed .deviceRejected (some b)) ∧
      fails (baudSet [Config.ack, x, y] ++ failing) .initializationFailed .io none) ∧
    (s.params.variantOf proto = .g10 →
      (r0 ≠ Config.ack → fails (linesTicks ++ rawTicks s.params f [s.params.g10ModeSet] [r0, r1]) .synchronizationFailed
        .deviceRejected (some r0)) ∧
      (r0 = Config.ack → r1 ≠ Config.ack → fails (linesTicks ++ rawTicks s.params f [s.params.g10ModeSet] [r0, r1])
        .synchronizationFailed .deviceRejected (some r1)))

/-- RESET_AND_RUN, in every sequencer state: reset low, the delay, reset high, IDLE; the clock line is not driven and the
session's registers stay. One that fails still ends in IDLE, and fails with `Io` only (R123, R124). -/
def Obligations.ResetAndRun : Prop :=
  ∀ (s : State) (mode : Nat) (rest : List Tick), s.seqr.op = none →
    (s.calm → s.line.isOpen = true → s.script = quiet :: quiet :: rest →
      exec (.reqResetAndRun mode) s =
        .next { s with
          err := {}, seqr := { s.seqr with seq := .idle, lineReset := some true }
          line := { s.line with reset := some true, wiring := some mode }
          script := rest, hist := s.hist ++ [.line .reset false, .wait .run, .line .reset true] }) ∧
    (s.undisturbed → ∃ t, exec (.reqResetAndRun mode) s = .next t ∧ t.seqr.seq = .idle ∧ t.seqr.op = none ∧
      (t.err = {} ∨ t.err = { kind := .io, op := some 0x0E#8 }))

/-! ## The block controller -/

/-- REGION in each mode, every block processed without error: the blocks in ascending order, each by its own sequence;
the region registers, `NBLK` and `BIDX`; the blocks left and skipped as diagnostic events; and nothing else changes but
the results of the commands used (R125 to R134, R136, R137). The buffer is in its canonical form, as every step keeps it
(StepKeepsInv). That an event is emitted with the value VERBOSE holds is DEDUCED (log entry 12). -/
def Obligations.RegionCompletes : Prop :=
  ∀ (s : State) (f : List Byte → List Byte) (rest : List Tick) (mode : CMode) (b : Buf) (base : Addr) (size bs : Nat)
      (answers : List Bool),
    s.seqr.op = none → framedReady s = true → s.seqr.blockSz = some bs → 0 < size → size ≤ (s.buffer b).size →
    base.toNat + size / bs * bs ≤ 2 ^ 24 → (s.buffer b).wf = true → s.lineClear → EchoLike f →
    answers.length = size / bs →
    s.script = regionTicks s.params f mode (s.buffer b) base bs 0 answers ++ rest →
      ∃ t, exec (.reqRegion mode b base size) s = .next t ∧
        t = { s with
          err := {}
          blk :=
            { cmode := some mode, rbuf := some b, rbase := some base, rsize := some size, nblk := some (size / bs)
              bidx := if size / bs = 0 then s.blk.bidx else some (size / bs - 1), fidx := t.blk.fidx }
          result := { s.result with notBlank := t.result.notBlank, lastStatus := t.result.lastStatus }
          line := { s.line with rxq := [] }
          script := rest
          hist := s.hist ++ regionEvents s.params mode (s.buffer b) base bs 0 answers
          diags := s.diags ++ (regionDiags mode (s.buffer b) base bs 0 answers).map fun d => ⟨s.args.verbose, d⟩ } ∧
        (mode = .erase → t.result.notBlank = answers.getLast?.or s.result.notBlank ∧ t.blk.fidx = s.blk.fidx)

/-- Program mode over a region whose processed part is all 0xFF sends nothing, and a region of size 0 is absent: nothing
is sent and `NBLK` and `BIDX` are not written (R138, R140). -/
def Obligations.RegionSendsNothing : Prop :=
  ∀ (s : State) (mode : CMode) (b : Buf) (base : Addr) (size bs : Nat),
    s.seqr.op = none → framedReady s = true → s.seqr.blockSz = some bs → s.calm →
    (exec (.reqRegion mode b base 0) s = .next { s with
      err := {}
      blk := { s.blk with cmode := some mode, rbuf := some b, rbase := some base, rsize := some 0 } }) ∧
    (0 < size → size < bs → size ≤ (s.buffer b).size → exec (.reqRegion mode b base size) s = .next { s with
      err := {}
      blk :=
        { s.blk with
          cmode := some mode, rbuf := some b, rbase := some base, rsize := some size, nblk := some 0 } }) ∧
    ((s.buffer b).wf = true → size ≤ (s.buffer b).size → base.toNat + size / bs * bs ≤ 2 ^ 24 →
      (∀ j < size / bs * bs, (s.buffer b).get j = 0xFF#8) →
        ∃ t, exec (.reqRegion .program b base size) s = .next t ∧ t.hist = s.hist ∧ t.line = s.line ∧
          t.script = s.script ∧ t.err = {} ∧ t.result = s.result)

/-- The controller stops at the first block that fails, in every mode and in every way a Target's answer makes a block
fail (`BlockFails`): the error of the block's rule with the code of REGION in `ERR_OP`, `BIDX` at the block, and nothing
sent for a later block (R130 to R135). The buffer is in its canonical form, as every step keeps it (StepKeepsInv). -/
def Obligations.RegionStopsAtFirstError : Prop :=
  ∀ (s : State) (f : List Byte → List Byte) (rest : List Tick) (mode : CMode) (b : Buf) (base : Addr) (size bs : Nat)
      (answers : List Bool) (failing : List Tick) (failed : List Event) (e : Err),
    s.seqr.op = none → framedReady s = true → s.seqr.blockSz = some bs → 0 < size → size ≤ (s.buffer b).size →
    base.toNat + size / bs * bs ≤ 2 ^ 24 → (s.buffer b).wf = true → s.lineClear → EchoLike f →
    answers.length < size / bs →
    let k := answers.length
    BlockFails s.params f mode (blockStart base bs k) (blockEnd base bs k) ((s.buffer b).slice (k * bs) bs) failing failed
      e →
    s.script = regionTicks s.params f mode (s.buffer b) base bs 0 answers ++ failing ++ rest →
      ∃ t, exec (.reqRegion mode b base size) s = .next t ∧
        t.err = { kind := e.kind, status := e.status, addr := e.addr, cause := e.cause, op := some 0x0B#8 } ∧
        t.blk.bidx = some k ∧ t.script = rest ∧ t.seqr = s.seqr ∧
        t.hist = s.hist ++ (regionEvents s.params mode (s.buffer b) base bs 0 answers ++ failed)

/-- The tail of a region past its whole blocks is never looked at, and erase mode does not look at the buffer at all:
another buffer of the same size that agrees on the processed part gives the same run (R126, R130, R139). -/
def Obligations.RegionIgnoresTail : Prop :=
  ∀ (s : State) (mode : CMode) (b : Buf) (base : Addr) (size bs : Nat) (m : Memory),
    s.seqr.blockSz = some bs → (s.buffer b).wf = true → m.wf = true → m.size = (s.buffer b).size →
    (mode = .erase ∨ ∀ j < size / bs * bs, m.get j = (s.buffer b).get j) →
      exec (.reqRegion mode b base size) (s.withBuffer b m) =
        match exec (.reqRegion mode b base size) s with
        | .next t => .next (t.withBuffer b m)
        | .fault r => .fault r
        | .refused r => .refused r

/-! ## The whole-image variant -/

/-- The rows of the whole-image variant: the two opening exchanges fill the response registers, bytes 0 and 1
unchecked; ACK is sent; NACK is sent and followed by the abort it stands for, with the capacity code reported; a word
is acknowledged, or is `ProgramFailed` at the address of the word in progress (R145, R146, R147, R149, R151, R153).
NACK, and a word that is not acknowledged, read a register; where it holds none they are the fault of R41. What a row does
on its own is the model's (log entries 1 and 18), and so is an address of 2^24 or more mod 2^24 (log entry 25). -/
def Obligations.ImageUnits : Prop :=
  ∀ (s : State) (f : List Byte → List Byte) (rest : List Tick) (r0 r1 code b0 b1 b2 b3 b : Byte),
    s.seqr.op = none → g10Ready s = true → s.lineClear → EchoLike f →
    let g10 : G10Regs := { s.g10 with resp0 := some r0, resp1 := some r1, capCode := some code }
    (s.script = rawTicks s.params f [s.params.g10EraseWrite] [r0, r1, code] ++ rest →
      exec .g10EraseWrite s =
        .next { s.onLine rest [] (rawEvents s.params [s.params.g10EraseWrite] [r0, r1, code]) with g10 := g10 }) ∧
    (s.script = rawTicks s.params f [s.params.g10CrcCheck] [r0, r1, code] ++ rest →
      exec .g10CrcCheck s =
        .next { s.onLine rest [] (rawEvents s.params [s.params.g10CrcCheck] [r0, r1, code]) with g10 := g10 }) ∧
    (s.script = sendTicks s.params (f [Config.ack]) [] ++ rest →
      exec .g10Ack s = .next (s.onLine rest [] (sendEvents s.params [Config.ack]))) ∧
    (s.g10.capCode = some code → s.script = sendTicks s.params (f [Config.nack]) [] ++ rest →
      exec .g10Nack s = .next ((s.onLine rest [] (sendEvents s.params [Config.nack])).takeError
        { kind := .sizeMismatch, status := some code })) ∧
    (s.g10.capCode = none → s.script = sendTicks s.params (f [Config.nack]) [] ++ rest →
      exec .g10Nack s = .fault (.readNone .G10_CAP_CODE)) ∧
    (s.script = rawTicks s.params f [b0, b1, b2, b3] [b] ++ rest →
      (b = Config.ack →
        exec (.g10Word b0 b1 b2 b3) s = .next (s.onLine rest [] (rawEvents s.params [b0, b1, b2, b3] [b]))) ∧
      (b ≠ Config.ack → s.g10.widx = none → exec (.g10Word b0 b1 b2 b3) s = .fault (.readNone .WIDX)) ∧
      (b ≠ Config.ack → ∀ w, s.g10.widx = some w →
        exec (.g10Word b0 b1 b2 b3) s =
          .next ((s.onLine rest [] (rawEvents s.params [b0, b1, b2, b3] [b])).takeError
            { kind := .programFailed, addr := some (BitVec.ofNat 24 (4 * w)) })))

/-- G10_ERASE_WRITE: the opening exchange, ACK, a poll that ends with ACK within 100 attempts, and every word of the
image acknowledged (R145, R146, R148, R149). -/
def Obligations.EraseWriteCompletes : Prop :=
  ∀ (s : State) (f : List Byte → List Byte) (rest : List Tick) (size : Nat) (r0 r1 code : Byte)
      (misses : List (Option Byte)),
    s.seqr.op = none → g10Ready s = true → s.lineClear → EchoLike f → 0 < size → size ≤ s.code.size → size % 4 = 0 →
    s.params.g10Cap code = some size → misses.length < 100 → (∀ m ∈ misses, m ≠ some Config.ack) →
    s.script = rawTicks s.params f [s.params.g10EraseWrite] [r0, r1, code] ++ sendTicks s.params (f [Config.ack]) [] ++
        pollTicks (misses ++ [some Config.ack]) ++ wordTicks s.params f (imageWords s.code (size / 4) 0) ++ rest →
      exec (.reqG10EraseWrite size) s =
        .next { s with
          err := {}
          g10 :=
            { s.g10 with
              resp0 := some r0, resp1 := some r1, capCode := some code, pollCnt := some (misses.length + 1)
              widx := some (size / 4 - 1) }
          line := { s.line with rxq := [] }
          script := rest
          hist := s.hist ++ (rawEvents s.params [s.params.g10EraseWrite] [r0, r1, code] ++
            sendEvents s.params [Config.ack] ++ pollEvents (misses ++ [some Config.ack]) ++
            wordEvents s.params (imageWords s.code (size / 4) 0)) }

/-- A poll none of whose 100 attempts gives ACK ends G10_ERASE_WRITE with `Timeout`, `POLL_CNT = 100` and no word sent; a
word that is not acknowledged ends it with `ProgramFailed` at its address, `WIDX` naming it, and no later word sent
(R148, R149, R151). That `ERR_ADDR` holds an address of 2^24 or more mod 2^24 is the model's (log entry 25). -/
def Obligations.EraseWriteFailures : Prop :=
  ∀ (s : State) (f : List Byte → List Byte) (rest : List Tick) (size : Nat) (r0 r1 code : Byte),
    s.seqr.op = none → g10Ready s = true → s.lineClear → EchoLike f → 0 < size → size ≤ s.code.size → size % 4 = 0 →
    s.params.g10Cap code = some size →
    let opening := rawTicks s.params f [s.params.g10EraseWrite] [r0, r1, code] ++
      sendTicks s.params (f [Config.ack]) []
    let opened := rawEvents s.params [s.params.g10EraseWrite] [r0, r1, code] ++ sendEvents s.params [Config.ack]
    (∀ misses : List (Option Byte), misses.length = 100 → (∀ m ∈ misses, m ≠ some Config.ack) →
      s.script = opening ++ pollTicks misses ++ rest →
        ∃ t, exec (.reqG10EraseWrite size) s = .next t ∧ t.err = { kind := .timeout, op := some 0x0C#8 } ∧
          t.g10 = { s.g10 with resp0 := some r0, resp1 := some r1, capCode := some code, pollCnt := some 100 } ∧
          t.script = rest ∧ t.seqr = s.seqr ∧ t.hist = s.hist ++ (opened ++ pollEvents misses)) ∧
    (∀ (w : Nat) (b : Byte), w < size / 4 → b ≠ Config.ack →
      s.script = opening ++ pollTicks [some Config.ack] ++ wordTicks s.params f (imageWords s.code w 0) ++
        rawTicks s.params f (s.code.slice (4 * w) 4) [b] ++ rest →
        ∃ t, exec (.reqG10EraseWrite size) s = .next t ∧
          t.err = { kind := .programFailed, addr := some (BitVec.ofNat 24 (4 * w)), op := some 0x0C#8 } ∧
          t.g10.widx = some w ∧ t.script = rest ∧ t.seqr = s.seqr ∧
          t.hist = s.hist ++ (opened ++ pollEvents [some Config.ack] ++ wordEvents s.params (imageWords s.code w 0) ++
            rawEvents s.params (s.code.slice (4 * w) 4) [b]))

/-- A capacity code the table does not map to the image's size ends either whole-image request with NACK and then
`SizeMismatch`, before any word is sent or any CRC read (R146, R147, R156). -/
def Obligations.SizeMismatchAborts : Prop :=
  ∀ (s : State) (f : List Byte → List Byte) (rest : List Tick) (size : Nat) (r0 r1 code : Byte),
    s.seqr.op = none → g10Ready s = true → s.lineClear → EchoLike f → 0 < size → size ≤ s.code.size →
    s.params.g10Cap code ≠ some size →
    let g10 : G10Regs := { s.g10 with resp0 := some r0, resp1 := some r1, capCode := some code }
    let outcome (cmd : Byte) (r : Req) : State :=
      { (s.accept r).onLine rest [] (rawEvents s.params [cmd] [r0, r1, code] ++ sendEvents s.params [Config.nack]) with
        g10 := g10 }.takeError { kind := .sizeMismatch, status := some code }
    (size % 4 = 0 →
      s.script = rawTicks s.params f [s.params.g10EraseWrite] [r0, r1, code] ++
        sendTicks s.params (f [Config.nack]) [] ++ rest →
      exec (.reqG10EraseWrite size) s = .next (outcome s.params.g10EraseWrite .g10EraseWrite)) ∧
    (s.script = rawTicks s.params f [s.params.g10CrcCheck] [r0, r1, code] ++
        sendTicks s.params (f [Config.nack]) [] ++ rest →
      exec (.reqG10CrcCheck size) s = .next (outcome s.params.g10CrcCheck .g10CrcCheck))

/-- G10_CRC_CHECK: both CRC registers and `CRC_OK` are written, and the request ends without an error when they are
equal and with `ChecksumMismatch` when they are not; the session stays READY. Its last primitives, in order: `CRC_DEV` is
written, the image is read, with neither `CRC_LOCAL` nor `CRC_OK` written yet, then `CRC_LOCAL` and then `CRC_OK` (R153,
R154). How a state between two primitives is had from a run is the model's (log entry 10). -/
def Obligations.CrcCheckCompares : Prop :=
  (∀ (s : State) (f : List Byte → List Byte) (rest : List Tick) (size : Nat) (r0 r1 code d0 d1 : Byte),
    s.seqr.op = none → g10Ready s = true → s.lineClear → EchoLike f → 0 < size → size ≤ s.code.size →
    s.params.g10Cap code = some size →
    s.script = rawTicks s.params f [s.params.g10CrcCheck] [r0, r1, code] ++
        sendTicks s.params (f [Config.ack]) [d0, d1] ++ [quiet] ++ rest →
      let loc := crc16 s.params (s.code.slice 0 size)
      let dev : Half := match s.params.g10CrcOrder with
        | .le => d1 ++ d0
        | .be => d0 ++ d1
      let events := rawEvents s.params [s.params.g10CrcCheck] [r0, r1, code] ++ sendEvents s.params [Config.ack] ++
        [.rxRaw [d0, d1]]
      let g10 : G10Regs :=
        { s.g10 with
          resp0 := some r0, resp1 := some r1, capCode := some code, crcLocal := some loc, crcDev := some dev
          crcOk := some (loc == dev) }
      (loc = dev → exec (.reqG10CrcCheck size) s = .next { s.cleared.onLine rest [] events with g10 := g10 }) ∧
      (loc ≠ dev → exec (.reqG10CrcCheck size) s =
        .next ({ (s.accept .g10CrcCheck).onLine rest [] events with g10 := g10 }.takeError
          { kind := .checksumMismatch }))) ∧
  ∀ (s : State) (dev : Half) (size k : Nat), s.calm → size ≤ s.code.size →
    let loc := crc16 s.params (s.code.slice 0 size)
    stateAfter (crcRegisters dev size) k s =
      if k = 0 then some s
      else if k = 1 ∨ k = 2 then some { s with g10 := { s.g10 with crcDev := some dev } }
      else if k = 3 then some { s with g10 := { s.g10 with crcDev := some dev, crcLocal := some loc } }
      else if k = 4 ∧ loc ≠ dev then
        some { s with g10 := { s.g10 with crcDev := some dev, crcLocal := some loc, crcOk := some false } }
      else none

/-- An image of size 0 is absent: both whole-image requests send nothing and end without an error; a size that is no
multiple of 4 is refused by G10_ERASE_WRITE (R143). -/
def Obligations.ImageOfSizeZero : Prop :=
  ∀ (s : State) (size : Nat), s.seqr.op = none → g10Ready s = true → s.calm →
    exec (.reqG10EraseWrite 0) s = .next s.cleared ∧ exec (.reqG10CrcCheck 0) s = .next s.cleared ∧
    (size % 4 ≠ 0 → exec (.reqG10EraseWrite size) s = .next (s.refuse 0x0C#8))

/-- The CRC of the spec's check string and of its other short vectors, for both initial values (R152). -/
def Obligations.CrcVectors : Prop :=
  ∀ p : Params, p.crcXorout = 0x0000#16 →
    let digits : List Byte := [0x31, 0x32, 0x33, 0x34, 0x35, 0x36, 0x37, 0x38, 0x39]
    (p.crcInit = 0xFFFF#16 →
      crc16 p digits = 0x29B1#16 ∧ crc16 p [0x00#8] = 0xE1F0#16 ∧ crc16 p [0#8, 0#8, 0#8, 0#8] = 0x84C0#16 ∧
      crc16 p [1#8, 2#8, 3#8, 4#8] = 0x89C3#16) ∧
    (p.crcInit = 0x0000#16 →
      crc16 p digits = 0x31C3#16 ∧ crc16 p [0x00#8] = 0x0000#16 ∧ crc16 p [1#8, 2#8, 3#8, 4#8] = 0x0D03#16)

/-! ## The request port and the errors -/

/-- While a request is in progress every other one is refused and disturbs nothing but `ERR` and `ERR_OP` (R79, R17),
whenever it arrives: while a delayed start holds, or between any two primitives of a rule, shown on each of the three of
SET_LINK_BAUD and on each of the five of a REGION of size 0, none of which calls the Transport. How an arrival in the
middle of a rule stands in the state is the model's (log entry 10). -/
def Obligations.BusyEngineRefuses : Prop :=
  (∀ (i : Instr) (r : Req) (s : State), i.request = some r → s.seqr.op ≠ none →
    exec i s = .next { s with err := { s.err with kind := .badRequest, op := some r.code } }) ∧
  (∀ (s : State) (code : Byte) (rate k : Nat) (rest : List Tick), s.seqr.op = none → s.line.isOpen = true → k < 3 →
    s.script = quiet :: rest → s.moments = List.replicate k ({} : Moment) ++ [{ busy := [code] }] →
      exec (.reqSetLinkBaud rate) s = .next { s with
        err := { kind := .badRequest, op := some code }, seqr := { s.seqr with linkBaud := some rate }
        line := { s.line with rate := some rate }, script := rest, moments := [], hist := s.hist ++ [.baud rate] }) ∧
  ∀ (s : State) (code : Byte) (mode : CMode) (b : Buf) (base : Addr) (bs k : Nat),
    s.seqr.op = none → framedReady s = true → s.seqr.blockSz = some bs → k < 5 →
    s.moments = List.replicate k ({} : Moment) ++ [{ busy := [code] }] →
      exec (.reqRegion mode b base 0) s = .next { s with
        err := { kind := .badRequest, op := some code }
        blk := { s.blk with cmode := some mode, rbuf := some b, rbase := some base, rsize := some 0 }
        moments := [] }

/-- A request whose precondition does not hold is refused: nothing is sent, and no register but `ERR` and `ERR_OP`
changes (R78, R79, R97, R125). -/
def Obligations.PreconditionsRefuse : Prop :=
  ∀ (s : State) (proto rate mv verbose off size : Nat) (delayed : Bool) (a e : Addr) (b : Buf) (mode : CMode),
    let refused (i : Instr) (code : Byte) : Prop :=
      exec i s = .next { s with err := { s.err with kind := .badRequest, op := some code } }
    (s.params.baudCode rate = none ∨ 25599 < mv →
      refused (.reqInit proto rate mv delayed verbose) 0x01#8 ∧ refused (.reqSetBaud rate mv) 0x03#8) ∧
    (s.seqr.variant ≠ some .framed ∨ s.seqr.seq ≠ .ready →
      refused .reqResetCmd 0x02#8 ∧ refused (.reqSetBaud rate mv) 0x03#8 ∧ refused .reqSignature 0x05#8 ∧
      refused (.reqBlockErase a) 0x06#8 ∧ refused (.reqBlankCheck a e) 0x07#8 ∧ refused (.reqChecksum a e) 0x08#8 ∧
      refused (.reqBlockProgram a e b off) 0x09#8 ∧ refused (.reqBlockVerify a e b off) 0x0A#8 ∧
      refused (.reqRegion mode b a size) 0x0B#8) ∧
    (s.ident.idValid = true → refused .reqSignature 0x05#8) ∧
    (e.toNat < a.toNat →
      refused (.reqBlankCheck a e) 0x07#8 ∧ refused (.reqChecksum a e) 0x08#8 ∧
      refused (.reqBlockProgram a e b off) 0x09#8 ∧ refused (.reqBlockVerify a e b off) 0x0A#8) ∧
    ((s.buffer b).size < off + (e.toNat - a.toNat + 1) →
      refused (.reqBlockProgram a e b off) 0x09#8 ∧ refused (.reqBlockVerify a e b off) 0x0A#8) ∧
    ((s.buffer b).size < size → refused (.reqRegion mode b a size) 0x0B#8) ∧
    (∀ bs, s.seqr.blockSz = some bs → 2 ^ 24 < a.toNat + size / bs * bs → refused (.reqRegion mode b a size) 0x0B#8) ∧
    (s.seqr.variant ≠ some .g10 ∨ s.seqr.seq ≠ .ready ∨ s.code.size < size →
      refused (.reqG10EraseWrite size) 0x0C#8 ∧ refused (.reqG10CrcCheck size) 0x0D#8)

/-- A code that is none of the fourteen is refused the same way, and a request with arguments that are not its own as
well (R79); bytes for the wire that are no unit the Engine sends are refused too, with no code (I5); and bytes on the line
that are no response frame are read by decode (R77). How arguments lie and how wire bytes are presented is the model's
(log entries 4 and 14). -/
def Obligations.UnknownCodeRefused : Prop :=
  ∀ (s : State) (code : Byte) (args : List Byte),
    (code = 0x00#8 ∨ 0x0E#8 < code → present .request (code :: args) s =
      .next { s with err := { s.err with kind := .badRequest, op := some code } }) ∧
    (∀ r, decode s.params .request (code :: args) = .error r → present .request (code :: args) s =
      .next { s with err := { s.err with kind := .badRequest, op := some code } }) ∧
    (∀ port bytes r, decode s.params port bytes = .error r → port ≠ .request → port ≠ .response →
      present port bytes s = .next { s with err := { s.err with kind := .badRequest, op := none } }) ∧
    ∀ bytes r, decode s.params .response bytes = .error r → s.seqr.op = none → baudReady s = true →
      present .response bytes s =
        finish (do let _ ← decodeResponse (declen (byteAt bytes 1))) (s.receive bytes)

/-- What raising an error does to the state a rule has reached: the five error
registers together, `ERR_OP <- OP`, `OP <- NONE`, the error as a diagnostic event, and every register the rule wrote
before keeps its value; a part of the handshake gives the error its other kind, keeps the status byte and the cause, and
moves `SEQ` to IDLE (R158, R163, R174). That the event is emitted with the value VERBOSE holds is DEDUCED (log entry 12). -/
def Obligations.RaiseWritesErrorRegisters : Prop :=
  ∀ (m : Eng Unit) (kind : ErrKind) (s u : State) (e : Err), m s = .error (.raised e) u →
    (∃ t, finish m s = .next t ∧
      t.err = { kind := e.kind, status := e.status, addr := e.addr, cause := e.cause, op := u.seqr.op.map Req.code } ∧
      t.seqr = { u.seqr with op := none } ∧
      t.diags = u.diags ++ [⟨u.args.verbose, .error e.kind (u.seqr.op.map Req.code) e.addr⟩] ∧
      t = { u with err := t.err, seqr := t.seqr, diags := t.diags }) ∧
    ∃ t, finish (handshakePart kind m) s = .next t ∧
      t.err = { kind := kind, status := e.status, addr := none, cause := some e.kind, op := u.seqr.op.map Req.code } ∧
      t.seqr = { u.seqr with op := none, seq := .idle } ∧
      t.diags = u.diags ++ [⟨u.args.verbose, .error kind (u.seqr.op.map Req.code) none⟩] ∧
      t = { u with err := t.err, seqr := t.seqr, diags := t.diags }

/-- What stands in the error registers after a request during which nothing else happens, and that is not held: nothing
where it ended without an error; else its own code in `ERR_OP` and, for each kind, exactly the information R157 records
with it. -/
def Obligations.ErrorInformation : Prop :=
  ∀ (i : Instr) (r : Req) (s t : State), i.request = some r → s.seqr.op = none → s.undisturbed →
    exec i s = .next t → t.err.kind ≠ .badRequest → t.err ≠ {} →
      t.err.op = some r.code ∧
      (t.err.addr.isSome = true ↔ t.err.kind = .programFailed ∨ t.err.kind = .mismatchError) ∧
      (t.err.cause.isSome = true ↔ t.err.kind = .synchronizationFailed ∨ t.err.kind = .initializationFailed) ∧
      (t.err.kind = .deviceRejected ∨ t.err.kind = .sizeMismatch → t.err.status.isSome = true) ∧
      (t.err.status.isSome = true → t.err.kind = .deviceRejected ∨ t.err.kind = .sizeMismatch ∨
        t.err.kind = .synchronizationFailed ∨ t.err.kind = .initializationFailed)

/-- No codec error can arise in the whole-image variant (R155). -/
def Obligations.NoCodecErrorInG10 : Prop :=
  ∀ (i : Instr) (size : Nat) (s t : State), i = .reqG10EraseWrite size ∨ i = .reqG10CrcCheck size →
    s.seqr.op = none → s.undisturbed → exec i s = .next t →
      t.err.kind ≠ .formatError ∧ t.err.kind ≠ .lengthMismatch ∧ t.err.kind ≠ .checksumError

/-- On a closed Transport every request that calls it ends with `Io` and sends nothing, REGION where a block of it sends
anything and the two whole-image requests where the image is not absent; in INIT the handshake reports it. A close in
the middle of a rule is seen at its next Transport primitive and by no Wait: shown on RESET_AND_RUN, whose Wait still
passes after it (R169). -/
def Obligations.ClosedTransportIsIo : Prop :=
  ∀ (s : State) (rate mode proto mv verbose off size bs : Nat) (delayed : Bool) (a e : Addr) (b : Buf) (cm : CMode),
    s.seqr.op = none → s.undisturbed → s.line.isOpen = false →
    let io (i : Instr) (code : Byte) : Prop :=
      ∃ t, exec i s = .next t ∧ t.err = { kind := .io, op := some code } ∧ t.hist = s.hist
    (framedReady s = true →
      io .reqResetCmd 0x02#8 ∧ io (.reqBlockErase a) 0x06#8 ∧
      (rateOk rate mv s = true → io (.reqSetBaud rate mv) 0x03#8) ∧
      (s.ident.idValid = false → io .reqSignature 0x05#8) ∧
      (a.toNat ≤ e.toNat → io (.reqBlankCheck a e) 0x07#8 ∧ io (.reqChecksum a e) 0x08#8 ∧
        (off + (e.toNat - a.toNat + 1) ≤ (s.buffer b).size →
          io (.reqBlockProgram a e b off) 0x09#8 ∧ io (.reqBlockVerify a e b off) 0x0A#8)) ∧
      (s.seqr.blockSz = some bs → 0 < size / bs → size ≤ (s.buffer b).size → a.toNat + size / bs * bs ≤ 2 ^ 24 →
        (cm = .program → (s.buffer b).wf = true ∧ ∃ j < size / bs * bs, (s.buffer b).get j ≠ 0xFF#8) →
          io (.reqRegion cm b a size) 0x0B#8)) ∧
    (g10Ready s = true → 0 < size → size ≤ s.code.size →
      (size % 4 = 0 → io (.reqG10EraseWrite size) 0x0C#8) ∧ io (.reqG10CrcCheck size) 0x0D#8) ∧
    (∃ t, exec (.reqSetLinkBaud rate) s = .next t ∧ t.err = { kind := .io, op := some 0x04#8 } ∧ t.hist = s.hist ∧
      t.seqr.linkBaud = s.seqr.linkBaud) ∧
    io (.reqResetAndRun mode) 0x0E#8 ∧
    (rateOk rate mv s = true → ∃ t, exec (.reqInit proto rate mv delayed verbose) s = .next t ∧
      t.err = { kind := .synchronizationFailed, cause := some .io, op := some 0x01#8 } ∧ t.hist = s.hist ∧
      t.seqr.seq = .idle) ∧
    ∀ rest : List Tick, s.script = quiet :: rest →
      ∃ t, exec (.reqResetAndRun mode)
          { s with line := { s.line with isOpen := true }, moments := [{}, {}, { close := true }] } = .next t ∧
        t.err = { kind := .io, op := some 0x0E#8 } ∧ t.hist = s.hist ++ [.line .reset false, .wait .run] ∧
        t.script = rest ∧ t.line.isOpen = false

/-! ## The machine -/

/-- A step runs the instruction that the presented bytes decode to, at the state without that input; with nothing
presented it keeps every register (R175). A step at the grain of R7 goes from between two primitives of an instruction to
between the next two, and from the last one to the outcome. How the world's inputs stand in the state is the model's (log
entry 6). -/
def Obligations.StepRunsDecoded : Prop :=
  ∀ (s : State) (port : Port) (bytes : List Byte) (rest : List Input) (i : Instr),
    (s.inputs = .present port bytes :: rest → decode s.params port bytes = .ok i →
      step s = exec i { s with inputs := rest }) ∧
    (s.inputs = [] → step s = .next s) ∧
    ∀ k : Nat, (∀ u, between i (k + 1) s = some u → primitiveStep i k s = .inl u) ∧
      (between i (k + 1) s = none → primitiveStep i k s = .inr (exec i s))

/-- The registers after an Engine reset (R41), for all parameters. -/
def Obligations.ResetValues : Prop :=
  ∀ p : Params,
    let s := State.resetWith p
    s.seqr = ⟨.idle, none, none, none, none, none, none, none⟩ ∧
    s.ident = ⟨none, none, none, false, none, none, none, none⟩ ∧ s.baud = ⟨none, none⟩ ∧
    s.result = ⟨none, none, none⟩ ∧ s.err = ⟨.noError, none, none, none, none⟩ ∧
    s.blk = ⟨none, none, none, none, none, none, none⟩ ∧ s.g10 = ⟨none, none, none, none, none, none, none, none⟩ ∧
    s.args = ⟨none, none, none, none, none⟩

/-- The reset input, and a reset in the middle of a rule: every register as R41 has it, the Transport, the buffers and
the transcript as they were, and no error report (R176). A reset reaches an instruction, or a held INIT that goes on, after
any number of its primitives, and leaves the state it had reached then with the registers reset: shown besides on the
first primitive of BLOCK_ERASE, on each of the five of a REGION of size 0, and on the raise of an error, which is then not
reported. How it stands in the state is the model's (log entry 10), and so is what it keeps of READY_IN, the diagnostics and
the transcript (log entries 11, 12 and 13). -/
def Obligations.EngineResetAbandons : Prop :=
  let afterReset (s : State) : State :=
    { State.resetWith s.params with
      code := s.code, data := s.data, line := s.line, readyIn := s.readyIn, script := s.script, moments := s.moments
      inputs := s.inputs, hist := s.hist, diags := s.diags, view := s.view }
  (∀ (s : State) (rest : List Input), s.inputs = .engineReset :: rest →
    step s = .next (afterReset { s with inputs := rest })) ∧
  (∀ (m : Eng Unit) (s u : State), m s = .error .reset u → finish m s = .next (afterReset u)) ∧
  (∀ (i : Instr) (k : Nat) (s u : State), between i k s = some u → exec i (s.resetAfter k) = .next (afterReset u)) ∧
  (∀ (k : Nat) (s u : State), s.seqr.op = some .init → betweenHeld k { s with readyIn := true } = some u →
    takeInput (.ready true) (s.resetAfter k) = .next (afterReset u)) ∧
  (∀ (s : State) (rest : List Moment) (a : Addr), s.seqr.op = none → framedReady s = true →
    s.moments = { reset := true } :: rest →
      exec (.reqBlockErase a) s = .next (afterReset { s with moments := rest })) ∧
  (∀ (s : State) (mode : CMode) (b : Buf) (base : Addr) (bs k : Nat), s.seqr.op = none →
    framedReady s = true → s.seqr.blockSz = some bs → k < 5 →
    s.moments = List.replicate k ({} : Moment) ++ [{ reset := true }] →
      exec (.reqRegion mode b base 0) s = .next (afterReset { s with moments := [] })) ∧
  ∀ (s : State) (e : Err) (rest : List Moment), s.moments = { reset := true } :: rest →
    finish (raise e) s = .next (afterReset { s with moments := rest })

/-- After an Engine reset, from whatever state, the only requests that are accepted are INIT, SET_LINK_BAUD and
RESET_AND_RUN: every other one is refused, and none of the three ends with `BadRequest`, INIT where its rate and voltage
are in range (R177). -/
def Obligations.RequestsAfterReset : Prop :=
  ∀ (s : State) (i : Instr) (r : Req), i.request = some r → s.undisturbed →
    (r ≠ .init → r ≠ .setLinkBaud → r ≠ .resetAndRun →
      exec i s.engineReset = .next (s.engineReset.refuse r.code)) ∧
    (r = .setLinkBaud ∨ r = .resetAndRun →
      ∃ t, exec i s.engineReset = .next t ∧ t.err.kind ≠ .badRequest ∧ t.seqr.op = none) ∧
    ∀ (proto rate mv verbose : Nat) (delayed : Bool), i = .reqInit proto rate mv delayed verbose →
      rateOk rate mv s = true →
        ∃ t, exec i s.engineReset = .next t ∧ t.err.kind ≠ .badRequest ∧ t.seqr.proto = some proto

/-- The result view: with no request in progress it shows the register's value, and a register that holds `none` is a
fault, as every register but four does after a reset (R41, R42). What a register shows is its own field, a name as its code:
the states of the sequencer 0 to 4 (R16), no request 0 and a request its code (R17, R78), the modes 0 to 2 (R32), the error
kinds 0 to 14 (R157), a line's level 0 or 1. An event record with an event emitted while VERBOSE held `none` is a fault too,
and any other shows the events emitted while VERBOSE > 0 (R136, R174), which is DEDUCED (log entry 12). -/
def Obligations.NoneRegisterFaults : Prop :=
  (∀ (s : State) (r : Reg), s.seqr.op = none →
    (∀ v, regValue s r = some v → takeInput (.read r) s = .next { s with view := some (r, v) }) ∧
    (regValue s r = none → takeInput (.read r) s = .fault (.readNone r))) ∧
  (∀ (s : State) (r : Reg),
    let byte (v : Option Byte) : Option RegVal := v.map fun b => .num b.toNat
    let half (v : Option Half) : Option RegVal := v.map fun h => .num h.toNat
    let addr (v : Option Addr) : Option RegVal := v.map fun a => .num a.toNat
    let level (v : Option Bool) : Option RegVal := v.map fun b => .num (if b = true then 1 else 0)
    let kind (k : ErrKind) : Nat := match k with
      | .noError => 0 | .io => 1 | .timeout => 2 | .formatError => 3 | .checksumError => 4 | .lengthMismatch => 5
      | .deviceRejected => 6 | .programFailed => 7 | .mismatchError => 8 | .checksumMismatch => 9
      | .initializationFailed => 10 | .synchronizationFailed => 11 | .payloadTooLarge => 12 | .sizeMismatch => 13
      | .badRequest => 14
    regValue s r = match r with
      | .SEQ => some (.num (match s.seqr.seq with
        | .idle => 0 | .held => 1 | .syncing => 2 | .synced => 3 | .ready => 4))
      | .OP => some (.num (match s.seqr.op with
        | none => 0
        | some .init => 0x01 | some .resetCmd => 0x02 | some .setBaud => 0x03 | some .setLinkBaud => 0x04
        | some .signature => 0x05 | some .blockErase => 0x06 | some .blankCheck => 0x07 | some .checksum => 0x08
        | some .blockProgram => 0x09 | some .blockVerify => 0x0A | some .region => 0x0B | some .g10EraseWrite => 0x0C
        | some .g10CrcCheck => 0x0D | some .resetAndRun => 0x0E))
      | .PROTO => s.seqr.proto.map .num
      | .VARIANT => s.seqr.variant.map fun v => .num (match v with | .framed => 0 | .g10 => 1)
      | .BLOCK_SZ => s.seqr.blockSz.map .num
      | .LINK_BAUD => s.seqr.linkBaud.map .num
      | .LINE_RESET => level s.seqr.lineReset
      | .LINE_CLOCK => level s.seqr.lineClock
      | .DEV_CODE => s.ident.devCode.map .bytes
      | .DEV_NAME => s.ident.devName.map .bytes
      | .FW_VER => s.ident.fwVer.map .bytes
      | .ID_VALID => some (.flag s.ident.idValid)
      | .CODE_END => addr s.ident.codeEnd
      | .DATA_END => addr s.ident.dataEnd
      | .CODE_SIZE => s.ident.codeSize.map .num
      | .DATA_SIZE => s.ident.dataSize.map .num
      | .FREQ => byte s.baud.freq
      | .VMODE => byte s.baud.vmode
      | .NOT_BLANK => s.result.notBlank.map .flag
      | .CKSUM16 => half s.result.cksum16
      | .LAST_STATUS => byte s.result.lastStatus
      | .ERR => some (.num (kind s.err.kind))
      | .ERR_STATUS => byte s.err.status
      | .ERR_ADDR => addr s.err.addr
      | .ERR_CAUSE => s.err.cause.map fun k => .num (kind k)
      | .ERR_OP => byte s.err.op
      | .CMODE => s.blk.cmode.map fun m => .num (match m with | .erase => 0 | .program => 1 | .verify => 2)
      | .RBUF => s.blk.rbuf.map .buf
      | .RBASE => addr s.blk.rbase
      | .RSIZE => s.blk.rsize.map .num
      | .NBLK => s.blk.nblk.map .num
      | .BIDX => s.blk.bidx.map .num
      | .FIDX => s.blk.fidx.map .num
      | .G10_RESP0 => byte s.g10.resp0
      | .G10_RESP1 => byte s.g10.resp1
      | .G10_CAP_CODE => byte s.g10.capCode
      | .POLL_CNT => s.g10.pollCnt.map .num
      | .WIDX => s.g10.widx.map .num
      | .CRC_LOCAL => half s.g10.crcLocal
      | .CRC_DEV => half s.g10.crcDev
      | .CRC_OK => s.g10.crcOk.map .flag
      | .TARGET_BAUD => s.args.targetBaud.map .num
      | .VOLTAGE_MV => s.args.voltageMv.map .num
      | .DELAYED_START => s.args.delayedStart.map .flag
      | .PROTO_IN => s.args.protoIn.map .num
      | .VERBOSE => s.args.verbose.map .num) ∧
  (∀ (p : Params) (r : Reg), takeInput (.read r) (State.resetWith p) = .fault (.readNone r) ↔
    r ≠ .SEQ ∧ r ≠ .OP ∧ r ≠ .ID_VALID ∧ r ≠ .ERR) ∧
  ∀ ds : List Emitted,
    (recorded ds = .error (.readNone .VERBOSE) ↔ ∃ d ∈ ds, d.level = none) ∧
    ((∀ d ∈ ds, d.level ≠ none) → recorded ds = .ok ((ds.filter fun d => d.level.any (0 < ·)).map Emitted.event))

/-- What the Caller stores in a buffer between two requests is what the next request reads, and no other byte changes
(R55, R36, R45). -/
def Obligations.StoreThenRead : Prop :=
  ∀ (s t : State) (b : Buf) (off : Nat) (bytes : List Byte), (s.buffer b).wf = true → s.calm →
    takeInput (.store b off bytes) s = .next t →
      memRead b off bytes.length t = .ok bytes t ∧ (t.buffer b).size = (s.buffer b).size ∧
      ∀ x, x < off ∨ off + bytes.length ≤ x → (t.buffer b).get x = (s.buffer b).get x

/-- The invariant holds after reset, for all parameters. -/
def Obligations.InvAtReset : Prop := ∀ p : Params, (State.resetWith p).Inv

/-- Every step keeps the invariant. In the middle of an instruction, after any number of its primitives, the core of it
holds, but for the registers a rule is in the middle of writing one by one (`Midway`), and `OP` is the request in progress,
or NONE where a unit of the wire runs on its own; in the middle of a held INIT that goes on the whole core holds (R7, R11,
R17). The hold in the invariant has READY_IN as a level and SEQ at IDLE, which are DEDUCED (log entries 11 and 16); what a
unit does on its own is the model's (log entry 1). -/
def Obligations.StepKeepsInv : Prop :=
  (∀ s t : State, s.Inv → step s = .next t → t.Inv) ∧
  (∀ (i : Instr) (k : Nat) (s u : State), s.Inv → between i k s = some u → s.Midway i u ∧ u.seqr.op = i.request) ∧
  ∀ (k : Nat) (s u : State), s.Inv → s.Held → betweenHeld k { s with readyIn := true } = some u →
    u.Core ∧ u.seqr.op = some .init

/-- Every request ends: it answers a next state with `OP = NONE`, or it is a delayed INIT that holds. It never faults, so
the Engine never reads beyond a buffer and never needs a register that holds `none` (R13, R17, R45). The hold has READY_IN
as a level and SEQ at IDLE, which are DEDUCED (log entries 11 and 16). -/
def Obligations.EveryRequestEnds : Prop :=
  ∀ (i : Instr) (r : Req) (s : State), s.Inv → i.request = some r →
    ∃ t, exec i s = .next t ∧ (t.seqr.op = none ∨ t.Held)

/-- The Engine writes no buffer, whatever it runs, the rest of a held INIT included, after any number of primitives and
however it ends (R45). That READY_IN stays at its level is the model's (log entry 11): that it is a level is DEDUCED, that an Engine reset keeps it is
a DESIGN CHOICE. -/
def Obligations.BuffersNeverWritten : Prop :=
  (∀ (i : Instr) (s t : State), exec i s = .next t →
    t.code = s.code ∧ t.data = s.data ∧ t.params = s.params ∧ t.inputs = s.inputs ∧ t.readyIn = s.readyIn) ∧
  (∀ (i : Instr) (k : Nat) (s u : State), between i k s = some u ∨ betweenHeld k s = some u →
    u.code = s.code ∧ u.data = s.data ∧ u.params = s.params ∧ u.inputs = s.inputs ∧ u.readyIn = s.readyIn) ∧
  ∀ (level : Bool) (s t : State), takeInput (.ready level) s = .next t →
    t.code = s.code ∧ t.data = s.data ∧ t.params = s.params ∧ t.inputs = s.inputs ∧ t.readyIn = level

/-- Whatever a step does, the rest of a held INIT and bytes that are no unit included, the transcript only grows, and every
line of it that sends bytes sends a whole unit of the wire: a command frame carries one of the eight opcodes, and unframed
bytes are those of R67, a word of an image being any four bytes (R68, R76, R149). The one line that may hold only the
beginning of a unit is the last, where a write failed (R160): the run then ends with `Io`, or with a handshake error caused
by `Io`. The same of every instruction; and after any number of its primitives, or of a held INIT that goes on, there are
whole units only. The transcript is the model's (log entry 13). -/
def Obligations.OnlyUnitsAreSent : Prop :=
  let sends (s t : State) : Prop := ∃ events, t.hist = s.hist ++ events ∧
    (sendsUnits s.params events ∨ cutShort s.params events ∧ t.endedWithIo)
  (∀ s t : State, step s = .next t → sends s t) ∧ (∀ (i : Instr) (s t : State), exec i s = .next t → sends s t) ∧
  ∀ (i : Instr) (k : Nat) (s u : State), between i k s = some u ∨ betweenHeld k s = some u →
    ∃ events, u.hist = s.hist ++ events ∧ sendsUnits s.params events

/-- `PROTO`, `VARIANT` and `BLOCK_SZ` are written only by an accepted INIT, which writes all three: the selector, its
variant and its block size, from every state (R18, R19). No instruction but INIT, the two units of the handshake and
RESET_AND_RUN moves the sequencer (R16, R122, R123); that the units sync and g10-mode-set move it on their own is the
model's (log entry 1). -/
def Obligations.SequencerMovers : Prop :=
  (∀ (i : Instr) (s t : State), s.noReset → exec i s = .next t → i.request ≠ some .init →
    t.seqr.proto = s.seqr.proto ∧ t.seqr.variant = s.seqr.variant ∧ t.seqr.blockSz = s.seqr.blockSz ∧
    (i.request ≠ some .resetAndRun → i ≠ .sync → i ≠ .g10ModeSet → t.seqr.seq = s.seqr.seq)) ∧
  ∀ (s t : State) (proto rate mv verbose : Nat) (delayed : Bool), s.noReset →
    exec (.reqInit proto rate mv delayed verbose) s = .next t →
      (s.seqr.op = none → rateOk rate mv s = true →
        t.seqr.proto = some proto ∧ t.seqr.blockSz = some (s.params.blockSize proto) ∧
        regValue t .VARIANT = some (.num (match s.params.variantOf proto with | .framed => 0 | .g10 => 1))) ∧
      (s.seqr.op ≠ none ∨ rateOk rate mv s = false → t.seqr = s.seqr)

/-- The identity registers are immutable once stored, and a second SIGNATURE is refused; what is not stored is written only
by the signature and cleared only by INIT (R27; EngineResetAbandons has the other way they are cleared). -/
def Obligations.IdentityImmutable : Prop :=
  (∀ (i : Instr) (s t : State), s.noReset → exec i s = .next t → i.request ≠ some .init →
    s.ident.idValid = true ∨ i ≠ .siliconSignature ∧ i ≠ .reqSignature → t.ident = s.ident) ∧
  ∀ s : State, s.ident.idValid = true → exec .reqSignature s = .next (s.refuse 0x05#8)

/-- Each flag is written only by the rule that names it: `ID_VALID` by the signature and INIT, `NOT_BLANK` by the
blank-check, on its own or in a region, `CRC_OK` by the CRC check (R35, R28). -/
def Obligations.FlagsWrittenByTheirRule : Prop :=
  ∀ (i : Instr) (s t : State), s.noReset → exec i s = .next t →
    (i ≠ .siliconSignature → i ≠ .reqSignature → i.request ≠ some .init → t.ident.idValid = s.ident.idValid) ∧
    ((∀ a e, i ≠ .blankCheck a e) → i.request ≠ some .blankCheck → i.request ≠ some .region →
      t.result.notBlank = s.result.notBlank) ∧
    (i.request ≠ some .g10CrcCheck → t.g10.crcOk = s.g10.crcOk)

/-! ## Frames -/

/-- What the framed commands may change, beside the line, the error registers and `OP`: `LAST_STATUS` and, each only
its own, `NOT_BLANK`, `CKSUM16`, `FREQ` and `VMODE`, the identity registers, `FIDX` (R96 to R105). What a row does on
its own is the model's (log entry 1), and so is READY_IN as a level that stays (log entry 11). -/
def Obligations.CommandFrames : Prop :=
  ∀ (s t : State) (a e : Addr) (bytes : List Byte) (code volt : Byte) (b : Buf) (off : Nat), s.noReset →
    let status : ResultRegs := { s.result with lastStatus := t.result.lastStatus }
    (exec .reset s = .next t ∨ exec (.blockErase a) s = .next t ∨ exec .reqResetCmd s = .next t ∨
        exec (.reqBlockErase a) s = .next t → t = { s.lineOf t with result := status }) ∧
    (exec (.blankCheck a e) s = .next t ∨ exec (.reqBlankCheck a e) s = .next t →
      t = { s.lineOf t with result := { status with notBlank := t.result.notBlank } }) ∧
    (exec (.checksum a e) s = .next t ∨ exec (.reqChecksum a e) s = .next t →
      t = { s.lineOf t with result := { status with cksum16 := t.result.cksum16 } }) ∧
    (exec (.baudSet code volt) s = .next t → t = { s.lineOf t with result := status, baud := t.baud }) ∧
    (exec .siliconSignature s = .next t ∨ exec .reqSignature s = .next t →
      t = { s.lineOf t with result := status, ident := t.ident }) ∧
    (exec (.program a e bytes) s = .next t ∨ exec (.verify a e bytes) s = .next t ∨
        exec (.reqBlockProgram a e b off) s = .next t ∨ exec (.reqBlockVerify a e b off) s = .next t →
      t = { s.lineOf t with result := status, blk := { s.blk with fidx := t.blk.fidx } })

/-- What the remaining instructions may change, beside the line, the error registers and `OP` (R26, R32 to R34, R40,
R98, R123). What a row does on its own is the model's (log entry 1), and so is READY_IN as a level that stays (log entry
11). -/
def Obligations.OtherFrames : Prop :=
  ∀ (s t : State) (proto rate mv verbose mode size : Nat) (delayed last : Bool) (bytes : List Byte) (cm : CMode)
      (b : Buf) (base : Addr) (b0 b1 b2 b3 : Byte), s.noReset →
    let status : ResultRegs := { s.result with lastStatus := t.result.lastStatus }
    (exec (.dataFrame bytes last) s = .next t ∨ exec (.responseFrame bytes last) s = .next t ∨
        exec .g10Ack s = .next t ∨ exec .g10Nack s = .next t ∨ exec (.g10Word b0 b1 b2 b3) s = .next t →
      t = s.lineOf t) ∧
    (exec .sync s = .next t ∨ exec .g10ModeSet s = .next t →
      t = { s.lineOf t with seqr := { s.seqr with op := t.seqr.op, seq := t.seqr.seq } }) ∧
    (exec .g10EraseWrite s = .next t ∨ exec .g10CrcCheck s = .next t ∨ exec (.reqG10EraseWrite size) s = .next t ∨
        exec (.reqG10CrcCheck size) s = .next t → t = { s.lineOf t with g10 := t.g10 }) ∧
    (exec (.reqSetBaud rate mv) s = .next t →
      t = { s.lineOf t with
        result := status, baud := t.baud
        args := { s.args with targetBaud := t.args.targetBaud, voltageMv := t.args.voltageMv } }) ∧
    (exec (.reqSetLinkBaud rate) s = .next t →
      t = { s.lineOf t with
        seqr := { s.seqr with op := t.seqr.op, linkBaud := t.seqr.linkBaud }
        line := { s.line with isOpen := t.line.isOpen, rxq := t.line.rxq, rate := t.line.rate } }) ∧
    (exec (.reqResetAndRun mode) s = .next t →
      t = { s.lineOf t with
        seqr := { s.seqr with op := t.seqr.op, seq := t.seqr.seq, lineReset := t.seqr.lineReset }
        line :=
          { s.line with
            isOpen := t.line.isOpen, rxq := t.line.rxq, reset := t.line.reset, wiring := t.line.wiring } }) ∧
    (exec (.reqRegion cm b base size) s = .next t →
      t = { s.lineOf t with
        result := { status with notBlank := t.result.notBlank }, blk := t.blk }) ∧
    (exec (.reqInit proto rate mv delayed verbose) s = .next t →
      t = { s.lineOf t with
        seqr := t.seqr, ident := t.ident, baud := t.baud, result := status, args := t.args
        line := { t.line with wiring := s.line.wiring } })
end

