-- ==== Sys2Proof/Laws/Codec.lean ====
section
/-! SUPPORT. The laws of the frame codec's pure part: sums, little-endian fields, the pieces of a transfer, and reading back
a frame. -/

namespace Sys2Proof

/-! ## Sums -/

@[simp] theorem byteSum_append : ∀ (a b : List Byte), byteSum (a ++ b) = byteSum a + byteSum b
  | [], b => by simp [byteSum]
  | x :: r, b => by simp only [List.cons_append, byteSum, byteSum_append r b]; ring

/-- What the checksum is for (R84). -/
theorem byteSum_cks (s : List Byte) : byteSum s + cks s = 0#8 := by
  simp only [cks]; exact BitVec.add_right_neg _

/-- The test of a received frame passes for the checksum an encoder writes. -/
theorem frame_sum (len : Byte) (s : List Byte) : len + byteSum s + cks (len :: s) = 0#8 := by
  simp only [cks, byteSum]; exact BitVec.add_right_neg _

/-! ## Lengths -/

/-- A LEN byte stands for the length it was made from, 256 wrapping to 0 and back (R64). -/
theorem declen_ofNat {n : Nat} (h0 : 1 ≤ n) (h : n ≤ 256) : declen (BitVec.ofNat 8 n) = n := by
  unfold declen
  by_cases h' : n = 256
  · subst h'; rfl
  · have : (BitVec.ofNat 8 n).toNat = n := by simp; omega
    have hne : ¬ (BitVec.ofNat 8 n == 0#8) = true := by
      simp only [beq_iff_eq]
      intro hc
      have := congrArg BitVec.toNat hc
      simp at this; omega
    rw [if_neg hne, this]

/-! ## Fields -/

@[simp] theorem length_le3 (a : Addr) : (le3 a).length = 3 := rfl
@[simp] theorem length_le4 (n : Nat) : (le4 n).length = 4 := rfl
@[simp] theorem length_rangePayload (s e : Addr) : (rangePayload s e).length = 6 := rfl

/-- An address is the three bytes it is sent as (R43). -/
theorem ofLe3_le3 (a : Addr) : ofLe3 (a.extractLsb' 0 8) (a.extractLsb' 8 8) (a.extractLsb' 16 8) = a := by
  apply BitVec.eq_of_getLsbD_eq
  intro i hi
  simp only [ofLe3, BitVec.getLsbD_or, BitVec.getLsbD_setWidth, BitVec.getLsbD_shiftLeft, BitVec.getLsbD_extractLsb']
  by_cases h1 : i < 8
  · simp [h1, hi]; intro h; omega
  · by_cases h2 : i < 16
    · simp [h1, h2, hi, show i - 8 < 8 by omega, show 8 + (i - 8) = i by omega]; omega
    · simp [h1, h2, hi, show ¬ i - 8 < 8 by omega, show i - 16 < 8 by omega, show 16 + (i - 16) = i by omega]; omega

theorem takeAddr_le3 (a : Addr) (r : List Byte) : takeAddr (le3 a ++ r) = some (a, r) := by
  simp [takeAddr, le3, ofLe3_le3]

theorem takeNat_le4 {n : Nat} (h : argOk n = true) (r : List Byte) : takeNat (le4 n ++ r) = some (n, r) := by
  simp only [argOk, decide_eq_true_eq] at h
  simp only [takeNat, le4, List.cons_append, List.nil_append, BitVec.toNat_ofNat, Option.some.injEq, Prod.mk.injEq,
    and_true]
  omega

theorem takeAddr_le3_nil (a : Addr) : takeAddr (le3 a) = some (a, []) := by simpa using takeAddr_le3 a []

theorem takeNat_le4_nil {n : Nat} (h : argOk n = true) : takeNat (le4 n) = some (n, []) := by
  simpa using takeNat_le4 h []

theorem takeBool_boolByte (b : Bool) (r : List Byte) : takeBool (boolByte b :: r) = some (b, r) := by
  cases b <;> rfl

theorem takeBuf_bufByte (b : Buf) (r : List Byte) : takeBuf (bufByte b :: r) = some (b, r) := by
  cases b <;> rfl

theorem takeMode_modeByte (m : CMode) (r : List Byte) : takeMode (modeByte m :: r) = some (m, r) := by
  cases m <;> rfl

@[simp] theorem ofByte_byte (o : Opcode) : Opcode.ofByte o.byte = some o := by cases o <;> rfl
@[simp] theorem ofCode_code (r : Req) : Req.ofCode r.code = some r := by cases r <;> rfl

/-! ## Frames -/

@[simp] theorem length_commandBytes (p : Params) (opc : Byte) (pl : List Byte) :
    (commandBytes p opc pl).length = pl.length + 5 := by
  simp [commandBytes]

@[simp] theorem length_dataBytes (p : Params) (pl : List Byte) (last : Bool) :
    (dataBytes p pl last).length = pl.length + 4 := by
  simp [dataBytes]

/-- Reading back one frame: the covered bytes, the end marker, and what follows (R65, R66). -/
theorem takeFrame_cons {start term : Byte} {body rest : List Byte} (h0 : 1 ≤ body.length) (h : body.length ≤ 256) :
    takeFrame start (start :: BitVec.ofNat 8 body.length ::
        (body ++ [cks (BitVec.ofNat 8 body.length :: body), term]) ++ rest) = .ok (body, term, rest) := by
  have hd := declen_ofNat h0 h
  simp only [takeFrame, List.cons_append, bne_self_eq_false, Bool.false_eq_true, if_false, hd, List.append_assoc]
  rw [List.drop_left, List.take_left]
  simp [frame_sum]

/-- Reading back a data frame. -/
theorem takeFrame_dataBytes (p : Params) {pl : List Byte} (last : Bool) (rest : List Byte) (h0 : 1 ≤ pl.length)
    (h : pl.length ≤ 256) : takeFrame p.stx (dataBytes p pl last ++ rest) = .ok (pl, endMarker p last, rest) := by
  have := takeFrame_cons (start := p.stx) (term := endMarker p last) (rest := rest) h0 h
  simpa [dataBytes] using this

/-- Reading back a command frame. -/
theorem takeFrame_commandBytes (p : Params) (opc : Byte) {pl : List Byte} (rest : List Byte) (h : pl.length ≤ 255) :
    takeFrame p.soh (commandBytes p opc pl ++ rest) = .ok (opc :: pl, p.etx, rest) := by
  have := takeFrame_cons (start := p.soh) (term := p.etx) (body := opc :: pl) (rest := rest) (by simp) (by simp; omega)
  simpa [commandBytes] using this

theorem decodeCommand_commandBytes (p : Params) (o : Opcode) {pl : List Byte} (rest : List Byte) (h : pl.length ≤ 255) :
    decodeCommand p (commandBytes p o.byte pl ++ rest) = ofCommand p o pl rest := by
  simp [decodeCommand, takeFrame_commandBytes p o.byte rest h]

/-! ## Transfers -/

@[simp] theorem length_chunks : ∀ (k : Nat) (bytes : List Byte), (chunks k bytes).length = k
  | 0, _ => rfl
  | k + 1, bytes => by simp [chunks, length_chunks k]

/-- A transfer of `bs` bytes takes `ceil(bs/256)` frames (R109). -/
theorem length_framesOf (bytes : List Byte) : (framesOf bytes).length = frameCount bytes.length := length_chunks ..

/-- Each frame of a transfer carries 1 to 256 bytes. -/
theorem chunk_bounds : ∀ {k : Nat} {bytes c : List Byte}, k = frameCount bytes.length → c ∈ chunks k bytes →
    1 ≤ c.length ∧ c.length ≤ 256
  | 0, _, _, _, h => by simp [chunks] at h
  | k + 1, bytes, c, hk, h => by
    simp only [chunks, List.mem_cons] at h
    unfold frameCount at hk
    rcases h with rfl | h
    · simp only [List.length_take]; omega
    · refine chunk_bounds (k := k) (bytes := bytes.drop 256) ?_ h
      simp only [frameCount, List.length_drop]; omega

theorem framesOf_bounds {bytes c : List Byte} (h : c ∈ framesOf bytes) : 1 ≤ c.length ∧ c.length ≤ 256 :=
  chunk_bounds rfl h

/-- The frames of a transfer carry its bytes in order (R44, R106). -/
theorem flatten_chunks : ∀ {k : Nat} {bytes : List Byte}, bytes.length ≤ 256 * k → (chunks k bytes).flatten = bytes
  | 0, bytes, h => by
    have : bytes = [] := List.eq_nil_of_length_eq_zero (by omega)
    simp [chunks, this]
  | k + 1, bytes, h => by
    have : (chunks k (bytes.drop 256)).flatten = bytes.drop 256 := flatten_chunks (by simp; omega)
    simp [chunks, this]

theorem flatten_framesOf (bytes : List Byte) : (framesOf bytes).flatten = bytes :=
  flatten_chunks (by unfold frameCount; omega)

theorem chunks_eq : ∀ (k : Nat) (bytes : List Byte),
    chunks k bytes = (List.range k).map fun j => (bytes.drop (256 * j)).take 256
  | 0, _ => rfl
  | k + 1, bytes => by
    rw [chunks, chunks_eq k, List.range_succ_eq_map, List.map_cons, List.map_map]
    simp only [Function.comp_def, List.drop_drop, Nat.mul_zero, List.drop_zero, Nat.mul_succ]
    simp only [Nat.add_comm]

/-- Reading back the data frames of a transfer. -/
theorem takeData_dataPhase (p : Params) : ∀ {k n : Nat} {bytes : List Byte}, bytes.length = n → 1 ≤ n →
    k = frameCount n → takeData p k n (dataPhase p (chunks k bytes)) = .ok bytes
  | 0, n, bytes, hl, hn, hk => by unfold frameCount at hk; omega
  | k + 1, n, bytes, hl, hn, hk => by
    unfold frameCount at hk
    by_cases h1 : n ≤ 256
    · have hk0 : k = 0 := by omega
      subst hk0
      have ht : bytes.take 256 = bytes := List.take_of_length_le (by omega)
      simp only [chunks, ht, dataPhase, takeData]
      have hf := takeFrame_dataBytes p (pl := bytes) true [] (by omega) (by omega)
      rw [List.append_nil] at hf
      rw [hf]
      simp [endMarker, h1, hl]
    · obtain ⟨m, rfl⟩ : ∃ m, k = m + 1 := ⟨k - 1, by omega⟩
      have ih := takeData_dataPhase p (k := m + 1) (n := n - 256) (bytes := bytes.drop 256) (by simp [hl]) (by omega)
        (by unfold frameCount; omega)
      have hlen : (bytes.take 256).length = 256 := by simp [hl]; omega
      have hf := takeFrame_dataBytes p (pl := bytes.take 256) false (dataPhase p (chunks (m + 1) (bytes.drop 256)))
        (by omega) (by omega)
      rw [chunks, show dataPhase p (bytes.take 256 :: chunks (m + 1) (bytes.drop 256)) =
        dataBytes p (bytes.take 256) false ++ dataPhase p (chunks (m + 1) (bytes.drop 256)) from rfl]
      rw [takeData, hf]
      simp [endMarker, h1, hl, ih]

end Sys2Proof
end

