-- ==== Sys2Proof/Laws/State.lean ====
section
/-! SUPPORT. One lemma per field per update of the state, true by rfl, so that no later proof unfolds a record update. -/

namespace Sys2Proof.Machine

/-! ### What the register writes of one group come to -/

/-- `FREQ` and `VMODE` (R26, R97). -/
def State.setModes (s : State) (freq vmode : Byte) : State := { s with baud := { freq := some freq, vmode := some vmode } }

/-- The identity registers take a signature record (R100). -/
def State.identify (s : State) (d : List Byte) : State := { s with ident := identOf s.params d }

/-- The session's registers, and `SEQ` at IDLE (R40). -/
def State.openSession (s : State) (proto : Nat) : State :=
  { s with
    seqr := { s.seqr with
      seq := .idle, proto := some proto, variant := some (s.params.variantOf proto), blockSz := some (s.params.blockSize proto) }
    ident := {}
    baud := {} }

/-- The region registers (R125). -/
def State.setRegion (s : State) (mode : CMode) (b : Buf) (base : Addr) (size : Nat) : State :=
  { s with blk := { s.blk with cmode := some mode, rbuf := some b, rbase := some base, rsize := some size } }

/-- `G10_RESP0`, `G10_RESP1` and `G10_CAP_CODE` (R145, R153). -/
def State.setResponse (s : State) (r0 r1 code : Byte) : State :=
  { s with g10 := { s.g10 with resp0 := some r0, resp1 := some r1, capCode := some code } }

/-! ### log -/

@[simp] theorem log_params (s : State) (e : Event) : (s.log e).params = s.params := rfl
@[simp] theorem log_seqr (s : State) (e : Event) : (s.log e).seqr = s.seqr := rfl
@[simp] theorem log_ident (s : State) (e : Event) : (s.log e).ident = s.ident := rfl
@[simp] theorem log_baud (s : State) (e : Event) : (s.log e).baud = s.baud := rfl
@[simp] theorem log_result (s : State) (e : Event) : (s.log e).result = s.result := rfl
@[simp] theorem log_err (s : State) (e : Event) : (s.log e).err = s.err := rfl
@[simp] theorem log_blk (s : State) (e : Event) : (s.log e).blk = s.blk := rfl
@[simp] theorem log_g10 (s : State) (e : Event) : (s.log e).g10 = s.g10 := rfl
@[simp] theorem log_args (s : State) (e : Event) : (s.log e).args = s.args := rfl
@[simp] theorem log_code (s : State) (e : Event) : (s.log e).code = s.code := rfl
@[simp] theorem log_data (s : State) (e : Event) : (s.log e).data = s.data := rfl
@[simp] theorem log_line (s : State) (e : Event) : (s.log e).line = s.line := rfl
@[simp] theorem log_readyIn (s : State) (e : Event) : (s.log e).readyIn = s.readyIn := rfl
@[simp] theorem log_script (s : State) (e : Event) : (s.log e).script = s.script := rfl
@[simp] theorem log_moments (s : State) (e : Event) : (s.log e).moments = s.moments := rfl
@[simp] theorem log_inputs (s : State) (e : Event) : (s.log e).inputs = s.inputs := rfl
@[simp] theorem log_hist (s : State) (e : Event) : (s.log e).hist = s.hist ++ [e] := rfl
@[simp] theorem log_diags (s : State) (e : Event) : (s.log e).diags = s.diags := rfl
@[simp] theorem log_view (s : State) (e : Event) : (s.log e).view = s.view := rfl

/-! ### receive -/

@[simp] theorem receive_params (s : State) (bytes : List Byte) : (s.receive bytes).params = s.params := rfl
@[simp] theorem receive_seqr (s : State) (bytes : List Byte) : (s.receive bytes).seqr = s.seqr := rfl
@[simp] theorem receive_ident (s : State) (bytes : List Byte) : (s.receive bytes).ident = s.ident := rfl
@[simp] theorem receive_baud (s : State) (bytes : List Byte) : (s.receive bytes).baud = s.baud := rfl
@[simp] theorem receive_result (s : State) (bytes : List Byte) : (s.receive bytes).result = s.result := rfl
@[simp] theorem receive_err (s : State) (bytes : List Byte) : (s.receive bytes).err = s.err := rfl
@[simp] theorem receive_blk (s : State) (bytes : List Byte) : (s.receive bytes).blk = s.blk := rfl
@[simp] theorem receive_g10 (s : State) (bytes : List Byte) : (s.receive bytes).g10 = s.g10 := rfl
@[simp] theorem receive_args (s : State) (bytes : List Byte) : (s.receive bytes).args = s.args := rfl
@[simp] theorem receive_code (s : State) (bytes : List Byte) : (s.receive bytes).code = s.code := rfl
@[simp] theorem receive_data (s : State) (bytes : List Byte) : (s.receive bytes).data = s.data := rfl
@[simp] theorem receive_line (s : State) (bytes : List Byte) : (s.receive bytes).line = { s.line with rxq := s.line.rxq ++ bytes } := rfl
@[simp] theorem receive_readyIn (s : State) (bytes : List Byte) : (s.receive bytes).readyIn = s.readyIn := rfl
@[simp] theorem receive_script (s : State) (bytes : List Byte) : (s.receive bytes).script = s.script := rfl
@[simp] theorem receive_moments (s : State) (bytes : List Byte) : (s.receive bytes).moments = s.moments := rfl
@[simp] theorem receive_inputs (s : State) (bytes : List Byte) : (s.receive bytes).inputs = s.inputs := rfl
@[simp] theorem receive_hist (s : State) (bytes : List Byte) : (s.receive bytes).hist = s.hist := rfl
@[simp] theorem receive_diags (s : State) (bytes : List Byte) : (s.receive bytes).diags = s.diags := rfl
@[simp] theorem receive_view (s : State) (bytes : List Byte) : (s.receive bytes).view = s.view := rfl

/-! ### setOpen -/

@[simp] theorem setOpen_params (s : State) (b : Bool) : (s.setOpen b).params = s.params := rfl
@[simp] theorem setOpen_seqr (s : State) (b : Bool) : (s.setOpen b).seqr = s.seqr := rfl
@[simp] theorem setOpen_ident (s : State) (b : Bool) : (s.setOpen b).ident = s.ident := rfl
@[simp] theorem setOpen_baud (s : State) (b : Bool) : (s.setOpen b).baud = s.baud := rfl
@[simp] theorem setOpen_result (s : State) (b : Bool) : (s.setOpen b).result = s.result := rfl
@[simp] theorem setOpen_err (s : State) (b : Bool) : (s.setOpen b).err = s.err := rfl
@[simp] theorem setOpen_blk (s : State) (b : Bool) : (s.setOpen b).blk = s.blk := rfl
@[simp] theorem setOpen_g10 (s : State) (b : Bool) : (s.setOpen b).g10 = s.g10 := rfl
@[simp] theorem setOpen_args (s : State) (b : Bool) : (s.setOpen b).args = s.args := rfl
@[simp] theorem setOpen_code (s : State) (b : Bool) : (s.setOpen b).code = s.code := rfl
@[simp] theorem setOpen_data (s : State) (b : Bool) : (s.setOpen b).data = s.data := rfl
@[simp] theorem setOpen_line (s : State) (b : Bool) : (s.setOpen b).line = { s.line with isOpen := b } := rfl
@[simp] theorem setOpen_readyIn (s : State) (b : Bool) : (s.setOpen b).readyIn = s.readyIn := rfl
@[simp] theorem setOpen_script (s : State) (b : Bool) : (s.setOpen b).script = s.script := rfl
@[simp] theorem setOpen_moments (s : State) (b : Bool) : (s.setOpen b).moments = s.moments := rfl
@[simp] theorem setOpen_inputs (s : State) (b : Bool) : (s.setOpen b).inputs = s.inputs := rfl
@[simp] theorem setOpen_hist (s : State) (b : Bool) : (s.setOpen b).hist = s.hist := rfl
@[simp] theorem setOpen_diags (s : State) (b : Bool) : (s.setOpen b).diags = s.diags := rfl
@[simp] theorem setOpen_view (s : State) (b : Bool) : (s.setOpen b).view = s.view := rfl

/-! ### refuse -/

@[simp] theorem refuse_params (s : State) (c : Byte) : (s.refuse c).params = s.params := rfl
@[simp] theorem refuse_seqr (s : State) (c : Byte) : (s.refuse c).seqr = s.seqr := rfl
@[simp] theorem refuse_ident (s : State) (c : Byte) : (s.refuse c).ident = s.ident := rfl
@[simp] theorem refuse_baud (s : State) (c : Byte) : (s.refuse c).baud = s.baud := rfl
@[simp] theorem refuse_result (s : State) (c : Byte) : (s.refuse c).result = s.result := rfl
@[simp] theorem refuse_err (s : State) (c : Byte) : (s.refuse c).err = { s.err with kind := .badRequest, op := some c } := rfl
@[simp] theorem refuse_blk (s : State) (c : Byte) : (s.refuse c).blk = s.blk := rfl
@[simp] theorem refuse_g10 (s : State) (c : Byte) : (s.refuse c).g10 = s.g10 := rfl
@[simp] theorem refuse_args (s : State) (c : Byte) : (s.refuse c).args = s.args := rfl
@[simp] theorem refuse_code (s : State) (c : Byte) : (s.refuse c).code = s.code := rfl
@[simp] theorem refuse_data (s : State) (c : Byte) : (s.refuse c).data = s.data := rfl
@[simp] theorem refuse_line (s : State) (c : Byte) : (s.refuse c).line = s.line := rfl
@[simp] theorem refuse_readyIn (s : State) (c : Byte) : (s.refuse c).readyIn = s.readyIn := rfl
@[simp] theorem refuse_script (s : State) (c : Byte) : (s.refuse c).script = s.script := rfl
@[simp] theorem refuse_moments (s : State) (c : Byte) : (s.refuse c).moments = s.moments := rfl
@[simp] theorem refuse_inputs (s : State) (c : Byte) : (s.refuse c).inputs = s.inputs := rfl
@[simp] theorem refuse_hist (s : State) (c : Byte) : (s.refuse c).hist = s.hist := rfl
@[simp] theorem refuse_diags (s : State) (c : Byte) : (s.refuse c).diags = s.diags := rfl
@[simp] theorem refuse_view (s : State) (c : Byte) : (s.refuse c).view = s.view := rfl

/-! ### refuseUnit -/

@[simp] theorem refuseUnit_params (s : State) : (s.refuseUnit).params = s.params := rfl
@[simp] theorem refuseUnit_seqr (s : State) : (s.refuseUnit).seqr = s.seqr := rfl
@[simp] theorem refuseUnit_ident (s : State) : (s.refuseUnit).ident = s.ident := rfl
@[simp] theorem refuseUnit_baud (s : State) : (s.refuseUnit).baud = s.baud := rfl
@[simp] theorem refuseUnit_result (s : State) : (s.refuseUnit).result = s.result := rfl
@[simp] theorem refuseUnit_err (s : State) : (s.refuseUnit).err = { s.err with kind := .badRequest, op := none } := rfl
@[simp] theorem refuseUnit_blk (s : State) : (s.refuseUnit).blk = s.blk := rfl
@[simp] theorem refuseUnit_g10 (s : State) : (s.refuseUnit).g10 = s.g10 := rfl
@[simp] theorem refuseUnit_args (s : State) : (s.refuseUnit).args = s.args := rfl
@[simp] theorem refuseUnit_code (s : State) : (s.refuseUnit).code = s.code := rfl
@[simp] theorem refuseUnit_data (s : State) : (s.refuseUnit).data = s.data := rfl
@[simp] theorem refuseUnit_line (s : State) : (s.refuseUnit).line = s.line := rfl
@[simp] theorem refuseUnit_readyIn (s : State) : (s.refuseUnit).readyIn = s.readyIn := rfl
@[simp] theorem refuseUnit_script (s : State) : (s.refuseUnit).script = s.script := rfl
@[simp] theorem refuseUnit_moments (s : State) : (s.refuseUnit).moments = s.moments := rfl
@[simp] theorem refuseUnit_inputs (s : State) : (s.refuseUnit).inputs = s.inputs := rfl
@[simp] theorem refuseUnit_hist (s : State) : (s.refuseUnit).hist = s.hist := rfl
@[simp] theorem refuseUnit_diags (s : State) : (s.refuseUnit).diags = s.diags := rfl
@[simp] theorem refuseUnit_view (s : State) : (s.refuseUnit).view = s.view := rfl

/-! ### accept -/

@[simp] theorem accept_params (s : State) (r : Req) : (s.accept r).params = s.params := rfl
@[simp] theorem accept_seqr (s : State) (r : Req) : (s.accept r).seqr = { s.seqr with op := some r } := rfl
@[simp] theorem accept_ident (s : State) (r : Req) : (s.accept r).ident = s.ident := rfl
@[simp] theorem accept_baud (s : State) (r : Req) : (s.accept r).baud = s.baud := rfl
@[simp] theorem accept_result (s : State) (r : Req) : (s.accept r).result = s.result := rfl
@[simp] theorem accept_err (s : State) (r : Req) : (s.accept r).err = {} := rfl
@[simp] theorem accept_blk (s : State) (r : Req) : (s.accept r).blk = s.blk := rfl
@[simp] theorem accept_g10 (s : State) (r : Req) : (s.accept r).g10 = s.g10 := rfl
@[simp] theorem accept_args (s : State) (r : Req) : (s.accept r).args = s.args := rfl
@[simp] theorem accept_code (s : State) (r : Req) : (s.accept r).code = s.code := rfl
@[simp] theorem accept_data (s : State) (r : Req) : (s.accept r).data = s.data := rfl
@[simp] theorem accept_line (s : State) (r : Req) : (s.accept r).line = s.line := rfl
@[simp] theorem accept_readyIn (s : State) (r : Req) : (s.accept r).readyIn = s.readyIn := rfl
@[simp] theorem accept_script (s : State) (r : Req) : (s.accept r).script = s.script := rfl
@[simp] theorem accept_moments (s : State) (r : Req) : (s.accept r).moments = s.moments := rfl
@[simp] theorem accept_inputs (s : State) (r : Req) : (s.accept r).inputs = s.inputs := rfl
@[simp] theorem accept_hist (s : State) (r : Req) : (s.accept r).hist = s.hist := rfl
@[simp] theorem accept_diags (s : State) (r : Req) : (s.accept r).diags = s.diags := rfl
@[simp] theorem accept_view (s : State) (r : Req) : (s.accept r).view = s.view := rfl

/-! ### endRequest -/

@[simp] theorem endRequest_params (s : State) : (s.endRequest).params = s.params := rfl
@[simp] theorem endRequest_seqr (s : State) : (s.endRequest).seqr = { s.seqr with op := none } := rfl
@[simp] theorem endRequest_ident (s : State) : (s.endRequest).ident = s.ident := rfl
@[simp] theorem endRequest_baud (s : State) : (s.endRequest).baud = s.baud := rfl
@[simp] theorem endRequest_result (s : State) : (s.endRequest).result = s.result := rfl
@[simp] theorem endRequest_err (s : State) : (s.endRequest).err = s.err := rfl
@[simp] theorem endRequest_blk (s : State) : (s.endRequest).blk = s.blk := rfl
@[simp] theorem endRequest_g10 (s : State) : (s.endRequest).g10 = s.g10 := rfl
@[simp] theorem endRequest_args (s : State) : (s.endRequest).args = s.args := rfl
@[simp] theorem endRequest_code (s : State) : (s.endRequest).code = s.code := rfl
@[simp] theorem endRequest_data (s : State) : (s.endRequest).data = s.data := rfl
@[simp] theorem endRequest_line (s : State) : (s.endRequest).line = s.line := rfl
@[simp] theorem endRequest_readyIn (s : State) : (s.endRequest).readyIn = s.readyIn := rfl
@[simp] theorem endRequest_script (s : State) : (s.endRequest).script = s.script := rfl
@[simp] theorem endRequest_moments (s : State) : (s.endRequest).moments = s.moments := rfl
@[simp] theorem endRequest_inputs (s : State) : (s.endRequest).inputs = s.inputs := rfl
@[simp] theorem endRequest_hist (s : State) : (s.endRequest).hist = s.hist := rfl
@[simp] theorem endRequest_diags (s : State) : (s.endRequest).diags = s.diags := rfl
@[simp] theorem endRequest_view (s : State) : (s.endRequest).view = s.view := rfl

/-! ### engineReset -/

@[simp] theorem engineReset_params (s : State) : (s.engineReset).params = s.params := rfl
@[simp] theorem engineReset_seqr (s : State) : (s.engineReset).seqr = {} := rfl
@[simp] theorem engineReset_ident (s : State) : (s.engineReset).ident = {} := rfl
@[simp] theorem engineReset_baud (s : State) : (s.engineReset).baud = {} := rfl
@[simp] theorem engineReset_result (s : State) : (s.engineReset).result = {} := rfl
@[simp] theorem engineReset_err (s : State) : (s.engineReset).err = {} := rfl
@[simp] theorem engineReset_blk (s : State) : (s.engineReset).blk = {} := rfl
@[simp] theorem engineReset_g10 (s : State) : (s.engineReset).g10 = {} := rfl
@[simp] theorem engineReset_args (s : State) : (s.engineReset).args = {} := rfl
@[simp] theorem engineReset_code (s : State) : (s.engineReset).code = s.code := rfl
@[simp] theorem engineReset_data (s : State) : (s.engineReset).data = s.data := rfl
@[simp] theorem engineReset_line (s : State) : (s.engineReset).line = s.line := rfl
@[simp] theorem engineReset_readyIn (s : State) : (s.engineReset).readyIn = s.readyIn := rfl
@[simp] theorem engineReset_script (s : State) : (s.engineReset).script = s.script := rfl
@[simp] theorem engineReset_moments (s : State) : (s.engineReset).moments = s.moments := rfl
@[simp] theorem engineReset_inputs (s : State) : (s.engineReset).inputs = s.inputs := rfl
@[simp] theorem engineReset_hist (s : State) : (s.engineReset).hist = s.hist := rfl
@[simp] theorem engineReset_diags (s : State) : (s.engineReset).diags = s.diags := rfl
@[simp] theorem engineReset_view (s : State) : (s.engineReset).view = s.view := rfl

/-! ### setStatus -/

@[simp] theorem setStatus_params (s : State) (b : Byte) : (s.setStatus b).params = s.params := rfl
@[simp] theorem setStatus_seqr (s : State) (b : Byte) : (s.setStatus b).seqr = s.seqr := rfl
@[simp] theorem setStatus_ident (s : State) (b : Byte) : (s.setStatus b).ident = s.ident := rfl
@[simp] theorem setStatus_baud (s : State) (b : Byte) : (s.setStatus b).baud = s.baud := rfl
@[simp] theorem setStatus_result (s : State) (b : Byte) : (s.setStatus b).result = { s.result with lastStatus := some b } := rfl
@[simp] theorem setStatus_err (s : State) (b : Byte) : (s.setStatus b).err = s.err := rfl
@[simp] theorem setStatus_blk (s : State) (b : Byte) : (s.setStatus b).blk = s.blk := rfl
@[simp] theorem setStatus_g10 (s : State) (b : Byte) : (s.setStatus b).g10 = s.g10 := rfl
@[simp] theorem setStatus_args (s : State) (b : Byte) : (s.setStatus b).args = s.args := rfl
@[simp] theorem setStatus_code (s : State) (b : Byte) : (s.setStatus b).code = s.code := rfl
@[simp] theorem setStatus_data (s : State) (b : Byte) : (s.setStatus b).data = s.data := rfl
@[simp] theorem setStatus_line (s : State) (b : Byte) : (s.setStatus b).line = s.line := rfl
@[simp] theorem setStatus_readyIn (s : State) (b : Byte) : (s.setStatus b).readyIn = s.readyIn := rfl
@[simp] theorem setStatus_script (s : State) (b : Byte) : (s.setStatus b).script = s.script := rfl
@[simp] theorem setStatus_moments (s : State) (b : Byte) : (s.setStatus b).moments = s.moments := rfl
@[simp] theorem setStatus_inputs (s : State) (b : Byte) : (s.setStatus b).inputs = s.inputs := rfl
@[simp] theorem setStatus_hist (s : State) (b : Byte) : (s.setStatus b).hist = s.hist := rfl
@[simp] theorem setStatus_diags (s : State) (b : Byte) : (s.setStatus b).diags = s.diags := rfl
@[simp] theorem setStatus_view (s : State) (b : Byte) : (s.setStatus b).view = s.view := rfl

/-! ### setNotBlank -/

@[simp] theorem setNotBlank_params (s : State) (b : Bool) : (s.setNotBlank b).params = s.params := rfl
@[simp] theorem setNotBlank_seqr (s : State) (b : Bool) : (s.setNotBlank b).seqr = s.seqr := rfl
@[simp] theorem setNotBlank_ident (s : State) (b : Bool) : (s.setNotBlank b).ident = s.ident := rfl
@[simp] theorem setNotBlank_baud (s : State) (b : Bool) : (s.setNotBlank b).baud = s.baud := rfl
@[simp] theorem setNotBlank_result (s : State) (b : Bool) : (s.setNotBlank b).result = { s.result with notBlank := some b } := rfl
@[simp] theorem setNotBlank_err (s : State) (b : Bool) : (s.setNotBlank b).err = s.err := rfl
@[simp] theorem setNotBlank_blk (s : State) (b : Bool) : (s.setNotBlank b).blk = s.blk := rfl
@[simp] theorem setNotBlank_g10 (s : State) (b : Bool) : (s.setNotBlank b).g10 = s.g10 := rfl
@[simp] theorem setNotBlank_args (s : State) (b : Bool) : (s.setNotBlank b).args = s.args := rfl
@[simp] theorem setNotBlank_code (s : State) (b : Bool) : (s.setNotBlank b).code = s.code := rfl
@[simp] theorem setNotBlank_data (s : State) (b : Bool) : (s.setNotBlank b).data = s.data := rfl
@[simp] theorem setNotBlank_line (s : State) (b : Bool) : (s.setNotBlank b).line = s.line := rfl
@[simp] theorem setNotBlank_readyIn (s : State) (b : Bool) : (s.setNotBlank b).readyIn = s.readyIn := rfl
@[simp] theorem setNotBlank_script (s : State) (b : Bool) : (s.setNotBlank b).script = s.script := rfl
@[simp] theorem setNotBlank_moments (s : State) (b : Bool) : (s.setNotBlank b).moments = s.moments := rfl
@[simp] theorem setNotBlank_inputs (s : State) (b : Bool) : (s.setNotBlank b).inputs = s.inputs := rfl
@[simp] theorem setNotBlank_hist (s : State) (b : Bool) : (s.setNotBlank b).hist = s.hist := rfl
@[simp] theorem setNotBlank_diags (s : State) (b : Bool) : (s.setNotBlank b).diags = s.diags := rfl
@[simp] theorem setNotBlank_view (s : State) (b : Bool) : (s.setNotBlank b).view = s.view := rfl

/-! ### setSeq -/

@[simp] theorem setSeq_params (s : State) (q : SeqState) : (s.setSeq q).params = s.params := rfl
@[simp] theorem setSeq_seqr (s : State) (q : SeqState) : (s.setSeq q).seqr = { s.seqr with seq := q } := rfl
@[simp] theorem setSeq_ident (s : State) (q : SeqState) : (s.setSeq q).ident = s.ident := rfl
@[simp] theorem setSeq_baud (s : State) (q : SeqState) : (s.setSeq q).baud = s.baud := rfl
@[simp] theorem setSeq_result (s : State) (q : SeqState) : (s.setSeq q).result = s.result := rfl
@[simp] theorem setSeq_err (s : State) (q : SeqState) : (s.setSeq q).err = s.err := rfl
@[simp] theorem setSeq_blk (s : State) (q : SeqState) : (s.setSeq q).blk = s.blk := rfl
@[simp] theorem setSeq_g10 (s : State) (q : SeqState) : (s.setSeq q).g10 = s.g10 := rfl
@[simp] theorem setSeq_args (s : State) (q : SeqState) : (s.setSeq q).args = s.args := rfl
@[simp] theorem setSeq_code (s : State) (q : SeqState) : (s.setSeq q).code = s.code := rfl
@[simp] theorem setSeq_data (s : State) (q : SeqState) : (s.setSeq q).data = s.data := rfl
@[simp] theorem setSeq_line (s : State) (q : SeqState) : (s.setSeq q).line = s.line := rfl
@[simp] theorem setSeq_readyIn (s : State) (q : SeqState) : (s.setSeq q).readyIn = s.readyIn := rfl
@[simp] theorem setSeq_script (s : State) (q : SeqState) : (s.setSeq q).script = s.script := rfl
@[simp] theorem setSeq_moments (s : State) (q : SeqState) : (s.setSeq q).moments = s.moments := rfl
@[simp] theorem setSeq_inputs (s : State) (q : SeqState) : (s.setSeq q).inputs = s.inputs := rfl
@[simp] theorem setSeq_hist (s : State) (q : SeqState) : (s.setSeq q).hist = s.hist := rfl
@[simp] theorem setSeq_diags (s : State) (q : SeqState) : (s.setSeq q).diags = s.diags := rfl
@[simp] theorem setSeq_view (s : State) (q : SeqState) : (s.setSeq q).view = s.view := rfl

/-! ### setRate -/

@[simp] theorem setRate_params (s : State) (r : Nat) : (s.setRate r).params = s.params := rfl
@[simp] theorem setRate_seqr (s : State) (r : Nat) : (s.setRate r).seqr = s.seqr := rfl
@[simp] theorem setRate_ident (s : State) (r : Nat) : (s.setRate r).ident = s.ident := rfl
@[simp] theorem setRate_baud (s : State) (r : Nat) : (s.setRate r).baud = s.baud := rfl
@[simp] theorem setRate_result (s : State) (r : Nat) : (s.setRate r).result = s.result := rfl
@[simp] theorem setRate_err (s : State) (r : Nat) : (s.setRate r).err = s.err := rfl
@[simp] theorem setRate_blk (s : State) (r : Nat) : (s.setRate r).blk = s.blk := rfl
@[simp] theorem setRate_g10 (s : State) (r : Nat) : (s.setRate r).g10 = s.g10 := rfl
@[simp] theorem setRate_args (s : State) (r : Nat) : (s.setRate r).args = s.args := rfl
@[simp] theorem setRate_code (s : State) (r : Nat) : (s.setRate r).code = s.code := rfl
@[simp] theorem setRate_data (s : State) (r : Nat) : (s.setRate r).data = s.data := rfl
@[simp] theorem setRate_line (s : State) (r : Nat) : (s.setRate r).line = { s.line with rate := some r } := rfl
@[simp] theorem setRate_readyIn (s : State) (r : Nat) : (s.setRate r).readyIn = s.readyIn := rfl
@[simp] theorem setRate_script (s : State) (r : Nat) : (s.setRate r).script = s.script := rfl
@[simp] theorem setRate_moments (s : State) (r : Nat) : (s.setRate r).moments = s.moments := rfl
@[simp] theorem setRate_inputs (s : State) (r : Nat) : (s.setRate r).inputs = s.inputs := rfl
@[simp] theorem setRate_hist (s : State) (r : Nat) : (s.setRate r).hist = s.hist := rfl
@[simp] theorem setRate_diags (s : State) (r : Nat) : (s.setRate r).diags = s.diags := rfl
@[simp] theorem setRate_view (s : State) (r : Nat) : (s.setRate r).view = s.view := rfl

/-! ### setParity -/

@[simp] theorem setParity_params (s : State) (q : Option Parity) : (s.setParity q).params = s.params := rfl
@[simp] theorem setParity_seqr (s : State) (q : Option Parity) : (s.setParity q).seqr = s.seqr := rfl
@[simp] theorem setParity_ident (s : State) (q : Option Parity) : (s.setParity q).ident = s.ident := rfl
@[simp] theorem setParity_baud (s : State) (q : Option Parity) : (s.setParity q).baud = s.baud := rfl
@[simp] theorem setParity_result (s : State) (q : Option Parity) : (s.setParity q).result = s.result := rfl
@[simp] theorem setParity_err (s : State) (q : Option Parity) : (s.setParity q).err = s.err := rfl
@[simp] theorem setParity_blk (s : State) (q : Option Parity) : (s.setParity q).blk = s.blk := rfl
@[simp] theorem setParity_g10 (s : State) (q : Option Parity) : (s.setParity q).g10 = s.g10 := rfl
@[simp] theorem setParity_args (s : State) (q : Option Parity) : (s.setParity q).args = s.args := rfl
@[simp] theorem setParity_code (s : State) (q : Option Parity) : (s.setParity q).code = s.code := rfl
@[simp] theorem setParity_data (s : State) (q : Option Parity) : (s.setParity q).data = s.data := rfl
@[simp] theorem setParity_line (s : State) (q : Option Parity) : (s.setParity q).line = { s.line with parity := some q } := rfl
@[simp] theorem setParity_readyIn (s : State) (q : Option Parity) : (s.setParity q).readyIn = s.readyIn := rfl
@[simp] theorem setParity_script (s : State) (q : Option Parity) : (s.setParity q).script = s.script := rfl
@[simp] theorem setParity_moments (s : State) (q : Option Parity) : (s.setParity q).moments = s.moments := rfl
@[simp] theorem setParity_inputs (s : State) (q : Option Parity) : (s.setParity q).inputs = s.inputs := rfl
@[simp] theorem setParity_hist (s : State) (q : Option Parity) : (s.setParity q).hist = s.hist := rfl
@[simp] theorem setParity_diags (s : State) (q : Option Parity) : (s.setParity q).diags = s.diags := rfl
@[simp] theorem setParity_view (s : State) (q : Option Parity) : (s.setParity q).view = s.view := rfl

/-! ### setQueue -/

@[simp] theorem setQueue_params (s : State) (q : List Byte) : (s.setQueue q).params = s.params := rfl
@[simp] theorem setQueue_seqr (s : State) (q : List Byte) : (s.setQueue q).seqr = s.seqr := rfl
@[simp] theorem setQueue_ident (s : State) (q : List Byte) : (s.setQueue q).ident = s.ident := rfl
@[simp] theorem setQueue_baud (s : State) (q : List Byte) : (s.setQueue q).baud = s.baud := rfl
@[simp] theorem setQueue_result (s : State) (q : List Byte) : (s.setQueue q).result = s.result := rfl
@[simp] theorem setQueue_err (s : State) (q : List Byte) : (s.setQueue q).err = s.err := rfl
@[simp] theorem setQueue_blk (s : State) (q : List Byte) : (s.setQueue q).blk = s.blk := rfl
@[simp] theorem setQueue_g10 (s : State) (q : List Byte) : (s.setQueue q).g10 = s.g10 := rfl
@[simp] theorem setQueue_args (s : State) (q : List Byte) : (s.setQueue q).args = s.args := rfl
@[simp] theorem setQueue_code (s : State) (q : List Byte) : (s.setQueue q).code = s.code := rfl
@[simp] theorem setQueue_data (s : State) (q : List Byte) : (s.setQueue q).data = s.data := rfl
@[simp] theorem setQueue_line (s : State) (q : List Byte) : (s.setQueue q).line = { s.line with rxq := q } := rfl
@[simp] theorem setQueue_readyIn (s : State) (q : List Byte) : (s.setQueue q).readyIn = s.readyIn := rfl
@[simp] theorem setQueue_script (s : State) (q : List Byte) : (s.setQueue q).script = s.script := rfl
@[simp] theorem setQueue_moments (s : State) (q : List Byte) : (s.setQueue q).moments = s.moments := rfl
@[simp] theorem setQueue_inputs (s : State) (q : List Byte) : (s.setQueue q).inputs = s.inputs := rfl
@[simp] theorem setQueue_hist (s : State) (q : List Byte) : (s.setQueue q).hist = s.hist := rfl
@[simp] theorem setQueue_diags (s : State) (q : List Byte) : (s.setQueue q).diags = s.diags := rfl
@[simp] theorem setQueue_view (s : State) (q : List Byte) : (s.setQueue q).view = s.view := rfl

/-! ### setWiring -/

@[simp] theorem setWiring_params (s : State) (m : Nat) : (s.setWiring m).params = s.params := rfl
@[simp] theorem setWiring_seqr (s : State) (m : Nat) : (s.setWiring m).seqr = s.seqr := rfl
@[simp] theorem setWiring_ident (s : State) (m : Nat) : (s.setWiring m).ident = s.ident := rfl
@[simp] theorem setWiring_baud (s : State) (m : Nat) : (s.setWiring m).baud = s.baud := rfl
@[simp] theorem setWiring_result (s : State) (m : Nat) : (s.setWiring m).result = s.result := rfl
@[simp] theorem setWiring_err (s : State) (m : Nat) : (s.setWiring m).err = s.err := rfl
@[simp] theorem setWiring_blk (s : State) (m : Nat) : (s.setWiring m).blk = s.blk := rfl
@[simp] theorem setWiring_g10 (s : State) (m : Nat) : (s.setWiring m).g10 = s.g10 := rfl
@[simp] theorem setWiring_args (s : State) (m : Nat) : (s.setWiring m).args = s.args := rfl
@[simp] theorem setWiring_code (s : State) (m : Nat) : (s.setWiring m).code = s.code := rfl
@[simp] theorem setWiring_data (s : State) (m : Nat) : (s.setWiring m).data = s.data := rfl
@[simp] theorem setWiring_line (s : State) (m : Nat) : (s.setWiring m).line = { s.line with wiring := some m } := rfl
@[simp] theorem setWiring_readyIn (s : State) (m : Nat) : (s.setWiring m).readyIn = s.readyIn := rfl
@[simp] theorem setWiring_script (s : State) (m : Nat) : (s.setWiring m).script = s.script := rfl
@[simp] theorem setWiring_moments (s : State) (m : Nat) : (s.setWiring m).moments = s.moments := rfl
@[simp] theorem setWiring_inputs (s : State) (m : Nat) : (s.setWiring m).inputs = s.inputs := rfl
@[simp] theorem setWiring_hist (s : State) (m : Nat) : (s.setWiring m).hist = s.hist := rfl
@[simp] theorem setWiring_diags (s : State) (m : Nat) : (s.setWiring m).diags = s.diags := rfl
@[simp] theorem setWiring_view (s : State) (m : Nat) : (s.setWiring m).view = s.view := rfl

/-! ### setCksum -/

@[simp] theorem setCksum_params (s : State) (v : Half) : (s.setCksum v).params = s.params := rfl
@[simp] theorem setCksum_seqr (s : State) (v : Half) : (s.setCksum v).seqr = s.seqr := rfl
@[simp] theorem setCksum_ident (s : State) (v : Half) : (s.setCksum v).ident = s.ident := rfl
@[simp] theorem setCksum_baud (s : State) (v : Half) : (s.setCksum v).baud = s.baud := rfl
@[simp] theorem setCksum_result (s : State) (v : Half) : (s.setCksum v).result = { s.result with cksum16 := some v } := rfl
@[simp] theorem setCksum_err (s : State) (v : Half) : (s.setCksum v).err = s.err := rfl
@[simp] theorem setCksum_blk (s : State) (v : Half) : (s.setCksum v).blk = s.blk := rfl
@[simp] theorem setCksum_g10 (s : State) (v : Half) : (s.setCksum v).g10 = s.g10 := rfl
@[simp] theorem setCksum_args (s : State) (v : Half) : (s.setCksum v).args = s.args := rfl
@[simp] theorem setCksum_code (s : State) (v : Half) : (s.setCksum v).code = s.code := rfl
@[simp] theorem setCksum_data (s : State) (v : Half) : (s.setCksum v).data = s.data := rfl
@[simp] theorem setCksum_line (s : State) (v : Half) : (s.setCksum v).line = s.line := rfl
@[simp] theorem setCksum_readyIn (s : State) (v : Half) : (s.setCksum v).readyIn = s.readyIn := rfl
@[simp] theorem setCksum_script (s : State) (v : Half) : (s.setCksum v).script = s.script := rfl
@[simp] theorem setCksum_moments (s : State) (v : Half) : (s.setCksum v).moments = s.moments := rfl
@[simp] theorem setCksum_inputs (s : State) (v : Half) : (s.setCksum v).inputs = s.inputs := rfl
@[simp] theorem setCksum_hist (s : State) (v : Half) : (s.setCksum v).hist = s.hist := rfl
@[simp] theorem setCksum_diags (s : State) (v : Half) : (s.setCksum v).diags = s.diags := rfl
@[simp] theorem setCksum_view (s : State) (v : Half) : (s.setCksum v).view = s.view := rfl

/-! ### setFrame -/

@[simp] theorem setFrame_params (s : State) (k : Nat) : (s.setFrame k).params = s.params := rfl
@[simp] theorem setFrame_seqr (s : State) (k : Nat) : (s.setFrame k).seqr = s.seqr := rfl
@[simp] theorem setFrame_ident (s : State) (k : Nat) : (s.setFrame k).ident = s.ident := rfl
@[simp] theorem setFrame_baud (s : State) (k : Nat) : (s.setFrame k).baud = s.baud := rfl
@[simp] theorem setFrame_result (s : State) (k : Nat) : (s.setFrame k).result = s.result := rfl
@[simp] theorem setFrame_err (s : State) (k : Nat) : (s.setFrame k).err = s.err := rfl
@[simp] theorem setFrame_blk (s : State) (k : Nat) : (s.setFrame k).blk = { s.blk with fidx := some k } := rfl
@[simp] theorem setFrame_g10 (s : State) (k : Nat) : (s.setFrame k).g10 = s.g10 := rfl
@[simp] theorem setFrame_args (s : State) (k : Nat) : (s.setFrame k).args = s.args := rfl
@[simp] theorem setFrame_code (s : State) (k : Nat) : (s.setFrame k).code = s.code := rfl
@[simp] theorem setFrame_data (s : State) (k : Nat) : (s.setFrame k).data = s.data := rfl
@[simp] theorem setFrame_line (s : State) (k : Nat) : (s.setFrame k).line = s.line := rfl
@[simp] theorem setFrame_readyIn (s : State) (k : Nat) : (s.setFrame k).readyIn = s.readyIn := rfl
@[simp] theorem setFrame_script (s : State) (k : Nat) : (s.setFrame k).script = s.script := rfl
@[simp] theorem setFrame_moments (s : State) (k : Nat) : (s.setFrame k).moments = s.moments := rfl
@[simp] theorem setFrame_inputs (s : State) (k : Nat) : (s.setFrame k).inputs = s.inputs := rfl
@[simp] theorem setFrame_hist (s : State) (k : Nat) : (s.setFrame k).hist = s.hist := rfl
@[simp] theorem setFrame_diags (s : State) (k : Nat) : (s.setFrame k).diags = s.diags := rfl
@[simp] theorem setFrame_view (s : State) (k : Nat) : (s.setFrame k).view = s.view := rfl

/-! ### setBlock -/

@[simp] theorem setBlock_params (s : State) (k : Nat) : (s.setBlock k).params = s.params := rfl
@[simp] theorem setBlock_seqr (s : State) (k : Nat) : (s.setBlock k).seqr = s.seqr := rfl
@[simp] theorem setBlock_ident (s : State) (k : Nat) : (s.setBlock k).ident = s.ident := rfl
@[simp] theorem setBlock_baud (s : State) (k : Nat) : (s.setBlock k).baud = s.baud := rfl
@[simp] theorem setBlock_result (s : State) (k : Nat) : (s.setBlock k).result = s.result := rfl
@[simp] theorem setBlock_err (s : State) (k : Nat) : (s.setBlock k).err = s.err := rfl
@[simp] theorem setBlock_blk (s : State) (k : Nat) : (s.setBlock k).blk = { s.blk with bidx := some k } := rfl
@[simp] theorem setBlock_g10 (s : State) (k : Nat) : (s.setBlock k).g10 = s.g10 := rfl
@[simp] theorem setBlock_args (s : State) (k : Nat) : (s.setBlock k).args = s.args := rfl
@[simp] theorem setBlock_code (s : State) (k : Nat) : (s.setBlock k).code = s.code := rfl
@[simp] theorem setBlock_data (s : State) (k : Nat) : (s.setBlock k).data = s.data := rfl
@[simp] theorem setBlock_line (s : State) (k : Nat) : (s.setBlock k).line = s.line := rfl
@[simp] theorem setBlock_readyIn (s : State) (k : Nat) : (s.setBlock k).readyIn = s.readyIn := rfl
@[simp] theorem setBlock_script (s : State) (k : Nat) : (s.setBlock k).script = s.script := rfl
@[simp] theorem setBlock_moments (s : State) (k : Nat) : (s.setBlock k).moments = s.moments := rfl
@[simp] theorem setBlock_inputs (s : State) (k : Nat) : (s.setBlock k).inputs = s.inputs := rfl
@[simp] theorem setBlock_hist (s : State) (k : Nat) : (s.setBlock k).hist = s.hist := rfl
@[simp] theorem setBlock_diags (s : State) (k : Nat) : (s.setBlock k).diags = s.diags := rfl
@[simp] theorem setBlock_view (s : State) (k : Nat) : (s.setBlock k).view = s.view := rfl

/-! ### setBlocks -/

@[simp] theorem setBlocks_params (s : State) (k : Nat) : (s.setBlocks k).params = s.params := rfl
@[simp] theorem setBlocks_seqr (s : State) (k : Nat) : (s.setBlocks k).seqr = s.seqr := rfl
@[simp] theorem setBlocks_ident (s : State) (k : Nat) : (s.setBlocks k).ident = s.ident := rfl
@[simp] theorem setBlocks_baud (s : State) (k : Nat) : (s.setBlocks k).baud = s.baud := rfl
@[simp] theorem setBlocks_result (s : State) (k : Nat) : (s.setBlocks k).result = s.result := rfl
@[simp] theorem setBlocks_err (s : State) (k : Nat) : (s.setBlocks k).err = s.err := rfl
@[simp] theorem setBlocks_blk (s : State) (k : Nat) : (s.setBlocks k).blk = { s.blk with nblk := some k } := rfl
@[simp] theorem setBlocks_g10 (s : State) (k : Nat) : (s.setBlocks k).g10 = s.g10 := rfl
@[simp] theorem setBlocks_args (s : State) (k : Nat) : (s.setBlocks k).args = s.args := rfl
@[simp] theorem setBlocks_code (s : State) (k : Nat) : (s.setBlocks k).code = s.code := rfl
@[simp] theorem setBlocks_data (s : State) (k : Nat) : (s.setBlocks k).data = s.data := rfl
@[simp] theorem setBlocks_line (s : State) (k : Nat) : (s.setBlocks k).line = s.line := rfl
@[simp] theorem setBlocks_readyIn (s : State) (k : Nat) : (s.setBlocks k).readyIn = s.readyIn := rfl
@[simp] theorem setBlocks_script (s : State) (k : Nat) : (s.setBlocks k).script = s.script := rfl
@[simp] theorem setBlocks_moments (s : State) (k : Nat) : (s.setBlocks k).moments = s.moments := rfl
@[simp] theorem setBlocks_inputs (s : State) (k : Nat) : (s.setBlocks k).inputs = s.inputs := rfl
@[simp] theorem setBlocks_hist (s : State) (k : Nat) : (s.setBlocks k).hist = s.hist := rfl
@[simp] theorem setBlocks_diags (s : State) (k : Nat) : (s.setBlocks k).diags = s.diags := rfl
@[simp] theorem setBlocks_view (s : State) (k : Nat) : (s.setBlocks k).view = s.view := rfl

/-! ### setModes -/

@[simp] theorem setModes_params (s : State) (a b : Byte) : (s.setModes a b).params = s.params := rfl
@[simp] theorem setModes_seqr (s : State) (a b : Byte) : (s.setModes a b).seqr = s.seqr := rfl
@[simp] theorem setModes_ident (s : State) (a b : Byte) : (s.setModes a b).ident = s.ident := rfl
@[simp] theorem setModes_baud (s : State) (a b : Byte) : (s.setModes a b).baud = { freq := some a, vmode := some b } := rfl
@[simp] theorem setModes_result (s : State) (a b : Byte) : (s.setModes a b).result = s.result := rfl
@[simp] theorem setModes_err (s : State) (a b : Byte) : (s.setModes a b).err = s.err := rfl
@[simp] theorem setModes_blk (s : State) (a b : Byte) : (s.setModes a b).blk = s.blk := rfl
@[simp] theorem setModes_g10 (s : State) (a b : Byte) : (s.setModes a b).g10 = s.g10 := rfl
@[simp] theorem setModes_args (s : State) (a b : Byte) : (s.setModes a b).args = s.args := rfl
@[simp] theorem setModes_code (s : State) (a b : Byte) : (s.setModes a b).code = s.code := rfl
@[simp] theorem setModes_data (s : State) (a b : Byte) : (s.setModes a b).data = s.data := rfl
@[simp] theorem setModes_line (s : State) (a b : Byte) : (s.setModes a b).line = s.line := rfl
@[simp] theorem setModes_readyIn (s : State) (a b : Byte) : (s.setModes a b).readyIn = s.readyIn := rfl
@[simp] theorem setModes_script (s : State) (a b : Byte) : (s.setModes a b).script = s.script := rfl
@[simp] theorem setModes_moments (s : State) (a b : Byte) : (s.setModes a b).moments = s.moments := rfl
@[simp] theorem setModes_inputs (s : State) (a b : Byte) : (s.setModes a b).inputs = s.inputs := rfl
@[simp] theorem setModes_hist (s : State) (a b : Byte) : (s.setModes a b).hist = s.hist := rfl
@[simp] theorem setModes_diags (s : State) (a b : Byte) : (s.setModes a b).diags = s.diags := rfl
@[simp] theorem setModes_view (s : State) (a b : Byte) : (s.setModes a b).view = s.view := rfl

/-! ### identify -/

@[simp] theorem identify_params (s : State) (d : List Byte) : (s.identify d).params = s.params := rfl
@[simp] theorem identify_seqr (s : State) (d : List Byte) : (s.identify d).seqr = s.seqr := rfl
@[simp] theorem identify_ident (s : State) (d : List Byte) : (s.identify d).ident = identOf s.params d := rfl
@[simp] theorem identify_baud (s : State) (d : List Byte) : (s.identify d).baud = s.baud := rfl
@[simp] theorem identify_result (s : State) (d : List Byte) : (s.identify d).result = s.result := rfl
@[simp] theorem identify_err (s : State) (d : List Byte) : (s.identify d).err = s.err := rfl
@[simp] theorem identify_blk (s : State) (d : List Byte) : (s.identify d).blk = s.blk := rfl
@[simp] theorem identify_g10 (s : State) (d : List Byte) : (s.identify d).g10 = s.g10 := rfl
@[simp] theorem identify_args (s : State) (d : List Byte) : (s.identify d).args = s.args := rfl
@[simp] theorem identify_code (s : State) (d : List Byte) : (s.identify d).code = s.code := rfl
@[simp] theorem identify_data (s : State) (d : List Byte) : (s.identify d).data = s.data := rfl
@[simp] theorem identify_line (s : State) (d : List Byte) : (s.identify d).line = s.line := rfl
@[simp] theorem identify_readyIn (s : State) (d : List Byte) : (s.identify d).readyIn = s.readyIn := rfl
@[simp] theorem identify_script (s : State) (d : List Byte) : (s.identify d).script = s.script := rfl
@[simp] theorem identify_moments (s : State) (d : List Byte) : (s.identify d).moments = s.moments := rfl
@[simp] theorem identify_inputs (s : State) (d : List Byte) : (s.identify d).inputs = s.inputs := rfl
@[simp] theorem identify_hist (s : State) (d : List Byte) : (s.identify d).hist = s.hist := rfl
@[simp] theorem identify_diags (s : State) (d : List Byte) : (s.identify d).diags = s.diags := rfl
@[simp] theorem identify_view (s : State) (d : List Byte) : (s.identify d).view = s.view := rfl

/-! ### setLinkBaud -/

@[simp] theorem setLinkBaud_params (s : State) (r : Nat) : (s.setLinkBaud r).params = s.params := rfl
@[simp] theorem setLinkBaud_seqr (s : State) (r : Nat) : (s.setLinkBaud r).seqr = { s.seqr with linkBaud := some r } := rfl
@[simp] theorem setLinkBaud_ident (s : State) (r : Nat) : (s.setLinkBaud r).ident = s.ident := rfl
@[simp] theorem setLinkBaud_baud (s : State) (r : Nat) : (s.setLinkBaud r).baud = s.baud := rfl
@[simp] theorem setLinkBaud_result (s : State) (r : Nat) : (s.setLinkBaud r).result = s.result := rfl
@[simp] theorem setLinkBaud_err (s : State) (r : Nat) : (s.setLinkBaud r).err = s.err := rfl
@[simp] theorem setLinkBaud_blk (s : State) (r : Nat) : (s.setLinkBaud r).blk = s.blk := rfl
@[simp] theorem setLinkBaud_g10 (s : State) (r : Nat) : (s.setLinkBaud r).g10 = s.g10 := rfl
@[simp] theorem setLinkBaud_args (s : State) (r : Nat) : (s.setLinkBaud r).args = s.args := rfl
@[simp] theorem setLinkBaud_code (s : State) (r : Nat) : (s.setLinkBaud r).code = s.code := rfl
@[simp] theorem setLinkBaud_data (s : State) (r : Nat) : (s.setLinkBaud r).data = s.data := rfl
@[simp] theorem setLinkBaud_line (s : State) (r : Nat) : (s.setLinkBaud r).line = s.line := rfl
@[simp] theorem setLinkBaud_readyIn (s : State) (r : Nat) : (s.setLinkBaud r).readyIn = s.readyIn := rfl
@[simp] theorem setLinkBaud_script (s : State) (r : Nat) : (s.setLinkBaud r).script = s.script := rfl
@[simp] theorem setLinkBaud_moments (s : State) (r : Nat) : (s.setLinkBaud r).moments = s.moments := rfl
@[simp] theorem setLinkBaud_inputs (s : State) (r : Nat) : (s.setLinkBaud r).inputs = s.inputs := rfl
@[simp] theorem setLinkBaud_hist (s : State) (r : Nat) : (s.setLinkBaud r).hist = s.hist := rfl
@[simp] theorem setLinkBaud_diags (s : State) (r : Nat) : (s.setLinkBaud r).diags = s.diags := rfl
@[simp] theorem setLinkBaud_view (s : State) (r : Nat) : (s.setLinkBaud r).view = s.view := rfl

/-! ### setResponse -/

@[simp] theorem setResponse_params (s : State) (a b c : Byte) : (s.setResponse a b c).params = s.params := rfl
@[simp] theorem setResponse_seqr (s : State) (a b c : Byte) : (s.setResponse a b c).seqr = s.seqr := rfl
@[simp] theorem setResponse_ident (s : State) (a b c : Byte) : (s.setResponse a b c).ident = s.ident := rfl
@[simp] theorem setResponse_baud (s : State) (a b c : Byte) : (s.setResponse a b c).baud = s.baud := rfl
@[simp] theorem setResponse_result (s : State) (a b c : Byte) : (s.setResponse a b c).result = s.result := rfl
@[simp] theorem setResponse_err (s : State) (a b c : Byte) : (s.setResponse a b c).err = s.err := rfl
@[simp] theorem setResponse_blk (s : State) (a b c : Byte) : (s.setResponse a b c).blk = s.blk := rfl
@[simp] theorem setResponse_g10 (s : State) (a b c : Byte) : (s.setResponse a b c).g10 = { s.g10 with resp0 := some a, resp1 := some b, capCode := some c } := rfl
@[simp] theorem setResponse_args (s : State) (a b c : Byte) : (s.setResponse a b c).args = s.args := rfl
@[simp] theorem setResponse_code (s : State) (a b c : Byte) : (s.setResponse a b c).code = s.code := rfl
@[simp] theorem setResponse_data (s : State) (a b c : Byte) : (s.setResponse a b c).data = s.data := rfl
@[simp] theorem setResponse_line (s : State) (a b c : Byte) : (s.setResponse a b c).line = s.line := rfl
@[simp] theorem setResponse_readyIn (s : State) (a b c : Byte) : (s.setResponse a b c).readyIn = s.readyIn := rfl
@[simp] theorem setResponse_script (s : State) (a b c : Byte) : (s.setResponse a b c).script = s.script := rfl
@[simp] theorem setResponse_moments (s : State) (a b c : Byte) : (s.setResponse a b c).moments = s.moments := rfl
@[simp] theorem setResponse_inputs (s : State) (a b c : Byte) : (s.setResponse a b c).inputs = s.inputs := rfl
@[simp] theorem setResponse_hist (s : State) (a b c : Byte) : (s.setResponse a b c).hist = s.hist := rfl
@[simp] theorem setResponse_diags (s : State) (a b c : Byte) : (s.setResponse a b c).diags = s.diags := rfl
@[simp] theorem setResponse_view (s : State) (a b c : Byte) : (s.setResponse a b c).view = s.view := rfl

/-! ### setPoll -/

@[simp] theorem setPoll_params (s : State) (n : Nat) : (s.setPoll n).params = s.params := rfl
@[simp] theorem setPoll_seqr (s : State) (n : Nat) : (s.setPoll n).seqr = s.seqr := rfl
@[simp] theorem setPoll_ident (s : State) (n : Nat) : (s.setPoll n).ident = s.ident := rfl
@[simp] theorem setPoll_baud (s : State) (n : Nat) : (s.setPoll n).baud = s.baud := rfl
@[simp] theorem setPoll_result (s : State) (n : Nat) : (s.setPoll n).result = s.result := rfl
@[simp] theorem setPoll_err (s : State) (n : Nat) : (s.setPoll n).err = s.err := rfl
@[simp] theorem setPoll_blk (s : State) (n : Nat) : (s.setPoll n).blk = s.blk := rfl
@[simp] theorem setPoll_g10 (s : State) (n : Nat) : (s.setPoll n).g10 = { s.g10 with pollCnt := some n } := rfl
@[simp] theorem setPoll_args (s : State) (n : Nat) : (s.setPoll n).args = s.args := rfl
@[simp] theorem setPoll_code (s : State) (n : Nat) : (s.setPoll n).code = s.code := rfl
@[simp] theorem setPoll_data (s : State) (n : Nat) : (s.setPoll n).data = s.data := rfl
@[simp] theorem setPoll_line (s : State) (n : Nat) : (s.setPoll n).line = s.line := rfl
@[simp] theorem setPoll_readyIn (s : State) (n : Nat) : (s.setPoll n).readyIn = s.readyIn := rfl
@[simp] theorem setPoll_script (s : State) (n : Nat) : (s.setPoll n).script = s.script := rfl
@[simp] theorem setPoll_moments (s : State) (n : Nat) : (s.setPoll n).moments = s.moments := rfl
@[simp] theorem setPoll_inputs (s : State) (n : Nat) : (s.setPoll n).inputs = s.inputs := rfl
@[simp] theorem setPoll_hist (s : State) (n : Nat) : (s.setPoll n).hist = s.hist := rfl
@[simp] theorem setPoll_diags (s : State) (n : Nat) : (s.setPoll n).diags = s.diags := rfl
@[simp] theorem setPoll_view (s : State) (n : Nat) : (s.setPoll n).view = s.view := rfl

/-! ### setWord -/

@[simp] theorem setWord_params (s : State) (n : Nat) : (s.setWord n).params = s.params := rfl
@[simp] theorem setWord_seqr (s : State) (n : Nat) : (s.setWord n).seqr = s.seqr := rfl
@[simp] theorem setWord_ident (s : State) (n : Nat) : (s.setWord n).ident = s.ident := rfl
@[simp] theorem setWord_baud (s : State) (n : Nat) : (s.setWord n).baud = s.baud := rfl
@[simp] theorem setWord_result (s : State) (n : Nat) : (s.setWord n).result = s.result := rfl
@[simp] theorem setWord_err (s : State) (n : Nat) : (s.setWord n).err = s.err := rfl
@[simp] theorem setWord_blk (s : State) (n : Nat) : (s.setWord n).blk = s.blk := rfl
@[simp] theorem setWord_g10 (s : State) (n : Nat) : (s.setWord n).g10 = { s.g10 with widx := some n } := rfl
@[simp] theorem setWord_args (s : State) (n : Nat) : (s.setWord n).args = s.args := rfl
@[simp] theorem setWord_code (s : State) (n : Nat) : (s.setWord n).code = s.code := rfl
@[simp] theorem setWord_data (s : State) (n : Nat) : (s.setWord n).data = s.data := rfl
@[simp] theorem setWord_line (s : State) (n : Nat) : (s.setWord n).line = s.line := rfl
@[simp] theorem setWord_readyIn (s : State) (n : Nat) : (s.setWord n).readyIn = s.readyIn := rfl
@[simp] theorem setWord_script (s : State) (n : Nat) : (s.setWord n).script = s.script := rfl
@[simp] theorem setWord_moments (s : State) (n : Nat) : (s.setWord n).moments = s.moments := rfl
@[simp] theorem setWord_inputs (s : State) (n : Nat) : (s.setWord n).inputs = s.inputs := rfl
@[simp] theorem setWord_hist (s : State) (n : Nat) : (s.setWord n).hist = s.hist := rfl
@[simp] theorem setWord_diags (s : State) (n : Nat) : (s.setWord n).diags = s.diags := rfl
@[simp] theorem setWord_view (s : State) (n : Nat) : (s.setWord n).view = s.view := rfl

/-! ### setCrcDev -/

@[simp] theorem setCrcDev_params (s : State) (v : Half) : (s.setCrcDev v).params = s.params := rfl
@[simp] theorem setCrcDev_seqr (s : State) (v : Half) : (s.setCrcDev v).seqr = s.seqr := rfl
@[simp] theorem setCrcDev_ident (s : State) (v : Half) : (s.setCrcDev v).ident = s.ident := rfl
@[simp] theorem setCrcDev_baud (s : State) (v : Half) : (s.setCrcDev v).baud = s.baud := rfl
@[simp] theorem setCrcDev_result (s : State) (v : Half) : (s.setCrcDev v).result = s.result := rfl
@[simp] theorem setCrcDev_err (s : State) (v : Half) : (s.setCrcDev v).err = s.err := rfl
@[simp] theorem setCrcDev_blk (s : State) (v : Half) : (s.setCrcDev v).blk = s.blk := rfl
@[simp] theorem setCrcDev_g10 (s : State) (v : Half) : (s.setCrcDev v).g10 = { s.g10 with crcDev := some v } := rfl
@[simp] theorem setCrcDev_args (s : State) (v : Half) : (s.setCrcDev v).args = s.args := rfl
@[simp] theorem setCrcDev_code (s : State) (v : Half) : (s.setCrcDev v).code = s.code := rfl
@[simp] theorem setCrcDev_data (s : State) (v : Half) : (s.setCrcDev v).data = s.data := rfl
@[simp] theorem setCrcDev_line (s : State) (v : Half) : (s.setCrcDev v).line = s.line := rfl
@[simp] theorem setCrcDev_readyIn (s : State) (v : Half) : (s.setCrcDev v).readyIn = s.readyIn := rfl
@[simp] theorem setCrcDev_script (s : State) (v : Half) : (s.setCrcDev v).script = s.script := rfl
@[simp] theorem setCrcDev_moments (s : State) (v : Half) : (s.setCrcDev v).moments = s.moments := rfl
@[simp] theorem setCrcDev_inputs (s : State) (v : Half) : (s.setCrcDev v).inputs = s.inputs := rfl
@[simp] theorem setCrcDev_hist (s : State) (v : Half) : (s.setCrcDev v).hist = s.hist := rfl
@[simp] theorem setCrcDev_diags (s : State) (v : Half) : (s.setCrcDev v).diags = s.diags := rfl
@[simp] theorem setCrcDev_view (s : State) (v : Half) : (s.setCrcDev v).view = s.view := rfl

/-! ### setCrcLocal -/

@[simp] theorem setCrcLocal_params (s : State) (v : Half) : (s.setCrcLocal v).params = s.params := rfl
@[simp] theorem setCrcLocal_seqr (s : State) (v : Half) : (s.setCrcLocal v).seqr = s.seqr := rfl
@[simp] theorem setCrcLocal_ident (s : State) (v : Half) : (s.setCrcLocal v).ident = s.ident := rfl
@[simp] theorem setCrcLocal_baud (s : State) (v : Half) : (s.setCrcLocal v).baud = s.baud := rfl
@[simp] theorem setCrcLocal_result (s : State) (v : Half) : (s.setCrcLocal v).result = s.result := rfl
@[simp] theorem setCrcLocal_err (s : State) (v : Half) : (s.setCrcLocal v).err = s.err := rfl
@[simp] theorem setCrcLocal_blk (s : State) (v : Half) : (s.setCrcLocal v).blk = s.blk := rfl
@[simp] theorem setCrcLocal_g10 (s : State) (v : Half) : (s.setCrcLocal v).g10 = { s.g10 with crcLocal := some v } := rfl
@[simp] theorem setCrcLocal_args (s : State) (v : Half) : (s.setCrcLocal v).args = s.args := rfl
@[simp] theorem setCrcLocal_code (s : State) (v : Half) : (s.setCrcLocal v).code = s.code := rfl
@[simp] theorem setCrcLocal_data (s : State) (v : Half) : (s.setCrcLocal v).data = s.data := rfl
@[simp] theorem setCrcLocal_line (s : State) (v : Half) : (s.setCrcLocal v).line = s.line := rfl
@[simp] theorem setCrcLocal_readyIn (s : State) (v : Half) : (s.setCrcLocal v).readyIn = s.readyIn := rfl
@[simp] theorem setCrcLocal_script (s : State) (v : Half) : (s.setCrcLocal v).script = s.script := rfl
@[simp] theorem setCrcLocal_moments (s : State) (v : Half) : (s.setCrcLocal v).moments = s.moments := rfl
@[simp] theorem setCrcLocal_inputs (s : State) (v : Half) : (s.setCrcLocal v).inputs = s.inputs := rfl
@[simp] theorem setCrcLocal_hist (s : State) (v : Half) : (s.setCrcLocal v).hist = s.hist := rfl
@[simp] theorem setCrcLocal_diags (s : State) (v : Half) : (s.setCrcLocal v).diags = s.diags := rfl
@[simp] theorem setCrcLocal_view (s : State) (v : Half) : (s.setCrcLocal v).view = s.view := rfl

/-! ### setCrcOk -/

@[simp] theorem setCrcOk_params (s : State) (b : Bool) : (s.setCrcOk b).params = s.params := rfl
@[simp] theorem setCrcOk_seqr (s : State) (b : Bool) : (s.setCrcOk b).seqr = s.seqr := rfl
@[simp] theorem setCrcOk_ident (s : State) (b : Bool) : (s.setCrcOk b).ident = s.ident := rfl
@[simp] theorem setCrcOk_baud (s : State) (b : Bool) : (s.setCrcOk b).baud = s.baud := rfl
@[simp] theorem setCrcOk_result (s : State) (b : Bool) : (s.setCrcOk b).result = s.result := rfl
@[simp] theorem setCrcOk_err (s : State) (b : Bool) : (s.setCrcOk b).err = s.err := rfl
@[simp] theorem setCrcOk_blk (s : State) (b : Bool) : (s.setCrcOk b).blk = s.blk := rfl
@[simp] theorem setCrcOk_g10 (s : State) (b : Bool) : (s.setCrcOk b).g10 = { s.g10 with crcOk := some b } := rfl
@[simp] theorem setCrcOk_args (s : State) (b : Bool) : (s.setCrcOk b).args = s.args := rfl
@[simp] theorem setCrcOk_code (s : State) (b : Bool) : (s.setCrcOk b).code = s.code := rfl
@[simp] theorem setCrcOk_data (s : State) (b : Bool) : (s.setCrcOk b).data = s.data := rfl
@[simp] theorem setCrcOk_line (s : State) (b : Bool) : (s.setCrcOk b).line = s.line := rfl
@[simp] theorem setCrcOk_readyIn (s : State) (b : Bool) : (s.setCrcOk b).readyIn = s.readyIn := rfl
@[simp] theorem setCrcOk_script (s : State) (b : Bool) : (s.setCrcOk b).script = s.script := rfl
@[simp] theorem setCrcOk_moments (s : State) (b : Bool) : (s.setCrcOk b).moments = s.moments := rfl
@[simp] theorem setCrcOk_inputs (s : State) (b : Bool) : (s.setCrcOk b).inputs = s.inputs := rfl
@[simp] theorem setCrcOk_hist (s : State) (b : Bool) : (s.setCrcOk b).hist = s.hist := rfl
@[simp] theorem setCrcOk_diags (s : State) (b : Bool) : (s.setCrcOk b).diags = s.diags := rfl
@[simp] theorem setCrcOk_view (s : State) (b : Bool) : (s.setCrcOk b).view = s.view := rfl

/-! ### cleared -/

@[simp] theorem cleared_params (s : State) : (s.cleared).params = s.params := rfl
@[simp] theorem cleared_seqr (s : State) : (s.cleared).seqr = s.seqr := rfl
@[simp] theorem cleared_ident (s : State) : (s.cleared).ident = s.ident := rfl
@[simp] theorem cleared_baud (s : State) : (s.cleared).baud = s.baud := rfl
@[simp] theorem cleared_result (s : State) : (s.cleared).result = s.result := rfl
@[simp] theorem cleared_err (s : State) : (s.cleared).err = {} := rfl
@[simp] theorem cleared_blk (s : State) : (s.cleared).blk = s.blk := rfl
@[simp] theorem cleared_g10 (s : State) : (s.cleared).g10 = s.g10 := rfl
@[simp] theorem cleared_args (s : State) : (s.cleared).args = s.args := rfl
@[simp] theorem cleared_code (s : State) : (s.cleared).code = s.code := rfl
@[simp] theorem cleared_data (s : State) : (s.cleared).data = s.data := rfl
@[simp] theorem cleared_line (s : State) : (s.cleared).line = s.line := rfl
@[simp] theorem cleared_readyIn (s : State) : (s.cleared).readyIn = s.readyIn := rfl
@[simp] theorem cleared_script (s : State) : (s.cleared).script = s.script := rfl
@[simp] theorem cleared_moments (s : State) : (s.cleared).moments = s.moments := rfl
@[simp] theorem cleared_inputs (s : State) : (s.cleared).inputs = s.inputs := rfl
@[simp] theorem cleared_hist (s : State) : (s.cleared).hist = s.hist := rfl
@[simp] theorem cleared_diags (s : State) : (s.cleared).diags = s.diags := rfl
@[simp] theorem cleared_view (s : State) : (s.cleared).view = s.view := rfl

/-! ### setRegion -/

@[simp] theorem setRegion_params (s : State) (m : CMode) (b : Buf) (a : Addr) (n : Nat) : (s.setRegion m b a n).params = s.params := rfl
@[simp] theorem setRegion_seqr (s : State) (m : CMode) (b : Buf) (a : Addr) (n : Nat) : (s.setRegion m b a n).seqr = s.seqr := rfl
@[simp] theorem setRegion_ident (s : State) (m : CMode) (b : Buf) (a : Addr) (n : Nat) : (s.setRegion m b a n).ident = s.ident := rfl
@[simp] theorem setRegion_baud (s : State) (m : CMode) (b : Buf) (a : Addr) (n : Nat) : (s.setRegion m b a n).baud = s.baud := rfl
@[simp] theorem setRegion_result (s : State) (m : CMode) (b : Buf) (a : Addr) (n : Nat) : (s.setRegion m b a n).result = s.result := rfl
@[simp] theorem setRegion_err (s : State) (m : CMode) (b : Buf) (a : Addr) (n : Nat) : (s.setRegion m b a n).err = s.err := rfl
@[simp] theorem setRegion_blk (s : State) (m : CMode) (b : Buf) (a : Addr) (n : Nat) : (s.setRegion m b a n).blk = { s.blk with cmode := some m, rbuf := some b, rbase := some a, rsize := some n } := rfl
@[simp] theorem setRegion_g10 (s : State) (m : CMode) (b : Buf) (a : Addr) (n : Nat) : (s.setRegion m b a n).g10 = s.g10 := rfl
@[simp] theorem setRegion_args (s : State) (m : CMode) (b : Buf) (a : Addr) (n : Nat) : (s.setRegion m b a n).args = s.args := rfl
@[simp] theorem setRegion_code (s : State) (m : CMode) (b : Buf) (a : Addr) (n : Nat) : (s.setRegion m b a n).code = s.code := rfl
@[simp] theorem setRegion_data (s : State) (m : CMode) (b : Buf) (a : Addr) (n : Nat) : (s.setRegion m b a n).data = s.data := rfl
@[simp] theorem setRegion_line (s : State) (m : CMode) (b : Buf) (a : Addr) (n : Nat) : (s.setRegion m b a n).line = s.line := rfl
@[simp] theorem setRegion_readyIn (s : State) (m : CMode) (b : Buf) (a : Addr) (n : Nat) : (s.setRegion m b a n).readyIn = s.readyIn := rfl
@[simp] theorem setRegion_script (s : State) (m : CMode) (b : Buf) (a : Addr) (n : Nat) : (s.setRegion m b a n).script = s.script := rfl
@[simp] theorem setRegion_moments (s : State) (m : CMode) (b : Buf) (a : Addr) (n : Nat) : (s.setRegion m b a n).moments = s.moments := rfl
@[simp] theorem setRegion_inputs (s : State) (m : CMode) (b : Buf) (a : Addr) (n : Nat) : (s.setRegion m b a n).inputs = s.inputs := rfl
@[simp] theorem setRegion_hist (s : State) (m : CMode) (b : Buf) (a : Addr) (n : Nat) : (s.setRegion m b a n).hist = s.hist := rfl
@[simp] theorem setRegion_diags (s : State) (m : CMode) (b : Buf) (a : Addr) (n : Nat) : (s.setRegion m b a n).diags = s.diags := rfl
@[simp] theorem setRegion_view (s : State) (m : CMode) (b : Buf) (a : Addr) (n : Nat) : (s.setRegion m b a n).view = s.view := rfl

/-! ### openSession -/

@[simp] theorem openSession_params (s : State) (n : Nat) : (s.openSession n).params = s.params := rfl
@[simp] theorem openSession_seqr (s : State) (n : Nat) : (s.openSession n).seqr = { s.seqr with seq := .idle, proto := some n, variant := some (s.params.variantOf n), blockSz := some (s.params.blockSize n) } := rfl
@[simp] theorem openSession_ident (s : State) (n : Nat) : (s.openSession n).ident = {} := rfl
@[simp] theorem openSession_baud (s : State) (n : Nat) : (s.openSession n).baud = {} := rfl
@[simp] theorem openSession_result (s : State) (n : Nat) : (s.openSession n).result = s.result := rfl
@[simp] theorem openSession_err (s : State) (n : Nat) : (s.openSession n).err = s.err := rfl
@[simp] theorem openSession_blk (s : State) (n : Nat) : (s.openSession n).blk = s.blk := rfl
@[simp] theorem openSession_g10 (s : State) (n : Nat) : (s.openSession n).g10 = s.g10 := rfl
@[simp] theorem openSession_args (s : State) (n : Nat) : (s.openSession n).args = s.args := rfl
@[simp] theorem openSession_code (s : State) (n : Nat) : (s.openSession n).code = s.code := rfl
@[simp] theorem openSession_data (s : State) (n : Nat) : (s.openSession n).data = s.data := rfl
@[simp] theorem openSession_line (s : State) (n : Nat) : (s.openSession n).line = s.line := rfl
@[simp] theorem openSession_readyIn (s : State) (n : Nat) : (s.openSession n).readyIn = s.readyIn := rfl
@[simp] theorem openSession_script (s : State) (n : Nat) : (s.openSession n).script = s.script := rfl
@[simp] theorem openSession_moments (s : State) (n : Nat) : (s.openSession n).moments = s.moments := rfl
@[simp] theorem openSession_inputs (s : State) (n : Nat) : (s.openSession n).inputs = s.inputs := rfl
@[simp] theorem openSession_hist (s : State) (n : Nat) : (s.openSession n).hist = s.hist := rfl
@[simp] theorem openSession_diags (s : State) (n : Nat) : (s.openSession n).diags = s.diags := rfl
@[simp] theorem openSession_view (s : State) (n : Nat) : (s.openSession n).view = s.view := rfl

/-! ### drive and driven -/

@[simp] theorem drive_params (s : State) (sig : Signal) (b : Bool) : (s.drive sig b).params = s.params := by cases sig <;> rfl
@[simp] theorem drive_seqr (s : State) (sig : Signal) (b : Bool) : (s.drive sig b).seqr = s.seqr := by cases sig <;> rfl
@[simp] theorem drive_ident (s : State) (sig : Signal) (b : Bool) : (s.drive sig b).ident = s.ident := by cases sig <;> rfl
@[simp] theorem drive_baud (s : State) (sig : Signal) (b : Bool) : (s.drive sig b).baud = s.baud := by cases sig <;> rfl
@[simp] theorem drive_result (s : State) (sig : Signal) (b : Bool) : (s.drive sig b).result = s.result := by cases sig <;> rfl
@[simp] theorem drive_err (s : State) (sig : Signal) (b : Bool) : (s.drive sig b).err = s.err := by cases sig <;> rfl
@[simp] theorem drive_blk (s : State) (sig : Signal) (b : Bool) : (s.drive sig b).blk = s.blk := by cases sig <;> rfl
@[simp] theorem drive_g10 (s : State) (sig : Signal) (b : Bool) : (s.drive sig b).g10 = s.g10 := by cases sig <;> rfl
@[simp] theorem drive_args (s : State) (sig : Signal) (b : Bool) : (s.drive sig b).args = s.args := by cases sig <;> rfl
@[simp] theorem drive_code (s : State) (sig : Signal) (b : Bool) : (s.drive sig b).code = s.code := by cases sig <;> rfl
@[simp] theorem drive_data (s : State) (sig : Signal) (b : Bool) : (s.drive sig b).data = s.data := by cases sig <;> rfl
@[simp] theorem drive_readyIn (s : State) (sig : Signal) (b : Bool) : (s.drive sig b).readyIn = s.readyIn := by cases sig <;> rfl
@[simp] theorem drive_script (s : State) (sig : Signal) (b : Bool) : (s.drive sig b).script = s.script := by cases sig <;> rfl
@[simp] theorem drive_moments (s : State) (sig : Signal) (b : Bool) : (s.drive sig b).moments = s.moments := by cases sig <;> rfl
@[simp] theorem drive_inputs (s : State) (sig : Signal) (b : Bool) : (s.drive sig b).inputs = s.inputs := by cases sig <;> rfl
@[simp] theorem drive_hist (s : State) (sig : Signal) (b : Bool) : (s.drive sig b).hist = s.hist := by cases sig <;> rfl
@[simp] theorem drive_diags (s : State) (sig : Signal) (b : Bool) : (s.drive sig b).diags = s.diags := by cases sig <;> rfl
@[simp] theorem drive_view (s : State) (sig : Signal) (b : Bool) : (s.drive sig b).view = s.view := by cases sig <;> rfl
@[simp] theorem drive_line_reset (s : State) (b : Bool) : (s.drive .reset b).line = { s.line with reset := some b } := rfl
@[simp] theorem drive_line_clock (s : State) (b : Bool) : (s.drive .clock b).line = { s.line with clock := some b } := rfl
@[simp] theorem driven_params (s : State) (sig : Signal) (b : Bool) : (s.driven sig b).params = s.params := by cases sig <;> rfl
@[simp] theorem driven_ident (s : State) (sig : Signal) (b : Bool) : (s.driven sig b).ident = s.ident := by cases sig <;> rfl
@[simp] theorem driven_baud (s : State) (sig : Signal) (b : Bool) : (s.driven sig b).baud = s.baud := by cases sig <;> rfl
@[simp] theorem driven_result (s : State) (sig : Signal) (b : Bool) : (s.driven sig b).result = s.result := by cases sig <;> rfl
@[simp] theorem driven_err (s : State) (sig : Signal) (b : Bool) : (s.driven sig b).err = s.err := by cases sig <;> rfl
@[simp] theorem driven_blk (s : State) (sig : Signal) (b : Bool) : (s.driven sig b).blk = s.blk := by cases sig <;> rfl
@[simp] theorem driven_g10 (s : State) (sig : Signal) (b : Bool) : (s.driven sig b).g10 = s.g10 := by cases sig <;> rfl
@[simp] theorem driven_args (s : State) (sig : Signal) (b : Bool) : (s.driven sig b).args = s.args := by cases sig <;> rfl
@[simp] theorem driven_code (s : State) (sig : Signal) (b : Bool) : (s.driven sig b).code = s.code := by cases sig <;> rfl
@[simp] theorem driven_data (s : State) (sig : Signal) (b : Bool) : (s.driven sig b).data = s.data := by cases sig <;> rfl
@[simp] theorem driven_line (s : State) (sig : Signal) (b : Bool) : (s.driven sig b).line = s.line := by cases sig <;> rfl
@[simp] theorem driven_readyIn (s : State) (sig : Signal) (b : Bool) : (s.driven sig b).readyIn = s.readyIn := by cases sig <;> rfl
@[simp] theorem driven_script (s : State) (sig : Signal) (b : Bool) : (s.driven sig b).script = s.script := by cases sig <;> rfl
@[simp] theorem driven_moments (s : State) (sig : Signal) (b : Bool) : (s.driven sig b).moments = s.moments := by cases sig <;> rfl
@[simp] theorem driven_inputs (s : State) (sig : Signal) (b : Bool) : (s.driven sig b).inputs = s.inputs := by cases sig <;> rfl
@[simp] theorem driven_hist (s : State) (sig : Signal) (b : Bool) : (s.driven sig b).hist = s.hist := by cases sig <;> rfl
@[simp] theorem driven_diags (s : State) (sig : Signal) (b : Bool) : (s.driven sig b).diags = s.diags := by cases sig <;> rfl
@[simp] theorem driven_view (s : State) (sig : Signal) (b : Bool) : (s.driven sig b).view = s.view := by cases sig <;> rfl
@[simp] theorem driven_seqr_reset (s : State) (b : Bool) : (s.driven .reset b).seqr = { s.seqr with lineReset := some b } := rfl
@[simp] theorem driven_seqr_clock (s : State) (b : Bool) : (s.driven .clock b).seqr = { s.seqr with lineClock := some b } := rfl

/-! ### emit and takeError -/

@[simp] theorem emit_params (s : State) (d : Diag) : (s.emit d).params = s.params := rfl
@[simp] theorem emit_seqr (s : State) (d : Diag) : (s.emit d).seqr = s.seqr := rfl
@[simp] theorem emit_ident (s : State) (d : Diag) : (s.emit d).ident = s.ident := rfl
@[simp] theorem emit_baud (s : State) (d : Diag) : (s.emit d).baud = s.baud := rfl
@[simp] theorem emit_result (s : State) (d : Diag) : (s.emit d).result = s.result := rfl
@[simp] theorem emit_err (s : State) (d : Diag) : (s.emit d).err = s.err := rfl
@[simp] theorem emit_blk (s : State) (d : Diag) : (s.emit d).blk = s.blk := rfl
@[simp] theorem emit_g10 (s : State) (d : Diag) : (s.emit d).g10 = s.g10 := rfl
@[simp] theorem emit_args (s : State) (d : Diag) : (s.emit d).args = s.args := rfl
@[simp] theorem emit_code (s : State) (d : Diag) : (s.emit d).code = s.code := rfl
@[simp] theorem emit_data (s : State) (d : Diag) : (s.emit d).data = s.data := rfl
@[simp] theorem emit_line (s : State) (d : Diag) : (s.emit d).line = s.line := rfl
@[simp] theorem emit_readyIn (s : State) (d : Diag) : (s.emit d).readyIn = s.readyIn := rfl
@[simp] theorem emit_script (s : State) (d : Diag) : (s.emit d).script = s.script := rfl
@[simp] theorem emit_moments (s : State) (d : Diag) : (s.emit d).moments = s.moments := rfl
@[simp] theorem emit_inputs (s : State) (d : Diag) : (s.emit d).inputs = s.inputs := rfl
@[simp] theorem emit_hist (s : State) (d : Diag) : (s.emit d).hist = s.hist := rfl
@[simp] theorem emit_view (s : State) (d : Diag) : (s.emit d).view = s.view := rfl
@[simp] theorem emit_diags (s : State) (d : Diag) : (s.emit d).diags = s.diags ++ [⟨s.args.verbose, d⟩] := rfl
@[simp] theorem takeError_params (s : State) (e : Err) : (s.takeError e).params = s.params := rfl
@[simp] theorem takeError_ident (s : State) (e : Err) : (s.takeError e).ident = s.ident := rfl
@[simp] theorem takeError_baud (s : State) (e : Err) : (s.takeError e).baud = s.baud := rfl
@[simp] theorem takeError_result (s : State) (e : Err) : (s.takeError e).result = s.result := rfl
@[simp] theorem takeError_blk (s : State) (e : Err) : (s.takeError e).blk = s.blk := rfl
@[simp] theorem takeError_g10 (s : State) (e : Err) : (s.takeError e).g10 = s.g10 := rfl
@[simp] theorem takeError_args (s : State) (e : Err) : (s.takeError e).args = s.args := rfl
@[simp] theorem takeError_code (s : State) (e : Err) : (s.takeError e).code = s.code := rfl
@[simp] theorem takeError_data (s : State) (e : Err) : (s.takeError e).data = s.data := rfl
@[simp] theorem takeError_line (s : State) (e : Err) : (s.takeError e).line = s.line := rfl
@[simp] theorem takeError_readyIn (s : State) (e : Err) : (s.takeError e).readyIn = s.readyIn := rfl
@[simp] theorem takeError_script (s : State) (e : Err) : (s.takeError e).script = s.script := rfl
@[simp] theorem takeError_moments (s : State) (e : Err) : (s.takeError e).moments = s.moments := rfl
@[simp] theorem takeError_inputs (s : State) (e : Err) : (s.takeError e).inputs = s.inputs := rfl
@[simp] theorem takeError_hist (s : State) (e : Err) : (s.takeError e).hist = s.hist := rfl
@[simp] theorem takeError_view (s : State) (e : Err) : (s.takeError e).view = s.view := rfl
@[simp] theorem takeError_err (s : State) (e : Err) :
    (s.takeError e).err = { kind := e.kind, status := e.status, addr := e.addr, cause := e.cause, op := s.seqr.op.map Req.code } := by
  simp [State.takeError]
@[simp] theorem takeError_seqr (s : State) (e : Err) : (s.takeError e).seqr = { s.seqr with op := none } := by
  simp [State.takeError]
@[simp] theorem takeError_diags (s : State) (e : Err) :
    (s.takeError e).diags = (s.emit (.error e.kind (s.seqr.op.map Req.code) e.addr)).diags := rfl

/-! ### onLine -/

@[simp] theorem onLine_params (s : State) (script : List Tick) (rxq : List Byte) (events : List Event) :
    (s.onLine script rxq events).params = s.params := rfl
@[simp] theorem onLine_seqr (s : State) (script : List Tick) (rxq : List Byte) (events : List Event) :
    (s.onLine script rxq events).seqr = s.seqr := rfl
@[simp] theorem onLine_ident (s : State) (script : List Tick) (rxq : List Byte) (events : List Event) :
    (s.onLine script rxq events).ident = s.ident := rfl
@[simp] theorem onLine_baud (s : State) (script : List Tick) (rxq : List Byte) (events : List Event) :
    (s.onLine script rxq events).baud = s.baud := rfl
@[simp] theorem onLine_result (s : State) (script : List Tick) (rxq : List Byte) (events : List Event) :
    (s.onLine script rxq events).result = s.result := rfl
@[simp] theorem onLine_err (s : State) (script : List Tick) (rxq : List Byte) (events : List Event) :
    (s.onLine script rxq events).err = s.err := rfl
@[simp] theorem onLine_blk (s : State) (script : List Tick) (rxq : List Byte) (events : List Event) :
    (s.onLine script rxq events).blk = s.blk := rfl
@[simp] theorem onLine_g10 (s : State) (script : List Tick) (rxq : List Byte) (events : List Event) :
    (s.onLine script rxq events).g10 = s.g10 := rfl
@[simp] theorem onLine_args (s : State) (script : List Tick) (rxq : List Byte) (events : List Event) :
    (s.onLine script rxq events).args = s.args := rfl
@[simp] theorem onLine_code (s : State) (script : List Tick) (rxq : List Byte) (events : List Event) :
    (s.onLine script rxq events).code = s.code := rfl
@[simp] theorem onLine_data (s : State) (script : List Tick) (rxq : List Byte) (events : List Event) :
    (s.onLine script rxq events).data = s.data := rfl
@[simp] theorem onLine_line (s : State) (script : List Tick) (rxq : List Byte) (events : List Event) :
    (s.onLine script rxq events).line = { s.line with rxq := rxq } := rfl
@[simp] theorem onLine_readyIn (s : State) (script : List Tick) (rxq : List Byte) (events : List Event) :
    (s.onLine script rxq events).readyIn = s.readyIn := rfl
@[simp] theorem onLine_script (s : State) (script : List Tick) (rxq : List Byte) (events : List Event) :
    (s.onLine script rxq events).script = script := rfl
@[simp] theorem onLine_moments (s : State) (script : List Tick) (rxq : List Byte) (events : List Event) :
    (s.onLine script rxq events).moments = s.moments := rfl
@[simp] theorem onLine_inputs (s : State) (script : List Tick) (rxq : List Byte) (events : List Event) :
    (s.onLine script rxq events).inputs = s.inputs := rfl
@[simp] theorem onLine_hist (s : State) (script : List Tick) (rxq : List Byte) (events : List Event) :
    (s.onLine script rxq events).hist = s.hist ++ events := rfl
@[simp] theorem onLine_diags (s : State) (script : List Tick) (rxq : List Byte) (events : List Event) :
    (s.onLine script rxq events).diags = s.diags := rfl
@[simp] theorem onLine_view (s : State) (script : List Tick) (rxq : List Byte) (events : List Event) :
    (s.onLine script rxq events).view = s.view := rfl

/-! ### answered -/

@[simp] theorem answered_params (s : State) (script : List Tick) (events : List Event) (b : Byte) :
    (s.answered script events b).params = s.params := rfl
@[simp] theorem answered_seqr (s : State) (script : List Tick) (events : List Event) (b : Byte) :
    (s.answered script events b).seqr = s.seqr := rfl
@[simp] theorem answered_ident (s : State) (script : List Tick) (events : List Event) (b : Byte) :
    (s.answered script events b).ident = s.ident := rfl
@[simp] theorem answered_baud (s : State) (script : List Tick) (events : List Event) (b : Byte) :
    (s.answered script events b).baud = s.baud := rfl
@[simp] theorem answered_result (s : State) (script : List Tick) (events : List Event) (b : Byte) :
    (s.answered script events b).result = { s.result with lastStatus := some b } := rfl
@[simp] theorem answered_err (s : State) (script : List Tick) (events : List Event) (b : Byte) :
    (s.answered script events b).err = s.err := rfl
@[simp] theorem answered_blk (s : State) (script : List Tick) (events : List Event) (b : Byte) :
    (s.answered script events b).blk = s.blk := rfl
@[simp] theorem answered_g10 (s : State) (script : List Tick) (events : List Event) (b : Byte) :
    (s.answered script events b).g10 = s.g10 := rfl
@[simp] theorem answered_args (s : State) (script : List Tick) (events : List Event) (b : Byte) :
    (s.answered script events b).args = s.args := rfl
@[simp] theorem answered_code (s : State) (script : List Tick) (events : List Event) (b : Byte) :
    (s.answered script events b).code = s.code := rfl
@[simp] theorem answered_data (s : State) (script : List Tick) (events : List Event) (b : Byte) :
    (s.answered script events b).data = s.data := rfl
@[simp] theorem answered_line (s : State) (script : List Tick) (events : List Event) (b : Byte) :
    (s.answered script events b).line = { s.line with rxq := [] } := rfl
@[simp] theorem answered_readyIn (s : State) (script : List Tick) (events : List Event) (b : Byte) :
    (s.answered script events b).readyIn = s.readyIn := rfl
@[simp] theorem answered_script (s : State) (script : List Tick) (events : List Event) (b : Byte) :
    (s.answered script events b).script = script := rfl
@[simp] theorem answered_moments (s : State) (script : List Tick) (events : List Event) (b : Byte) :
    (s.answered script events b).moments = s.moments := rfl
@[simp] theorem answered_inputs (s : State) (script : List Tick) (events : List Event) (b : Byte) :
    (s.answered script events b).inputs = s.inputs := rfl
@[simp] theorem answered_hist (s : State) (script : List Tick) (events : List Event) (b : Byte) :
    (s.answered script events b).hist = s.hist ++ events := rfl
@[simp] theorem answered_diags (s : State) (script : List Tick) (events : List Event) (b : Byte) :
    (s.answered script events b).diags = s.diags := rfl
@[simp] theorem answered_view (s : State) (script : List Tick) (events : List Event) (b : Byte) :
    (s.answered script events b).view = s.view := rfl

/-- Two exchanges on the line are one. -/
@[simp] theorem onLine_onLine (s : State) (sc sc' : List Tick) (q q' : List Byte) (ev ev' : List Event) :
    (s.onLine sc q ev).onLine sc' q' ev' = s.onLine sc' q' (ev ++ ev') := by
  simp [State.onLine]

end Sys2Proof.Machine
end

