-- ==== Sys2Proof/Laws/Eng.lean ====
section
/-! SUPPORT. The laws of rules as functions of the state: how a sequence runs, and `Keeps`: what a rule preserves and how it
may stop, with its lemma for a sequence. -/

namespace Sys2Proof.Machine

variable {α β : Type}

/-! ## Running a sequence -/

theorem bind_ok {m : Eng α} {f : α → Eng β} {s t : State} {a : α} (h : m s = .ok a t) : (m >>= f) s = f a t := by
  show EStateM.bind m f s = _
  simp [EStateM.bind, h]

theorem bind_error {m : Eng α} {f : α → Eng β} {s t : State} {w : Stop} (h : m s = .error w t) :
    (m >>= f) s = .error w t := by
  show EStateM.bind m f s = _
  simp [EStateM.bind, h]

theorem pure_run (a : α) (s : State) : (pure a : Eng α) s = .ok a s := rfl

@[simp] theorem getState_run (s : State) : getState s = .ok s s := rfl

@[simp] theorem update_run (f : State → State) (s : State) : update f s = .ok () (f s) := rfl

@[simp] theorem abort_run (e : Err) (s : State) : (abort e : Eng α) s = .error (.raised e) s := rfl

theorem getState_bind (f : State → Eng β) (s : State) : (getState >>= f) s = f s s := rfl

theorem update_bind (g : State → State) (f : Unit → Eng β) (s : State) : (update g >>= f) s = f () (g s) := rfl


theorem pure_bind_run (a : α) (f : α → Eng β) (s : State) : ((pure a : Eng α) >>= f) s = f a s := rfl

theorem ite_run {c : Prop} [Decidable c] (m n : Eng α) (s : State) :
    (if c then m else n : Eng α) s = if c then m s else n s := by
  split <;> rfl

theorem needReg_some (r : Reg) {v : Option α} {a : α} (h : v = some a) (s : State) : needReg r v s = .ok a s := by
  subst h; rfl

/-! ## What arrives before a primitive -/

/-- The state after what arrives before a primitive. -/
def State.passed (s : State) : State :=
  let m := s.moments.headD {}
  let t : State := { s with moments := s.moments.tail }
  m.busy.foldl State.refuse (if m.close then t.setOpen false else t)

/-- Everything that can arrive before a primitive: a close, refused requests, and an Engine reset. -/
theorem moment_eq (s : State) :
    moment s = if (s.moments.headD {}).reset then .error .reset s.passed else .ok () s.passed := rfl

theorem passed_calm {s : State} (h : s.calm) : s.passed = s := by
  cases s
  simp only [State.calm] at h
  subst h
  rfl

theorem moment_calm {s : State} (h : s.calm) : moment s = .ok () s := by
  rw [moment_eq, passed_calm h, show s.moments = [] from h]
  rfl

theorem moment_bind {s : State} (h : s.calm) (f : Unit → Eng β) : (moment >>= f) s = f () s := bind_ok (moment_calm h)

/-- A register write or an event, as everything that can happen at it. -/
theorem primitive_eq (f : State → State) (s : State) :
    primitive f s = if (s.moments.headD {}).reset then .error .reset s.passed else .ok () (f s.passed) := by
  cases h : (s.moments.headD {}).reset with
  | false => exact (bind_ok (a := ()) (by rw [moment_eq, h]; rfl)).trans rfl
  | true => exact bind_error (by rw [moment_eq, h]; rfl)

/-- A primitive at which nothing arrives. -/
theorem primitive_calm {f : State → State} {s : State} (h : s.calm) : primitive f s = .ok () (f s) :=
  (moment_bind h _).trans rfl

theorem primitive_bind {s : State} (h : s.calm) (g : State → State) (f : Unit → Eng β) :
    (primitive g >>= f) s = f () (g s) := bind_ok (primitive_calm h)

/-! ## Register writes of one group -/

/-- What register writes come to, one after the other. -/
def State.wrote (s : State) (fs : List (State → State)) : State := fs.foldl (fun s f => f s) s

/-- Register writes that neither read nor change what can arrive before a primitive: the moments, the error registers and
the Transport. -/
def Aside (fs : List (State → State)) : Prop :=
  ∀ f ∈ fs, ∀ (s : State) (m : List Moment) (e : ErrRegs) (l : Transport),
    f { s with moments := m, err := e, line := l } = { f s with moments := m, err := e, line := l }

theorem wrote_aside : ∀ {fs : List (State → State)}, Aside fs → ∀ (s : State) (m : List Moment) (e : ErrRegs) (l : Transport),
    State.wrote { s with moments := m, err := e, line := l } fs = { s.wrote fs with moments := m, err := e, line := l }
  | [], _, _, _, _, _ => rfl
  | f :: r, ha, s, m, e, l => by
    show State.wrote (f _) r = { State.wrote (f s) r with moments := m, err := e, line := l }
    rw [ha f (by simp)]
    exact wrote_aside (fun g hg => ha g (by simp [hg])) (f s) m e l

theorem wrote_kept {fs : List (State → State)} (ha : Aside fs) (s : State) :
    (s.wrote fs).moments = s.moments ∧ (s.wrote fs).err = s.err ∧ (s.wrote fs).line = s.line := by
  have h := wrote_aside ha s s.moments s.err s.line
  have h1 := congrArg State.moments h
  have h2 := congrArg State.err h
  have h3 := congrArg State.line h
  exact ⟨h1, h2, h3⟩

theorem wrote_append (s : State) (fs gs : List (State → State)) : s.wrote (fs ++ gs) = (s.wrote fs).wrote gs :=
  List.foldl_append ..

/-- What the requests refused in the middle of a rule leave alone. -/
theorem foldl_refuse (s : State) : ∀ codes : List Byte,
    codes.foldl State.refuse s =
      { s with err := codes.foldl (fun e c => { e with kind := .badRequest, op := some c }) s.err }
  | [] => rfl
  | c :: r => by rw [List.foldl_cons, foldl_refuse (s.refuse c) r]; rfl

/-- What arrives before a primitive changes the moments, the error registers and whether the Transport is open, and looks
at nothing else. -/
theorem passed_eq (s : State) : s.passed = { s with
    moments := s.moments.tail
    err := (s.moments.headD {}).busy.foldl (fun e c => { e with kind := .badRequest, op := some c }) s.err
    line := { s.line with isOpen := if (s.moments.headD {}).close then false else s.line.isOpen } } := by
  unfold State.passed
  rw [foldl_refuse]
  split <;> simp [State.setOpen, *]

/-- Writes and what arrives before a primitive do not see each other. -/
theorem passed_wrote {fs : List (State → State)} (ha : Aside fs) (s : State) : (s.wrote fs).passed = s.passed.wrote fs := by
  obtain ⟨h1, h2, h3⟩ := wrote_kept ha s
  rw [passed_eq (s.wrote fs), h1, h2, h3, passed_eq s]
  exact (wrote_aside ha ..).symm

/-- Writes at which nothing arrives. -/
theorem writes_calm : ∀ {fs : List (State → State)} {s : State}, Aside fs → s.calm → writes fs s = .ok () (s.wrote fs)
  | [], _, _, _ => rfl
  | f :: r, s, ha, hc => by
    rw [writes, primitive_bind hc]
    refine writes_calm (fun g hg => ha g (by simp [hg])) ?_
    have h := (wrote_kept (fs := [f]) (fun g hg => ha g (by simp at hg; simp [hg])) s).1
    exact h.trans hc

theorem writes_bind {fs : List (State → State)} {s : State} (ha : Aside fs) (hc : s.calm) (g : Unit → Eng β) :
    (writes fs >>= g) s = g () (s.wrote fs) := bind_ok (writes_calm ha hc)

/-- Everything writes can do, from every state with a predicate that survives what arrives: they are all made, or an
Engine reset comes behind the first of them. -/
theorem writes_run {I : State → Prop} (hp : ∀ s, I s → I s.passed) : ∀ {fs pre : List (State → State)} {s : State},
    Aside (pre ++ fs) → I s → match writes fs (s.wrote pre) with
      | .ok _ t => ∃ u, I u ∧ t = u.wrote (pre ++ fs)
      | .error w t => w = .reset ∧ ∃ u done, I u ∧ done <+: pre ++ fs ∧ t = u.wrote done
  | [], pre, s, _, hs => ⟨s, hs, by rw [List.append_nil]⟩
  | f :: r, pre, s, ha, hs => by
    have hpre : Aside pre := fun g hg => ha g (by simp [hg])
    rw [writes]
    cases hr : ((s.wrote pre).moments.headD {}).reset with
    | true =>
      rw [bind_error (by rw [primitive_eq, if_pos hr])]
      exact ⟨rfl, s.passed, pre, hp s hs, List.prefix_append .., passed_wrote hpre s⟩
    | false =>
      rw [bind_ok (by rw [primitive_eq, if_neg (by rw [hr]; exact Bool.false_ne_true)]), passed_wrote hpre s,
        show f (s.passed.wrote pre) = s.passed.wrote (pre ++ [f]) by rw [wrote_append]; rfl]
      have h := writes_run hp (fs := r) (pre := pre ++ [f]) (s := s.passed) (by simpa using ha) (hp s hs)
      rwa [List.append_assoc, List.singleton_append] at h

theorem modeWrites_aside (a b : Byte) : Aside (modeWrites a b) := by simp [modeWrites, Aside]

theorem identityWrites_aside (d : List Byte) : Aside (identityWrites d) := by simp [identityWrites, Aside]

theorem sessionWrites_aside (n : Nat) : Aside (sessionWrites n) := by simp [sessionWrites, Aside, State.setSeq]

theorem regionWrites_aside (m : CMode) (b : Buf) (a : Addr) (n : Nat) : Aside (regionWrites m b a n) := by
  simp [regionWrites, Aside]

theorem responseWrites_aside (a b c : Byte) : Aside (responseWrites a b c) := by simp [responseWrites, Aside]

@[simp] theorem wrote_modes (s : State) (a b : Byte) : s.wrote (modeWrites a b) = s.setModes a b := rfl

@[simp] theorem wrote_identity (s : State) (d : List Byte) : s.wrote (identityWrites d) = s.identify d := rfl

@[simp] theorem wrote_session (s : State) (n : Nat) : s.wrote (sessionWrites n) = s.openSession n := rfl

@[simp] theorem wrote_region (s : State) (m : CMode) (b : Buf) (a : Addr) (n : Nat) :
    s.wrote (regionWrites m b a n) = s.setRegion m b a n := rfl

@[simp] theorem latchRegion_eq (s : State) (m : CMode) (b : Buf) (a : Addr) (n : Nat) :
    latchRegion m b a n s = s.setRegion m b a n := rfl

@[simp] theorem wrote_response (s : State) (a b c : Byte) : s.wrote (responseWrites a b c) = s.setResponse a b c := rfl

theorem raise_eq (e : Err) (s : State) :
    (raise e : Eng α) s = if (s.moments.headD {}).reset then .error .reset s.passed else .error (.raised e) s.passed := by
  cases h : (s.moments.headD {}).reset with
  | false => exact (bind_ok (a := ()) (by rw [moment_eq, h]; rfl)).trans rfl
  | true => exact bind_error (by rw [moment_eq, h]; rfl)

/-- A raise before which nothing arrives. -/
theorem raise_calm {s : State} (h : s.calm) (e : Err) : (raise e : Eng α) s = .error (.raised e) s :=
  (moment_bind h _).trans rfl

/-- A check of a rule, before whose raise nothing arrives. -/
theorem check_calm {c : Prop} [Decidable c] {s : State} (h : s.calm) (e : Err) :
    (if c then pure () else raise e : Eng Unit) s = if c then .ok () s else .error (.raised e) s := by
  split
  · rfl
  · exact raise_calm h e

/-- The begin of a primitive on an open Transport, before which nothing arrives. -/
theorem transport_bind {s : State} (h : s.calm) (ho : s.line.isOpen = true) (f : Unit → Eng β) :
    (transport >>= f) s = f () s := by
  refine bind_ok ((moment_bind h _).trans ?_)
  rw [getState_bind, if_pos ho]
  rfl

theorem nextTick_bind (f : Tick → Eng β) (s : State) :
    (nextTick >>= f) s = f (s.script.headD {}) { s with script := s.script.tail } := rfl

theorem emit_calm {s : State} (h : s.calm) (d : Diag) : emit d s = .ok () (s.emit d) := primitive_calm h

theorem onRaise_ok {f : Err → Err} {g : State → State} {m : Eng α} {s t : State} {a : α} (h : m s = .ok a t) :
    onRaise f g m s = .ok a t := by
  simp [onRaise, h]

theorem onRaise_raised {f : Err → Err} {g : State → State} {m : Eng α} {s t : State} {e : Err}
    (h : m s = .error (.raised e) t) : onRaise f g m s = .error (.raised (f e)) (g t) := by
  simp [onRaise, h]

/-! ## The outcome of a rule -/

theorem finish_ok {m : Eng Unit} {s t : State} (h : m s = .ok () t) : finish m s = .next t := by
  simp [finish, h]

theorem finish_raised {m : Eng Unit} {s t : State} {e : Err} (h : m s = .error (.raised e) t) :
    finish m s = .next (t.takeError e) := by
  simp [finish, h]

theorem finish_reset {m : Eng Unit} {s t : State} (h : m s = .error .reset t) : finish m s = .next t.engineReset := by
  simp [finish, h]

theorem finish_held {m : Eng Unit} {s t : State} (h : m s = .error .held t) : finish m s = .next t := by
  simp [finish, h]

/-- A request that ends without an error (R79). -/
theorem finish_request {m : Eng Unit} {s t : State} (h : m s = .ok () t) (hm : t.calm) :
    finish (do m; primitive State.endRequest) s = .next t.endRequest :=
  finish_ok (by rw [bind_ok h]; exact primitive_calm hm)

/-- Everything a finished rule can leave as a next state. -/
theorem finish_next {m : Eng Unit} {s t : State} (h : finish m s = .next t) :
    m s = .ok () t ∨ (∃ e u, m s = .error (.raised e) u ∧ t = u.takeError e) ∨ m s = .error .held t ∨
      ∃ u, m s = .error .reset u ∧ t = u.engineReset := by
  unfold finish at h
  split at h
  · next hm => cases h; exact .inl hm
  · next e u hm => cases h; exact .inr (.inl ⟨e, u, hm, rfl⟩)
  · next hm => cases h; exact .inr (.inr (.inl hm))
  · next u hm => cases h; exact .inr (.inr (.inr ⟨u, hm, rfl⟩))
  · cases h

/-- A finished rule stops only with a fault. -/
theorem finish_total (m : Eng Unit) (s : State) :
    (∃ t, finish m s = .next t) ∨ ∃ f t, m s = .error (.faulted f) t ∧ finish m s = .fault f := by
  unfold finish
  split
  · exact .inl ⟨_, rfl⟩
  · exact .inl ⟨_, rfl⟩
  · exact .inl ⟨_, rfl⟩
  · exact .inl ⟨_, rfl⟩
  · next f t hm => exact .inr ⟨f, t, hm, rfl⟩

theorem noOp_eq {q : SeqRegs} (h : q.op = none) : { q with op := none } = q := by
  cases q; simp_all

/-- Everything that raising an error changes (R158). -/
theorem takeError_eq (s : State) (e : Err) :
    s.takeError e = { s with
      err := { kind := e.kind, status := e.status, addr := e.addr, cause := e.cause, op := s.seqr.op.map Req.code }
      seqr := { s.seqr with op := none }
      diags := s.diags ++ [⟨s.args.verbose, .error e.kind (s.seqr.op.map Req.code) e.addr⟩] } := rfl

theorem runUnit_run {allowed : State → Bool} {m : Eng Unit} {s : State} (ho : s.seqr.op = none)
    (ha : allowed s = true) : runUnit allowed m s = finish m s := by
  simp [runUnit, ho, ha]

theorem runUnit_refused {allowed : State → Bool} {m : Eng Unit} {s : State}
    (h : s.seqr.op ≠ none ∨ allowed s = false) : runUnit allowed m s = .next s.refuseUnit := by
  unfold runUnit
  rw [if_neg]
  rcases h with h | h <;> simp [h]

theorem runRequest_run {r : Req} {allowed : State → Bool} {latch : State → State} {m : Eng Unit} {s : State}
    (ho : s.seqr.op = none) (ha : allowed s = true) :
    runRequest r allowed latch m s = finish (do m; primitive State.endRequest) (latch (s.accept r)) := by
  simp [runRequest, ho, ha]

theorem runRequest_refused {r : Req} {allowed : State → Bool} {latch : State → State} {m : Eng Unit} {s : State}
    (h : s.seqr.op ≠ none ∨ allowed s = false) : runRequest r allowed latch m s = .next (s.refuse r.code) := by
  unfold runRequest
  rw [if_neg]
  rcases h with h | h <;> simp [h]

/-- An accepted request whose rule ends without an error. -/
theorem runRequest_ok {r : Req} {allowed : State → Bool} {latch : State → State} {m : Eng Unit} {s t : State}
    (ho : s.seqr.op = none) (ha : allowed s = true) (hm : m (latch (s.accept r)) = .ok () t) (hc : t.calm) :
    runRequest r allowed latch m s = .next t.endRequest := by
  rw [runRequest_run ho ha]
  exact finish_request hm hc

/-- An accepted request whose rule raises an error. -/
theorem runRequest_raised {r : Req} {allowed : State → Bool} {latch : State → State} {m : Eng Unit} {s t : State}
    {e : Err} (ho : s.seqr.op = none) (ha : allowed s = true)
    (hm : m (latch (s.accept r)) = .error (.raised e) t) :
    runRequest r allowed latch m s = .next (t.takeError e) := by
  rw [runRequest_run ho ha]
  exact finish_raised (by rw [bind_error hm])

/-! ## What a rule keeps -/

/-- From every state with `I`, the rule ends in a state with `I` and its value satisfies `Q`, and where it stops early,
`E` holds of the stop and the state it stops at. -/
def Keeps (I : State → Prop) (E : Stop → State → Prop) (m : Eng α) (Q : α → Prop := fun _ => True) : Prop :=
  ∀ s, I s → match m s with
    | .ok a t => I t ∧ Q a
    | .error w t => E w t

variable {I : State → Prop} {E E' : Stop → State → Prop} {Q : α → Prop} {R : β → Prop}

theorem Keeps.bind {m : Eng α} {f : α → Eng β} (hm : Keeps I E m Q) (hf : ∀ a, Q a → Keeps I E (f a) R) :
    Keeps I E (m >>= f) R := by
  intro s hs
  have h := hm s hs
  cases hr : m s with
  | ok a t =>
    rw [hr] at h
    rw [bind_ok hr]
    exact hf a h.2 t h.1
  | error w t =>
    rw [hr] at h
    rw [bind_error hr]
    exact h

theorem Keeps.weaken {m : Eng α} {R : α → Prop} (hm : Keeps I E m Q) (h : ∀ a, Q a → R a) : Keeps I E m R := by
  intro s hs
  have hk := hm s hs
  cases hr : m s with
  | ok a t => rw [hr] at hk; exact ⟨hk.1, h a hk.2⟩
  | error w t => rw [hr] at hk; exact hk

theorem Keeps.pure (a : α) (h : Q a) : Keeps I E (pure a : Eng α) Q := fun _ hs => ⟨hs, h⟩

theorem Keeps.update {f : State → State} (h : ∀ s, I s → I (f s)) : Keeps I E (update f) :=
  fun s hs => ⟨h s hs, trivial⟩

theorem Keeps.abort {e : Err} (h : ∀ s, I s → E (.raised e) s) : Keeps I E (abort e : Eng α) Q := fun s hs => h s hs

/-- A rule that begins by reading the state may be looked at from each state it starts in. -/
theorem Keeps.getState {f : State → Eng β}
    (h : ∀ s, I s → match f s s with
      | .ok a t => I t ∧ R a
      | .error w t => E w t) : Keeps I E (getState >>= f) R := h

/-- A rule that reads the state and goes on in a way that keeps `I` whatever it read. -/
theorem Keeps.getState' {f : State → Eng β} (h : ∀ s, I s → Keeps I E (f s) R) :
    Keeps I E (Machine.getState >>= f) R := fun s hs => h s hs s hs

theorem Keeps.needReg {r : Reg} {v : Option α} (h : v.isSome = true ∨ ∀ s, I s → E (.faulted (.readNone r)) s) :
    Keeps I E (needReg r v) (fun a => v = some a) := by
  intro s hs
  cases v with
  | some a => exact ⟨hs, rfl⟩
  | none => exact h.resolve_left (by simp) s hs

theorem Keeps.onRaise {f : Err → Err} {g : State → State} {m : Eng α} (hm : Keeps I E' m Q)
    (hE : ∀ e t, E' (.raised e) t → E (.raised (f e)) (g t))
    (hw : ∀ w t, (∀ e, w ≠ .raised e) → E' w t → E w t) : Keeps I E (onRaise f g m) Q := by
  intro s hs
  have h := hm s hs
  unfold Machine.onRaise
  cases hr : m s with
  | ok a t => rw [hr] at h; exact h
  | error w t =>
    rw [hr] at h
    cases w with
    | raised e => exact hE _ _ h
    | held => exact hw _ _ (by simp) h
    | reset => exact hw _ _ (by simp) h
    | faulted x => exact hw _ _ (by simp) h

end Sys2Proof.Machine
end

