-- ==== Sys2Proof/Laws/Memory.lean ====
section
/-! SUPPORT. The laws of the image buffers: every operation keeps the canonical form, a read after a write gives the value
written, a write leaves every other offset alone, and `MemRead` is the bytes one by one. -/

namespace Sys2Proof.Machine

theorem rising_mono {lo lo' : Nat} (h : lo' ≤ lo) : ∀ {cells}, Memory.rising lo cells = true → Memory.rising lo' cells = true
  | [], _ => rfl
  | (k, v) :: r, hr => by
    simp only [Memory.rising, Bool.and_eq_true, decide_eq_true_eq] at hr ⊢
    exact ⟨⟨by omega, hr.1.2⟩, hr.2⟩

/-- Writing a byte keeps the rising order, and lists no erased byte. -/
theorem rising_put {lo : Nat} : ∀ {cells : List Host.Cell} {a : Nat} {v : Byte}, lo ≤ a →
    Memory.rising lo cells = true → Memory.rising lo (Memory.put cells a v) = true
  | [], a, v, ha, _ => by
    simp only [Memory.put]
    split <;> simp_all [Memory.rising]
  | (k, w) :: r, a, v, ha, h => by
    simp only [Memory.rising, Bool.and_eq_true, decide_eq_true_eq] at h
    simp only [Memory.put]
    split
    · split
      · simp_all [Memory.rising]
      · simp_all [Memory.rising]
    · split
      · split
        · exact rising_mono (by omega) h.2
        · simp_all [Memory.rising]
      · have : Memory.rising (k + 1) (Memory.put r a v) = true := rising_put (by omega) h.2
        simp_all [Memory.rising]

theorem mem_put {c : Host.Cell} : ∀ {cells : List Host.Cell} {a : Nat} {v : Byte},
    c ∈ Memory.put cells a v → c ∈ cells ∨ c.1 = a
  | [], a, v, h => by
    simp only [Memory.put] at h
    split at h <;> simp_all
  | (k, w) :: r, a, v, h => by
    simp only [Memory.put] at h
    split at h
    · split at h <;> simp_all
      rcases h with h | h | h <;> simp_all
    · split at h
      · split at h <;> simp_all
        rcases h with h | h <;> simp_all
      · simp only [List.mem_cons] at h
        rcases h with h | h
        · exact .inl (by simp [h])
        · rcases mem_put h with h | h
          · exact .inl (by simp [h])
          · exact .inr h

theorem wf_putAll : ∀ {bytes : List Byte} {cells : List Host.Cell} {a n : Nat}, a + bytes.length ≤ n →
    (Memory.rising 0 cells && cells.all fun c => c.1 < n) = true →
    (Memory.rising 0 (Memory.putAll cells a bytes) && (Memory.putAll cells a bytes).all fun c => c.1 < n) = true
  | [], _, _, _, _, h => h
  | v :: r, cells, a, n, ha, h => by
    simp only [List.length_cons] at ha
    refine wf_putAll (bytes := r) (a := a + 1) (by omega) ?_
    simp only [Bool.and_eq_true, List.all_eq_true, decide_eq_true_eq] at h ⊢
    refine ⟨rising_put (Nat.zero_le _) h.1, fun c hc => ?_⟩
    rcases mem_put hc with hc | hc
    · exact h.2 c hc
    · omega

/-- A write keeps the canonical form. -/
theorem wf_write {m m' : Memory} {off : Nat} {bytes : List Byte} (h : m.wf = true) (hw : m.write off bytes = some m') :
    m'.wf = true := by
  unfold Memory.write at hw
  split at hw
  · cases hw
    exact wf_putAll ‹_› h
  · cases hw

/-- A buffer as the Caller gives it is canonical. -/
@[simp] theorem wf_filled (n : Nat) : (Memory.filled n).wf = true := rfl

theorem lookup_rising {lo a : Nat} (h : a < lo) : ∀ {cells}, Memory.rising lo cells = true →
    Memory.lookup cells a = Config.erased
  | [], _ => rfl
  | (k, v) :: r, hr => by
    simp only [Memory.rising, Bool.and_eq_true, decide_eq_true_eq] at hr
    simp only [Memory.lookup]
    split
    · omega
    · exact lookup_rising (by omega) hr.2

/-- A read after a write of one byte. -/
theorem lookup_put {a : Nat} {v : Byte} (x : Nat) : ∀ {cells : List Host.Cell} {lo : Nat},
    Memory.rising lo cells = true → Memory.lookup (Memory.put cells a v) x = if x = a then v else Memory.lookup cells x
  | [], lo, _ => by
    by_cases hx : x = a
    · by_cases hv : v = Config.erased <;> simp [Memory.put, Memory.lookup, hx, hv]
    · by_cases hv : v = Config.erased <;> simp [Memory.put, Memory.lookup, hx, Ne.symm hx, hv]
  | (k, w) :: r, lo, h => by
    simp only [Memory.rising, Bool.and_eq_true, decide_eq_true_eq] at h
    have hr := h.2
    simp only [Memory.put]
    split
    · next hak =>
      split
      · next hv =>
        by_cases hx : x = a
        · subst hx
          simp only [Memory.lookup, if_true]
          rw [if_neg (by omega), lookup_rising (by omega) hr, hv]
        · simp [hx]
      · simp only [Memory.lookup]
        by_cases hx : x = a
        · simp [hx]
        · simp [hx, Ne.symm hx]
    · split
      · next hak =>
        subst hak
        split
        · next hv =>
          by_cases hx : x = a
          · subst hx
            rw [lookup_rising (by omega) hr]; simp [hv]
          · simp [Memory.lookup, hx, Ne.symm hx]
        · simp only [Memory.lookup]
          by_cases hx : x = a
          · simp [hx]
          · simp [hx, Ne.symm hx]
      · next hak =>
        simp only [Memory.lookup, lookup_put x hr]
        by_cases hx : x = a
        · subst hx; simp [Ne.symm hak]
        · simp [hx]

@[simp] theorem length_sliceFrom : ∀ (n : Nat) (cells : List Host.Cell) (a : Nat),
    (Memory.sliceFrom n cells a).length = n
  | 0, _, _ => rfl
  | n + 1, [], a => by simp [Memory.sliceFrom, length_sliceFrom n]
  | n + 1, (k, v) :: r, a => by
    simp only [Memory.sliceFrom]
    split <;> simp [length_sliceFrom n]

/-- `MemRead` gives as many bytes as it is asked for. -/
@[simp] theorem length_slice (m : Memory) (off n : Nat) : (m.slice off n).length = n := length_sliceFrom ..

theorem getElem_sliceFrom : ∀ (n : Nat) (cells : List Host.Cell) (a i : Nat), Memory.rising a cells = true → i < n →
    (Memory.sliceFrom n cells a)[i]? = some (Memory.lookup cells (a + i))
  | n + 1, [], a, i, _, hi => by
    cases i with
    | zero => rfl
    | succ i => simpa [Memory.sliceFrom, Memory.lookup] using getElem_sliceFrom n [] (a + 1) i rfl (by omega)
  | n + 1, (k, v) :: r, a, i, h, hi => by
    have h' := h
    simp only [Memory.rising, Bool.and_eq_true, decide_eq_true_eq] at h'
    simp only [Memory.sliceFrom]
    split
    · next hk =>
      subst hk
      cases i with
      | zero => simp [Memory.lookup]
      | succ i =>
        have := getElem_sliceFrom n r (k + 1) i h'.2 (by omega)
        simp only [List.getElem?_cons_succ, this, Memory.lookup]
        rw [if_neg (by omega)]
        congr 2; omega
    · next hk =>
      cases i with
      | zero =>
        simp only [List.getElem?_cons_zero, Memory.lookup, Nat.add_zero, if_neg hk]
        rw [lookup_rising (by omega) h'.2]
      | succ i =>
        have hr : Memory.rising (a + 1) ((k, v) :: r) = true := by
          simp only [Memory.rising, Bool.and_eq_true, decide_eq_true_eq]
          exact ⟨⟨by omega, h'.1.2⟩, h'.2⟩
        have := getElem_sliceFrom n ((k, v) :: r) (a + 1) i hr (by omega)
        simp only [List.getElem?_cons_succ, this]
        congr 2; omega

theorem rising_dropWhile {off : Nat} : ∀ {cells : List Host.Cell} {lo : Nat}, Memory.rising lo cells = true →
    Memory.rising off (cells.dropWhile fun c => c.1 < off) = true
  | [], _, _ => rfl
  | (k, v) :: r, lo, h => by
    simp only [Memory.rising, Bool.and_eq_true, decide_eq_true_eq] at h
    by_cases hk : k < off
    · rw [List.dropWhile_cons_of_pos (by simpa using hk)]
      exact rising_dropWhile h.2
    · rw [List.dropWhile_cons_of_neg (by simpa using hk)]
      simp only [Memory.rising, Bool.and_eq_true, decide_eq_true_eq]
      exact ⟨⟨by omega, h.1.2⟩, h.2⟩

theorem lookup_dropWhile {off x : Nat} (hx : off ≤ x) : ∀ {cells : List Host.Cell},
    Memory.lookup (cells.dropWhile fun c => c.1 < off) x = Memory.lookup cells x
  | [] => rfl
  | (k, v) :: r => by
    by_cases hk : k < off
    · rw [List.dropWhile_cons_of_pos (by simpa using hk), lookup_dropWhile hx]
      simp only [Memory.lookup]
      rw [if_neg (by omega)]
    · rw [List.dropWhile_cons_of_neg (by simpa using hk)]

/-- `MemRead`, byte by byte (R45): byte `i` is the one at offset `off + i`. -/
theorem getElem_slice {m : Memory} (h : m.wf = true) {off n i : Nat} (hi : i < n) :
    (m.slice off n)[i]? = some (m.get (off + i)) := by
  simp only [Memory.wf, Bool.and_eq_true] at h
  rw [Memory.slice, getElem_sliceFrom _ _ _ _ (rising_dropWhile h.1) hi, lookup_dropWhile (by omega)]
  rfl

/-- `MemRead` as a list of single reads. -/
theorem slice_eq_map {m : Memory} (h : m.wf = true) (off n : Nat) :
    m.slice off n = (List.range n).map fun i => m.get (off + i) := by
  apply List.ext_getElem?
  intro i
  by_cases hi : i < n
  · rw [getElem_slice h hi, List.getElem?_map, List.getElem?_range hi]; rfl
  · rw [List.getElem?_eq_none (by simpa using hi), List.getElem?_eq_none (by simpa using hi)]

/-- Reading anywhere after a write: the bytes written where they were written, and what was there elsewhere. -/
theorem lookup_putAll (x : Nat) : ∀ {bytes : List Byte} {cells : List Host.Cell} {a : Nat},
    Memory.rising 0 cells = true →
    Memory.lookup (Memory.putAll cells a bytes) x =
      if a ≤ x ∧ x < a + bytes.length then bytes.getD (x - a) 0#8 else Memory.lookup cells x
  | [], cells, a, _ => by
    rw [if_neg (by simp)]; rfl
  | v :: r, cells, a, h => by
    rw [Memory.putAll, lookup_putAll x (rising_put (Nat.zero_le _) h), lookup_put x h]
    simp only [List.length_cons]
    by_cases h1 : x = a
    · subst h1
      rw [if_neg (by omega), if_pos (by omega)]
      simp
    · by_cases h2 : a + 1 ≤ x ∧ x < a + 1 + r.length
      · rw [if_pos h2, if_pos (by omega)]
        obtain ⟨k, rfl⟩ : ∃ k, x = a + 1 + k := ⟨x - (a + 1), by omega⟩
        rw [show a + 1 + k - a = k + 1 by omega, show a + 1 + k - (a + 1) = k by omega]
        simp
      · rw [if_neg h2, if_neg h1, if_neg (by omega)]

/-- A read after a write of bytes. -/
theorem get_write {m m' : Memory} {off : Nat} {bytes : List Byte} (h : m.wf = true) (hw : m.write off bytes = some m')
    (x : Nat) : m'.get x = if off ≤ x ∧ x < off + bytes.length then bytes.getD (x - off) 0#8 else m.get x := by
  simp only [Memory.wf, Bool.and_eq_true] at h
  unfold Memory.write at hw
  split at hw
  · cases hw
    exact lookup_putAll x h.1
  · cases hw

end Sys2Proof.Machine
end

