-- ==== Sys2Proof/Laws/Keeps.lean ====
section
/-! SUPPORT. What every Transport call, every codec operation and every command body preserves: one lemma for each, from
what a predicate must survive. A claim about all states a rule can leave is one instance of the predicate. -/

namespace Sys2Proof.Machine

variable {α β : Type}

/-- What a predicate must survive for every Transport call of an Engine with the parameters `p`, and for what arrives
before every primitive, to keep it, and how they may stop. -/
structure OnLine (p : Params) (I : State → Prop) (E : Stop → State → Prop) : Prop where
  params : ∀ s, I s → s.params = p
  script : ∀ s, I s → I { s with script := s.script.tail }
  passed : ∀ s, I s → I s.passed
  queue : ∀ s b q, I s → I { s with line := { s.line with isOpen := b, rxq := q } }
  log : ∀ s e, (∀ b, e ≠ Event.tx b) → I s → I (s.log e)
  sent : ∀ s bytes, WireUnit p bytes → I s → I (s.log (.tx bytes))
  reset : ∀ s, I s → (s.moments.headD {}).reset = true → E .reset s.passed
  io : ∀ s, I s → E (.raised { kind := .io }) s
  /-- a write that failed after it had sent some of its bytes -/
  short : ∀ s bytes, (∃ unit, WireUnit p unit ∧ bytes <+: unit) → I s → E (.raised { kind := .io }) (s.log (.tx bytes))
  timeout : ∀ s, I s → E (.raised { kind := .timeout }) s

variable {p : Params} {I : State → Prop} {E : Stop → State → Prop}

/-! ## The Transport -/

theorem OnLine.receive (h : OnLine p I E) {s : State} (bytes : List Byte) (hs : I s) : I (s.receive bytes) :=
  h.queue s s.line.isOpen (s.line.rxq ++ bytes) hs

theorem OnLine.setOpen (h : OnLine p I E) {s : State} (b : Bool) (hs : I s) : I (s.setOpen b) :=
  h.queue s b s.line.rxq hs

theorem keeps_moment (h : OnLine p I E) : Keeps I E moment := by
  intro s hs
  rw [moment_eq]
  cases hr : (s.moments.headD {}).reset
  · exact ⟨h.passed s hs, trivial⟩
  · exact h.reset s hs hr

theorem keeps_primitive (h : OnLine p I E) {f : State → State} (hf : ∀ s, I s → I (f s)) : Keeps I E (primitive f) :=
  (keeps_moment h).bind fun _ _ => Keeps.update hf

/-- Register writes of which each keeps the predicate. -/
theorem keeps_writes (h : OnLine p I E) : ∀ {fs : List (State → State)}, (∀ f ∈ fs, ∀ s, I s → I (f s)) →
    Keeps I E (writes fs)
  | [], _ => Keeps.pure _ trivial
  | f :: _, hf => (keeps_primitive h (hf f (by simp))).bind fun _ _ => keeps_writes h fun g hg => hf g (by simp [hg])

/-- Register writes that keep the predicate once they are all made; an Engine reset may come behind any of them. -/
theorem keeps_group (h : OnLine p I E) {fs : List (State → State)} (ha : Aside fs) (hI : ∀ s, I s → I (s.wrote fs))
    (hr : ∀ s done, I s → done <+: fs → E .reset (s.wrote done)) : Keeps I E (writes fs) := by
  intro s hs
  have hk := writes_run h.passed (fs := fs) (pre := []) ha hs
  rw [show s.wrote [] = s from rfl] at hk
  cases hw : writes fs s with
  | ok a t => rw [hw] at hk; obtain ⟨u, hu, rfl⟩ := hk; exact ⟨hI u hu, trivial⟩
  | error w t => rw [hw] at hk; obtain ⟨rfl, u, done, hu, hd, rfl⟩ := hk; exact hr u done hu hd

/-- Register writes can be stopped by an Engine reset only. -/
theorem Keeps.writes_stops {E' : Stop → State → Prop} {fs : List (State → State)} (hk : Keeps I E (writes fs))
    (hE : ∀ s, E .reset s → E' .reset s) : Keeps I E' (writes fs) := by
  have hr : ∀ (fs : List (State → State)) (s : State) (w : Stop) (t : State), writes fs s = .error w t → w = .reset := by
    intro fs
    induction fs with
    | nil => intro s w t h; cases h
    | cons f r ih =>
      intro s w t h
      rw [writes] at h
      cases hp : primitive f s with
      | ok a u => rw [bind_ok hp] at h; exact ih u w t h
      | error v u =>
        rw [bind_error hp] at h
        cases h
        rw [primitive_eq] at hp
        split at hp
        · cases hp; rfl
        · cases hp
  intro s hs
  have h := hk s hs
  cases hw : writes fs s with
  | ok a t => rw [hw] at h; exact h
  | error w t =>
    obtain rfl := hr fs s w t hw
    rw [hw] at h
    exact hE t h

theorem keeps_raise (h : OnLine p I E) {e : Err} {Q : α → Prop} (he : ∀ s, I s → E (.raised e) s) :
    Keeps I E (raise e : Eng α) Q := (keeps_moment h).bind fun _ _ => Keeps.abort he

theorem keeps_transport (h : OnLine p I E) : Keeps I E transport :=
  (keeps_moment h).bind fun _ _ => Keeps.getState' fun s _ => by
    split
    · exact Keeps.pure _ trivial
    · exact Keeps.abort h.io

theorem keeps_nextTick (h : OnLine p I E) : Keeps I E nextTick := fun s hs => ⟨h.script s hs, trivial⟩

theorem keeps_control (h : OnLine p I E) {act : State → State} {ev : Event} (hact : ∀ s, I s → I (act s))
    (hev : ∀ b, ev ≠ .tx b) : Keeps I E (control act ev) := by
  refine (keeps_transport h).bind fun _ _ => (keeps_nextTick h).bind fun t _ => ?_
  split
  · exact Keeps.abort h.io
  · exact Keeps.update fun s hs => h.log _ _ hev (hact _ (h.receive _ hs))

theorem keeps_waitFor (h : OnLine p I E) (d : Delay) : Keeps I E (waitFor d) :=
  keeps_primitive h fun s hs => h.log _ _ (by simp) hs

theorem keeps_flush (h : OnLine p I E) : Keeps I E flush :=
  keeps_control h (fun s hs => h.queue s s.line.isOpen [] hs) (by simp)

theorem keeps_writeBytes (h : OnLine p I E) {bytes : List Byte} (hb : WireUnit p bytes) :
    Keeps I E (writeBytes bytes) := by
  refine (keeps_nextTick h).bind fun t _ => ?_
  split
  · intro s hs
    show E _ (if t.wrote = 0 then s else s.log (.tx (bytes.take t.wrote)))
    split
    · exact h.io s hs
    · exact h.short _ _ ⟨bytes, hb, List.take_prefix ..⟩ hs
  · exact Keeps.update fun s hs => h.sent _ _ hb (h.receive _ hs)

theorem keeps_readBytes (h : OnLine p I E) (want : Nat) : Keeps I E (readBytes want) (fun r => r.length ≤ want) := by
  refine (keeps_nextTick h).bind fun t _ => ?_
  split
  · exact Keeps.abort h.io
  · exact Keeps.bind (Keeps.update fun s hs => h.receive _ hs) fun _ _ s hs =>
      ⟨h.queue s s.line.isOpen _ hs, by simp [List.length_take]⟩

theorem keeps_recvLoop (h : OnLine p I E) : ∀ (fuel need : Nat) (acc : List Byte), need ≤ fuel →
    Keeps I E (recvLoop fuel need acc) (fun r => r.length = acc.length + need)
  | 0, need, acc, hf => Keeps.pure _ (by omega)
  | fuel + 1, need, acc, hf => by
    unfold recvLoop
    split
    · exact Keeps.pure _ (by omega)
    · refine (keeps_readBytes h need).bind fun r hr => ?_
      split
      · exact Keeps.abort h.timeout
      · next hn hne =>
        have hpos : 1 ≤ r.length := by
          cases r with
          | nil => simp at hne
          | cons => simp
        refine (keeps_recvLoop h fuel (need - r.length) (acc ++ r) (by omega)).weaken fun a ha => ?_
        simp at ha; omega

theorem keeps_readExact (h : OnLine p I E) (n : Nat) : Keeps I E (readExact n) (fun r => r.length = n) :=
  (keeps_recvLoop h n n [] (Nat.le_refl n)).weaken fun a ha => by simpa using ha

/-- `RecvExact(n)` gives exactly `n` bytes (R11, R92). -/
theorem keeps_recvExact (h : OnLine p I E) (n : Nat) : Keeps I E (recvExact n) (fun r => r.length = n) :=
  (keeps_transport h).bind fun _ _ => keeps_readExact h n

theorem keeps_recvRaw (h : OnLine p I E) (n : Nat) : Keeps I E (recvRaw n) (fun r => r.length = n) :=
  (keeps_recvExact h n).bind fun _ hr =>
    Keeps.bind (Keeps.update fun _ hs => h.log _ _ (by simp) hs) fun _ _ => Keeps.pure _ hr

theorem keeps_recvByte (h : OnLine p I E) : Keeps I E recvByte :=
  (keeps_transport h).bind fun _ _ => (keeps_readBytes h 1).bind fun r _ =>
    Keeps.bind (Keeps.update fun _ hs => h.log _ _ (by cases r <;> simp) hs) fun _ _ => Keeps.pure _ trivial

theorem keeps_send (h : OnLine p I E) {bytes : List Byte} (hb : WireUnit p bytes) : Keeps I E (send bytes) := by
  refine (keeps_transport h).bind fun _ _ => (keeps_writeBytes h hb).bind fun _ _ => Keeps.getState' fun s _ => ?_
  split
  · exact (keeps_readExact h _).bind fun _ _ => Keeps.update fun _ hs => h.log _ _ (by simp) hs
  · exact Keeps.pure _ trivial

theorem keeps_memRead (h : OnLine p I E) {b : Buf} {off n : Nat}
    (hb : (∀ s, I s → off + n ≤ (s.buffer b).size) ∨ ∀ s, I s → E (.faulted (.beyondBuffer b)) s) :
    Keeps I E (memRead b off n) (fun r => r.length = n) :=
  (keeps_moment h).bind fun _ _ => Keeps.getState' fun s hs => by
    split
    · exact Keeps.pure _ (length_slice ..)
    · next hn => exact fun t ht => hb.resolve_left (fun hc => hn (hc s hs)) t ht

/-! ## The codec -/

/-- The errors decode raises stop a rule as `E` allows (R89). -/
def CodecStops (I : State → Prop) (E : Stop → State → Prop) : Prop :=
  ∀ k, k = .formatError ∨ k = .lengthMismatch ∨ k = .checksumError → ∀ s, I s → E (.raised { kind := k }) s

theorem checkHeader_kind {p : Params} {n : Nat} {hdr : List Byte} {k : ErrKind} (h : checkHeader p n hdr = some k) :
    k = .formatError ∨ k = .lengthMismatch ∨ k = .checksumError := by
  unfold checkHeader at h
  split at h
  · cases h; simp
  · split at h
    · cases h; simp
    · split at h
      · cases h; simp
      · cases h

theorem checkRest_kind {p : Params} {len : Byte} {n : Nat} {rest : List Byte} {k : ErrKind}
    (h : checkRest p len n rest = some k) : k = .formatError ∨ k = .lengthMismatch ∨ k = .checksumError := by
  unfold checkRest at h
  split at h
  · cases h; simp
  · split at h
    · cases h; simp
    · cases h

/-- A decoded payload is as long as its rule expects (R89). -/
theorem keeps_decodeResponse (h : OnLine p I E) (hc : CodecStops I E) (n : Nat) :
    Keeps I E (decodeResponse n) (fun pl => pl.length = n) := by
  refine (keeps_recvExact h 2).bind fun hdr _ => Keeps.getState' fun s _ => ?_
  split
  · next k hk => exact keeps_raise h (hc k (checkHeader_kind hk))
  · refine (keeps_recvExact h (n + 2)).bind fun rest hr => Keeps.getState' fun s _ => ?_
    split
    · next k hk => exact keeps_raise h (hc k (checkRest_kind hk))
    · refine Keeps.bind (Keeps.update fun _ hs => h.log _ _ (by simp) hs) fun _ _ => Keeps.pure _ ?_
      simp only [List.length_take]; omega

theorem keeps_exchange (h : OnLine p I E) (hc : CodecStops I E) (o : Opcode) {pl : List Byte} (hl : pl.length ≤ 255)
    (n : Nat) : Keeps I E (exchange o pl n) (fun r => r.length = n) := by
  refine Keeps.getState' fun s hs => Keeps.bind (Q := fun _ => True) ?_ fun _ _ => keeps_decodeResponse h hc n
  have : encodeCommand s.params o.byte pl = .ok (commandBytes p o.byte pl) := by
    simp [encodeCommand, h.params s hs, Config.cmdPayloadMax]; omega
  rw [this]
  exact keeps_send h (.command o pl hl)

theorem keeps_statusCheck (h : OnLine p I E) (hst : ∀ s b, I s → I (s.setStatus b))
    (he : ∀ b, b ≠ Config.ack → ∀ s, I s → E (.raised { kind := .deviceRejected, status := some b }) s) (pl : List Byte) :
    Keeps I E (statusCheck pl) :=
  Keeps.bind (keeps_primitive h fun s hs => hst s _ hs) fun _ _ => by
    split
    · exact Keeps.pure _ trivial
    · exact keeps_raise h (he _ ‹_›)

/-- How a status check may stop (R95). -/
def RejectStops (I : State → Prop) (E : Stop → State → Prop) : Prop :=
  ∀ b, b ≠ Config.ack → ∀ s, I s → E (.raised { kind := .deviceRejected, status := some b }) s

theorem keeps_statusExchange (h : OnLine p I E) (hc : CodecStops I E) (hst : ∀ s b, I s → I (s.setStatus b))
    (he : RejectStops I E) (o : Opcode) {pl : List Byte} (hl : pl.length ≤ 255) : Keeps I E (statusExchange o pl) :=
  (keeps_exchange h hc o hl 1).bind fun r _ => keeps_statusCheck h hst he r

theorem keeps_sendData (h : OnLine p I E) {bytes : List Byte} (h0 : 1 ≤ bytes.length) (hl : bytes.length ≤ 256)
    (last : Bool) : Keeps I E (sendData bytes last) := by
  refine Keeps.getState' fun s hs => ?_
  have : encodeData s.params bytes last = .ok (dataBytes p bytes last) := by
    simp [encodeData, h.params s hs, Config.dataPayloadMax]
    split
    · omega
    · split
      · next hn => subst hn; simp at h0
      · rfl
  rw [this]
  exact keeps_send h (.data bytes last h0 hl)

/-- How a data frame's response may stop a transfer (R107, R108). -/
def FrameStops (I : State → Prop) (E : Stop → State → Prop) (kind : ErrKind) (a : Addr) : Prop :=
  ∀ s, I s → E (.raised { kind := kind, addr := some a }) s

theorem keeps_frameCheck (h : OnLine p I E) (hst : ∀ s b, I s → I (s.setStatus b)) {kind : ErrKind} {a : Addr}
    (he : FrameStops I E kind a) (pl : List Byte) : Keeps I E (frameCheck kind a pl) :=
  Keeps.bind (keeps_primitive h fun s hs => hst s _ hs) fun _ _ => by
    split
    · exact Keeps.pure _ trivial
    · exact keeps_raise h he

/-- Frames as a transfer may send them: each gives 1 to 256 bytes. -/
def FramesKeep (I : State → Prop) (E : Stop → State → Prop) (frames : List (Eng (List Byte))) : Prop :=
  ∀ read ∈ frames, Keeps I E read fun c => 1 ≤ c.length ∧ c.length ≤ 256

theorem keeps_operandFrames (bytes : List Byte) : FramesKeep I E (operandFrames bytes) := by
  intro read hr
  obtain ⟨c, hc, rfl⟩ := List.mem_map.1 hr
  exact Keeps.pure c (framesOf_bounds hc)

/-- Frames read from a buffer: its bounds hold, or reading beyond it stops as `E` allows (R45, R106). -/
theorem keeps_bufferFrames (h : OnLine p I E) {b : Buf} {off bs : Nat}
    (hb : (∀ s, I s → off + bs ≤ (s.buffer b).size) ∨ ∀ s, I s → E (.faulted (.beyondBuffer b)) s) :
    FramesKeep I E (bufferFrames b off bs) := by
  intro read hr
  obtain ⟨k, hk, rfl⟩ := List.mem_map.1 hr
  have hk' : k < (bs + 255) / 256 := List.mem_range.1 hk
  refine (keeps_memRead h (hb.imp_left fun hc s hs => ?_)).weaken fun c hc => by omega
  have := hc s hs
  omega

theorem keeps_stream (h : OnLine p I E) (hc : CodecStops I E) (hst : ∀ s b, I s → I (s.setStatus b))
    (hf : ∀ s k, I s → I (s.setFrame k)) {mode : StreamMode} {a : Addr}
    (he : FrameStops I E mode.error a) : ∀ (k : Nat) (frames : List (Eng (List Byte))),
    FramesKeep I E frames → Keeps I E (stream mode a k frames)
  | _, [], _ => Keeps.pure _ trivial
  | k, read :: r, hb => by
    refine Keeps.bind (Q := fun _ => True) ?_ fun _ _ =>
      keeps_stream h hc hst hf he (k + 1) r fun d hd => hb d (by simp [hd])
    refine Keeps.bind (keeps_primitive h fun s hs => hf s k hs) fun _ _ => (hb read (by simp)).bind fun c hc' =>
      (keeps_sendData h hc'.1 hc'.2 _).bind fun _ _ => Keeps.bind (Q := fun _ => True) ?_ fun _ _ =>
        (keeps_decodeResponse h hc 2).bind fun pl _ => keeps_frameCheck h hst he pl
    cases mode
    · exact Keeps.pure _ trivial
    · exact keeps_waitFor h _

/-! ## The framed commands -/

/-- What every command writes besides the line: `LAST_STATUS`, and how it may stop. -/
structure OnStatus (p : Params) (I : State → Prop) (E : Stop → State → Prop) : Prop extends OnLine p I E where
  status : ∀ s b, I s → I (s.setStatus b)
  codec : CodecStops I E
  reject : RejectStops I E

/-- What the commands that stream write: `FIDX` as well. -/
structure OnCommand (p : Params) (I : State → Prop) (E : Stop → State → Prop) : Prop extends OnStatus p I E where
  frame : ∀ s k, I s → I (s.setFrame k)

theorem keeps_resetBody (h : OnStatus p I E) : Keeps I E resetBody :=
  keeps_statusExchange h.toOnLine h.codec h.status h.reject _ (by simp)

theorem keeps_eraseBody (h : OnStatus p I E) (a : Addr) : Keeps I E (eraseBody a) :=
  keeps_statusExchange h.toOnLine h.codec h.status h.reject _ (by simp)

theorem keeps_baudSetBody (h : OnStatus p I E) (hb : ∀ f v, Keeps I E (writes (modeWrites f v)))
    (code volt : Byte) : Keeps I E (baudSetBody code volt) :=
  (keeps_exchange h.toOnLine h.codec _ (by simp) 3).bind fun pl _ =>
    (keeps_statusCheck h.toOnLine h.status h.reject pl).bind fun _ _ => hb _ _

theorem keeps_signatureBody (h : OnStatus p I E)
    (hi : ∀ d, d.length = 22 → Keeps I E (writes (identityWrites d))) : Keeps I E signatureBody :=
  (keeps_statusExchange h.toOnLine h.codec h.status h.reject _ (by simp)).bind fun _ _ =>
    (keeps_decodeResponse h.toOnLine h.codec 22).bind fun d hd => hi d hd

theorem length_blankPayload (p : Params) (s e : Addr) : (blankPayload p s e).length ≤ 255 := by
  simp only [blankPayload, List.length_append, length_rangePayload]
  cases p.blankCheckOpt <;> simp

theorem keeps_blankBody (h : OnStatus p I E) (hn : ∀ s b, I s → I (s.setNotBlank b)) (a e : Addr) :
    Keeps I E (blankBody a e) := by
  refine Keeps.getState' fun s _ => (keeps_exchange h.toOnLine h.codec _ (length_blankPayload _ a e) 1).bind
    fun pl _ => Keeps.bind (keeps_primitive h.toOnLine fun s hs => h.status s _ hs) fun _ _ => ?_
  split
  · exact Keeps.bind (keeps_primitive h.toOnLine fun s hs => hn s _ hs) fun _ _ => Keeps.pure _ trivial
  · next hb =>
    refine keeps_raise h.toOnLine (h.reject _ ?_)
    intro hc
    simp [blankAnswer, hc] at hb

theorem keeps_blankUnit (h : OnStatus p I E) (hn : ∀ s b, I s → I (s.setNotBlank b)) (a e : Addr) :
    Keeps I E (blankUnit a e) := (keeps_blankBody h hn a e).bind fun _ _ => Keeps.pure _ trivial

theorem keeps_checksumBody (h : OnStatus p I E)
    (hk : ∀ s v, I s → I (s.setCksum v)) (a e : Addr) :
    Keeps I E (checksumBody a e) :=
  (keeps_statusExchange h.toOnLine h.codec h.status h.reject _ (by simp)).bind fun _ _ =>
    (keeps_decodeResponse h.toOnLine h.codec 2).bind fun _ _ => keeps_primitive h.toOnLine fun s hs => hk s _ hs

theorem keeps_programBody (h : OnCommand p I E) (a e : Addr) (he : FrameStops I E .programFailed a)
    {frames : List (Eng (List Byte))} (hb : FramesKeep I E frames) : Keeps I E (programBody a e frames) :=
  (keeps_statusExchange h.toOnLine h.codec h.status h.reject _ (by simp)).bind fun _ _ =>
    (keeps_stream h.toOnLine h.codec h.status h.frame (mode := .program) he 0 _ hb).bind fun _ _ =>
      (keeps_waitFor h.toOnLine _).bind fun _ _ => (keeps_decodeResponse h.toOnLine h.codec 1).bind fun pl _ =>
        Keeps.bind (keeps_primitive h.toOnLine fun s hs => h.status s _ hs) fun _ _ => by
          split
          · exact Keeps.pure _ trivial
          · exact keeps_raise h.toOnLine he

theorem keeps_verifyBody (h : OnCommand p I E) (a e : Addr) (he : FrameStops I E .mismatchError a)
    {frames : List (Eng (List Byte))} (hb : FramesKeep I E frames) : Keeps I E (verifyBody a e frames) :=
  (keeps_statusExchange h.toOnLine h.codec h.status h.reject _ (by simp)).bind fun _ _ =>
    keeps_stream h.toOnLine h.codec h.status h.frame (mode := .verify) he 0 _ hb

end Sys2Proof.Machine
end

