-- ==== Sys2Proof/Laws/Line.lean ====
section
/-! SUPPORT. What the Transport calls and the codec answer when the line does as the terms of Safety.lean say: one lemma
for each operation, its end state written with `State.onLine`. -/

namespace Sys2Proof.Machine

/-- A primitive of a closed Transport, while nothing is refused and no reset comes (R169). -/
theorem transport_closed {s : State} (h : s.line.isOpen = false) (hu : s.undisturbed) :
    transport s = .error (.raised { kind := .io }) { s with moments := s.moments.tail } := by
  have hm : (s.moments.headD {}).reset = false ∧ (s.moments.headD {}).busy = [] := by
    cases hs : s.moments with
    | nil => exact ⟨rfl, rfl⟩
    | cons a l => exact hu a (by simp [hs])
  have hp : s.passed = { s with moments := s.moments.tail } := by
    simp only [State.passed, hm.2, List.foldl_nil]
    split
    · exact congrArg (fun b => { s with moments := s.moments.tail, line := { s.line with isOpen := b } }) h.symm
    · rfl
  unfold transport
  rw [bind_ok (show moment s = .ok () _ by rw [moment_eq, hm.1, hp]; rfl), getState_bind, if_neg (by simp [h])]
  rfl

/-! ## The terms of a line -/

@[simp] theorem onLine_isOpen (s : State) (x : List Tick) (q : List Byte) (e : List Event) :
    (s.onLine x q e).line.isOpen = s.line.isOpen := rfl
@[simp] theorem onLine_rxq (s : State) (x : List Tick) (q : List Byte) (e : List Event) :
    (s.onLine x q e).line.rxq = q := rfl

/-- The first call of a script. -/
theorem nextTick_cons {s : State} {t : Tick} {rest : List Tick} (hs : s.script = t :: rest) :
    nextTick s = .ok t { s with script := rest } := by
  unfold nextTick
  rw [hs]
  rfl

theorem quiet_eq : quiet = delivers [] := rfl

theorem readBytes_delivers {s : State} {bytes : List Byte} {rest : List Tick} (want : Nat) (hs : s.script = delivers bytes :: rest) :
    readBytes want s = .ok ((s.line.rxq ++ bytes).take want) (s.onLine rest ((s.line.rxq ++ bytes).drop want) []) := by
  unfold readBytes
  rw [bind_ok (nextTick_cons hs)]
  simp [delivers, State.onLine]
  rfl

/-- One read that finds all it wants is the whole of it (R92). -/
theorem readExact_delivers {s : State} {bytes a b : List Byte} {rest : List Tick}
    (hs : s.script = delivers bytes :: rest) (ha : a ≠ []) (hq : s.line.rxq ++ bytes = a ++ b) :
    readExact a.length s = .ok a (s.onLine rest b []) := by
  have hr := readBytes_delivers a.length hs
  rw [hq, List.take_left, List.drop_left] at hr
  obtain ⟨n, hn⟩ : ∃ n, a.length = n + 1 := ⟨a.length - 1, by have := List.length_pos_iff.2 ha; omega⟩
  unfold readExact
  rw [hn] at hr ⊢
  rw [recvLoop, if_neg (by omega), bind_ok hr]
  simp only [List.isEmpty_iff, ha, if_false, List.nil_append, hn, Nat.sub_self]
  cases n <;> simp [recvLoop] <;> rfl

theorem recvExact_delivers {s : State} {bytes a b : List Byte} {rest : List Tick} (hm : s.calm)
    (ho : s.line.isOpen = true) (hs : s.script = delivers bytes :: rest) (ha : a ≠ [])
    (hq : s.line.rxq ++ bytes = a ++ b) : recvExact a.length s = .ok a (s.onLine rest b []) :=
  (transport_bind hm ho _).trans (readExact_delivers hs ha hq)

theorem recvExact_quiet {s : State} {a b : List Byte} {rest : List Tick} (hm : s.calm) (ho : s.line.isOpen = true)
    (hs : s.script = quiet :: rest) (ha : a ≠ []) (hq : s.line.rxq = a ++ b) :
    recvExact a.length s = .ok a (s.onLine rest b []) :=
  recvExact_delivers (bytes := []) hm ho hs ha (by simpa using hq)

/-- Reads at the first of which nothing is there (R92). -/
theorem readExact_nothing {s : State} {n : Nat} {rest : List Tick} (hn : 1 ≤ n) (hq : s.line.rxq = [])
    (hs : s.script = quiet :: rest) :
    readExact n s = .error (.raised { kind := .timeout }) (s.onLine rest [] []) := by
  obtain ⟨k, rfl⟩ : ∃ k, n = k + 1 := ⟨n - 1, by omega⟩
  unfold readExact
  rw [recvLoop, if_neg (by omega), bind_ok (readBytes_delivers (bytes := []) (k + 1) hs)]
  simp [hq]

/-! ## A silent line -/

/-- A read on a line that stays silent gives what the queue holds. -/
theorem readBytes_silent {s : State} (want : Nat) (hs : s.script = []) :
    readBytes want s = .ok (s.line.rxq.take want) (s.onLine [] (s.line.rxq.drop want) []) := by
  have h : nextTick s = .ok quiet { s with script := [] } := by
    unfold nextTick
    rw [hs]
    rfl
  unfold readBytes
  rw [bind_ok h]
  refine (update_bind ..).trans ?_
  simp [quiet, State.onLine, State.receive, dequeue, State.setQueue]

theorem recvLoop_zero (fuel : Nat) (acc : List Byte) (s : State) : recvLoop fuel 0 acc s = .ok acc s := by
  cases fuel <;> simp [recvLoop] <;> rfl

/-- `RecvExact` on a line that stays silent: what it wants is in the queue, or it times out and the queue is empty
(R92). -/
theorem recvExact_silent {s : State} {n : Nat} (hn : 2 ≤ n) (hm : s.calm) (ho : s.line.isOpen = true)
    (hs : s.script = []) :
    recvExact n s = if n ≤ s.line.rxq.length then .ok (s.line.rxq.take n) (s.onLine [] (s.line.rxq.drop n) [])
      else .error (.raised { kind := .timeout }) (s.onLine [] [] []) := by
  refine (transport_bind hm ho _).trans ?_
  unfold readExact
  obtain ⟨k, rfl⟩ : ∃ k, n = k + 2 := ⟨n - 2, by omega⟩
  rw [show recvLoop (k + 2) (k + 2) [] = (do
      let r ← readBytes (k + 2)
      if r.isEmpty then abort { kind := .timeout } else recvLoop (k + 1) (k + 2 - r.length) ([] ++ r)) from by
    rw [recvLoop, if_neg (by omega)]]
  rw [bind_ok (readBytes_silent _ hs)]
  by_cases hq : s.line.rxq = []
  · simp [hq]
  rw [if_neg (by cases h : s.line.rxq <;> simp_all)]
  by_cases hl : k + 2 ≤ s.line.rxq.length
  · rw [if_pos hl, show k + 2 - (s.line.rxq.take (k + 2)).length = 0 by simp; omega, recvLoop_zero]
    simp
  · rw [if_neg hl, recvLoop, if_neg (by simp; omega)]
    refine (bind_ok (readBytes_silent (s := s.onLine [] (s.line.rxq.drop (k + 2)) []) _ rfl)).trans ?_
    have : s.line.rxq.drop (k + 2) = [] := by simp; omega
    simp [this]

theorem recvRaw_delivers {s : State} {bytes a b : List Byte} {rest : List Tick} (hm : s.calm)
    (ho : s.line.isOpen = true)
    (hs : s.script = delivers bytes :: rest) (ha : a ≠ []) (hq : s.line.rxq ++ bytes = a ++ b) :
    recvRaw a.length s = .ok a (s.onLine rest b [.rxRaw a]) := by
  unfold recvRaw
  rw [bind_ok (recvExact_delivers hm ho hs ha hq), update_bind]
  simp [State.onLine, State.log]
  rfl

theorem writeBytes_delivers {s : State} {bytes reply : List Byte} {rest : List Tick} (hs : s.script = delivers reply :: rest) :
    writeBytes bytes s = .ok () (s.onLine rest (s.line.rxq ++ reply) [.tx bytes]) := by
  unfold writeBytes
  rw [bind_ok (nextTick_cons hs)]
  simp [delivers, State.onLine, State.log, State.receive]

/-- `Send` (R93): the bytes leave, their echo is dropped, and what the Target answered is in the queue. -/
theorem send_ok {s : State} {bytes echo reply : List Byte} {rest : List Tick} (hc : s.lineClear)
    (hn : bytes ≠ []) (hl : echo.length = bytes.length) (hs : s.script = sendTicks s.params echo reply ++ rest) :
    send bytes s = .ok () (s.onLine rest reply (sendEvents s.params bytes)) := by
  obtain ⟨ho, hq, hm⟩ := hc
  refine (transport_bind hm ho _).trans ?_
  cases he : s.params.echo
  · simp only [sendTicks, he, Bool.false_eq_true, if_false, List.cons_append, List.nil_append] at hs
    rw [bind_ok (writeBytes_delivers hs), getState_bind]
    simp [he, hq, sendEvents]
    rfl
  · simp only [sendTicks, he, if_true, List.cons_append, List.nil_append] at hs
    rw [bind_ok (writeBytes_delivers hs), getState_bind]
    simp only [onLine_params, he, if_true]
    have hne : echo ≠ [] := by
      intro h0; rw [h0] at hl; exact hn (List.eq_nil_of_length_eq_zero hl.symm)
    have hr := readExact_delivers (bytes := []) (s := s.onLine (quiet :: rest) (s.line.rxq ++ (echo ++ reply)) [.tx bytes]) (b := reply)
      (by rfl) hne (by simp [hq])
    rw [← hl, bind_ok hr, update_run]
    simp [State.onLine, State.log, sendEvents, he, hl]

@[simp] theorem byteAt_zero (a : Byte) (r : List Byte) : byteAt (a :: r) 0 = a := rfl
@[simp] theorem byteAt_one (a b : Byte) (r : List Byte) : byteAt (a :: b :: r) 1 = b := rfl
@[simp] theorem byteAt_two (a b c : Byte) (r : List Byte) : byteAt (a :: b :: c :: r) 2 = c := rfl

theorem byteAt_append (l : List Byte) (r : List Byte) (i : Nat) : byteAt (l ++ r) (l.length + i) = byteAt r i := by
  simp only [byteAt, List.getD_eq_getElem?_getD]
  rw [List.getElem?_append_right (Nat.le_add_right ..), Nat.add_sub_cancel_left]

/-- A response frame passes the checks of R89. -/
theorem checkRest_dataBytes (p : Params) (pl : List Byte) (last : Bool) :
    checkRest p (BitVec.ofNat 8 pl.length) pl.length (pl ++ [cks (BitVec.ofNat 8 pl.length :: pl), endMarker p last]) =
      none := by
  have h0 := byteAt_append pl [cks (BitVec.ofNat 8 pl.length :: pl), endMarker p last] 0
  have h1 := byteAt_append pl [cks (BitVec.ofNat 8 pl.length :: pl), endMarker p last] 1
  simp only [Nat.add_zero, byteAt_zero, byteAt_one] at h0 h1
  unfold checkRest
  rw [h1, h0, List.take_left, if_neg, if_neg]
  · simp [frame_sum]
  · cases last <;> simp [endMarker]

/-- `decode_response` gives back the payload of a frame made for it, and leaves what follows it (R89, R90). -/
theorem decodeResponse_ok {s : State} {pl more : List Byte} (last : Bool) {rest : List Tick} {n : Nat} (hm : s.calm)
    (ho : s.line.isOpen = true) (hn : pl.length = n) (h0 : 1 ≤ pl.length) (h : pl.length ≤ 256) {bytes : List Byte}
    (hs : s.script = delivers bytes :: quiet :: rest)
    (hq : s.line.rxq ++ bytes = dataBytes s.params pl last ++ more) :
    decodeResponse n s = .ok pl (s.onLine rest more [.rxResp pl]) := by
  subst hn
  have hd : dataBytes s.params pl last = [s.params.stx, BitVec.ofNat 8 pl.length] ++
      (pl ++ [cks (BitVec.ofNat 8 pl.length :: pl), endMarker s.params last]) := by simp [dataBytes]
  rw [hd, List.append_assoc] at hq
  unfold decodeResponse
  have h2 := recvExact_delivers hm ho hs (a := [s.params.stx, BitVec.ofNat 8 pl.length]) (by simp) hq
  rw [show ([s.params.stx, BitVec.ofNat 8 pl.length] : List Byte).length = 2 from rfl] at h2
  rw [bind_ok h2, getState_bind]
  have hh : checkHeader s.params pl.length [s.params.stx, BitVec.ofNat 8 pl.length] = none := by
    simp [checkHeader, declen_ofNat h0 h, Config.maxRespLen]; omega
  simp only [onLine_params, hh]
  have h3 := recvExact_quiet (s := s.onLine (quiet :: rest)
    ((pl ++ [cks (BitVec.ofNat 8 pl.length :: pl), endMarker s.params last]) ++ more) []) hm ho rfl
    (a := pl ++ [cks (BitVec.ofNat 8 pl.length :: pl), endMarker s.params last]) (by simp) rfl
  rw [show (pl ++ [cks (BitVec.ofNat 8 pl.length :: pl), endMarker s.params last]).length = pl.length + 2 by simp] at h3
  rw [bind_ok h3, getState_bind]
  simp only [onLine_params, byteAt_one, checkRest_dataBytes, update_bind, List.take_left, onLine_onLine]
  simp [State.onLine, State.log]
  rfl

theorem encodeCommand_ok (p : Params) (opc : Byte) {pl : List Byte} (h : pl.length ≤ 255) :
    encodeCommand p opc pl = .ok (commandBytes p opc pl) := by
  simp [encodeCommand, Config.cmdPayloadMax]; omega

theorem encodeData_ok (p : Params) {pl : List Byte} (last : Bool) (h0 : 1 ≤ pl.length) (h : pl.length ≤ 256) :
    encodeData p pl last = .ok (dataBytes p pl last) := by
  unfold encodeData
  rw [if_neg (by simp [Config.dataPayloadMax]; omega), if_neg (by omega)]

/-- `exchange` (R94). -/
theorem exchange_ok {s : State} {o : Opcode} {pl echo r more : List Byte} (last : Bool) {rest : List Tick} {n : Nat}
    (hc : s.lineClear) (hl : pl.length ≤ 255) (he : echo.length = pl.length + 5) (hn : r.length = n) (h0 : 1 ≤ r.length)
    (h : r.length ≤ 256)
    (hs : s.script = exchangeTicks s.params echo (dataBytes s.params r last ++ more) ++ rest) :
    exchange o pl n s =
      .ok r (s.onLine rest more (exchangeEvents s.params (commandBytes s.params o.byte pl) r)) := by
  unfold exchange
  rw [getState_bind, encodeCommand_ok _ _ hl]
  have h1 := send_ok (bytes := commandBytes s.params o.byte pl) (echo := echo)
    (reply := dataBytes s.params r last ++ more) (rest := quiet :: quiet :: rest) hc
    (by simp [commandBytes]) (by simp [he]) (by simpa [exchangeTicks] using hs)
  rw [bind_ok (show sendFrame (.ok (commandBytes s.params o.byte pl)) s = _ from h1)]
  rw [decodeResponse_ok (s := s.onLine (quiet :: quiet :: rest) (dataBytes s.params r last ++ more) _)
    (bytes := []) (more := more) last hc.2.2 hc.1 hn h0 h rfl (by simp)]
  simp [exchangeEvents]

/-- `status_exchange` answered by ACK (R81, R95). -/
theorem statusExchange_ok {s : State} {o : Opcode} {pl echo more : List Byte} {last : Bool} {rest : List Tick}
    (hc : s.lineClear) (hl : pl.length ≤ 255) (he : echo.length = pl.length + 5)
    (hs : s.script = exchangeTicks s.params echo (dataBytes s.params [Config.ack] last ++ more) ++ rest) :
    statusExchange o pl s =
      .ok () ((s.onLine rest more
        (exchangeEvents s.params (commandBytes s.params o.byte pl) [Config.ack])).setStatus Config.ack) := by
  unfold statusExchange
  rw [bind_ok (exchange_ok (r := [Config.ack]) (n := 1) last hc hl he rfl (by simp) (by simp) hs)]
  exact primitive_bind (by exact hc.2.2) _ _

/-- `status_exchange` answered by another status (R73, R95). -/
theorem statusExchange_rejected {s : State} {o : Opcode} {pl echo more : List Byte} {b : Byte} {last : Bool}
    {rest : List Tick} (hc : s.lineClear) (hl : pl.length ≤ 255) (he : echo.length = pl.length + 5)
    (hb : b ≠ Config.ack)
    (hs : s.script = exchangeTicks s.params echo (dataBytes s.params [b] last ++ more) ++ rest) :
    statusExchange o pl s =
      .error (.raised { kind := .deviceRejected, status := some b }) ((s.onLine rest more
        (exchangeEvents s.params (commandBytes s.params o.byte pl) [b])).setStatus b) := by
  unfold statusExchange
  rw [bind_ok (exchange_ok (r := [b]) (n := 1) last hc hl he rfl (by simp) (by simp) hs)]
  refine (primitive_bind (by exact hc.2.2) _ _).trans ?_
  rw [if_neg (by simpa using hb)]
  exact raise_calm (by exact hc.2.2) _

/-- A data frame leaves (R86, R93). -/
theorem sendData_ok {s : State} {bytes echo reply : List Byte} {last : Bool} {rest : List Tick} (hc : s.lineClear)
    (h0 : 1 ≤ bytes.length) (h : bytes.length ≤ 256) (he : echo.length = bytes.length + 4)
    (hs : s.script = sendTicks s.params echo reply ++ rest) :
    sendData bytes last s = .ok () (s.onLine rest reply (sendEvents s.params (dataBytes s.params bytes last))) := by
  unfold sendData
  rw [getState_bind, encodeData_ok _ _ h0 h]
  exact send_ok hc (by simp [dataBytes]) (by simp [he]) hs

end Sys2Proof.Machine
end

