-- ==== Sys2Proof/Laws/Bodies.lean ====
section
/-! SUPPORT. What the body of each command, of a transfer and of a block answers when the line does as the terms of
Safety.lean say. -/

namespace Sys2Proof.Machine

variable {f : List Byte → List Byte} {s : State} {rest : List Tick}

/-! ## Answered exchanges -/

@[simp] theorem answered_answered (s : State) (x y : List Tick) (e g : List Event) (b c : Byte) :
    (s.answered x e b).answered y g c = s.answered y (e ++ g) c := by
  simp [State.answered, State.onLine, State.setStatus]

@[simp] theorem answered_onLine (s : State) (x y : List Tick) (e g : List Event) (b : Byte) :
    (s.answered x e b).onLine y [] g = s.answered y (e ++ g) b := by
  simp [State.answered, State.onLine, State.setStatus]

@[simp] theorem onLine_answered (s : State) (x y : List Tick) (q : List Byte) (e g : List Event) (b : Byte) :
    (s.onLine x q e).answered y g b = s.answered y (e ++ g) b := by
  simp [State.answered, State.onLine, State.setStatus]

@[simp] theorem setStatus_answered (s : State) (x : List Tick) (e : List Event) (b c : Byte) :
    (s.answered x e b).setStatus c = s.answered x e c := rfl

@[simp] theorem setStatus_onLine (s : State) (x : List Tick) (e : List Event) (b : Byte) :
    (s.onLine x [] e).setStatus b = s.answered x e b := rfl

@[simp] theorem setFrame_answered (s : State) (x : List Tick) (e : List Event) (b : Byte) (k : Nat) :
    (s.setFrame k).answered x e b = (s.answered x e b).setFrame k := rfl

@[simp] theorem setFrame_setFrame (s : State) (k l : Nat) : (s.setFrame k).setFrame l = s.setFrame l := rfl

@[simp] theorem setFrame_onLine (s : State) (x : List Tick) (q : List Byte) (e : List Event) (k : Nat) :
    (s.setFrame k).onLine x q e = (s.onLine x q e).setFrame k := rfl

@[simp] theorem log_onLine (s : State) (x : List Tick) (q : List Byte) (e : List Event) (v : Event) :
    (s.onLine x q e).log v = s.onLine x q (e ++ [v]) := by
  simp [State.onLine, State.log]

@[simp] theorem log_answered (s : State) (x : List Tick) (e : List Event) (b : Byte) (v : Event) :
    (s.answered x e b).log v = s.answered x (e ++ [v]) b := by
  simp [State.answered, State.onLine, State.log, State.setStatus]

@[simp] theorem log_setFrame (s : State) (k : Nat) (v : Event) : (s.setFrame k).log v = (s.log v).setFrame k := rfl

theorem lineClear_onLine (h : s.lineClear) (x : List Tick) (e : List Event) : (s.onLine x [] e).lineClear := ⟨h.1, rfl, h.2.2⟩

theorem lineClear_answered (h : s.lineClear) (x : List Tick) (e : List Event) (b : Byte) :
    (s.answered x e b).lineClear := ⟨h.1, rfl, h.2.2⟩

theorem lineClear_setFrame (h : s.lineClear) (k : Nat) : (s.setFrame k).lineClear := h

/-- Sending a frame and reading the response it is answered with, with nothing left over. -/
theorem exchange_answered {o : Opcode} {q pl : List Byte} {n : Nat} (hc : s.lineClear) (hf : EchoLike f)
    (hq : q.length ≤ 255) (hn : pl.length = n) (h0 : 1 ≤ pl.length) (h : pl.length ≤ 256)
    (hs : s.script = commandTicks s.params f o q pl ++ rest) :
    exchange o q n s = .ok pl (s.onLine rest [] (commandEvents s.params o q pl)) :=
  exchange_ok (echo := f (commandBytes s.params o.byte q)) (more := []) true hc hq (by rw [hf _]; simp) hn h0 h (by simpa [commandTicks, talk] using hs)

theorem statusExchange_answered {o : Opcode} {q : List Byte} {b : Byte} (hc : s.lineClear) (hf : EchoLike f)
    (hq : q.length ≤ 255) (hs : s.script = commandTicks s.params f o q [b] ++ rest) :
    statusExchange o q s =
      if b = Config.ack then .ok () (s.answered rest (commandEvents s.params o q [b]) b)
      else .error (.raised { kind := .deviceRejected, status := some b })
        (s.answered rest (commandEvents s.params o q [b]) b) := by
  unfold statusExchange
  rw [bind_ok (exchange_answered (n := 1) hc hf hq rfl (by simp) (by simp) hs)]
  unfold statusCheck
  exact (primitive_bind (by exact hc.2.2) ..).trans (check_calm (by exact hc.2.2) _)

/-- A response that arrives at the read. -/
theorem decodeResponse_answered {pl : List Byte} {n : Nat} (hc : s.lineClear) (hn : pl.length = n)
    (h0 : 1 ≤ pl.length) (h : pl.length ≤ 256)
    (hs : s.script = delivers (dataBytes s.params pl true) :: quiet :: rest) :
    decodeResponse n s = .ok pl (s.onLine rest [] [.rxResp pl]) :=
  decodeResponse_ok (more := []) true hc.2.2 hc.1 hn h0 h hs (by simp [hc.2])

/-- Two bytes joined, the first the more significant. -/
theorem join_eq (a b : Byte) : a.setWidth 16 <<< 8 ||| b.setWidth 16 = a ++ b := by
  have ha := a.isLt
  have hb := b.isLt
  apply BitVec.eq_of_toNat_eq
  show _ = (a ++ b : BitVec (8 + 8)).toNat
  rw [BitVec.toNat_append, BitVec.toNat_or, BitVec.toNat_shiftLeft, BitVec.toNat_setWidth, BitVec.toNat_setWidth,
    Nat.mod_eq_of_lt (a := a.toNat) (by omega), Nat.mod_eq_of_lt (a := b.toNat) (by omega),
    Nat.mod_eq_of_lt (by rw [Nat.shiftLeft_eq]; omega)]

/-- A received 16-bit value as the two bytes joined (R44, R70). -/
theorem value16_eq (o : ByteOrder) (d0 d1 : Byte) :
    value16 o d0 d1 = match o with | .le => d1 ++ d0 | .be => d0 ++ d1 := by
  cases o
  · simp only [value16]
    rw [BitVec.or_comm, join_eq]
  · exact join_eq d0 d1

/-! ## The framed commands -/

theorem baudSetBody_answered {code volt freq vmode : Byte} (hc : s.lineClear) (hf : EchoLike f)
    (hs : s.script = commandTicks s.params f .baudSet [code, volt] [Config.ack, freq, vmode] ++ rest) :
    baudSetBody code volt s =
      .ok () ((s.answered rest (commandEvents s.params .baudSet [code, volt] [Config.ack, freq, vmode])
        Config.ack).setModes freq vmode) := by
  unfold baudSetBody
  rw [bind_ok (exchange_answered (n := 3) hc hf (by simp) rfl (by simp) (by simp) hs)]
  have h1 : statusCheck [Config.ack, freq, vmode]
      (s.onLine rest [] (commandEvents s.params .baudSet [code, volt] [Config.ack, freq, vmode])) =
      .ok () (s.answered rest (commandEvents s.params .baudSet [code, volt] [Config.ack, freq, vmode]) Config.ack) :=
    primitive_bind (by exact hc.2.2) _ _
  rw [bind_ok h1]
  exact writes_calm (modeWrites_aside _ _) (by exact hc.2.2)

/-- baud-set with a status that is not ACK: neither byte after it is taken (R97). -/
theorem baudSetBody_rejected {code volt b x y : Byte} (hc : s.lineClear) (hf : EchoLike f) (hb : b ≠ Config.ack)
    (hs : s.script = commandTicks s.params f .baudSet [code, volt] [b, x, y] ++ rest) :
    baudSetBody code volt s = .error (.raised { kind := .deviceRejected, status := some b })
      (s.answered rest (commandEvents s.params .baudSet [code, volt] [b, x, y]) b) := by
  unfold baudSetBody
  rw [bind_ok (exchange_answered (n := 3) hc hf (by simp) rfl (by simp) (by simp) hs)]
  refine bind_error ?_
  unfold statusCheck
  refine (primitive_bind (by exact hc.2.2) ..).trans ((check_calm (by exact hc.2.2) _).trans ?_)
  rw [if_neg (by simpa using hb)]
  rfl

theorem signatureBody_answered {d : List Byte} (hc : s.lineClear) (hf : EchoLike f) (hd : d.length = 22)
    (hs : s.script = commandTicks s.params f .siliconSignature [] [Config.ack] ++
      [delivers (dataBytes s.params d true), quiet] ++ rest) :
    signatureBody s =
      .ok () ((s.answered rest (commandEvents s.params .siliconSignature [] [Config.ack] ++ [.rxResp d])
        Config.ack).identify d) := by
  unfold signatureBody
  have h1 := statusExchange_answered (o := .siliconSignature) (q := []) (b := Config.ack) hc hf (by simp)
    (by simpa using hs)
  rw [if_pos rfl] at h1
  rw [bind_ok h1, bind_ok (decodeResponse_answered (lineClear_answered hc ..) hd (by omega) (by omega) rfl)]
  refine (writes_calm (identityWrites_aside d) (by exact hc.2.2)).trans ?_
  simp

theorem checksumBody_answered {a e : Addr} {d0 d1 : Byte} (hc : s.lineClear) (hf : EchoLike f)
    (hs : s.script = commandTicks s.params f .checksum (rangePayload a e) [Config.ack] ++
      [delivers (dataBytes s.params [d0, d1] true), quiet] ++ rest) :
    checksumBody a e s =
      .ok () ((s.answered rest (commandEvents s.params .checksum (rangePayload a e) [Config.ack] ++ [.rxResp [d0, d1]])
        Config.ack).setCksum (value16 s.params.cksumOrder d0 d1)) := by
  unfold checksumBody
  have h1 := statusExchange_answered (o := .checksum) (q := rangePayload a e) (b := Config.ack) hc hf (by simp)
    (by simpa using hs)
  rw [if_pos rfl] at h1
  rw [bind_ok h1, bind_ok (decodeResponse_answered (pl := [d0, d1]) (n := 2) (lineClear_answered hc ..) rfl (by simp)
    (by simp) rfl)]
  refine (primitive_calm (by exact hc.2.2)).trans ?_
  simp

theorem blankBody_answered {a e : Addr} {b : Byte} (hc : s.lineClear) (hf : EchoLike f)
    (hs : s.script = commandTicks s.params f .blankCheck (blankPayload s.params a e) [b] ++ rest) :
    blankBody a e s =
      match blankAnswer b with
      | some nb =>
        .ok nb ((s.answered rest (commandEvents s.params .blankCheck (blankPayload s.params a e) [b]) b).setNotBlank nb)
      | none =>
        .error (.raised { kind := .deviceRejected, status := some b })
          (s.answered rest (commandEvents s.params .blankCheck (blankPayload s.params a e) [b]) b) := by
  unfold blankBody
  rw [getState_bind, bind_ok (exchange_answered (n := 1) hc hf (length_blankPayload ..) rfl (by simp) (by simp) hs),
    primitive_bind (by exact hc.2.2)]
  simp only [byteAt_zero]
  cases blankAnswer b
  · exact raise_calm (by exact hc.2.2) _
  · exact primitive_bind (by exact hc.2.2) _ _

@[simp] theorem blankAnswer_status (nb : Bool) : blankAnswer (blankStatus nb) = some nb := by cases nb <;> rfl

/-! ## Transfers -/

/-- Reading `c` from these two buffers, while nothing arrives. -/
def Gives (code data : Memory) (read : Eng (List Byte)) (c : List Byte) : Prop :=
  ∀ t : State, t.calm → t.code = code → t.data = data → read t = .ok c t

/-- The frames that give these pieces, one by one. -/
abbrev GivesAll (code data : Memory) : List (Eng (List Byte)) → List (List Byte) → Prop :=
  List.Forall₂ (Gives code data)

theorem givesAll_operand (code data : Memory) (bytes : List Byte) : GivesAll code data (operandFrames bytes) (framesOf bytes) := by
  unfold operandFrames
  induction framesOf bytes with
  | nil => exact .nil
  | cons c r ih => exact .cons (fun _ _ _ _ => rfl) ih

theorem memRead_ok {b : Buf} {off n : Nat} (hc : s.calm) (h : off + n ≤ (s.buffer b).size) :
    memRead b off n s = .ok ((s.buffer b).slice off n) s :=
  (moment_bind hc _).trans ((getState_bind ..).trans (by rw [if_pos h]; rfl))

/-- A slice of a slice. -/
theorem slice_part {m : Memory} (h : m.wf = true) (off n j k : Nat) :
    ((m.slice off n).drop j).take k = m.slice (off + j) (min k (n - j)) := by
  refine List.ext_getElem? fun i => ?_
  by_cases hi : i < min k (n - j)
  · rw [getElem_slice h hi, List.getElem?_take_of_lt (by omega), List.getElem?_drop, getElem_slice h (by omega)]
    rw [Nat.add_assoc]
  · rw [List.getElem?_eq_none (by simp; omega), List.getElem?_eq_none (by simp; omega)]

/-- The frames read from a buffer are the pieces of its bytes (R106). -/
theorem givesAll_buffer {b : Buf} {off bs : Nat} (hw : (s.buffer b).wf = true) (hb : off + bs ≤ (s.buffer b).size) :
    GivesAll s.code s.data (bufferFrames b off bs) (framesOf ((s.buffer b).slice off bs)) := by
  unfold framesOf bufferFrames GivesAll
  rw [length_slice, chunks_eq, List.forall₂_map_left_iff, List.forall₂_map_right_iff]
  refine List.forall₂_same.2 fun k hk t ht hcode hdata => ?_
  have hk' : k < (bs + 255) / 256 := List.mem_range.1 hk
  have hbuf : t.buffer b = s.buffer b := by cases b <;> assumption
  rw [memRead_ok ht (by rw [hbuf]; omega), hbuf, slice_part hw]

/-- A data frame answered by the two bytes `b0` and `b1` (R106 to R108). -/
theorem streamFrame_answered {mode : StreamMode} {a : Addr} {k : Nat} {read : Eng (List Byte)} {c : List Byte} {last : Bool}
    {b0 b1 : Byte} (hg : Gives s.code s.data read c)
    (hc : s.lineClear) (hf : EchoLike f) (h0 : 1 ≤ c.length) (h : c.length ≤ 256)
    (hs : s.script = talk s.params f (dataBytes s.params c last) [b0, b1] ++ rest) :
    streamFrame mode a k read last s =
      if b0 = Config.ack ∧ b1 = Config.ack then
        .ok () ((s.answered rest (frameEvents s.params mode c last [b0, b1]) b0).setFrame k)
      else .error (.raised { kind := mode.error, addr := some a })
        ((s.answered rest (frameEvents s.params mode c last [b0, b1]) b0).setFrame k) := by
  unfold streamFrame
  rw [primitive_bind hc.2.2, bind_ok (hg (s.setFrame k) hc.2.2 rfl rfl)]
  have h1 := sendData_ok (s := s.setFrame k) (bytes := c) (last := last)
    (echo := f (dataBytes s.params c last)) (reply := dataBytes s.params [b0, b1] true) (rest := quiet :: quiet :: rest)
    hc h0 h (by rw [hf _]; simp) (by simpa [talk, exchangeTicks] using hs)
  simp only [setFrame_params, setFrame_onLine] at h1
  rw [bind_ok h1]
  have h2 : ∀ u : State, u.calm → u.line.isOpen = true → u.script = quiet :: quiet :: rest → u.line.rxq =
      dataBytes u.params [b0, b1] true → (do
        let pl ← decodeResponse 2
        frameCheck mode.error a pl : Eng Unit) u =
      if b0 = Config.ack ∧ b1 = Config.ack then .ok () (u.answered rest [.rxResp [b0, b1]] b0)
      else .error (.raised { kind := mode.error, addr := some a }) (u.answered rest [.rxResp [b0, b1]] b0) := by
    intro u hu ho hq hr
    rw [bind_ok (decodeResponse_ok (pl := [b0, b1]) (more := []) (bytes := []) (n := 2) true hu ho rfl (by simp) (by simp)
      hq (by simp [hr]))]
    unfold frameCheck
    exact (primitive_bind (by exact hu) ..).trans (check_calm (by exact hu) _)
  cases mode
  · simp only [settleFrame, pure_bind]
    rw [h2 ((s.onLine (quiet :: quiet :: rest) (dataBytes s.params [b0, b1] true)
      (sendEvents s.params (dataBytes s.params c last))).setFrame k) hc.2.2 hc.1 rfl rfl]
    simp [frameEvents, settleEvents]
  · simp only [settleFrame, waitFor]
    rw [primitive_bind (by exact hc.2.2), h2 (((s.onLine (quiet :: quiet :: rest) (dataBytes s.params [b0, b1] true)
      (sendEvents s.params (dataBytes s.params c last))).setFrame k).log (.wait .verifyFrame)) hc.2.2 hc.1 rfl rfl]
    simp [frameEvents, settleEvents]

/-- A transfer whose frames are each answered by two ACKs (R106). -/
theorem stream_answered {mode : StreamMode} {a : Addr} (hf : EchoLike f) : ∀ {frames : List (Eng (List Byte))}
    {cs : List (List Byte)} {k : Nat} {s : State}, GivesAll s.code s.data frames cs → cs ≠ [] →
    (∀ c ∈ cs, 1 ≤ c.length ∧ c.length ≤ 256) → s.lineClear → s.script = transferTicks s.params f cs ++ rest →
    stream mode a k frames s =
      .ok () ((s.answered rest (transferEvents s.params mode cs) Config.ack).setFrame (k + (cs.length - 1)))
  | _, [], _, _, _, hne, _, _, _ => absurd rfl hne
  | _, c :: r, k, s, .cons (l₁ := frames) hg hgs, _, hb, hc, hs => by
    have hb' := hb c (by simp)
    have h1 := streamFrame_answered (mode := mode) (a := a) (k := k) (b0 := Config.ack) (b1 := Config.ack) hg hc hf
      hb'.1 hb'.2 (rest := transferTicks s.params f r ++ rest) (by simpa [transferTicks] using hs)
    rw [if_pos ⟨rfl, rfl⟩] at h1
    have he : frames.isEmpty = r.isEmpty := by cases hgs <;> rfl
    rw [stream, he, bind_ok h1]
    cases r with
    | nil => cases hgs; simp [stream, transferTicks, transferEvents, pure_run]
    | cons d r =>
      have h2 := stream_answered (mode := mode) (a := a) hf (frames := frames) (cs := d :: r) (k := k + 1)
        (s := (s.answered (transferTicks s.params f (d :: r) ++ rest)
          (frameEvents s.params mode c false [Config.ack, Config.ack]) Config.ack).setFrame k) hgs (by simp)
        (fun c hc => hb c (by simp [hc])) (lineClear_setFrame (lineClear_answered hc _ _ _) k) rfl
      rw [show (d :: r).isEmpty = false from rfl]
      rw [h2]
      simp [transferEvents, Nat.add_assoc, Nat.add_comm]

/-- A transfer that stops at the frame `c` (R107, R108). -/
theorem stream_failed {mode : StreamMode} {a : Addr} {c : List Byte} {post : List (List Byte)} {b0 b1 : Byte}
    (hf : EchoLike f) (hn : ¬ (b0 = Config.ack ∧ b1 = Config.ack)) : ∀ {frames : List (Eng (List Byte))}
    {pre : List (List Byte)} {k : Nat} {s : State}, GivesAll s.code s.data frames (pre ++ c :: post) →
    (∀ d ∈ pre ++ c :: post, 1 ≤ d.length ∧ d.length ≤ 256) → s.lineClear →
    s.script = pre.flatMap (fun d => talk s.params f (dataBytes s.params d false) [Config.ack, Config.ack]) ++
      talk s.params f (dataBytes s.params c post.isEmpty) [b0, b1] ++ rest →
    stream mode a k frames s =
      .error (.raised { kind := mode.error, addr := some a })
        ((s.answered rest (pre.flatMap (fun d => frameEvents s.params mode d false [Config.ack, Config.ack]) ++
          frameEvents s.params mode c post.isEmpty [b0, b1]) b0).setFrame (k + pre.length))
  | _, [], k, s, .cons (l₁ := frames) hg hgs, hb, hc, hs => by
    have hb' := hb c (by simp)
    have h1 := streamFrame_answered (mode := mode) (a := a) (k := k) hg hc hf hb'.1 hb'.2 (by simpa using hs)
    rw [if_neg hn] at h1
    have he : frames.isEmpty = post.isEmpty := by cases hgs <;> rfl
    rw [stream, he, bind_error h1]
    simp
  | _, d :: pre, k, s, .cons (l₁ := frames) hg hgs, hb, hc, hs => by
    have hb' := hb d (by simp)
    have h1 := streamFrame_answered (mode := mode) (a := a) (k := k) (last := false) (b0 := Config.ack)
      (b1 := Config.ack) hg hc hf hb'.1 hb'.2 (by simpa using hs)
    rw [if_pos ⟨rfl, rfl⟩] at h1
    have hl : frames.isEmpty = false := by
      cases frames with
      | nil => cases pre <;> cases hgs
      | cons => rfl
    have h2 := stream_failed (mode := mode) (a := a) (c := c) (post := post) hf hn (frames := frames) (pre := pre)
      (k := k + 1)
      (s := (s.answered (pre.flatMap (fun d => talk s.params f (dataBytes s.params d false) [Config.ack, Config.ack]) ++
        (talk s.params f (dataBytes s.params c post.isEmpty) [b0, b1] ++ rest))
        (frameEvents s.params mode d false [Config.ack, Config.ack]) Config.ack).setFrame k) hgs (fun e he => hb e (by simp at he ⊢; tauto))
      (lineClear_setFrame (lineClear_answered hc _ _ _) k) (by simp)
    rw [stream, hl, bind_ok h1, h2]
    simp [Nat.add_assoc, Nat.add_comm]

theorem framesOf_ne_nil {bytes : List Byte} (h : bytes ≠ []) : framesOf bytes ≠ [] := by
  intro hn
  have := flatten_framesOf bytes
  rw [hn] at this
  exact h this.symm

/-- The completion status of a program command (R104). -/
theorem completion_answered {a : Addr} {b : Byte} (hc : s.lineClear)
    (hs : s.script = delivers (dataBytes s.params [b] true) :: quiet :: rest) :
    (do
      let pl ← decodeResponse 1
      completionCheck a pl : Eng Unit) s =
      if b = Config.ack then .ok () (s.answered rest [.rxResp [b]] b)
      else .error (.raised { kind := .programFailed, addr := some a }) (s.answered rest [.rxResp [b]] b) := by
  rw [bind_ok (decodeResponse_answered (pl := [b]) (n := 1) hc rfl (by simp) (by simp) hs)]
  exact (primitive_bind (by exact hc.2.2) ..).trans (check_calm (by exact hc.2.2) _)

/-- program up to its completion response, whose status is `b` (R104). -/
theorem programBody_completion {a e : Addr} {frames : List (Eng (List Byte))} {bytes : List Byte} {b : Byte}
    (hg : GivesAll s.code s.data frames (framesOf bytes)) (hc : s.lineClear) (hf : EchoLike f) (hne : bytes ≠ [])
    (hs : s.script = commandTicks s.params f .program (rangePayload a e) [Config.ack] ++
      transferTicks s.params f (framesOf bytes) ++ [delivers (dataBytes s.params [b] true), quiet] ++ rest) :
    programBody a e frames s =
      let t := (s.answered rest (commandEvents s.params .program (rangePayload a e) [Config.ack] ++
        (transferEvents s.params .program (framesOf bytes) ++
          [.wait (.progSettle (rangeLength a e)), .rxResp [b]])) b).setFrame ((framesOf bytes).length - 1)
      if b = Config.ack then .ok () t else .error (.raised { kind := .programFailed, addr := some a }) t := by
  unfold programBody
  have h1 := statusExchange_answered (o := .program) (q := rangePayload a e) (b := Config.ack) hc hf (by simp)
    (by simpa using hs)
  rw [if_pos rfl] at h1
  rw [bind_ok h1, bind_ok (stream_answered hf (by exact hg) (framesOf_ne_nil hne) (fun _ hc => framesOf_bounds hc)
    (lineClear_answered hc ..) rfl)]
  simp only [waitFor]
  rw [primitive_bind (by exact hc.2.2)]
  refine (completion_answered (b := b) (rest := rest) ?_ ?_).trans ?_
  · exact ⟨hc.1, rfl, hc.2.2⟩
  · rfl
  · simp

/-- program, with every answer an ACK (R104). -/
theorem programBody_answered {a e : Addr} {frames : List (Eng (List Byte))} {bytes : List Byte}
    (hg : GivesAll s.code s.data frames (framesOf bytes)) (hc : s.lineClear) (hf : EchoLike f) (hb : bytes ≠ [])
    (hs : s.script = programTicks s.params f a e bytes ++ rest) :
    programBody a e frames s =
      .ok () ((s.answered rest (programEvents s.params a e bytes) Config.ack).setFrame ((framesOf bytes).length - 1)) := by
  refine (programBody_completion (b := Config.ack) (rest := rest) hg hc hf hb (by simpa [programTicks] using hs)).trans ?_
  simp [programEvents]

/-- verify, with every answer an ACK (R105). -/
theorem verifyBody_answered {a e : Addr} {frames : List (Eng (List Byte))} {bytes : List Byte}
    (hg : GivesAll s.code s.data frames (framesOf bytes)) (hc : s.lineClear) (hf : EchoLike f) (hb : bytes ≠ [])
    (hs : s.script = verifyTicks s.params f a e bytes ++ rest) :
    verifyBody a e frames s =
      .ok () ((s.answered rest (verifyEvents s.params a e bytes) Config.ack).setFrame ((framesOf bytes).length - 1)) := by
  unfold verifyBody
  have h1 := statusExchange_answered (o := .verify) (q := rangePayload a e) (b := Config.ack) hc hf (by simp)
    (by simpa [verifyTicks] using hs)
  rw [if_pos rfl] at h1
  rw [bind_ok h1, stream_answered hf (by exact hg) (framesOf_ne_nil hb) (fun _ hc => framesOf_bounds hc)
    (lineClear_answered hc ..) rfl]
  simp [verifyEvents]

/-- program stopped at the frame `c` (R107). -/
theorem programBody_failed {a e : Addr} {frames : List (Eng (List Byte))} {bytes c : List Byte}
    {pre post : List (List Byte)} {b0 b1 : Byte} (hg : GivesAll s.code s.data frames (framesOf bytes))
    (hc : s.lineClear) (hf : EchoLike f) (hfr : framesOf bytes = pre ++ c :: post)
    (hn : ¬ (b0 = Config.ack ∧ b1 = Config.ack))
    (hs : s.script = commandTicks s.params f .program (rangePayload a e) [Config.ack] ++
      failedTicks s.params f pre c post.isEmpty [b0, b1] ++ rest) :
    programBody a e frames s = .error (.raised { kind := .programFailed, addr := some a })
      ((s.answered rest (commandEvents s.params .program (rangePayload a e) [Config.ack] ++
        failedEvents s.params .program pre c post.isEmpty [b0, b1]) b0).setFrame pre.length) := by
  have hb : ∀ d ∈ pre ++ c :: post, 1 ≤ d.length ∧ d.length ≤ 256 := fun d hd => framesOf_bounds (hfr ▸ hd)
  have h1 := (statusExchange_answered (o := .program) (q := rangePayload a e) (b := Config.ack) hc hf (by simp)
    (hs.trans (List.append_assoc ..))).trans (if_pos rfl)
  refine (bind_ok h1).trans ?_
  rw [hfr] at hg
  refine (bind_error (stream_failed (rest := rest) hf hn (by exact hg) hb (lineClear_answered hc ..) rfl)).trans ?_
  simp [StreamMode.error, failedEvents]

/-- verify stopped at the frame `c` (R108). -/
theorem verifyBody_failed {a e : Addr} {frames : List (Eng (List Byte))} {bytes c : List Byte}
    {pre post : List (List Byte)} {b0 b1 : Byte} (hg : GivesAll s.code s.data frames (framesOf bytes))
    (hc : s.lineClear) (hf : EchoLike f) (hfr : framesOf bytes = pre ++ c :: post)
    (hn : ¬ (b0 = Config.ack ∧ b1 = Config.ack))
    (hs : s.script = commandTicks s.params f .verify (rangePayload a e) [Config.ack] ++
      failedTicks s.params f pre c post.isEmpty [b0, b1] ++ rest) :
    verifyBody a e frames s = .error (.raised { kind := .mismatchError, addr := some a })
      ((s.answered rest (commandEvents s.params .verify (rangePayload a e) [Config.ack] ++
        failedEvents s.params .verify pre c post.isEmpty [b0, b1]) b0).setFrame pre.length) := by
  have hb : ∀ d ∈ pre ++ c :: post, 1 ≤ d.length ∧ d.length ≤ 256 := fun d hd => framesOf_bounds (hfr ▸ hd)
  have h1 := (statusExchange_answered (o := .verify) (q := rangePayload a e) (b := Config.ack) hc hf (by simp)
    (hs.trans (List.append_assoc ..))).trans (if_pos rfl)
  refine (bind_ok h1).trans ?_
  rw [hfr] at hg
  refine (stream_failed (rest := rest) hf hn (by exact hg) hb (lineClear_answered hc ..) rfl).trans ?_
  simp [StreamMode.error, failedEvents]

end Sys2Proof.Machine
end

