-- ==== Sys2Proof/Laws/Blocks.lean ====
section
/-! SUPPORT. What the block controller answers for the blocks of a region, when the line does as the terms of Safety.lean
say. -/

namespace Sys2Proof.Machine

variable {f : List Byte → List Byte} {s : State} {rest : List Tick}

/-- The state after blocks that were processed without error: the script used up, their lines in the transcript, their
diagnostics, and the registers the commands of a block write. -/
def State.worked (s : State) (script : List Tick) (events : List Event) (diags : List Diag) (notBlank : Option Bool)
    (status : Option Byte) (fidx : Option Nat) : State :=
  { s with
    script := script, line := { s.line with rxq := [] }, hist := s.hist ++ events
    diags := s.diags ++ diags.map fun d => ⟨s.args.verbose, d⟩
    result := { s.result with notBlank := notBlank, lastStatus := status }
    blk := { s.blk with fidx := fidx } }

@[simp] theorem worked_worked (s : State) (x y : List Tick) (e g : List Event) (d c : List Diag) (n m : Option Bool)
    (b p : Option Byte) (k l : Option Nat) :
    (s.worked x e d n b k).worked y g c m p l = s.worked y (e ++ g) (d ++ c) m p l := by
  simp [State.worked]

@[simp] theorem worked_params (s : State) (x : List Tick) (e : List Event) (d : List Diag) (n : Option Bool)
    (b : Option Byte) (k : Option Nat) : (s.worked x e d n b k).params = s.params := rfl
@[simp] theorem worked_script (s : State) (x : List Tick) (e : List Event) (d : List Diag) (n : Option Bool)
    (b : Option Byte) (k : Option Nat) : (s.worked x e d n b k).script = x := rfl
@[simp] theorem worked_buffer (s : State) (x : List Tick) (e : List Event) (d : List Diag) (n : Option Bool)
    (b : Option Byte) (k : Option Nat) (z : Buf) : (s.worked x e d n b k).buffer z = s.buffer z := by cases z <;> rfl
@[simp] theorem worked_setBlock (s : State) (x : List Tick) (e : List Event) (d : List Diag) (n : Option Bool)
    (b : Option Byte) (k : Option Nat) (i : Nat) :
    (s.setBlock i).worked x e d n b k = (s.worked x e d n b k).setBlock i := rfl
@[simp] theorem setBlock_setBlock (s : State) (i j : Nat) : (s.setBlock i).setBlock j = s.setBlock j := rfl
@[simp] theorem setBlock_buffer (s : State) (i : Nat) (z : Buf) : (s.setBlock i).buffer z = s.buffer z := by
  cases z <;> rfl

theorem lineClear_worked (h : s.lineClear) (x : List Tick) (e : List Event) (d : List Diag) (n : Option Bool)
    (b : Option Byte) (k : Option Nat) : (s.worked x e d n b k).lineClear := ⟨h.1, rfl, h.2.2⟩

theorem answered_worked (s : State) (x : List Tick) (e : List Event) (b : Byte) :
    s.answered x e b = s.worked x e [] s.result.notBlank (some b) s.blk.fidx := by
  simp [State.answered, State.onLine, State.setStatus, State.worked]

theorem setNotBlank_worked (s : State) (x : List Tick) (e : List Event) (d : List Diag) (n : Option Bool)
    (b : Option Byte) (k : Option Nat) (nb : Bool) :
    (s.worked x e d n b k).setNotBlank nb = s.worked x e d (some nb) b k := rfl

theorem setFrame_worked (s : State) (x : List Tick) (e : List Event) (d : List Diag) (n : Option Bool)
    (b : Option Byte) (k : Option Nat) (j : Nat) : (s.worked x e d n b k).setFrame j = s.worked x e d n b (some j) := rfl

theorem emit_worked (s : State) (x : List Tick) (e : List Event) (d : List Diag) (n : Option Bool)
    (b : Option Byte) (k : Option Nat) (v : Diag) :
    (s.worked x e d n b k).emit v = s.worked x e (d ++ [v]) n b k := by
  simp [State.worked, State.emit]

@[simp] theorem emit_setBlock (s : State) (i : Nat) (v : Diag) : (s.setBlock i).emit v = (s.emit v).setBlock i := rfl

/-! ## The commands of a block -/

/-- A blank-check that answers one of the two (R102). -/
theorem blankBody_status {a e : Addr} {nb : Bool} (hc : s.lineClear) (hf : EchoLike f)
    (hs : s.script = commandTicks s.params f .blankCheck (blankPayload s.params a e) [blankStatus nb] ++ rest) :
    blankBody a e s =
      .ok nb (s.worked rest (commandEvents s.params .blankCheck (blankPayload s.params a e) [blankStatus nb]) []
        (some nb) (some (blankStatus nb)) s.blk.fidx) := by
  rw [blankBody_answered hc hf hs]
  simp [answered_worked, setNotBlank_worked]

theorem eraseBody_answered {a : Addr} (hc : s.lineClear) (hf : EchoLike f)
    (hs : s.script = commandTicks s.params f .blockErase (le3 a) [Config.ack] ++ rest) :
    eraseBody a s = .ok () (s.worked rest (commandEvents s.params .blockErase (le3 a) [Config.ack]) []
      s.result.notBlank (some Config.ack) s.blk.fidx) := by
  have h := statusExchange_answered (o := .blockErase) (q := le3 a) (b := Config.ack) hc hf (by simp) hs
  rw [if_pos rfl, answered_worked] at h
  exact h

/-- Blank-check and, where it is called for, erase (R130, R132). -/
theorem clear_answered {a e : Addr} {nb : Bool} (hc : s.lineClear) (hf : EchoLike f) (done : Eng Unit)
    (hs : s.script = clearTicks s.params f a e nb ++ rest) :
    (do
      let nb ← blankBody a e
      if nb then eraseBody a else done : Eng Unit) s =
      if nb then .ok () (s.worked rest (clearEvents s.params a e nb) [] (some nb) (some Config.ack) s.blk.fidx)
      else done (s.worked rest (clearEvents s.params a e nb) [] (some nb) (some Config.ack) s.blk.fidx) := by
  cases nb with
  | false =>
    refine (bind_ok (blankBody_status (nb := false) (rest := rest) hc hf (by simpa [clearTicks] using hs))).trans ?_
    simp [clearEvents, blankStatus]
  | true =>
    have h1 := blankBody_status (nb := true) (rest := commandTicks s.params f .blockErase (le3 a) [Config.ack] ++ rest)
      hc hf (by simpa [clearTicks] using hs)
    refine (bind_ok h1).trans ?_
    simp only [if_true]
    refine (eraseBody_answered (rest := rest) (lineClear_worked hc ..) hf rfl).trans ?_
    simp [clearEvents]
    rfl

/-- Blank-check, erase where it is called for, and what follows in program mode (R132). -/
theorem cleared_then {a e : Addr} {nb : Bool} (hc : s.lineClear) (hf : EchoLike f)
    (hs : s.script = clearTicks s.params f a e nb ++ rest) (k : Eng Unit) :
    (do
      let nb ← blankBody a e
      eraseIf nb a
      k : Eng Unit) s =
      k (s.worked rest (clearEvents s.params a e nb) [] (some nb) (some Config.ack) s.blk.fidx) := by
  have h1 : (do
      let nb ← blankBody a e
      eraseIf nb a : Eng Unit) s =
      .ok () (s.worked rest (clearEvents s.params a e nb) [] (some nb) (some Config.ack) s.blk.fidx) := by
    refine (clear_answered (f := f) (nb := nb) (rest := rest) hc hf (pure ()) hs).trans ?_
    cases nb <;> rfl
  have h2 : (do
      let nb ← blankBody a e
      eraseIf nb a
      k : Eng Unit) = (do
        (do
          let nb ← blankBody a e
          eraseIf nb a)
        k) := by simp
  rw [h2]
  exact bind_ok h1

/-- One block, processed without error (R130 to R134). -/
theorem regionBlock_worked {mode : CMode} {b : Buf} {base : Addr} {bs i : Nat} {nb : Bool} (hc : s.lineClear)
    (hf : EchoLike f) (hw : (s.buffer b).wf = true) (hb : mode ≠ .erase → i * bs + bs ≤ (s.buffer b).size)
    (hs : s.script = blockTicks s.params f mode (blockStart base bs i) (blockEnd base bs i)
      ((s.buffer b).slice (i * bs) bs) nb ++ rest) :
    ∃ n st k, regionBlock mode b base bs i s =
        .ok () ((s.worked rest (blockEvents s.params mode (blockStart base bs i) (blockEnd base bs i)
          ((s.buffer b).slice (i * bs) bs) nb) (blockDiags mode (blockStart base bs i)
          ((s.buffer b).slice (i * bs) bs) nb) n st k).setBlock i) ∧
      (mode = .erase → n = some nb ∧ k = s.blk.fidx) := by
  have hc' : (s.setBlock i).lineClear := hc
  cases mode with
  | erase =>
    refine ⟨some nb, some Config.ack, s.blk.fidx, ?_, by simp⟩
    refine (primitive_bind hc.2.2 ..).trans ((clear_answered (f := f) (nb := nb) (rest := rest) hc' hf _ hs).trans ?_)
    cases nb
    · refine (emit_calm (by exact hc.2.2) _).trans ?_
      simp [blockEvents, blockDiags, emit_worked]
    · simp [blockEvents, blockDiags]
  | program =>
    obtain ⟨hm⟩ : Nonempty (i * bs + bs ≤ ((s.setBlock i).buffer b).size) := ⟨by simpa using hb (by simp)⟩
    have hg : GivesAll s.code s.data (bufferFrames b (i * bs) bs) (framesOf ((s.buffer b).slice (i * bs) bs)) :=
      givesAll_buffer hw (by simpa using hm)
    simp only [blockTicks] at hs
    cases hb : allErased ((s.buffer b).slice (i * bs) bs) with
    | true =>
      refine ⟨s.result.notBlank, s.result.lastStatus, s.blk.fidx, ?_, by simp⟩
      refine (primitive_bind hc.2.2 ..).trans ((bind_ok (memRead_ok hc'.2.2 hm)).trans ?_)
      simp only [setBlock_buffer, programBlock, hb, if_true]
      refine (emit_calm (by exact hc.2.2) _).trans ?_
      simp only [hb, if_true, List.nil_append] at hs
      congr 1
      subst hs
      obtain ⟨h1, h2, -⟩ := hc
      simp [State.worked, State.emit, State.setBlock, blockEvents, blockDiags, hb, ← h2]
    | false =>
      have hn : (s.buffer b).slice (i * bs) bs ≠ [] := by
        intro h; rw [h] at hb; simp [allErased] at hb
      simp only [hb, Bool.false_eq_true, if_false, List.append_assoc] at hs
      refine ⟨some nb, some Config.ack, some ((framesOf ((s.buffer b).slice (i * bs) bs)).length - 1), ?_, by simp⟩
      refine (primitive_bind hc.2.2 ..).trans ((bind_ok (memRead_ok hc'.2.2 hm)).trans ?_)
      simp only [setBlock_buffer, programBlock, hb, Bool.false_eq_true, if_false]
      have h2 := programBody_answered (f := f) (s := (s.setBlock i).worked (programTicks s.params f (blockStart base bs i)
        (blockEnd base bs i) ((s.buffer b).slice (i * bs) bs) ++ rest)
        (clearEvents s.params (blockStart base bs i) (blockEnd base bs i) nb) [] (some nb) (some Config.ack) s.blk.fidx)
        (rest := rest) (a := blockStart base bs i) (e := blockEnd base bs i) (frames := bufferFrames b (i * bs) bs)
        (by exact hg) (lineClear_worked hc' ..) hf hn rfl
      refine (cleared_then (f := f) (nb := nb) (rest := programTicks s.params f (blockStart base bs i)
        (blockEnd base bs i) ((s.buffer b).slice (i * bs) bs) ++ rest) hc' hf hs _).trans (h2.trans ?_)
      simp [answered_worked, blockEvents, blockDiags, hb]
      rfl
  | verify =>
    obtain ⟨hm⟩ : Nonempty (i * bs + bs ≤ ((s.setBlock i).buffer b).size) := ⟨by simpa using hb (by simp)⟩
    have hg : GivesAll s.code s.data (bufferFrames b (i * bs) bs) (framesOf ((s.buffer b).slice (i * bs) bs)) :=
      givesAll_buffer hw (by simpa using hm)
    simp only [blockTicks] at hs
    cases hb : allErased ((s.buffer b).slice (i * bs) bs) with
    | true =>
      simp only [hb, if_true] at hs
      refine ⟨some false, some Config.ack, s.blk.fidx, ?_, by simp⟩
      refine (primitive_bind hc.2.2 ..).trans ((bind_ok (memRead_ok hc'.2.2 hm)).trans ?_)
      simp only [setBlock_buffer, verifyBlock, hb, if_true]
      refine (bind_ok (blankBody_status (f := f) (nb := false) (rest := rest) hc' hf hs)).trans ?_
      simp [blockEvents, blockDiags, hb]
      rfl
    | false =>
      have hn : (s.buffer b).slice (i * bs) bs ≠ [] := by
        intro h; rw [h] at hb; simp [allErased] at hb
      simp only [hb, Bool.false_eq_true, if_false] at hs
      refine ⟨s.result.notBlank, some Config.ack, some ((framesOf ((s.buffer b).slice (i * bs) bs)).length - 1), ?_,
        by simp⟩
      refine (primitive_bind hc.2.2 ..).trans ((bind_ok (memRead_ok hc'.2.2 hm)).trans ?_)
      simp only [setBlock_buffer, verifyBlock, hb, Bool.false_eq_true, if_false]
      refine (verifyBody_answered (f := f) (rest := rest) (by exact hg) hc' hf hn hs).trans ?_
      simp [answered_worked, blockEvents, blockDiags, hb]
      rfl

/-! ## A block that fails -/

/-- What a failing block leaves of a state: its script used up, its lines in the transcript, the sequencer's registers and
`BIDX` as they were. -/
def State.LeavesAs (s : State) (script : List Tick) (events : List Event) (t : State) : Prop :=
  t.script = script ∧ t.hist = s.hist ++ events ∧ t.seqr = s.seqr ∧ t.blk.bidx = s.blk.bidx

theorem answered_leavesAs (s : State) (x : List Tick) (e : List Event) (b : Byte) :
    s.LeavesAs x e (s.answered x e b) := ⟨rfl, rfl, rfl, rfl⟩

theorem setFrame_leavesAs (s : State) (x : List Tick) (e : List Event) (b : Byte) (k : Nat) :
    s.LeavesAs x e ((s.answered x e b).setFrame k) := ⟨rfl, rfl, rfl, rfl⟩

theorem LeavesAs.after_worked {x y : List Tick} {e g : List Event} {d : List Diag} {n : Option Bool}
    {b : Option Byte} {k : Option Nat} {t : State} (h : (s.worked y e d n b k).LeavesAs x g t) :
    s.LeavesAs x (e ++ g) t :=
  ⟨h.1, h.2.1.trans (List.append_assoc ..), h.2.2.1, h.2.2.2⟩

theorem programBlock_data {a e : Addr} {blk : List Byte} {frames : List (Eng (List Byte))} (h : allErased blk = false) :
    programBlock a e blk frames = (do
      let nb ← blankBody a e
      eraseIf nb a
      programBody a e frames) := by
  rw [programBlock, h]; rfl

theorem verifyBlock_data {a e : Addr} {blk : List Byte} {frames : List (Eng (List Byte))} (h : allErased blk = false) :
    verifyBlock a e blk frames = verifyBody a e frames := by
  rw [verifyBlock, h]; rfl

/-- The block of a mode, once its bytes are read. -/
def blockBody (mode : CMode) (a e : Addr) (blk : List Byte) (frames : List (Eng (List Byte))) : Eng Unit :=
  match mode with
  | .erase => eraseBlock a e
  | .program => programBlock a e blk frames
  | .verify => verifyBlock a e blk frames

theorem regionBlock_body {mode : CMode} {b : Buf} {base : Addr} {bs i : Nat} (hc : s.calm) (hb : i * bs + bs ≤ (s.buffer b).size) :
    regionBlock mode b base bs i s =
      blockBody mode (blockStart base bs i) (blockEnd base bs i) ((s.buffer b).slice (i * bs) bs)
        (bufferFrames b (i * bs) bs) (s.setBlock i) := by
  have hm : memRead b (i * bs) bs (s.setBlock i) = .ok ((s.buffer b).slice (i * bs) bs) (s.setBlock i) := by
    rw [memRead_ok (s := s.setBlock i) (by exact hc) (by rwa [setBlock_buffer]), setBlock_buffer]
  cases mode
  · exact primitive_bind hc ..
  · exact (primitive_bind hc ..).trans (bind_ok hm)
  · exact (primitive_bind hc ..).trans (bind_ok hm)

/-- A block fails in each of the ways there are with its error (R130 to R135). -/
theorem blockBody_failed {mode : CMode} {a e : Addr} {blk : List Byte} {frames : List (Eng (List Byte))} {c : List Tick}
    {ev : List Event} {r : Err} (hg : GivesAll s.code s.data frames (framesOf blk)) (h : BlockFails s.params f mode a e blk c ev r) (hc : s.lineClear) (hf : EchoLike f) (hs : s.script = c ++ rest) :
    ∃ t, blockBody mode a e blk frames s = .error (.raised r) t ∧ s.LeavesAs rest ev t := by
  cases h with
  | @check _ _ _ _ b hk h1 h2 =>
    have h : blankBody a e s = .error (.raised { kind := .deviceRejected, status := some b })
        (s.answered rest (commandEvents s.params .blankCheck (blankPayload s.params a e) [b]) b) := by
      rw [blankBody_answered hc hf hs, show blankAnswer b = none by simp [blankAnswer, h1, h2]]
    refine ⟨_, ?_, answered_leavesAs _ _ _ b⟩
    cases mode with
    | erase => exact bind_error h
    | program =>
      simp only [checksBlank, Bool.not_eq_true'] at hk
      exact (congrFun (programBlock_data hk) s).trans (bind_error h)
    | verify =>
      simp only [checksBlank] at hk
      simp only [blockBody, verifyBlock, hk, if_true]
      exact bind_error h
  | notBlank hk =>
    have h1 : blockBody .verify a e blk frames = (do
        let nb ← blankBody a e
        if nb then raise { kind := .mismatchError, addr := some a } else pure () : Eng Unit) := by
      simp only [blockBody, verifyBlock, hk, if_true]
    exact ⟨_, (congrFun h1 s).trans ((bind_ok (blankBody_status (nb := true) (rest := rest) hc hf hs)).trans
      (raise_calm (by exact hc.2.2) _)),
      rfl, rfl, rfl, rfl⟩
  | @erase _ _ _ _ b hk h1 =>
    have h2 := blankBody_status (f := f) (a := a) (e := e) (nb := true)
      (rest := commandTicks s.params f .blockErase (le3 a) [b] ++ rest) hc hf (by simpa using hs)
    have h3 := (statusExchange_answered (o := .blockErase) (q := le3 a) (b := b) (rest := rest)
      (lineClear_worked hc (commandTicks s.params f .blockErase (le3 a) [b] ++ rest)
        (commandEvents s.params .blankCheck (blankPayload s.params a e) [blankStatus true]) [] (some true)
        (some (blankStatus true)) s.blk.fidx) hf (by simp) rfl).trans (if_neg h1)
    cases mode with
    | erase => exact ⟨_, (bind_ok h2).trans h3, LeavesAs.after_worked (answered_leavesAs ..)⟩
    | program =>
      simp only [erasesBlock, Bool.not_eq_true'] at hk
      exact ⟨_, (congrFun (programBlock_data hk) s).trans ((bind_ok h2).trans (bind_error h3)),
        LeavesAs.after_worked (answered_leavesAs ..)⟩
    | verify => cases hk
  | @command m _ _ _ nb b hk h1 =>
    cases m with
    | program =>
      have h2 := cleared_then (f := f) (nb := nb)
        (rest := commandTicks s.params f .program (rangePayload a e) [b] ++ rest) hc hf
        (hs.trans (List.append_assoc ..)) (programBody a e frames)
      have h3 := (statusExchange_answered (o := .program) (q := rangePayload a e) (b := b) (rest := rest)
        (lineClear_worked hc (commandTicks s.params f .program (rangePayload a e) [b] ++ rest)
          (clearEvents s.params a e nb) [] (some nb) (some Config.ack) s.blk.fidx) hf (by simp) rfl).trans (if_neg h1)
      exact ⟨_, (congrFun (programBlock_data hk) s).trans (h2.trans (bind_error h3)),
        LeavesAs.after_worked (answered_leavesAs ..)⟩
    | verify =>
      have h3 := (statusExchange_answered (o := .verify) (q := rangePayload a e) (b := b) (rest := rest) hc hf (by simp)
        hs).trans (if_neg h1)
      exact ⟨_, (congrFun (verifyBlock_data hk) s).trans (bind_error h3), answered_leavesAs ..⟩
  | @frame m _ _ _ d nb pre post b0 b1 hk hfr hn =>
    cases m with
    | program =>
      have h2 := cleared_then (f := f) (nb := nb) (rest := commandTicks s.params f .program (rangePayload a e) [Config.ack]
        ++ failedTicks s.params f pre d post.isEmpty [b0, b1] ++ rest) hc hf
        (hs.trans (by simp [beforeTransfer]; rfl)) (programBody a e frames)
      have h3 := programBody_failed (a := a) (e := e) (frames := frames) (rest := rest) (by exact hg) (lineClear_worked hc
        (commandTicks s.params f .program (rangePayload a e) [Config.ack]
          ++ failedTicks s.params f pre d post.isEmpty [b0, b1] ++ rest)
        (clearEvents s.params a e nb) [] (some nb) (some Config.ack) s.blk.fidx) hf hfr hn rfl
      refine ⟨_, (congrFun (programBlock_data hk) s).trans (h2.trans h3), ?_⟩
      rw [List.append_assoc]
      exact LeavesAs.after_worked (setFrame_leavesAs ..)
    | verify =>
      exact ⟨_, (congrFun (verifyBlock_data hk) s).trans (verifyBody_failed (rest := rest) hg hc hf hfr hn hs),
        setFrame_leavesAs ..⟩
  | @completion _ _ _ nb b hk h1 =>
    have hne : blk ≠ [] := by rintro rfl; simp [allErased] at hk
    have h2 := cleared_then (f := f) (a := a) (e := e) (nb := nb) (rest := commandTicks s.params f .program (rangePayload a e) [Config.ack]
      ++ transferTicks s.params f (framesOf blk) ++ [delivers (dataBytes s.params [b] true), quiet] ++ rest) hc hf
      (hs.trans (by simp)) (programBody a e frames)
    have h3 := (programBody_completion (a := a) (e := e) (frames := frames) (b := b) (rest := rest) (by exact hg) (lineClear_worked hc
      (commandTicks s.params f .program (rangePayload a e) [Config.ack]
        ++ transferTicks s.params f (framesOf blk) ++ [delivers (dataBytes s.params [b] true), quiet] ++ rest)
      (clearEvents s.params a e nb) [] (some nb) (some Config.ack) s.blk.fidx) hf hne rfl).trans (if_neg h1)
    refine ⟨_, (congrFun (programBlock_data hk) s).trans (h2.trans h3), ?_⟩
    rw [List.append_assoc, List.append_assoc]
    exact LeavesAs.after_worked (setFrame_leavesAs ..)

/-- The first blocks of a region, one for each answer, processed without error; the loop goes on from the state they
leave (R128). -/
theorem regionLoop_worked {mode : CMode} {b : Buf} {base : Addr} {bs : Nat} (hf : EchoLike f) :
    ∀ {answers : List Bool} {i : Nat} {s : State}, s.lineClear → (s.buffer b).wf = true →
      (mode ≠ .erase → (i + answers.length) * bs ≤ (s.buffer b).size) →
      s.script = regionTicks s.params f mode (s.buffer b) base bs i answers ++ rest →
      ∃ n st k, (mode = .erase → n = answers.getLast?.or s.result.notBlank ∧ k = s.blk.fidx) ∧
        ∀ m, regionLoop mode b base bs (answers.length + m) i s =
          regionLoop mode b base bs m (i + answers.length)
            { s.worked rest (regionEvents s.params mode (s.buffer b) base bs i answers)
                (regionDiags mode (s.buffer b) base bs i answers) n st k with
              blk := { s.blk with
                bidx := if answers.length = 0 then s.blk.bidx else some (i + answers.length - 1), fidx := k } }
  | [], i, s, hc, _, _, hs => by
    refine ⟨s.result.notBlank, s.result.lastStatus, s.blk.fidx, by simp, fun m => ?_⟩
    obtain ⟨h1, h2, -⟩ := hc
    simp only [List.length_nil, Nat.zero_add, Nat.add_zero]
    congr 1
    simp [State.worked, regionEvents, regionDiags, ← h2]
    simp only [regionTicks, List.nil_append] at hs
    simp [← hs]
  | nb :: r, i, s, hc, hw, hb, hs => by
    have hb' : mode ≠ .erase → i * bs + bs ≤ (s.buffer b).size := by
      intro h
      have := hb h
      have h2 : i * bs + bs ≤ (i + (nb :: r).length) * bs := by
        rw [← Nat.succ_mul]
        exact Nat.mul_le_mul_right _ (by simp)
      omega
    obtain ⟨n1, st1, k1, he, hk⟩ := regionBlock_worked (f := f) (rest := regionTicks s.params f mode (s.buffer b) base bs
      (i + 1) r ++ rest) (nb := nb) hc hf hw hb' (by simpa [regionTicks] using hs)
    have hc2 : ((s.worked (regionTicks s.params f mode (s.buffer b) base bs (i + 1) r ++ rest)
        (blockEvents s.params mode (blockStart base bs i) (blockEnd base bs i) ((s.buffer b).slice (i * bs) bs) nb)
        (blockDiags mode (blockStart base bs i) ((s.buffer b).slice (i * bs) bs) nb) n1 st1 k1).setBlock i).lineClear :=
      ⟨hc.1, rfl, hc.2.2⟩
    obtain ⟨n2, st2, k2, hk', hm⟩ := regionLoop_worked (mode := mode) (b := b) (base := base) (bs := bs) hf (answers := r)
      (i := i + 1) (s := (s.worked (regionTicks s.params f mode (s.buffer b) base bs (i + 1) r ++ rest)
        (blockEvents s.params mode (blockStart base bs i) (blockEnd base bs i) ((s.buffer b).slice (i * bs) bs) nb)
        (blockDiags mode (blockStart base bs i) ((s.buffer b).slice (i * bs) bs) nb) n1 st1 k1).setBlock i)
      hc2 (by rwa [setBlock_buffer, worked_buffer]) (by
        intro h; have := hb h; rw [List.length_cons] at this; rwa [setBlock_buffer, worked_buffer, Nat.add_assoc, Nat.add_comm 1])
      (by simp)
    refine ⟨n2, st2, k2, ?_, fun m => ?_⟩
    · intro h
      obtain ⟨h1, h2⟩ := hk h
      obtain ⟨h3, h4⟩ := hk' h
      rw [h3, h4]
      refine ⟨?_, h2⟩
      cases r with
      | nil => simp [State.worked, State.setBlock, h1]
      | cons c r =>
        have : ∃ x, (c :: r).getLast? = some x := ⟨_, List.getLast?_eq_some_getLast (by simp)⟩
        obtain ⟨x, hx⟩ := this
        rw [List.getLast?_cons_cons, hx]
        rfl
    · rw [show (nb :: r).length + m = (r.length + m) + 1 by simp; omega, regionLoop]
      refine (bind_ok he).trans ((hm m).trans ?_)
      rw [show i + 1 + r.length = i + (nb :: r).length by simp; omega]
      congr 1
      cases r <;> simp [State.worked, State.setBlock, regionEvents, regionDiags, State.buffer]

end Sys2Proof.Machine
end

