-- ==== Sys2Proof/Laws/KeepsRules.lean ====
section
/-! SUPPORT. What the handshake, the block controller and the whole-image variant preserve, and how they may stop: one
lemma for each body, over the lemmas of the codec and the commands. -/

namespace Sys2Proof.Machine

variable {α β : Type} {p : Params} {I J : State → Prop} {E : Stop → State → Prop}

/-- From every state with `I`, the rule ends in a state with `J`, or stops early as `E` allows. -/
def Reaches (I J : State → Prop) (E : Stop → State → Prop) (m : Eng α) : Prop :=
  ∀ s, I s → match m s with
    | .ok _ t => J t
    | .error w t => E w t

/-- A primitive, from what it must survive to what it establishes. -/
theorem primitive_run {f : State → State} (hp : ∀ s, I s → J (f s.passed)) (hr : ∀ s, I s → E .reset s.passed) :
    Reaches I J E (primitive f) := by
  intro s hs
  rw [primitive_eq]
  cases (s.moments.headD {}).reset
  · exact hp s hs
  · exact hr s hs

/-- A primitive that establishes more than it keeps. -/
theorem primitive_reaches (h : OnLine p I E) {f : State → State} (hf : ∀ s, I s → J (f s)) :
    Reaches I J E (primitive f) := by
  intro s hs
  rw [primitive_eq]
  cases hr : (s.moments.headD {}).reset
  · exact hf _ (h.passed s hs)
  · exact h.reset s hs hr

/-- Register writes that establish more than they keep, once they are all made. -/
theorem group_reaches (hp : ∀ s, I s → I s.passed) {fs : List (State → State)} (ha : Aside fs)
    (hI : ∀ s, I s → J (s.wrote fs)) (hr : ∀ s done, I s → done <+: fs → E .reset (s.wrote done)) :
    Reaches I J E (writes fs) := by
  intro s hs
  have hk := writes_run hp (fs := fs) (pre := []) ha hs
  rw [show s.wrote [] = s from rfl] at hk
  cases hw : writes fs s with
  | ok a t => rw [hw] at hk; obtain ⟨u, hu, rfl⟩ := hk; exact hI u hu
  | error w t => rw [hw] at hk; obtain ⟨rfl, u, done, hu, hd, rfl⟩ := hk; exact hr u done hu hd

/-- One rule after another. -/
theorem Reaches.bind {K : State → Prop} {m : Eng α} {f : α → Eng β} (hm : Reaches I J E m) (hf : ∀ a, Reaches J K E (f a)) :
    Reaches I K E (m >>= f) := by
  intro s hs
  have h := hm s hs
  cases hr : m s with
  | ok a t => rw [hr] at h; rw [bind_ok hr]; exact hf a t h
  | error w t => rw [hr] at h; rw [bind_error hr]; exact h

/-- A rule whose last part establishes more than it keeps. -/
theorem Keeps.reaches {m : Eng α} {f : α → Eng β} {Q : α → Prop} (hm : Keeps I E m Q)
    (hf : ∀ a, Reaches I J E (f a)) : Reaches I J E (m >>= f) := by
  intro s hs
  have h := hm s hs
  cases hr : m s with
  | ok a t => rw [hr] at h; rw [bind_ok hr]; exact hf a t h.1
  | error w t => rw [hr] at h; rw [bind_error hr]; exact h

/-- A rule whose first part establishes more than it keeps. -/
theorem Keeps.into {m : Eng α} {f : α → Eng β} {R : β → Prop} (hm : Reaches I J E m)
    (hf : ∀ a, Keeps J E (f a) R) (hJ : ∀ s, J s → I s) : Keeps I E (m >>= f) R := by
  intro s hs
  have h := hm s hs
  cases hr : m s with
  | ok a t =>
    rw [hr] at h
    rw [bind_ok hr]
    have hk := hf a t h
    cases hr' : f a t with
    | ok b u => rw [hr'] at hk; exact ⟨hJ _ hk.1, hk.2⟩
    | error w u => rw [hr'] at hk; exact hk
  | error w t =>
    rw [hr] at h
    rw [bind_error hr]
    exact h

/-- What a finished rule may leave: what it reached, an error taken, a hold, or an Engine reset; or it stops with a
fault. -/
theorem finish_reaches {m : Eng Unit} (hm : Reaches I J E m) {s : State} (hs : I s) :
    (∃ t, finish m s = .next t ∧ (J t ∨ (∃ e u, E (.raised e) u ∧ t = u.takeError e) ∨ E .held t ∨
      ∃ u, E .reset u ∧ t = u.engineReset)) ∨ ∃ f u, E (.faulted f) u ∧ finish m s = .fault f := by
  have hk := hm s hs
  unfold finish
  cases hr : m s with
  | ok a t => rw [hr] at hk; exact .inl ⟨t, rfl, .inl hk⟩
  | error w t =>
    rw [hr] at hk
    cases w with
    | raised e => exact .inl ⟨_, rfl, .inr (.inl ⟨e, t, hk, rfl⟩)⟩
    | held => exact .inl ⟨t, rfl, .inr (.inr (.inl hk))⟩
    | reset => exact .inl ⟨_, rfl, .inr (.inr (.inr ⟨t, hk, rfl⟩))⟩
    | faulted f => exact .inr ⟨f, t, hk, rfl⟩

theorem Keeps.toReaches {m : Eng α} {Q : α → Prop} (hm : Keeps I E m Q) : Reaches I I E m := by
  intro s hs
  have h := hm s hs
  cases hr : m s with
  | ok a t => rw [hr] at h; exact h.1
  | error w t => rw [hr] at h; exact h

/-- A request reaches the end of its rule with `OP <- NONE`. -/
theorem request_reaches (h : OnLine p I E) {m : Eng Unit} (hm : Keeps I E m) :
    Reaches I (fun t => ∃ u, I u ∧ t = u.endRequest) E (do m; primitive State.endRequest) :=
  hm.reaches fun _ => primitive_reaches h fun u hu => ⟨u, hu, rfl⟩

/-- silicon-signature: the writes of the identity registers lead from `I` to `J` (R100). -/
theorem signatureBody_reaches (h : OnStatus p I E)
    (hi : ∀ d, d.length = 22 → Reaches I J E (writes (identityWrites d))) : Reaches I J E signatureBody := by
  refine (keeps_statusExchange h.toOnLine h.codec h.status h.reject _ (by simp)).reaches fun _ s hs => ?_
  have hk := keeps_decodeResponse h.toOnLine h.codec 22 s hs
  cases hr : decodeResponse 22 s with
  | ok d t => rw [hr] at hk; rw [bind_ok hr]; exact hi d hk.2 t hk.1
  | error w t => rw [hr] at hk; rw [bind_error hr]; exact hk

/-- A predicate on what no Transport call touches may be carried along. -/
theorem OnLine.and (h : OnLine p I E) {K : State → Prop} (ht : ∀ s, K s → K { s with script := s.script.tail })
    (hq : ∀ s b q, K s → K { s with line := { s.line with isOpen := b, rxq := q } }) (hl : ∀ s e, K s → K (s.log e))
    (hp : ∀ s, K s → K s.passed) :
    OnLine p (fun s => I s ∧ K s) E where
  params s hs := h.params s hs.1
  script s hs := ⟨h.script s hs.1, ht s hs.2⟩
  passed s hs := ⟨h.passed s hs.1, hp s hs.2⟩
  queue s b q hs := ⟨h.queue s b q hs.1, hq s b q hs.2⟩
  log s e he hs := ⟨h.log s e he hs.1, hl s e hs.2⟩
  sent s b hb hs := ⟨h.sent s b hb hs.1, hl s _ hs.2⟩
  reset s hs := h.reset s hs.1
  io s hs := h.io s hs.1
  short s b hb hs := h.short s b hb hs.1
  timeout s hs := h.timeout s hs.1

/-! ## Lines and rates -/

/-- What the handshake and RESET_AND_RUN write besides the line's queue. -/
structure OnControl (p : Params) (I : State → Prop) (E : Stop → State → Prop) : Prop extends OnLine p I E where
  rate : ∀ s r, I s → I (s.setRate r)
  parity : ∀ s r, I s → I (s.setParity r)
  drive : ∀ s sig b, I s → I (s.drive sig b)
  driven : ∀ s sig b, I s → I (s.driven sig b)
  linkBaud : ∀ s r, I s → I (s.setLinkBaud r)

theorem keeps_setBaud (h : OnControl p I E) (r : Nat) : Keeps I E (setBaud r) :=
  keeps_control h.toOnLine (fun s hs => h.rate s r hs) (by simp)

theorem keeps_setParity (h : OnControl p I E) (r : Option Parity) : Keeps I E (setParity r) :=
  keeps_control h.toOnLine (fun s hs => h.parity s r hs) (by simp)

theorem keeps_setLine (h : OnControl p I E) (sig : Signal) (b : Bool) : Keeps I E (setLine sig b) :=
  (keeps_control h.toOnLine (fun s hs => h.drive s sig b hs) (by simp)).bind fun _ _ =>
    keeps_primitive h.toOnLine fun s hs => h.driven s sig b hs

theorem keeps_setLinkBaud (h : OnControl p I E) (r : Nat) : Keeps I E (setLinkBaud r) :=
  (keeps_setBaud h r).bind fun _ _ => keeps_primitive h.toOnLine fun s hs => h.linkBaud s r hs

theorem keeps_runLines (h : OnControl p I E) : Keeps I E runLines :=
  (keeps_setLine h _ _).bind fun _ _ => (keeps_waitFor h.toOnLine _).bind fun _ _ => keeps_setLine h _ _

/-- The stops of a part whose errors change their form and their state. -/
def Reraised (f : Err → Err) (g : State → State) (E : Stop → State → Prop) : Stop → State → Prop
  | .raised e, s => E (.raised (f e)) (g s)
  | w, s => E w s

theorem Keeps.reraised {f : Err → Err} {g : State → State} {m : Eng α} {Q : α → Prop}
    (hm : Keeps I (Reraised f g E) m Q) : Keeps I E (Machine.onRaise f g m) Q :=
  Keeps.onRaise hm (fun _ _ h => h) fun w _ hw h => by
    cases w with
    | raised e => exact absurd rfl (hw e)
    | _ => exact h

theorem keeps_resetAndRunBody (h : OnControl p I E)
    (hw : ∀ s m, I s → I (s.setWiring m))
    (hq : ∀ s, I s → I (s.setSeq .idle)) (mode : Nat) : Keeps I E (resetAndRunBody mode) :=
  Keeps.bind (Keeps.update fun s hs => hw s mode hs) fun _ _ =>
    Keeps.bind (Q := fun _ => True)
      (Keeps.reraised (f := id) (g := fun s => s.setSeq .idle) (keeps_runLines { h with
        io := fun s hs => h.io _ (hq s hs)
        short := fun s b hb hs => h.short _ b hb (hq s hs)
        timeout := fun s hs => h.timeout _ (hq s hs) })) fun _ _ =>
      keeps_primitive h.toOnLine fun s hs => hq s hs

/-! ## The handshake -/

/-- The stops of a part of the handshake, whose errors are reported as `kind` and move `SEQ` to IDLE (R118, R120,
R122). -/
def Wrapped (kind : ErrKind) (E : Stop → State → Prop) : Stop → State → Prop :=
  Reraised (wrapError kind) (fun s => s.setSeq .idle) E

theorem keeps_handshakePart {kind : ErrKind} {m : Eng α} {Q : α → Prop} (hm : Keeps I (Wrapped kind E) m Q) :
    Keeps I E (handshakePart kind m) Q := hm.reraised

/-- How the Transport may stop a part of the handshake (R118, R120). -/
structure PartStops (p : Params) (I : State → Prop) (E : Stop → State → Prop) (kind : ErrKind) : Prop where
  io : ∀ s, I s → E (.raised (wrapError kind { kind := .io })) (s.setSeq .idle)
  short : ∀ s bytes, (∃ unit, WireUnit p unit ∧ bytes <+: unit) → I s →
    E (.raised (wrapError kind { kind := .io })) ((s.log (.tx bytes)).setSeq .idle)
  timeout : ∀ s, I s → E (.raised (wrapError kind { kind := .timeout })) (s.setSeq .idle)

theorem OnLine.wrapped (h : OnLine p I E) {kind : ErrKind} (hs : PartStops p I E kind) : OnLine p I (Wrapped kind E) :=
  { h with io := hs.io, short := hs.short, timeout := hs.timeout }

theorem OnControl.wrapped (h : OnControl p I E) {kind : ErrKind} (hs : PartStops p I E kind) :
    OnControl p I (Wrapped kind E) :=
  { h with toOnLine := h.toOnLine.wrapped hs }

/-- What the handshake writes, and how its parts may stop: step 4 only in the framed variant, an answer to mode-set that
is not ACK only in the G10 variant. -/
structure OnHandshake (p : Params) (I : State → Prop) (E : Stop → State → Prop) : Prop extends OnControl p I E where
  status : ∀ s b, I s → I (s.setStatus b)
  baud : ∀ f v, Keeps I E (writes (modeWrites f v))
  seq : ∀ s q, I s → I (s.setSeq q)
  syncStop : PartStops p I E .synchronizationFailed
  initStop : (∃ s, I s ∧ s.seqr.variant = some .framed) → PartStops p I E .initializationFailed
  initCodec : (∃ s, I s ∧ s.seqr.variant = some .framed) → CodecStops I (Wrapped .initializationFailed E)
  initReject : (∃ s, I s ∧ s.seqr.variant = some .framed) → RejectStops I (Wrapped .initializationFailed E)
  modeReject : (∃ s, I s ∧ s.seqr.variant = some .g10) → RejectStops I (Wrapped .synchronizationFailed E)
  targetBaud : ∀ s, I s → s.args.targetBaud.isSome = true ∨ ∀ s, I s → E (.faulted (.readNone .TARGET_BAUD)) s
  rateCode : ∀ s, I s → ∀ rate, s.args.targetBaud = some rate → (p.baudCode rate).isSome = true ∨
    ∀ s, I s → Wrapped .initializationFailed E (.raised { kind := .badRequest }) s
  voltage : ∀ s, I s → s.args.voltageMv.isSome = true ∨ ∀ s, I s → E (.faulted (.readNone .VOLTAGE_MV)) s
  delayed : ∀ s, I s → s.args.delayedStart.isSome = true ∨ ∀ s, I s → E (.faulted (.readNone .DELAYED_START)) s
  variant : ∀ s, I s → s.seqr.variant.isSome = true ∨ ∀ s, I s → E (.faulted (.readNone .VARIANT)) s

theorem keeps_stepOne (h : OnControl p I E) : Keeps I E stepOne :=
  Keeps.getState' fun _ _ => (keeps_setParity h _).bind fun _ _ => (keeps_setLinkBaud h _).bind fun _ _ =>
    (keeps_setLine h _ _).bind fun _ _ => keeps_setLine h _ _

theorem keeps_stepTwo (h : OnControl p I E) (hq : ∀ s q, I s → I (s.setSeq q)) : Keeps I E stepTwo :=
  (keeps_setLine h _ _).bind fun _ _ => (keeps_waitFor h.toOnLine _).bind fun _ _ =>
    (keeps_setLine h _ _).bind fun _ _ => (keeps_waitFor h.toOnLine _).bind fun _ _ =>
      (keeps_flush h.toOnLine).bind fun _ _ => keeps_primitive h.toOnLine fun s hs => hq s _ hs

theorem keeps_syncStep (h : OnLine p I E) (hq : ∀ s q, I s → I (s.setSeq q))
    (hw : PartStops p I E .synchronizationFailed) : Keeps I E syncStep := by
  have hl := h.wrapped hw
  refine keeps_handshakePart (Keeps.getState' fun s hs => ?_)
  rw [h.params s hs]
  exact (keeps_send hl .sync).bind fun _ _ => (keeps_flush hl).bind fun _ _ =>
    (keeps_waitFor hl _).bind fun _ _ => keeps_primitive hl fun s hs => hq s _ hs

theorem keeps_modeSetStep (h : OnLine p I E) (hq : ∀ s q, I s → I (s.setSeq q))
    (hw : PartStops p I E .synchronizationFailed) (hr : RejectStops I (Wrapped .synchronizationFailed E)) :
    Keeps I E modeSetStep := by
  have hl := h.wrapped hw
  refine keeps_handshakePart (Keeps.getState' fun s hs => ?_)
  rw [h.params s hs]
  refine (keeps_send hl .modeSet).bind fun _ _ => (keeps_recvRaw hl 2).bind fun r _ => ?_
  refine Keeps.bind (Q := fun _ => True) ?_ fun _ _ =>
    Keeps.bind (keeps_primitive hl fun s hs => hq s _ hs) fun _ _ => keeps_primitive hl fun s hs => hq s _ hs
  unfold modeSetCheck
  split
  · exact keeps_raise hl (hr _ ‹_›)
  · split
    · exact keeps_raise hl (hr _ ‹_›)
    · exact Keeps.pure _ trivial

/-- The set_baud of step 4, and of the request SET_BAUD. -/
theorem keeps_setBaudRate (h : OnStatus p I E) (hb : ∀ f v, Keeps I E (writes (modeWrites f v)))
    {rate : Nat} (hr : (p.baudCode rate).isSome = true ∨ ∀ s, I s → E (.raised { kind := .badRequest }) s) (mv : Nat) :
    Keeps I E (setBaudRate rate mv) := by
  refine Keeps.getState' fun s hs => ?_
  rw [h.params s hs]
  split
  · exact keeps_baudSetBody h hb _ _
  · next hn => exact keeps_raise h.toOnLine (hr.resolve_left (by simp [hn]))

theorem keeps_stepFour (h : OnHandshake p I E) (hf : ∃ s, I s ∧ s.seqr.variant = some .framed) :
    Keeps I E stepFour := by
  have hc := h.toOnControl.wrapped (h.initStop hf)
  have hst : OnStatus p I (Wrapped .initializationFailed E) :=
    { hc.toOnLine with status := h.status, codec := h.initCodec hf, reject := h.initReject hf }
  refine keeps_handshakePart (Keeps.getState' fun s hs => ?_)
  refine Keeps.bind (Keeps.needReg (h.targetBaud s hs)) fun rate hr =>
    Keeps.bind (Keeps.needReg (h.voltage s hs)) fun mv _ => ?_
  exact (keeps_setBaudRate hst (fun f v => (h.baud f v).writes_stops fun _ hs => hs) (h.rateCode s hs rate hr) mv).bind fun _ _ =>
    (keeps_setLinkBaud hc _).bind fun _ _ => keeps_primitive hc.toOnLine fun s hs => h.seq s _ hs

theorem keeps_initTail (h : OnHandshake p I E) : Keeps I E initTail := by
  refine Keeps.bind (keeps_primitive h.toOnLine fun s hs => h.seq s _ hs) fun _ _ => ?_
  refine (keeps_handshakePart (keeps_stepTwo (h.toOnControl.wrapped h.syncStop) h.seq)).bind fun _ _ =>
    Keeps.getState' fun s hs => ?_
  refine (Keeps.needReg (h.variant s hs)).bind fun v hv => ?_
  cases v with
  | framed => exact (keeps_syncStep h.toOnLine h.seq h.syncStop).bind fun _ _ => keeps_stepFour h ⟨s, hs, hv⟩
  | g10 => exact keeps_modeSetStep h.toOnLine h.seq h.syncStop (h.modeReject ⟨s, hs, hv⟩)

theorem keeps_holdReady
    (ha : ∀ s, I s → s.args.delayedStart.isSome = true ∨ ∀ s, I s → E (.faulted (.readNone .DELAYED_START)) s)
    (hh : ∀ s, I s → E .held s) : Keeps I E holdReady :=
  Keeps.getState' fun s hs => (Keeps.needReg (ha s hs)).bind fun d _ => by
    split
    · exact fun s hs => hh s hs
    · exact Keeps.pure _ trivial

/-- INIT from step 1 on: the handshake's parts in order, and the hold between them (R112, R117). -/
theorem keeps_initSteps (h : OnHandshake p I E) (hh : ∀ s, I s → E .held s) : Keeps I E initSteps :=
  (keeps_handshakePart (keeps_stepOne (h.toOnControl.wrapped h.syncStop))).bind fun _ _ =>
    (keeps_holdReady h.delayed hh).bind fun _ _ => keeps_initTail h

/-- INIT: the writes of R40 lead from `J` to `I`, which the handshake keeps. -/
theorem initBody_reaches (h : OnHandshake p I E) (hh : ∀ s, I s → E .held s) {proto : Nat}
    (hw : Reaches J I E (writes (sessionWrites proto))) : Reaches J I E (initBody proto) :=
  hw.bind fun _ => (keeps_initSteps h hh).toReaches

theorem keeps_initBody (h : OnHandshake p I E) (hh : ∀ s, I s → E .held s) {proto : Nat}
    (hw : Keeps I E (writes (sessionWrites proto))) : Keeps I E (initBody proto) :=
  hw.bind fun _ _ => keeps_initSteps h hh

/-! ## The block controller -/

/-- What REGION writes, and how it may stop (R125, R135). -/
structure OnRegion (p : Params) (I : State → Prop) (E : Stop → State → Prop) : Prop extends OnCommand p I E where
  notBlank : ∀ s b, I s → I (s.setNotBlank b)
  block : ∀ s i, I s → I (s.setBlock i)
  blocks : ∀ s n, I s → I (s.setBlocks n)
  emit : ∀ s d, I s → I (s.emit d)
  failed : ∀ a, FrameStops I E .programFailed a
  mismatch : ∀ a, FrameStops I E .mismatchError a

theorem keeps_eraseBlock (h : OnRegion p I E) (a e : Addr) : Keeps I E (eraseBlock a e) :=
  (keeps_blankBody h.toOnStatus h.notBlank a e).bind fun nb _ => by
    split
    · exact keeps_eraseBody h.toOnStatus a
    · exact keeps_primitive h.toOnLine fun s hs => h.emit s _ hs

theorem keeps_programBlock (h : OnRegion p I E) (a e : Addr) (blk : List Byte) {frames : List (Eng (List Byte))}
    (hb : FramesKeep I E frames) : Keeps I E (programBlock a e blk frames) := by
  unfold programBlock
  split
  · exact keeps_primitive h.toOnLine fun s hs => h.emit s _ hs
  · refine (keeps_blankBody h.toOnStatus h.notBlank a e).bind fun nb _ =>
      Keeps.bind (Q := fun _ => True) ?_ fun _ _ => keeps_programBody h.toOnCommand a e (h.failed a) hb
    unfold eraseIf
    split
    · exact keeps_eraseBody h.toOnStatus a
    · exact Keeps.pure _ trivial

theorem keeps_verifyBlock (h : OnRegion p I E) (a e : Addr) (blk : List Byte) {frames : List (Eng (List Byte))}
    (hb : FramesKeep I E frames) : Keeps I E (verifyBlock a e blk frames) := by
  unfold verifyBlock
  split
  · exact (keeps_blankBody h.toOnStatus h.notBlank a e).bind fun nb _ => by
      split
      · exact keeps_raise h.toOnLine (h.mismatch a)
      · exact Keeps.pure _ trivial
  · exact keeps_verifyBody h.toOnCommand a e (h.mismatch a) hb

theorem keeps_regionBlock (h : OnRegion p I E) (mode : CMode) (b : Buf) (base : Addr) {bs i : Nat}
    (hb : ∀ s, I s → i * bs + bs ≤ (s.buffer b).size) : Keeps I E (regionBlock mode b base bs i) := by
  refine Keeps.bind (keeps_primitive h.toOnLine fun s hs => h.block s i hs) fun _ _ => ?_
  cases mode
  · exact keeps_eraseBlock h _ _
  · exact (keeps_memRead h.toOnLine (.inl hb)).bind fun blk _ =>
      keeps_programBlock h _ _ blk (keeps_bufferFrames h.toOnLine (.inl hb))
  · exact (keeps_memRead h.toOnLine (.inl hb)).bind fun blk _ =>
      keeps_verifyBlock h _ _ blk (keeps_bufferFrames h.toOnLine (.inl hb))

theorem keeps_regionLoop (h : OnRegion p I E) (mode : CMode) (b : Buf) (base : Addr) {bs : Nat} :
    ∀ (n i : Nat), (∀ s, I s → (i + n) * bs ≤ (s.buffer b).size) → Keeps I E (regionLoop mode b base bs n i)
  | 0, _, _ => Keeps.pure _ trivial
  | n + 1, i, hb => by
    refine (keeps_regionBlock h mode b base fun s hs => ?_).bind fun _ _ =>
      keeps_regionLoop h mode b base n (i + 1) fun s hs => ?_
    · have := hb s hs
      have h1 : (i + (n + 1)) * bs = i * bs + bs + n * bs := by ring
      omega
    · have := hb s hs
      rwa [show i + 1 + n = i + (n + 1) by omega]

/-- A region whose bounds were checked when it was accepted stays inside its buffer (R45, R126). -/
theorem keeps_regionBody (h : OnRegion p I E) (mode : CMode) (b : Buf) (base : Addr) {size bs : Nat}
    (hw : Keeps I E (writes (regionWrites mode b base size)))
    (hbs : ∀ s, I s → s.seqr.blockSz = some bs) (hb : ∀ s, I s → size ≤ (s.buffer b).size) :
    Keeps I E (regionBody mode b base size) := by
  refine hw.bind fun _ _ => ?_
  unfold regionBlocks
  split
  · exact Keeps.pure _ trivial
  · refine Keeps.getState' fun s hs => ?_
    rw [hbs s hs]
    refine (Keeps.needReg (.inl rfl)).bind fun bs' hbs' => ?_
    cases hbs'
    refine Keeps.bind (keeps_primitive h.toOnLine fun s hs => h.blocks s (blockCount size bs) hs) fun _ _ => ?_
    refine keeps_regionLoop h mode b base _ 0 fun s hs => ?_
    have := hb s hs
    have := Nat.div_mul_le_self size bs
    unfold blockCount
    rw [Nat.zero_add]; omega

/-! ## The whole-image variant -/

/-- What the whole-image requests write, and how they may stop (R145 to R154). -/
structure OnImage (p : Params) (I : State → Prop) (E : Stop → State → Prop) : Prop extends OnLine p I E where
  resp : ∀ a b c, Keeps I E (writes (responseWrites a b c))
  pollCnt : ∀ s n, n ≤ Config.g10PollMax → I s → I (s.setPoll n)
  widx : ∀ s n, I s → I (s.setWord n)
  sizeStop : ∀ c s, I s → E (.raised { kind := .sizeMismatch, status := some c }) s
  wordStop : ∀ w s, I s → E (.raised { kind := .programFailed, addr := some (wordAddr w) }) s

/-- The capacity code is there. -/
def HasCode (I : State → Prop) (s : State) : Prop := I s ∧ s.g10.capCode.isSome = true

theorem OnLine.hasCode (h : OnLine p I E) : OnLine p (HasCode I) E :=
  h.and (fun _ hs => hs) (fun _ _ _ hs => hs) (fun _ _ hs => hs) fun s hs => by rw [passed_eq]; exact hs

/-- Writing the response registers leaves the capacity code there. -/
theorem responseWrites_reaches {a b c : Byte} (hw : Keeps I E (writes (responseWrites a b c))) :
    Reaches I (HasCode I) E (writes (responseWrites a b c)) := by
  intro s hs
  have hI := hw s hs
  have hk := writes_run (I := fun _ => True) (fun _ _ => trivial) (fs := responseWrites a b c) (pre := [])
    (by simp [responseWrites, Aside]) (s := s) trivial
  rw [show s.wrote [] = s from rfl] at hk
  cases hr : writes (responseWrites a b c) s with
  | ok x t =>
    rw [hr] at hI hk
    obtain ⟨u, -, rfl⟩ := hk
    exact ⟨hI.1, rfl⟩
  | error w t => rw [hr] at hI; exact hI

theorem openImage_reaches (h : OnImage p I E) {cmd : Byte} (hc : WireUnit p [cmd]) :
    Reaches I (HasCode I) E (openImage cmd) :=
  (keeps_send h.toOnLine hc).reaches fun _ => (keeps_recvRaw h.toOnLine 3).reaches fun _ =>
    responseWrites_reaches (h.resp _ _ _)

theorem keeps_openImage (h : OnImage p I E) {cmd : Byte} (hc : WireUnit p [cmd]) : Keeps I E (openImage cmd) := by
  intro s hs
  have hk := openImage_reaches h hc s hs
  cases hr : openImage cmd s with
  | ok a t => rw [hr] at hk; exact ⟨hk.1, trivial⟩
  | error w t => rw [hr] at hk; exact hk

theorem keeps_nackUnit (h : OnLine p I E) (hz : ∀ c s, I s → E (.raised { kind := .sizeMismatch, status := some c }) s) :
    Keeps (HasCode I) E nackUnit :=
  (keeps_send h.hasCode .nack).bind fun _ _ => Keeps.getState' fun _ hs =>
    (Keeps.needReg (.inl hs.2)).bind fun c _ => keeps_raise h.hasCode fun s hs => hz c s hs.1

theorem keeps_capacityCheck (h : OnImage p I E) (size : Nat) : Keeps (HasCode I) E (capacityCheck size) :=
  Keeps.getState' fun _ hs => (Keeps.needReg (.inl hs.2)).bind fun c _ => by
    split
    · exact keeps_send h.toOnLine.hasCode .ack
    · exact keeps_nackUnit h.toOnLine h.sizeStop

theorem keeps_pollLoop (h : OnImage p I E) : ∀ (left used : Nat), used + left = Config.g10PollMax →
    Keeps I E (pollLoop left used)
  | 0, _, _ => keeps_raise h.toOnLine h.timeout
  | left + 1, used, hu => by
    refine Keeps.bind (keeps_primitive h.toOnLine fun s hs => h.pollCnt s _ (by omega) hs) fun _ _ =>
      (keeps_recvByte h.toOnLine).bind fun b _ => ?_
    split
    · exact Keeps.pure _ trivial
    · exact keeps_pollLoop h left (used + 1) (by omega)

/-- The poll uses at most its attempts (R33, R148). -/
theorem keeps_poll (h : OnImage p I E) : Keeps I E poll :=
  Keeps.bind (keeps_primitive h.toOnLine fun s hs => h.pollCnt s 0 (by decide) hs) fun _ _ => keeps_pollLoop h _ _ (by simp)

/-- The word index is there. -/
def HasWord (I : State → Prop) (s : State) : Prop := I s ∧ s.g10.widx.isSome = true

theorem OnLine.hasWord (h : OnLine p I E) : OnLine p (HasWord I) E :=
  h.and (fun _ hs => hs) (fun _ _ _ hs => hs) (fun _ _ hs => hs) fun s hs => by rw [passed_eq]; exact hs

theorem keeps_wordUnit (h : OnLine p I E)
    (hw : ∀ w s, I s → E (.raised { kind := .programFailed, addr := some (wordAddr w) }) s) {bytes : List Byte}
    (hb : bytes.length = 4) : Keeps (HasWord I) E (wordUnit bytes) := by
  obtain ⟨b0, b1, b2, b3, rfl⟩ : ∃ b0 b1 b2 b3, bytes = [b0, b1, b2, b3] := by
    match bytes, hb with
    | [b0, b1, b2, b3], _ => exact ⟨b0, b1, b2, b3, rfl⟩
  refine (keeps_send h.hasWord (.word b0 b1 b2 b3)).bind fun _ _ => (keeps_recvRaw h.hasWord 1).bind fun a _ => ?_
  split
  · exact Keeps.pure _ trivial
  · exact Keeps.getState' fun _ hs => (Keeps.needReg (.inl hs.2)).bind fun w _ => keeps_raise h.hasWord fun s hs => hw w s hs.1

theorem keeps_wordLoop (h : OnImage p I E) : ∀ (n w : Nat), (∀ s, I s → 4 * (w + n) ≤ s.code.size) →
    Keeps I E (wordLoop n w)
  | 0, _, _ => Keeps.pure _ trivial
  | n + 1, w, hb => by
    have hs : wordLoop (n + 1) w = (do
        primitive fun s => s.setWord w
        let bytes ← memRead .code (Config.g10Word * w) Config.g10Word
        wordUnit bytes : Eng Unit) >>= fun _ => wordLoop n (w + 1) := by
      simp only [wordLoop, bind_assoc]
    rw [hs]
    refine Keeps.bind (Q := fun _ => True) ?_ fun _ _ => keeps_wordLoop h n (w + 1) fun s hs => by
      have := hb s hs; omega
    refine Keeps.into (J := HasWord I) (primitive_reaches h.toOnLine fun s hs => ⟨h.widx s w hs, rfl⟩) (fun _ => ?_) (fun _ hs => hs.1)
    refine (keeps_memRead h.toOnLine.hasWord (.inl fun s hs => ?_)).bind fun bytes hl => keeps_wordUnit h.toOnLine h.wordStop hl
    have := hb s hs.1
    simp only [Config.g10Word, State.buffer]; omega

/-- The opening exchange and its check, in either request (R145, R146, R153). -/
theorem keeps_openChecked (h : OnImage p I E) {op : Eng Unit} {cmd : Byte}
    (ho : ∀ s, I s → op s = openImage cmd s) (hc : WireUnit p [cmd]) (size : Nat) :
    Keeps I E (do op; capacityCheck size) :=
  Keeps.into (J := HasCode I) (fun s hs => by rw [ho s hs]; exact openImage_reaches h hc s hs)
    (fun _ => keeps_capacityCheck h size) fun _ hs => hs.1

/-- G10_ERASE_WRITE: the image stays inside its buffer (R45, R78). -/
theorem keeps_eraseWriteBody (h : OnImage p I E) {size : Nat} (hb : ∀ s, I s → size ≤ s.code.size) :
    Keeps I E (eraseWriteBody size) := by
  unfold eraseWriteBody
  split
  · exact Keeps.pure _ trivial
  · have ho := keeps_openChecked h (op := eraseWriteOpen) (cmd := p.g10EraseWrite)
      (fun s hs => by rw [← h.params s hs]; rfl) .eraseWrite size
    rw [← bind_assoc]
    exact ho.bind fun _ _ => (keeps_poll h).bind fun _ _ => keeps_wordLoop h _ _ fun s hs => by
      have := hb s hs
      simp only [Config.g10Word]; omega

/-- G10_CRC_CHECK once the device's value is read, where each write keeps the predicate. -/
theorem keeps_crcRegisters (h : OnLine p I E) {dev : Half} {size : Nat}
    (hb : (∀ s, I s → size ≤ s.code.size) ∨ ∀ s, I s → E (.faulted (.beyondBuffer .code)) s)
    (h1 : ∀ s, I s → I (s.setCrcDev dev)) (h2 : ∀ s l, I s → I (s.setCrcLocal l)) (h3 : ∀ s b, I s → I (s.setCrcOk b))
    (he : ∀ s, I s → E (.raised { kind := .checksumMismatch }) s) : Keeps I E (crcRegisters dev size) :=
  (keeps_primitive h h1).bind fun _ _ =>
    (keeps_memRead h (b := .code) (hb.imp_left fun hc s hs => by simpa [State.buffer] using hc s hs)).bind fun image _ =>
      Keeps.getState' fun s _ => (keeps_primitive h fun t ht => h2 t _ ht).bind fun _ _ =>
        (keeps_primitive h fun t ht => h3 t _ ht).bind fun _ _ => by
          split
          · exact Keeps.pure _ trivial
          · exact keeps_raise h he

/-- The same where only the three writes together keep it, of which the last compares what the other two wrote; an Engine
reset may come behind either of them (R153, R154). -/
theorem keeps_crcGroup (h : OnLine p I E) {dev : Half} {size : Nat}
    (hb : (∀ s, I s → size ≤ s.code.size) ∨ ∀ s, I s → E (.faulted (.beyondBuffer .code)) (s.setCrcDev dev))
    (hI : ∀ s l, I s → I (((s.setCrcDev dev).setCrcLocal l).setCrcOk (l == dev)))
    (h1 : ∀ s, I s → E .reset (s.setCrcDev dev)) (h2 : ∀ s l, I s → E .reset ((s.setCrcDev dev).setCrcLocal l))
    (he : ∀ s, I s → E (.raised { kind := .checksumMismatch }) s) : Keeps I E (crcRegisters dev size) := by
  have hd (s : State) : (s.setCrcDev dev).passed = s.passed.setCrcDev dev :=
    passed_wrote (fs := [fun s => s.setCrcDev dev]) (by simp [Aside, State.setCrcDev]) s
  have hl (s : State) (l : Half) : (s.setCrcLocal l).passed = s.passed.setCrcLocal l :=
    passed_wrote (fs := [fun s => s.setCrcLocal l]) (by simp [Aside, State.setCrcLocal]) s
  have hp : ∀ s, (∃ u, I u ∧ s = u.setCrcDev dev) → ∃ u, I u ∧ s.passed = u.setCrcDev dev := by
    rintro _ ⟨u, hu, rfl⟩
    exact ⟨u.passed, h.passed u hu, hd u⟩
  have hreset : ∀ s, (∃ u, I u ∧ s = u.setCrcDev dev) → E .reset s.passed := fun s hs => by
    obtain ⟨v, hv, he⟩ := hp s hs
    rw [he]
    exact h1 v hv
  have hread : Reaches (fun s => ∃ u, I u ∧ s = u.setCrcDev dev) (fun s => ∃ u, I u ∧ s = u.setCrcDev dev) E
      (memRead .code 0 size) := by
    refine Reaches.bind (J := fun s => ∃ u, I u ∧ s = u.setCrcDev dev) ?_ fun _ => ?_
    · intro s hs
      rw [moment_eq]
      cases (s.moments.headD {}).reset
      · exact hp s hs
      · exact hreset s hs
    · rintro _ ⟨u, hu, rfl⟩
      rw [getState_bind]
      by_cases hz : size ≤ u.code.size
      · rw [if_pos (by simpa [State.buffer] using hz)]
        exact ⟨u, hu, rfl⟩
      · rw [if_neg (by simpa [State.buffer] using hz)]
        exact hb.resolve_left (fun hc => hz (hc u hu)) u hu
  have hcompare (l : Half) : Reaches (fun s => ∃ u, I u ∧ s = (u.setCrcDev dev).setCrcLocal l) I E (crcCompare dev l) := by
    refine Reaches.bind (J := I) (primitive_run ?_ ?_) fun _ => Keeps.toReaches (Q := fun _ => True) ?_
    · rintro _ ⟨u, hu, rfl⟩; rw [hl, hd]; exact hI _ _ (h.passed u hu)
    · rintro _ ⟨u, hu, rfl⟩; rw [hl, hd]; exact h2 _ _ (h.passed u hu)
    · split
      · exact Keeps.pure _ trivial
      · exact keeps_raise h he
  have hall : Reaches I I E (crcRegisters dev size) := by
    refine Reaches.bind (primitive_reaches (J := fun s => ∃ u, I u ∧ s = u.setCrcDev dev) h fun s hs => ⟨s, hs, rfl⟩)
      fun _ => hread.bind fun image => ?_
    · intro s hs
      rw [getState_bind]
      refine Reaches.bind (I := fun s => ∃ u, I u ∧ s = u.setCrcDev dev) (primitive_run ?_ hreset) (fun _ => hcompare _) s hs
      intro t ht
      obtain ⟨v, hv, he⟩ := hp t ht
      exact ⟨v, hv, by rw [he]⟩
  intro s hs
  have hk := hall s hs
  cases hr : crcRegisters dev size s with
  | ok a t => rw [hr] at hk; exact ⟨hk, trivial⟩
  | error w t => rw [hr] at hk; exact hk

/-- G10_CRC_CHECK: as above. -/
theorem keeps_crcCheckBody (h : OnImage p I E) {size : Nat}
    (hr : ∀ dev, Keeps I E (crcRegisters dev size)) : Keeps I E (crcCheckBody size) := by
  unfold crcCheckBody
  split
  · exact Keeps.pure _ trivial
  · have ho := keeps_openChecked h (op := crcCheckOpen) (cmd := p.g10CrcCheck)
      (fun s hs => by rw [← h.params s hs]; rfl) .crcCheck size
    rw [← bind_assoc]
    exact ho.bind fun _ _ => (keeps_recvRaw h.toOnLine 2).bind fun d _ => Keeps.getState' fun s _ => hr _

/-! ## Rows run on their own -/

/-- g10-nack as a row: without a capacity code it stops with a fault. -/
theorem keeps_nackRow (h : OnLine p I E) (hz : ∀ c s, I s → E (.raised { kind := .sizeMismatch, status := some c }) s)
    (hf : ∀ s, I s → E (.faulted (.readNone .G10_CAP_CODE)) s) : Keeps I E nackUnit :=
  (keeps_send h .nack).bind fun _ _ => Keeps.getState' fun _ _ =>
    (Keeps.needReg (.inr hf)).bind fun c _ => keeps_raise h (hz c)

/-- g10-word as a row: a word that is not acknowledged stops with a fault where there is no word index. -/
theorem keeps_wordRow (h : OnLine p I E) (hw : ∀ w s, I s → E (.raised { kind := .programFailed, addr := some (wordAddr w) }) s)
    (hf : ∀ s, I s → E (.faulted (.readNone .WIDX)) s) (b0 b1 b2 b3 : Byte) : Keeps I E (wordUnit [b0, b1, b2, b3]) :=
  (keeps_send h (.word b0 b1 b2 b3)).bind fun _ _ => (keeps_recvRaw h 1).bind fun a _ => by
    split
    · exact Keeps.pure _ trivial
    · exact Keeps.getState' fun _ _ => (Keeps.needReg (.inr hf)).bind fun w _ => keeps_raise h (hw w)

/-- data-frame as a row, whatever its payload (R86). -/
theorem keeps_dataRow (h : OnLine p I E) (hl : ∀ s, I s → E (.raised { kind := .payloadTooLarge }) s)
    (hb : ∀ s, I s → E (.raised { kind := .badRequest }) s) (bytes : List Byte) (last : Bool) : Keeps I E (sendData bytes last) := by
  by_cases h1 : 1 ≤ bytes.length ∧ bytes.length ≤ 256
  · exact keeps_sendData h h1.1 h1.2 last
  refine Keeps.getState' fun s _ => ?_
  unfold encodeData
  split
  · exact keeps_raise h hl
  · next h2 =>
    rw [if_pos (by simp [Config.dataPayloadMax] at h2; omega)]
    exact keeps_raise h hb

/-- response-frame as a row, whatever its payload (R89). -/
theorem keeps_responseRow (h : OnLine p I E) (hc : CodecStops I E) (hl : ∀ s, I s → E (.raised { kind := .payloadTooLarge }) s)
    (hb : ∀ s, I s → E (.raised { kind := .badRequest }) s) (bytes : List Byte) (last : Bool) :
    Keeps I E (takeResponse bytes last) := by
  refine Keeps.getState' fun _ _ => ?_
  split
  · next k hk =>
    unfold encodeData at hk
    split at hk
    · cases hk; exact keeps_raise h hl
    · split at hk <;> cases hk
      exact keeps_raise h hb
  · exact Keeps.bind (Keeps.update fun s hs => h.receive _ hs) fun _ _ =>
      (keeps_decodeResponse h hc _).bind fun _ _ => Keeps.pure _ trivial

/-- Bytes on the line that are no response frame (R77). -/
theorem keeps_takeMalformed (h : OnLine p I E) (hc : CodecStops I E) (bytes : List Byte) :
    Keeps I E (takeMalformed bytes) :=
  Keeps.bind (Keeps.update fun _ hs => h.receive _ hs) fun _ _ =>
    (keeps_decodeResponse h hc _).bind fun _ _ => Keeps.pure _ trivial

end Sys2Proof.Machine
end

