-- ==== Sys2Proof/Laws/Exec.lean ====
section
/-! SUPPORT. What every instruction is: a unit of the wire run on its own, or a request, with its precondition, what it
latches and its rule. -/

namespace Sys2Proof.Machine

/-- The whole of an instruction: its rule from its first primitive to its last where it is taken, and elsewhere the
refusal of a request or of a unit of the wire (R79). -/
theorem exec_eq (i : Instr) (s : State) :
    exec i s = if s.seqr.op.isNone && accepts i s then finish (ruleOf i) (started i s)
      else .next (match i.request with
        | some r => s.refuse r.code
        | none => s.refuseUnit) := by
  cases i <;> rfl

/-- Every instruction that is no request is a unit, run where it is allowed and turned away elsewhere. -/
theorem exec_unit {i : Instr} (h : i.request = none) :
    ∃ (allowed : State → Bool) (m : Eng Unit), ∀ s, exec i s = runUnit allowed m s :=
  ⟨accepts i, body i, fun s => by rw [exec_eq, started, ruleOf, h]; rfl⟩

/-- Every request is accepted where its precondition holds and refused elsewhere (R79). -/
theorem exec_request {i : Instr} {r : Req} (h : i.request = some r) :
    ∃ (allowed : State → Bool) (latch : State → State) (m : Eng Unit), ∀ s, exec i s = runRequest r allowed latch m s :=
  ⟨accepts i, latched i, body i, fun s => by rw [exec_eq, started, ruleOf, h]; rfl⟩

/-! ## Between two primitives -/

theorem accepts_resetAfter (i : Instr) (k : Nat) (s : State) : accepts i (s.resetAfter k) = accepts i s := by
  cases i <;> rfl

theorem started_resetAfter (i : Instr) (k : Nat) (s : State) : started i (s.resetAfter k) = (started i s).resetAfter k := by
  cases i <;> rfl

/-- Where a rule has come to after `k` primitives, it was reset there. -/
theorem stateAfter_reset {m : Eng Unit} {k : Nat} {s u : State} (h : stateAfter m k s = some u) :
    m (s.resetAfter k) = .error .reset u := by
  unfold stateAfter at h
  split at h
  · next hr =>
    split at h
    · cases h
    · cases h; exact hr
  · cases h

/-- The same of an instruction, which was accepted. -/
theorem between_reset {i : Instr} {k : Nat} {s u : State} (h : between i k s = some u) :
    s.seqr.op = none ∧ accepts i s = true ∧ ruleOf i ((started i s).resetAfter k) = .error .reset u := by
  unfold between at h
  split at h
  · next hc =>
    rw [Bool.and_eq_true, Option.isNone_iff_eq_none] at hc
    exact ⟨hc.1, hc.2, stateAfter_reset h⟩
  · cases h

/-- A reset after `k` primitives abandons an instruction where it has come to by then (R176). -/
theorem exec_resetAfter {i : Instr} {k : Nat} {s u : State} (h : between i k s = some u) :
    exec i (s.resetAfter k) = .next u.engineReset := by
  obtain ⟨ho, ha, hr⟩ := between_reset h
  rw [exec_eq, accepts_resetAfter, started_resetAfter, ha, show (s.resetAfter k).seqr.op = none from ho]
  exact finish_reset hr

/-- The same of a held INIT that goes on. -/
theorem resumeInit_resetAfter {k : Nat} {s u : State} (h : betweenHeld k s = some u) :
    resumeInit (s.resetAfter k) = .next u.engineReset := finish_reset (stateAfter_reset h)

end Sys2Proof.Machine
end

