-- ==== Sys2Proof/Laws/Image.lean ====
section
/-! SUPPORT. What the parts of the whole-image variant answer when the line does as the terms of Safety.lean say. -/

namespace Sys2Proof.Machine

variable {f : List Byte → List Byte} {s : State} {rest : List Tick}

/-- Unframed bytes sent and answered by unframed bytes (R67). -/
theorem sendRaw_answered {bytes reply : List Byte} (hc : s.lineClear) (hf : EchoLike f) (hb : bytes ≠ [])
    (hr : reply ≠ []) (hs : s.script = rawTicks s.params f bytes reply ++ rest) :
    (do
      send bytes
      recvRaw reply.length : Eng (List Byte)) s = .ok reply (s.onLine rest [] (rawEvents s.params bytes reply)) := by
  have h1 := send_ok (bytes := bytes) (reply := reply) (rest := quiet :: rest) hc hb (hf _)
    (by simpa [rawTicks] using hs)
  refine (bind_ok h1).trans ?_
  refine (recvRaw_delivers (bytes := []) (a := reply) (b := []) (rest := rest) (by exact hc.2.2)
    (by exact hc.1) (by rfl) hr (by simp)).trans ?_
  simp [rawEvents]

/-- `sendRaw_answered` with what follows. -/
theorem sendRaw_bind {α : Type} {bytes reply : List Byte} {n : Nat} {g : List Byte → Eng α} (hc : s.lineClear)
    (hf : EchoLike f) (hb : bytes ≠ []) (hr : reply ≠ []) (hn : reply.length = n)
    (hs : s.script = rawTicks s.params f bytes reply ++ rest) :
    (do
      send bytes
      let r ← recvRaw n
      g r : Eng α) s = g reply (s.onLine rest [] (rawEvents s.params bytes reply)) := by
  subst hn
  have h := sendRaw_answered hc hf hb hr hs
  have : (do
      send bytes
      let r ← recvRaw reply.length
      g r : Eng α) = (do
      let r ← (do
        send bytes
        recvRaw reply.length)
      g r) := by simp
  rw [this]
  exact bind_ok h

theorem openImage_answered {cmd r0 r1 code : Byte} (hc : s.lineClear) (hf : EchoLike f)
    (hs : s.script = rawTicks s.params f [cmd] [r0, r1, code] ++ rest) :
    openImage cmd s = .ok () ((s.onLine rest [] (rawEvents s.params [cmd] [r0, r1, code])).setResponse r0 r1 code) :=
  (sendRaw_bind (n := 3) (reply := [r0, r1, code]) hc hf (by simp) (by simp) rfl hs).trans
    (writes_calm (responseWrites_aside _ _ _) (by exact hc.2.2))

theorem eraseWriteOpen_answered {r0 r1 code : Byte} (hc : s.lineClear) (hf : EchoLike f)
    (hs : s.script = rawTicks s.params f [s.params.g10EraseWrite] [r0, r1, code] ++ rest) :
    eraseWriteOpen s =
      .ok () ((s.onLine rest [] (rawEvents s.params [s.params.g10EraseWrite] [r0, r1, code])).setResponse r0 r1 code) :=
  openImage_answered hc hf hs

theorem crcCheckOpen_answered {r0 r1 code : Byte} (hc : s.lineClear) (hf : EchoLike f)
    (hs : s.script = rawTicks s.params f [s.params.g10CrcCheck] [r0, r1, code] ++ rest) :
    crcCheckOpen s =
      .ok () ((s.onLine rest [] (rawEvents s.params [s.params.g10CrcCheck] [r0, r1, code])).setResponse r0 r1 code) :=
  openImage_answered hc hf hs

theorem ackUnit_answered (hc : s.lineClear) (hf : EchoLike f)
    (hs : s.script = sendTicks s.params (f [Config.ack]) [] ++ rest) :
    ackUnit s = .ok () (s.onLine rest [] (sendEvents s.params [Config.ack])) :=
  send_ok hc (by simp) (hf _) hs

/-- NACK and its abort (R147). -/
theorem nackUnit_answered {code : Byte} (hc : s.lineClear) (hf : EchoLike f) (hg : s.g10.capCode = some code)
    (hs : s.script = sendTicks s.params (f [Config.nack]) [] ++ rest) :
    nackUnit s = .error (.raised { kind := .sizeMismatch, status := some code })
      (s.onLine rest [] (sendEvents s.params [Config.nack])) := by
  unfold nackUnit
  rw [bind_ok (send_ok hc (by simp) (hf _) hs)]
  exact (getState_bind ..).trans ((bind_ok (needReg_some _ hg _)).trans (raise_calm (by exact hc.2.2) _))

/-- The capacity check of an image that fits (R146). -/
theorem capacityCheck_fits {code : Byte} {size : Nat} (hc : s.lineClear) (hf : EchoLike f)
    (hg : s.g10.capCode = some code) (hz : s.params.g10Cap code = some size)
    (hs : s.script = sendTicks s.params (f [Config.ack]) [] ++ rest) :
    capacityCheck size s = .ok () (s.onLine rest [] (sendEvents s.params [Config.ack])) := by
  unfold capacityCheck
  rw [getState_bind, bind_ok (needReg_some _ hg _), if_pos hz]
  exact ackUnit_answered hc hf hs

/-- The capacity check of an image that does not (R146, R147). -/
theorem capacityCheck_mismatch {code : Byte} {size : Nat} (hc : s.lineClear) (hf : EchoLike f)
    (hg : s.g10.capCode = some code) (hz : s.params.g10Cap code ≠ some size)
    (hs : s.script = sendTicks s.params (f [Config.nack]) [] ++ rest) :
    capacityCheck size s = .error (.raised { kind := .sizeMismatch, status := some code })
      (s.onLine rest [] (sendEvents s.params [Config.nack])) := by
  unfold capacityCheck
  rw [getState_bind, bind_ok (needReg_some _ hg _), if_neg hz]
  exact nackUnit_answered hc hf hg hs

/-! ## The CRC -/

/-- The two CRC registers and their comparison, while nothing arrives (R153, R154). -/
theorem crcRegisters_calm {dev : Half} {size : Nat} (hc : s.calm) (hz : size ≤ s.code.size) :
    crcRegisters dev size s =
      let loc := crc16 s.params (s.code.slice 0 size)
      let t := ((s.setCrcDev dev).setCrcLocal loc).setCrcOk (loc == dev)
      if loc = dev then .ok () t else .error (.raised { kind := .checksumMismatch }) t := by
  refine (primitive_bind hc ..).trans ((bind_ok (memRead_ok (s := s.setCrcDev dev) (b := .code) hc
    (by show 0 + size ≤ s.code.size; omega))).trans ((getState_bind ..).trans ((primitive_bind (by exact hc) ..).trans
      ((primitive_bind (by exact hc) ..).trans ?_))))
  exact check_calm (by exact hc) _

/-! ## The poll -/

/-- One read attempt (R11). -/
theorem recvByte_delivers {m : Option Byte} (hc : s.lineClear) (hs : s.script = delivers m.toList :: rest) :
    recvByte s = .ok m (s.onLine rest [] [match m with | none => .rxNone | some b => .rxRaw [b]]) := by
  unfold recvByte
  refine (transport_bind hc.2.2 hc.1 _).trans ((bind_ok (readBytes_delivers (rest := rest) 1 hs)).trans ?_)
  rw [update_bind, hc.2.1]
  cases m <;> simp [State.onLine, State.log, pure_run]

/-- Attempts that give no ACK: the poll goes on (R148). -/
theorem pollLoop_misses : ∀ {misses : List (Option Byte)} {left used : Nat} {s : State}, s.lineClear →
    (∀ m ∈ misses, m ≠ some Config.ack) → s.script = pollTicks misses ++ rest →
    s.g10.pollCnt = some used →
    pollLoop (misses.length + left) used s =
      pollLoop left (used + misses.length)
        ((s.onLine rest [] (pollEvents misses)).setPoll (used + misses.length))
  | [], left, used, s, hc, _, hs, hu => by
    have : (s.onLine rest [] (pollEvents [])).setPoll (used + 0) = s := by
      obtain ⟨h1, h2, -⟩ := hc
      simp only [pollTicks, List.map_nil, List.nil_append] at hs
      simp [State.onLine, State.setPoll, pollEvents, ← hs, ← h2, ← hu]
    simp only [List.length_nil, Nat.zero_add, Nat.add_zero] at this ⊢
    rw [this]
  | m :: r, left, used, s, hc, hm, hs, hu => by
    rw [show (m :: r).length + left = (r.length + left) + 1 by simp; omega, pollLoop]
    refine (primitive_bind hc.2.2 ..).trans ?_
    have hc' : (s.setPoll (used + 1)).lineClear := hc
    have h1 := recvByte_delivers (m := m) (rest := pollTicks r ++ rest) hc' (by simpa [pollTicks] using hs)
    refine (bind_ok h1).trans ?_
    have hne : m ≠ some Config.ack := hm m (by simp)
    rw [if_neg hne]
    refine (pollLoop_misses (misses := r) (left := left) (used := used + 1) (by exact ⟨hc.1, rfl, hc.2.2⟩)
      (fun x hx => hm x (by simp [hx])) (by rfl) (by rfl)).trans ?_
    · rw [show used + 1 + r.length = used + (m :: r).length by simp; omega]
      congr 1
      cases m <;> simp [State.onLine, State.setPoll, pollEvents]

/-- The attempt that gives ACK ends the poll (R148). -/
theorem pollLoop_ack {left used : Nat} (hc : s.lineClear) (hs : s.script = pollTicks [some Config.ack] ++ rest) :
    pollLoop (left + 1) used s =
      .ok () ((s.onLine rest [] (pollEvents [some Config.ack])).setPoll (used + 1)) := by
  rw [pollLoop]
  refine (primitive_bind hc.2.2 ..).trans ?_
  have hc' : (s.setPoll (used + 1)).lineClear := hc
  exact (bind_ok (recvByte_delivers (m := some Config.ack) (rest := rest) hc' hs)).trans rfl

/-- The poll that ends with ACK within its attempts (R148). -/
theorem poll_answered {misses : List (Option Byte)} (hc : s.lineClear) (hl : misses.length < 100)
    (hm : ∀ m ∈ misses, m ≠ some Config.ack) (hs : s.script = pollTicks (misses ++ [some Config.ack]) ++ rest) :
    poll s =
      .ok () ((s.onLine rest [] (pollEvents (misses ++ [some Config.ack]))).setPoll (misses.length + 1)) := by
  unfold poll
  refine (primitive_bind hc.2.2 ..).trans ?_
  have hc' : (s.setPoll 0).lineClear := hc
  obtain ⟨l, hl'⟩ : ∃ l, Config.g10PollMax = misses.length + (l + 1) := ⟨99 - misses.length, by simp [Config.g10PollMax]; omega⟩
  rw [hl']
  refine (pollLoop_misses (rest := pollTicks [some Config.ack] ++ rest) hc' hm
    (by simpa [pollTicks] using hs) rfl).trans ?_
  refine (pollLoop_ack (rest := rest) (by exact ⟨hc.1, rfl, hc.2.2⟩) (by rfl)).trans ?_
  simp [State.onLine, State.setPoll, pollEvents]

/-- The poll that uses up its attempts (R148). -/
theorem poll_timeout {misses : List (Option Byte)} (hc : s.lineClear) (hl : misses.length = 100)
    (hm : ∀ m ∈ misses, m ≠ some Config.ack) (hs : s.script = pollTicks misses ++ rest) :
    poll s = .error (.raised { kind := .timeout }) ((s.onLine rest [] (pollEvents misses)).setPoll 100) := by
  unfold poll
  refine (primitive_bind hc.2.2 ..).trans ?_
  have hc' : (s.setPoll 0).lineClear := hc
  rw [show Config.g10PollMax = misses.length + 0 from hl.symm]
  refine (pollLoop_misses (rest := rest) hc' hm hs rfl).trans ?_
  refine (raise_calm (by exact hc.2.2) _).trans ?_
  simp [State.setPoll, hl]

/-! ## Words -/

/-- A word that is acknowledged (R149). -/
theorem wordUnit_answered {bytes : List Byte} (hc : s.lineClear) (hf : EchoLike f) (hb : bytes ≠ [])
    (hs : s.script = rawTicks s.params f bytes [Config.ack] ++ rest) :
    wordUnit bytes s = .ok () (s.onLine rest [] (rawEvents s.params bytes [Config.ack])) :=
  sendRaw_bind (n := 1) (reply := [Config.ack]) hc hf hb (by simp) rfl hs

/-- A word that is not (R151). -/
theorem wordUnit_failed {bytes : List Byte} {b : Byte} {w : Nat} (hc : s.lineClear) (hf : EchoLike f) (hb : bytes ≠ [])
    (hn : b ≠ Config.ack) (hw : s.g10.widx = some w) (hs : s.script = rawTicks s.params f bytes [b] ++ rest) :
    wordUnit bytes s = .error (.raised { kind := .programFailed, addr := some (wordAddr w) })
      (s.onLine rest [] (rawEvents s.params bytes [b])) := by
  refine (sendRaw_bind (n := 1) (reply := [b]) hc hf hb (by simp) rfl hs).trans ?_
  rw [byteAt_zero, if_neg hn]
  exact (getState_bind ..).trans ((bind_ok (needReg_some _ hw _)).trans (raise_calm (by exact hc.2.2) _))

/-- The first words of an image, each acknowledged; the loop goes on from the state they leave (R149). -/
theorem wordLoop_answered (hf : EchoLike f) : ∀ {n w : Nat} {s : State}, s.lineClear → 4 * (w + n) ≤ s.code.size →
    s.script = wordTicks s.params f (imageWords s.code n w) ++ rest → ∀ m,
    wordLoop (n + m) w s =
      wordLoop m (w + n)
        { s.onLine rest [] (wordEvents s.params (imageWords s.code n w)) with
          g10 := { s.g10 with widx := if n = 0 then s.g10.widx else some (w + n - 1) } }
  | 0, w, s, hc, _, hs, m => by
    obtain ⟨h1, h2, -⟩ := hc
    simp only [Nat.zero_add, Nat.add_zero]
    congr 1
    simp only [wordTicks, imageWords, List.flatMap_nil, List.nil_append] at hs
    simp [State.onLine, wordEvents, imageWords, ← hs, ← h2]
  | n + 1, w, s, hc, hb, hs, m => by
    rw [show n + 1 + m = (n + m) + 1 by omega, wordLoop]
    refine (primitive_bind hc.2.2 ..).trans ?_
    refine (bind_ok (memRead_ok (s := s.setWord w) (b := .code) (off := Config.g10Word * w) (n := Config.g10Word)
      (by exact hc.2.2) (by show 4 * w + 4 ≤ s.code.size; omega))).trans ?_
    have hc' : (s.setWord w).lineClear := hc
    have hne : ((s.setWord w).buffer .code).slice (Config.g10Word * w) Config.g10Word ≠ [] := by
      intro h; have := congrArg List.length h; simp [Config.g10Word] at this
    have h1 := wordUnit_answered (f := f) (rest := wordTicks s.params f (imageWords s.code n (w + 1)) ++ rest) hc' hf hne
      (by simpa [wordTicks, imageWords, State.buffer] using hs)
    refine (bind_ok h1).trans ?_
    refine (wordLoop_answered hf (n := n) (w := w + 1) (m := m) (by exact ⟨hc.1, rfl, hc.2.2⟩)
      (by show 4 * (w + 1 + n) ≤ s.code.size; omega) (by rfl)).trans ?_
    · rw [show w + 1 + n = w + (n + 1) by omega]
      congr 1
      cases n <;> simp [State.onLine, State.setWord, wordEvents, imageWords, State.buffer]

/-- A word that is not acknowledged ends the loop (R151). -/
theorem wordLoop_failed {n w : Nat} {b : Byte} (hc : s.lineClear) (hf : EchoLike f) (hn : b ≠ Config.ack)
    (hz : 4 * w + 4 ≤ s.code.size) (hs : s.script = rawTicks s.params f (s.code.slice (4 * w) 4) [b] ++ rest) :
    wordLoop (n + 1) w s = .error (.raised { kind := .programFailed, addr := some (wordAddr w) })
      ((s.onLine rest [] (rawEvents s.params (s.code.slice (4 * w) 4) [b])).setWord w) := by
  have hc' : (s.setWord w).lineClear := hc
  have hne : s.code.slice (4 * w) 4 ≠ [] := by
    intro h; have := congrArg List.length h; simp at this
  have hw := wordUnit_failed (s := s.setWord w) (w := w) hc' hf hne hn rfl hs
  exact (primitive_bind hc.2.2 ..).trans ((bind_ok (memRead_ok (s := s.setWord w) (b := .code) hc'.2.2 hz)).trans (bind_error hw))

end Sys2Proof.Machine
end

