-- ==== Sys2Proof/Laws/Session.lean ====
section
/-! SUPPORT. What the parts of the handshake and the line sequence of RESET_AND_RUN answer when the line does as the terms
of Safety.lean say. -/

namespace Sys2Proof.Machine

variable {f : List Byte → List Byte} {s : State} {rest : List Tick}

/-! ## Control calls -/

/-- A control call during which nothing else happens. -/
theorem control_quiet {act : State → State} {ev : Event} (hm : s.calm) (ho : s.line.isOpen = true) (hs : s.script = quiet :: rest) :
    control act ev s = .ok () ((act { s with script := rest }).log ev) := by
  refine (transport_bind hm ho _).trans ((bind_ok (nextTick_cons hs)).trans ?_)
  simp [quiet, State.receive]

/-- A control call that fails (R47, R98). -/
theorem control_fails {act : State → State} {ev : Event} (hm : s.calm) (ho : s.line.isOpen = true)
    (hs : s.script = { fail := true } :: rest) :
    control act ev s = .error (.raised { kind := .io }) { s with script := rest } :=
  (transport_bind hm ho _).trans ((bind_ok (nextTick_cons hs)).trans rfl)

theorem setParity_quiet {p : Option Parity} (hm : s.calm) (ho : s.line.isOpen = true) (hs : s.script = quiet :: rest) :
    setParity p s =
      .ok () { s with line := { s.line with parity := some p }, script := rest, hist := s.hist ++ [.parity p] } :=
  control_quiet hm ho hs

theorem setLinkBaud_quiet {r : Nat} (hm : s.calm) (ho : s.line.isOpen = true) (hs : s.script = quiet :: rest) :
    setLinkBaud r s =
      .ok () { s with
        seqr := { s.seqr with linkBaud := some r }, line := { s.line with rate := some r }
        script := rest, hist := s.hist ++ [.baud r] } := by
  unfold setLinkBaud setBaud
  rw [bind_ok (control_quiet hm ho hs)]
  exact primitive_calm (by exact hm)

theorem setLine_reset {b : Bool} (hm : s.calm) (ho : s.line.isOpen = true) (hs : s.script = quiet :: rest) :
    setLine .reset b s =
      .ok () { s with
        seqr := { s.seqr with lineReset := some b }, line := { s.line with reset := some b }
        script := rest, hist := s.hist ++ [.line .reset b] } := by
  unfold setLine
  rw [bind_ok (control_quiet hm ho hs)]
  exact primitive_calm (by exact hm)

theorem setLine_clock {b : Bool} (hm : s.calm) (ho : s.line.isOpen = true) (hs : s.script = quiet :: rest) :
    setLine .clock b s =
      .ok () { s with
        seqr := { s.seqr with lineClock := some b }, line := { s.line with clock := some b }
        script := rest, hist := s.hist ++ [.line .clock b] } := by
  unfold setLine
  rw [bind_ok (control_quiet hm ho hs)]
  exact primitive_calm (by exact hm)

theorem flush_quiet (hm : s.calm) (ho : s.line.isOpen = true) (hs : s.script = quiet :: rest) :
    flush s = .ok () (s.onLine rest [] [.flush]) := control_quiet hm ho hs

/-! ## Steps 1 and 2 -/

/-- Step 1 (R113). -/
theorem stepOne_quiet (hm : s.calm) (ho : s.line.isOpen = true) (hs : s.script = [quiet, quiet, quiet, quiet] ++ rest) :
    stepOne s =
      .ok () { s with
        seqr := { s.seqr with linkBaud := some s.params.initBaud, lineReset := some false, lineClock := some false }
        line :=
          { s.line with
            rate := some s.params.initBaud, parity := some s.params.parity, reset := some false, clock := some false }
        script := rest, hist := s.hist ++ stepOneEvents s.params } := by
  unfold stepOne
  rw [getState_bind]
  refine (bind_ok (setParity_quiet (rest := quiet :: quiet :: quiet :: rest) hm ho hs)).trans ?_
  refine (bind_ok (setLinkBaud_quiet (rest := quiet :: quiet :: rest) (by exact hm) (by exact ho) (by rfl))).trans ?_
  refine (bind_ok (setLine_reset (rest := quiet :: rest) (by exact hm) (by exact ho) (by rfl))).trans ?_
  refine (setLine_clock (rest := rest) (by exact hm) (by exact ho) (by rfl)).trans ?_
  simp [stepOneEvents]

/-- Step 2 (R114). -/
theorem stepTwo_quiet (hm : s.calm) (ho : s.line.isOpen = true) (hs : s.script = [quiet, quiet, quiet] ++ rest) :
    stepTwo s =
      .ok () { s with
        seqr := { s.seqr with seq := .syncing, lineReset := some true, lineClock := some true }
        line := { s.line with rxq := [], reset := some true, clock := some true }
        script := rest, hist := s.hist ++ stepTwoEvents } := by
  unfold stepTwo waitFor
  refine (bind_ok (setLine_reset (rest := quiet :: quiet :: rest) hm ho hs)).trans ?_
  refine (primitive_bind (by exact hm) ..).trans ?_
  refine (bind_ok (setLine_clock (rest := quiet :: rest) (by exact hm) (by exact ho) (by rfl))).trans ?_
  refine (primitive_bind (by exact hm) ..).trans ?_
  refine (bind_ok (flush_quiet (rest := rest) (by exact hm) (by exact ho) (by rfl))).trans ?_
  refine (primitive_calm (by exact hm)).trans ?_
  simp [stepTwoEvents, State.log, State.onLine, State.setSeq]

theorem handshakePart_ok {α : Type} {k : ErrKind} {m : Eng α} {t : State} {a : α} (h : m s = .ok a t) :
    handshakePart k m s = .ok a t := onRaise_ok h

/-! ## Steps 3 and 4 -/

/-- Step 3, framed (R115). -/
theorem syncStep_answered (hc : s.lineClear) (hf : EchoLike f)
    (hs : s.script = sendTicks s.params (f [s.params.syncByte]) [] ++ quiet :: rest) :
    syncStep s =
      .ok () ((s.onLine rest [] (sendEvents s.params [s.params.syncByte] ++ [.flush, .wait .sync])).setSeq .synced) := by
  refine handshakePart_ok ?_
  rw [getState_bind, bind_ok (send_ok hc (by simp) (hf _) hs)]
  refine (bind_ok (flush_quiet (rest := rest) (by exact hc.2.2) (by exact hc.1) (by rfl))).trans ?_
  unfold waitFor
  rw [primitive_bind (by exact hc.2.2)]
  refine (primitive_calm (by exact hc.2.2)).trans ?_
  simp

/-- Step 4, framed (R116). -/
theorem stepFour_answered {rate mv : Nat} {code freq vmode : Byte} (hc : s.lineClear) (hf : EchoLike f)
    (hr : s.args.targetBaud = some rate) (hv : s.args.voltageMv = some mv) (hcode : s.params.baudCode rate = some code)
    (hs : s.script = commandTicks s.params f .baudSet [code, voltageByte mv] [Config.ack, freq, vmode] ++
      quiet :: rest) :
    stepFour s =
      let t := ((s.answered rest (commandEvents s.params .baudSet [code, voltageByte mv] [Config.ack, freq, vmode] ++
        [.baud rate]) Config.ack).setModes freq vmode)
      .ok () { t with
        seqr := { t.seqr with seq := .ready, linkBaud := some rate }, line := { t.line with rate := some rate } } := by
  refine handshakePart_ok ?_
  have hb : setBaudRate rate mv s = .ok () ((s.answered (quiet :: rest)
      (commandEvents s.params .baudSet [code, voltageByte mv] [Config.ack, freq, vmode]) Config.ack).setModes
        freq vmode) := by
    unfold setBaudRate
    rw [getState_bind]
    simp only [hcode]
    exact baudSetBody_answered hc hf hs
  rw [getState_bind, bind_ok (needReg_some _ hr s), bind_ok (needReg_some _ hv s), bind_ok hb]
  refine (bind_ok (setLinkBaud_quiet (rest := rest) (by exact hc.2.2) (by exact hc.1) (by rfl))).trans ?_
  refine (primitive_calm (by exact hc.2.2)).trans ?_
  simp [State.answered, State.onLine, State.setModes, State.setStatus, State.setSeq]

/-- Steps 3 and 4, G10 (R119). -/
theorem modeSetStep_answered (hc : s.lineClear) (hf : EchoLike f)
    (hs : s.script = rawTicks s.params f [s.params.g10ModeSet] [Config.ack, Config.ack] ++ rest) :
    modeSetStep s =
      .ok () ((s.onLine rest [] (rawEvents s.params [s.params.g10ModeSet] [Config.ack, Config.ack])).setSeq .ready) := by
  refine handshakePart_ok ?_
  have h1 := send_ok (bytes := [s.params.g10ModeSet]) (reply := [Config.ack, Config.ack]) (rest := quiet :: rest) hc
    (by simp) (hf _) (by simpa [rawTicks] using hs)
  have h2 := recvRaw_delivers (s := s.onLine (quiet :: rest) [Config.ack, Config.ack]
    (sendEvents s.params [s.params.g10ModeSet])) (bytes := []) (a := [Config.ack, Config.ack]) (b := []) hc.2.2
    hc.1 rfl (by simp) rfl
  rw [getState_bind, bind_ok h1]
  refine (bind_ok h2).trans ?_
  refine (bind_ok (show modeSetCheck [Config.ack, Config.ack] _ = .ok () _ from rfl)).trans ?_
  refine (primitive_bind (by exact hc.2.2) ..).trans ((primitive_calm (by exact hc.2.2)).trans ?_)
  simp [rawEvents, State.setSeq]

/-- An answer to mode-set that is not two ACKs: the first byte that is not ACK is reported (R120). -/
theorem modeSetCheck_rejected {r0 r1 : Byte} (hm : s.calm) (h : ¬ (r0 = Config.ack ∧ r1 = Config.ack)) :
    modeSetCheck [r0, r1] s = .error (.raised
      { kind := .deviceRejected, status := some (if r0 = Config.ack then r1 else r0) }) s := by
  by_cases h0 : r0 = Config.ack
  · simp [modeSetCheck, h0, show r1 ≠ Config.ack from fun h1 => h ⟨h0, h1⟩, raise_calm hm]
  · simp [modeSetCheck, h0, raise_calm hm]

/-- A part of the handshake that raises an error (R118, R120, R122). -/
theorem handshakePart_raised {α : Type} {k : ErrKind} {m : Eng α} {t : State} {e : Err}
    (h : m s = .error (.raised e) t) :
    handshakePart k m s = .error (.raised (wrapError k e)) (t.setSeq .idle) := onRaise_raised h

/-- INIT from the hold on, framed (R112). -/
theorem initTail_framed {rate mv : Nat} {code freq vmode : Byte} (hq : s.calm) (ho : s.line.isOpen = true) (hf : EchoLike f)
    (hv : s.seqr.variant = some .framed) (hr : s.args.targetBaud = some rate) (hm : s.args.voltageMv = some mv)
    (hcode : s.params.baudCode rate = some code)
    (hs : s.script = [quiet, quiet, quiet] ++ (syncTicks s.params f code (voltageByte mv) freq vmode ++ rest)) :
    initTail s =
      .ok () { s with
        seqr :=
          { s.seqr with seq := .ready, linkBaud := some rate, lineReset := some true, lineClock := some true }
        baud := ⟨some freq, some vmode⟩
        result := { s.result with lastStatus := some Config.ack }
        line := { s.line with rxq := [], rate := some rate, reset := some true, clock := some true }
        script := rest
        hist := s.hist ++ (stepTwoEvents ++ syncEvents s.params rate code (voltageByte mv) freq vmode) } := by
  unfold initTail
  rw [primitive_bind hq]
  refine (bind_ok (handshakePart_ok (stepTwo_quiet (by exact hq) (by exact ho) (by exact hs)))).trans ?_
  refine (getState_bind ..).trans ((bind_ok (needReg_some _ hv _)).trans ?_)
  have h1 := syncStep_answered (f := f) (s := { s with
        seqr := { s.seqr with seq := .syncing, lineReset := some true, lineClock := some true }
        line := { s.line with rxq := [], reset := some true, clock := some true }
        script := syncTicks s.params f code (voltageByte mv) freq vmode ++ rest
        hist := s.hist ++ stepTwoEvents })
    (rest := commandTicks s.params f .baudSet [code, voltageByte mv] [Config.ack, freq, vmode] ++ quiet :: rest)
    ⟨ho, rfl, hq⟩ hf (by simp [syncTicks])
  have h2 := stepFour_answered (f := f) (rest := rest) (s := State.setSeq (State.onLine { s with
        seqr := { s.seqr with seq := .syncing, lineReset := some true, lineClock := some true }
        line := { s.line with rxq := [], reset := some true, clock := some true }
        script := syncTicks s.params f code (voltageByte mv) freq vmode ++ rest
        hist := s.hist ++ stepTwoEvents }
      (commandTicks s.params f .baudSet [code, voltageByte mv] [Config.ack, freq, vmode] ++ quiet :: rest) []
        (sendEvents s.params [s.params.syncByte] ++ [.flush, .wait .sync])) .synced)
    ⟨ho, rfl, hq⟩ hf hr hm hcode rfl
  refine (bind_ok h1).trans (h2.trans ?_)
  simp [State.answered, State.onLine, State.setStatus, State.setModes, State.setSeq, syncEvents]

/-- INIT from the hold on, G10 (R119). -/
theorem initTail_g10 (hq : s.calm) (ho : s.line.isOpen = true) (hf : EchoLike f) (hv : s.seqr.variant = some .g10)
    (hs : s.script = [quiet, quiet, quiet] ++
      (rawTicks s.params f [s.params.g10ModeSet] [Config.ack, Config.ack] ++ rest)) :
    initTail s =
      .ok () { s with
        seqr := { s.seqr with seq := .ready, lineReset := some true, lineClock := some true }
        line := { s.line with rxq := [], reset := some true, clock := some true }
        script := rest
        hist := s.hist ++ (stepTwoEvents ++ rawEvents s.params [s.params.g10ModeSet] [Config.ack, Config.ack]) } := by
  unfold initTail
  rw [primitive_bind hq]
  refine (bind_ok (handshakePart_ok (stepTwo_quiet (by exact hq) (by exact ho) (by exact hs)))).trans ?_
  refine (getState_bind ..).trans ((bind_ok (needReg_some _ hv _)).trans ?_)
  refine (modeSetStep_answered (f := f) (rest := rest) (by exact ⟨ho, rfl, hq⟩) hf (by rfl)).trans ?_
  simp [State.onLine, State.setSeq]

/-- What step 1 leaves (R113). -/
def State.stepOneDone (s : State) (rest : List Tick) : State :=
  { s with
    seqr := { s.seqr with linkBaud := some s.params.initBaud, lineReset := some false, lineClock := some false }
    line :=
      { s.line with
        rate := some s.params.initBaud, parity := some s.params.parity, reset := some false, clock := some false }
    script := rest, hist := s.hist ++ stepOneEvents s.params }

/-- Step 1 and the hold that does not hold (R113, R117). -/
theorem initSteps_goesOn {d : Bool} (hm : s.calm) (ho : s.line.isOpen = true) (hd : s.args.delayedStart = some d)
    (hr : d = true → s.readyIn = true) (hs : s.script = [quiet, quiet, quiet, quiet] ++ rest) :
    initSteps s = initTail (s.stepOneDone rest) := by
  have hh : holdReady (s.stepOneDone rest) = .ok () (s.stepOneDone rest) := by
    refine (getState_bind ..).trans ((bind_ok (needReg_some _ (a := d) hd _)).trans ?_)
    rw [if_neg (by cases d <;> simp [State.stepOneDone]; exact hr rfl)]
    rfl
  exact (bind_ok (handshakePart_ok (stepOne_quiet hm ho hs))).trans (bind_ok hh)

/-- Step 1 and the hold (R113, R117). -/
theorem initSteps_holds (hm : s.calm) (ho : s.line.isOpen = true) (hd : s.args.delayedStart = some true) (hr : s.readyIn = false)
    (hs : s.script = [quiet, quiet, quiet, quiet] ++ rest) : initSteps s = .error .held (s.stepOneDone rest) := by
  have hh : holdReady (s.stepOneDone rest) = .error .held (s.stepOneDone rest) := by
    refine (getState_bind ..).trans ((bind_ok (needReg_some _ (a := true) hd _)).trans ?_)
    rw [if_pos (by simp [State.stepOneDone, hr])]
    rfl
  exact (bind_ok (handshakePart_ok (stepOne_quiet hm ho hs))).trans (bind_error hh)

/-- The writes of R40, then the handshake. -/
theorem initBody_eq {proto : Nat} (hm : s.calm) : initBody proto s = initSteps (s.openSession proto) :=
  (writes_bind (sessionWrites_aside _) hm _).trans (by rw [wrote_session])

/-- The line sequence of RESET_AND_RUN (R123). -/
theorem runLines_quiet (hm : s.calm) (ho : s.line.isOpen = true) (hs : s.script = quiet :: quiet :: rest) :
    runLines s =
      .ok () { s with
        seqr := { s.seqr with lineReset := some true }, line := { s.line with reset := some true }
        script := rest, hist := s.hist ++ [.line .reset false, .wait .run, .line .reset true] } := by
  unfold runLines waitFor
  refine (bind_ok (setLine_reset (rest := quiet :: rest) hm ho hs)).trans ?_
  refine (primitive_bind (by exact hm) ..).trans ((setLine_reset (rest := rest) (by exact hm) (by exact ho) (by rfl)).trans ?_)
  simp [State.log]

end Sys2Proof.Machine
end

