-- ==== Sys2Proof/Tests/Slice0.lean ====
section
/-! SUPPORT. Tests of the model: ill-formed terms that are refused, words of the spec that are decoded, one step on a
small state with the outcome the spec gives (spec/95_test_vectors.md names the vectors), and for every obligation with
hypotheses a named witness that meets them. -/

namespace Sys2Proof.Tests

open Sys2Proof Sys2Proof.Machine

/-! ## Small states -/

/-- The parameters of the spec's vectors. -/
abbrev P : Params := Params.suggested

/-- A framed session in READY. -/
def framed : State :=
  { State.reset with
    seqr :=
      { seq := .ready, proto := some 1, variant := some .framed, blockSz := some 1024, linkBaud := some 115200
        lineReset := some true, lineClock := some true } }

/-- A G10 session in READY. -/
def imaged : State :=
  { State.reset with
    seqr :=
      { seq := .ready, proto := some 4, variant := some .g10, blockSz := some 1024, linkBaud := some 115200
        lineReset := some true, lineClock := some true } }

/-- A delayed start that holds. -/
def waiting : State :=
  { State.reset with
    seqr :=
      { op := some .init, proto := some 1, variant := some .framed, blockSz := some 1024, linkBaud := some 115200
        lineReset := some false, lineClock := some false }
    args := ⟨some 1000000, some 5000, some true, some 1, some 0⟩ }

/-- The state with this line to come. -/
def on (s : State) (script : List Tick) : State := { s with script := script }

/-- `n` bytes of an echo whose content does not matter (I23). -/
def noise (n : Nat) : List Byte := List.replicate n 0xEE#8

/-- The line of one exchange: the echo of `n` bytes and the Target's bytes in one piece, and three more reads. -/
def reply (n : Nat) (bytes : List Byte) : List Tick := [delivers (noise n ++ bytes), quiet, quiet, quiet]

/-- The state an instruction ends in. -/
def after (o : Host.Outcome State Fault Refusal) : Option State :=
  match o with
  | .next t => some t
  | _ => none

/-- The error kind, the transcript and one more value. -/
structure Seen (α : Type) where
  kind  : ErrKind
  hist  : List Event
  value : α
deriving DecidableEq, Repr

/-- What a test looks at after an instruction. -/
def seen {α : Type} (i : Instr) (s : State) (g : State → α) : Option (Seen α) :=
  (after (exec i s)).map fun t => ⟨t.err.kind, t.hist, g t⟩

/-- The signature frame of V-A1. -/
def signatureFrame : List Byte :=
  [0x02, 0x16, 0x10, 0x00, 0x06, 0x52, 0x35, 0x46, 0x31, 0x30, 0x30, 0x4C, 0x45, 0x20, 0x20, 0xFF, 0xFF, 0x00, 0xFF,
    0x13, 0x0F, 0x03, 0x00, 0x00, 0x83, 0x03]

/-! ## Ill-formed terms -/

theorem test_illFormed_verify_range : (Instr.verify 0x000401#24 0x000400#24 [0x55#8]).wellFormed = false := by decide

theorem test_illFormed_verify_length : (Instr.verify 0x000400#24 0x000401#24 [0x55#8]).wellFormed = false := by decide

theorem test_illFormed_blankCheck : (Instr.blankCheck 0x000800#24 0x0007FF#24).wellFormed = false := by decide

theorem test_illFormed_program_range :
    (Instr.program 0x000401#24 0x000400#24 [0x55#8]).wellFormed = false := by decide

theorem test_illFormed_program_length : (Instr.program 0x000400#24 0x000400#24 []).wellFormed = false := by decide

theorem test_illFormed_checksum : (Instr.checksum 0x000001#24 0x000000#24).wellFormed = false := by decide

theorem test_illFormed_dataFrame_empty : (Instr.dataFrame [] true).wellFormed = false := by decide

theorem test_illFormed_dataFrame_long :
    (Instr.dataFrame (List.replicate 257 0x00#8) true).wellFormed = false := by decide +kernel

theorem test_illFormed_responseFrame_empty : (Instr.responseFrame [] true).wellFormed = false := by decide

theorem test_illFormed_responseFrame_long :
    (Instr.responseFrame (List.replicate 257 0x00#8) true).wellFormed = false := by decide +kernel

theorem test_illFormed_init_proto : (Instr.reqInit (2 ^ 32) 115200 3300 false 0).wellFormed = false := by decide

theorem test_illFormed_init_rate : (Instr.reqInit 1 (2 ^ 32) 3300 false 0).wellFormed = false := by decide

theorem test_illFormed_init_voltage : (Instr.reqInit 1 115200 (2 ^ 32) false 0).wellFormed = false := by decide

theorem test_illFormed_init_verbose : (Instr.reqInit 1 115200 3300 false (2 ^ 32)).wellFormed = false := by decide

theorem test_illFormed_setBaud_rate : (Instr.reqSetBaud (2 ^ 32) 3300).wellFormed = false := by decide

theorem test_illFormed_setBaud_voltage : (Instr.reqSetBaud 115200 (2 ^ 32)).wellFormed = false := by decide

theorem test_illFormed_setLinkBaud : (Instr.reqSetLinkBaud (2 ^ 32)).wellFormed = false := by decide

theorem test_illFormed_blockProgram :
    (Instr.reqBlockProgram 0x000000#24 0x000000#24 .code (2 ^ 32)).wellFormed = false := by decide

theorem test_illFormed_blockVerify :
    (Instr.reqBlockVerify 0x000000#24 0x000000#24 .data (2 ^ 32)).wellFormed = false := by decide

theorem test_illFormed_region : (Instr.reqRegion .erase .code 0x000000#24 (2 ^ 32)).wellFormed = false := by decide

theorem test_illFormed_g10EraseWrite : (Instr.reqG10EraseWrite (2 ^ 32)).wellFormed = false := by decide

theorem test_illFormed_g10CrcCheck : (Instr.reqG10CrcCheck (2 ^ 32)).wellFormed = false := by decide

theorem test_illFormed_resetAndRun : (Instr.reqResetAndRun (2 ^ 32)).wellFormed = false := by decide

/-- The decoder refuses a range whose end is below its start. -/
theorem test_illFormed_decode :
    decode P .command [0x01, 0x08, 0x32, 0x00, 0x08, 0x00, 0xFF, 0x07, 0x00, 0x00, 0xB8, 0x03] =
      .error .illFormed := by decide +kernel

theorem test_invalid_markers : Params.valid { P with stx := P.soh } = false := by decide

theorem test_invalid_ends : Params.valid { P with etb := P.etx } = false := by decide

theorem test_invalid_blockSize : Params.valid { P with otherBlockSize := 1000 } = false := by decide

theorem test_invalid_protos : Params.valid { P with protos := [⟨1, .framed, 0⟩] } = false := by decide

theorem test_invalid_cap01 : Params.valid { P with g10Caps := [(0x03#8, 1024), (0xFF#8, 65536)] } = false := by decide

theorem test_invalid_cap03 :
    Params.valid { P with g10Caps := [(0x01#8, 512), (0x03#8, 1000), (0xFF#8, 65536)] } = false := by decide

theorem test_invalid_capFF : Params.valid { P with g10Caps := [(0x01#8, 512), (0x03#8, 1024)] } = false := by decide

theorem test_notDistinct : Params.rawDistinct { P with syncByte := 0x06#8 } = false := by decide

/-! ## Words of the spec -/

theorem test_decode_reset : decode P .command [0x01, 0x01, 0x00, 0xFF, 0x03] = .ok .reset := by decide +kernel

theorem test_decode_baudSet :
    decode P .command [0x01, 0x03, 0x9A, 0x03, 0x32, 0x2E, 0x03] = .ok (.baudSet 0x03#8 0x32#8) := by decide +kernel

theorem test_decode_siliconSignature :
    decode P .command [0x01, 0x01, 0xC0, 0x3F, 0x03] = .ok .siliconSignature := by decide +kernel

theorem test_decode_blockErase :
    decode P .command [0x01, 0x04, 0x22, 0x00, 0xFC, 0xFF, 0xDF, 0x03] =
      .ok (.blockErase 0xFFFC00#24) := by decide +kernel

theorem test_decode_blankCheck :
    decode P .command [0x01, 0x08, 0x32, 0x00, 0x10, 0x0F, 0xFF, 0x13, 0x0F, 0x00, 0x86, 0x03] =
      .ok (.blankCheck 0x0F1000#24 0x0F13FF#24) := by decide +kernel

theorem test_decode_checksum :
    decode P .command [0x01, 0x07, 0xB0, 0x00, 0x10, 0x0F, 0xFF, 0x13, 0x0F, 0x09, 0x03] =
      .ok (.checksum 0x0F1000#24 0x0F13FF#24) := by decide +kernel

/-- The command frame of R61 and R71 and the one data frame of R62 that a range of one byte has. -/
theorem test_decode_program :
    decode P .command
        [0x01, 0x07, 0x40, 0x00, 0x04, 0x00, 0x00, 0x04, 0x00, 0xB1, 0x03, 0x02, 0x01, 0x5A, 0xA5, 0x03] =
      .ok (.program 0x000400#24 0x000400#24 [0x5A#8]) := by decide +kernel

/-- The command frame of R61 and R71 and the one data frame of R62 that a range of one byte has. -/
theorem test_decode_verify :
    decode P .command
        [0x01, 0x07, 0x13, 0x00, 0x04, 0x00, 0x00, 0x04, 0x00, 0xDE, 0x03, 0x02, 0x01, 0x5A, 0xA5, 0x03] =
      .ok (.verify 0x000400#24 0x000400#24 [0x5A#8]) := by decide +kernel

/-- A range of 257 bytes is a 256-byte `ETB` frame and a 1-byte `ETX` frame (R109). -/
theorem test_decode_program_two :
    (Except.toOption (decode P .command
        ([0x01, 0x07, 0x40, 0x00, 0x00, 0x00, 0x00, 0x01, 0x00, 0xB8, 0x03] ++ [0x02, 0x00] ++
          List.replicate 256 0xFF#8 ++
          [0x00, 0x17, 0x02, 0x01, 0x5A, 0xA5, 0x03]))) =
      some (.program 0x000000#24 0x000100#24 (List.replicate 256 0xFF#8 ++ [0x5A#8])) := by decide +kernel

theorem test_decode_sync : decode P .raw [0x00] = .ok .sync := by decide

theorem test_decode_g10ModeSet : decode P .raw [0xA1] = .ok .g10ModeSet := by decide

theorem test_decode_g10EraseWrite : decode P .raw [0xA2] = .ok .g10EraseWrite := by decide

theorem test_decode_g10CrcCheck : decode P .raw [0xA3] = .ok .g10CrcCheck := by decide

theorem test_decode_g10Ack : decode P .raw [0x06] = .ok .g10Ack := by decide

theorem test_decode_g10Nack : decode P .raw [0x15] = .ok .g10Nack := by decide

theorem test_decode_g10Word :
    decode P .raw [0xFC, 0xFD, 0xFE, 0xFF] = .ok (.g10Word 0xFC#8 0xFD#8 0xFE#8 0xFF#8) := by decide

theorem test_decode_dataFrame :
    decode P .data [0x02, 0x01, 0x5A, 0xA5, 0x03] = .ok (.dataFrame [0x5A#8] true) := by decide +kernel

/-- LEN 0x00 stands for 256 (R64). -/
theorem test_decode_dataFrame_wrap :
    decode P .data ([0x02, 0x00] ++ List.replicate 256 0xFF#8 ++ [0x00, 0x17]) =
      .ok (.dataFrame (List.replicate 256 0xFF#8) false) := by decide +kernel

theorem test_decode_responseFrame :
    decode P .response [0x02, 0x03, 0x06, 0x20, 0x00, 0xD7, 0x03] =
      .ok (.responseFrame [0x06#8, 0x20#8, 0x00#8] true) := by decide +kernel

/-! The request codes are those of R78; the layout of the arguments is the model's (log entry 4). -/

theorem test_decode_reqInit :
    decode P .request [0x01, 1, 0, 0, 0, 0x40, 0x42, 0x0F, 0, 0x88, 0x13, 0, 0, 0, 0, 0, 0, 0] =
      .ok (.reqInit 1 1000000 5000 false 0) := by decide +kernel

theorem test_decode_reqResetCmd : decode P .request [0x02] = .ok .reqResetCmd := by decide +kernel

theorem test_decode_reqSetBaud :
    decode P .request [0x03, 0x00, 0xC2, 0x01, 0, 0xE4, 0x0C, 0, 0] =
      .ok (.reqSetBaud 115200 3300) := by decide +kernel

theorem test_decode_reqSetLinkBaud :
    decode P .request [0x04, 0x40, 0x42, 0x0F, 0] = .ok (.reqSetLinkBaud 1000000) := by decide +kernel

theorem test_decode_reqSignature : decode P .request [0x05] = .ok .reqSignature := by decide +kernel

theorem test_decode_reqBlockErase :
    decode P .request [0x06, 0x00, 0x04, 0x00] = .ok (.reqBlockErase 0x000400#24) := by decide +kernel

theorem test_decode_reqBlankCheck :
    decode P .request [0x07, 0x00, 0x04, 0x00, 0xFF, 0x07, 0x00] =
      .ok (.reqBlankCheck 0x000400#24 0x0007FF#24) := by decide +kernel

theorem test_decode_reqChecksum :
    decode P .request [0x08, 0x00, 0x00, 0x00, 0xFF, 0x03, 0x00] =
      .ok (.reqChecksum 0x000000#24 0x0003FF#24) := by decide +kernel

theorem test_decode_reqBlockProgram :
    decode P .request [0x09, 0x00, 0x04, 0x00, 0xFF, 0x07, 0x00, 0, 0x00, 0x04, 0, 0] =
      .ok (.reqBlockProgram 0x000400#24 0x0007FF#24 .code 1024) := by decide +kernel

theorem test_decode_reqBlockVerify :
    decode P .request [0x0A, 0x00, 0x10, 0x0F, 0xFF, 0x13, 0x0F, 1, 0, 0, 0, 0] =
      .ok (.reqBlockVerify 0x0F1000#24 0x0F13FF#24 .data 0) := by decide +kernel

theorem test_decode_reqRegion :
    decode P .request [0x0B, 2, 1, 0x00, 0x10, 0x0F, 0x00, 0x04, 0, 0] =
      .ok (.reqRegion .verify .data 0x0F1000#24 1024) := by decide +kernel

theorem test_decode_reqG10EraseWrite :
    decode P .request [0x0C, 0x00, 0x02, 0, 0] = .ok (.reqG10EraseWrite 512) := by decide +kernel

theorem test_decode_reqG10CrcCheck :
    decode P .request [0x0D, 0x00, 0x02, 0, 0] = .ok (.reqG10CrcCheck 512) := by decide +kernel

theorem test_decode_reqResetAndRun :
    decode P .request [0x0E, 3, 0, 0, 0] = .ok (.reqResetAndRun 3) := by decide +kernel

/-! What is no instruction. -/

theorem test_reject_badChecksum :
    decode P .command [0x01, 0x01, 0x00, 0xFE, 0x03] = .error .badChecksum := by decide +kernel

theorem test_reject_badStart :
    decode P .command [0x02, 0x01, 0x00, 0xFF, 0x03] = .error .badStart := by decide +kernel

theorem test_reject_badEnd : decode P .command [0x01, 0x01, 0x00, 0xFF, 0x17] = .error .badEnd := by decide +kernel

theorem test_reject_unknownOpcode :
    decode P .command [0x01, 0x01, 0xA0, 0x5F, 0x03] = .error .unknownOpcode := by decide +kernel

theorem test_reject_truncated : decode P .command [0x01, 0x04, 0x22, 0x00] = .error .truncated := by decide +kernel

theorem test_reject_trailing :
    decode P .command [0x01, 0x01, 0x00, 0xFF, 0x03, 0x00] = .error .trailing := by decide +kernel

theorem test_reject_badPayload :
    decode P .command [0x01, 0x02, 0x00, 0x00, 0xFE, 0x03] = .error .badPayload := by decide +kernel

theorem test_reject_unknownRaw : decode P .raw [0x77] = .error .unknownRaw := by decide +kernel

theorem test_reject_unknownCode : decode P .request [0x0F] = .error .unknownCode := by decide +kernel

theorem test_reject_badArguments : decode P .request [0x06, 0x00] = .error .badArguments := by decide +kernel

theorem test_reject_empty : decode P .raw [] = .error .empty := by decide

/-- An 8-bit word that is an opcode, one that is a request code, and one that is an unframed byte. -/
theorem test_tableWord_opcode : decodeTableWord 8 0x22 = some (.blockErase 0x000000#24) := by decide +kernel

theorem test_tableWord_request : decodeTableWord 8 0x0E = some (.reqResetAndRun 0) := by decide +kernel

theorem test_tableWord_raw : decodeTableWord 8 0x15 = some .g10Nack := by decide +kernel


/-! ## One step: the framed commands -/

/-- The registers a test of a framed command looks at. -/
def results (s : State) : ResultRegs := s.result

/-- The error information and how many bytes are left in the receive queue. -/
structure Errors where
  status : Option Byte
  addr   : Option Addr
  cause  : Option ErrKind
  op     : Option Byte
  left   : Nat
deriving DecidableEq, Repr

/-- The error information and the length of the receive queue. -/
def errors (s : State) : Errors := ⟨s.err.status, s.err.addr, s.err.cause, s.err.op, s.line.rxq.length⟩

/-- V-CM, RESET_CMD, as a row. -/
theorem test_reset :
    seen .reset (on framed (reply 5 [0x02, 0x01, 0x06, 0xF9, 0x03])) results =
      some ⟨.noError, [.tx [0x01, 0x01, 0x00, 0xFF, 0x03], .echo 5, .rxResp [0x06]], ⟨none, none, some 0x06#8⟩⟩
        := by decide +kernel

/-- V-CM, RESET_CMD answered by NACK. -/
theorem test_reqResetCmd :
    seen .reqResetCmd (on framed (reply 5 [0x02, 0x01, 0x15, 0xEA, 0x03])) errors =
      some ⟨.deviceRejected, [.tx [0x01, 0x01, 0x00, 0xFF, 0x03], .echo 5, .rxResp [0x15]],
        ⟨some 0x15#8, none, none, some 0x02#8, 0⟩⟩ := by decide +kernel

/-- V-CM, BLOCK_ERASE, as a row. -/
theorem test_blockErase :
    seen (.blockErase 0x000400#24) (on framed (reply 8 [0x02, 0x01, 0x06, 0xF9, 0x03])) results =
      some ⟨.noError, [.tx [0x01, 0x04, 0x22, 0x00, 0x04, 0x00, 0xD6, 0x03], .echo 8, .rxResp [0x06]],
        ⟨none, none, some 0x06#8⟩⟩ := by decide +kernel

/-- V-EX, DeviceRejected(1A) from erase. -/
theorem test_reqBlockErase :
    seen (.reqBlockErase 0x000400#24) (on framed (reply 8 [0x02, 0x01, 0x1A, 0xE5, 0x03])) errors =
      some ⟨.deviceRejected, [.tx [0x01, 0x04, 0x22, 0x00, 0x04, 0x00, 0xD6, 0x03], .echo 8, .rxResp [0x1A]],
        ⟨some 0x1A#8, none, none, some 0x06#8, 0⟩⟩ := by decide +kernel

/-- V-B1, as a row. -/
theorem test_blankCheck :
    seen (.blankCheck 0x000400#24 0x0007FF#24) (on framed (reply 12 [0x02, 0x01, 0x1B, 0xE4, 0x03])) results =
      some ⟨.noError, [.tx [0x01, 0x08, 0x32, 0x00, 0x04, 0x00, 0xFF, 0x07, 0x00, 0x00, 0xBC, 0x03], .echo 12,
        .rxResp [0x1B]], ⟨some true, none, some 0x1B#8⟩⟩ := by decide +kernel

/-- V-CM, BLANK_CHECK answered by 04: `NOT_BLANK` is not written. -/
theorem test_reqBlankCheck :
    seen (.reqBlankCheck 0x000400#24 0x0007FF#24) (on framed (reply 12 [0x02, 0x01, 0x04, 0xFB, 0x03])) results =
      some ⟨.deviceRejected, [.tx [0x01, 0x08, 0x32, 0x00, 0x04, 0x00, 0xFF, 0x07, 0x00, 0x00, 0xBC, 0x03], .echo 12,
        .rxResp [0x04]], ⟨none, none, some 0x04#8⟩⟩ := by decide +kernel

/-- V-CM, BLANK_CHECK with `s > e`. -/
theorem test_reqBlankCheck_range :
    seen (.reqBlankCheck 0x000800#24 0x0007FF#24) (framed) errors =
      some ⟨.badRequest, [], ⟨none, none, none, some 0x07#8, 0⟩⟩ := by decide +kernel

/-- V-CM, CHECKSUM, as a row. -/
theorem test_checksum :
    seen (.checksum 0x000000#24 0x0003FF#24)
      (on framed (reply 11 ([0x02, 0x01, 0x06, 0xF9, 0x03] ++ [0x02, 0x02, 0x34, 0x12, 0xB8, 0x03]) ++
      [quiet, quiet])) results =
      some ⟨.noError, [.tx [0x01, 0x07, 0xB0, 0x00, 0x00, 0x00, 0xFF, 0x03, 0x00, 0x47, 0x03], .echo 11,
        .rxResp [0x06], .rxResp [0x34, 0x12]], ⟨none, some 0x1234#16, some 0x06#8⟩⟩ := by decide +kernel

/-- V-CM, CHECKSUM in order BE. -/
theorem test_reqChecksum :
    seen (.reqChecksum 0x000000#24 0x0003FF#24) (on { framed with params := { P with cksumOrder := .be } }
        (reply 11 [0x02, 0x01, 0x06, 0xF9, 0x03, 0x02, 0x02, 0x34, 0x12, 0xB8, 0x03] ++ [quiet, quiet]))
          (fun s => s.result.cksum16) =
      some ⟨.noError, [.tx [0x01, 0x07, 0xB0, 0x00, 0x00, 0x00, 0xFF, 0x03, 0x00, 0x47, 0x03], .echo 11,
        .rxResp [0x06], .rxResp [0x34, 0x12]], some 0x3412#16⟩ := by decide +kernel

/-- V-CM, SET_BAUD 115200 3300, as a row. -/
theorem test_baudSet :
    seen (.baudSet 0x00#8 0x21#8) (on framed (reply 7 [0x02, 0x03, 0x06, 0x20, 0x00, 0xD7, 0x03]))
      (fun s => (s.baud.freq, s.baud.vmode, s.seqr.linkBaud)) =
      some ⟨.noError, [.tx [0x01, 0x03, 0x9A, 0x00, 0x21, 0x42, 0x03], .echo 7, .rxResp [0x06, 0x20, 0x00]],
        (some 0x20#8, some 0x00#8, some 115200)⟩ := by decide +kernel

/-- V-CM, SET_BAUD answered by a 1-byte response: 3 bytes stay queued. -/
theorem test_reqSetBaud :
    seen (.reqSetBaud 1000000 5000) (on framed (reply 7 [0x02, 0x01, 0x15, 0xEA, 0x03])) errors =
      some ⟨.lengthMismatch, [.tx [0x01, 0x03, 0x9A, 0x03, 0x32, 0x2E, 0x03], .echo 7],
        ⟨none, none, none, some 0x03#8, 3⟩⟩ := by decide +kernel

/-- V-CM, SET_BAUD of a rate without a code. -/
theorem test_reqSetBaud_code :
    seen (.reqSetBaud 9600 3300) (framed) errors =
      some ⟨.badRequest, [], ⟨none, none, none, some 0x03#8, 0⟩⟩ := by decide +kernel

/-- V-CM, SET_LINK_BAUD, and V-RQ: accepted after a reset. -/
theorem test_reqSetLinkBaud :
    seen (.reqSetLinkBaud 1000000) (State.reset) (fun s => (s.seqr.linkBaud, s.line.rate)) =
      some ⟨.noError, [.baud 1000000], (some 1000000, some 1000000)⟩ := by decide +kernel

/-- The identity registers of V-A1. -/
def identity (s : State) : IdRegs := s.ident

/-- V-A1. -/
theorem test_siliconSignature :
    seen .siliconSignature (on framed (reply 5 ([0x02, 0x01, 0x06, 0xF9, 0x03] ++ signatureFrame) ++
      [quiet, quiet])) identity =
      some ⟨.noError, [.tx [0x01, 0x01, 0xC0, 0x3F, 0x03], .echo 5, .rxResp [0x06],
        .rxResp ((signatureFrame.drop 2).take 22)],
        ⟨some [0x10, 0x00, 0x06], some [0x52, 0x35, 0x46, 0x31, 0x30, 0x30, 0x4C, 0x45, 0x20, 0x20],
          some [0x03, 0x00, 0x00], true, some 0x00FFFF#24, some 0x0F13FF#24, some 65536, some 1024⟩⟩
            := by decide +kernel

/-- V-A1. -/
theorem test_reqSignature :
    seen .reqSignature (on framed (reply 5 ([0x02, 0x01, 0x06, 0xF9, 0x03] ++ signatureFrame) ++
      [quiet, quiet])) identity =
      some ⟨.noError, [.tx [0x01, 0x01, 0xC0, 0x3F, 0x03], .echo 5, .rxResp [0x06],
        .rxResp ((signatureFrame.drop 2).take 22)],
        ⟨some [0x10, 0x00, 0x06], some [0x52, 0x35, 0x46, 0x31, 0x30, 0x30, 0x4C, 0x45, 0x20, 0x20],
          some [0x03, 0x00, 0x00], true, some 0x00FFFF#24, some 0x0F13FF#24, some 65536, some 1024⟩⟩
            := by decide +kernel

/-- V-RQ, SIGNATURE after an Engine reset. -/
theorem test_reqSignature_reset :
    seen .reqSignature (State.reset) errors =
      some ⟨.badRequest, [], ⟨none, none, none, some 0x05#8, 0⟩⟩ := by decide +kernel

/-- R104, a range of one byte, as a row. -/
theorem test_program :
    seen (.program 0x000400#24 0x000400#24 [0x5A#8])
      (on framed (reply 11 [0x02, 0x01, 0x06, 0xF9, 0x03] ++
      reply 5 ([0x02, 0x02, 0x06, 0x06, 0xF2, 0x03] ++ [0x02, 0x01, 0x06, 0xF9, 0x03]) ++ [quiet, quiet]))
      (fun s => (s.result.lastStatus, s.blk.fidx)) =
      some ⟨.noError,
        [.tx [0x01, 0x07, 0x40, 0x00, 0x04, 0x00, 0x00, 0x04, 0x00, 0xB1, 0x03], .echo 11, .rxResp [0x06],
          .tx [0x02, 0x01, 0x5A, 0xA5, 0x03], .echo 5, .rxResp [0x06, 0x06], .wait (.progSettle 1), .rxResp [0x06]],
        (some 0x06#8, some 0)⟩ := by decide +kernel

/-- V-CM, BLOCK_PROGRAM with frame 0 answered by 15 06, over a range of one byte. -/
theorem test_reqBlockProgram :
    seen (.reqBlockProgram 0x000400#24 0x000400#24 .code 3)
      (on { framed with code := ⟨4, [(3, 0x5A#8)]⟩ } (reply 11 [0x02, 0x01, 0x06, 0xF9, 0x03] ++
      reply 5 [0x02, 0x02, 0x15, 0x06, 0xE3, 0x03])) errors =
      some ⟨.programFailed,
        [.tx [0x01, 0x07, 0x40, 0x00, 0x04, 0x00, 0x00, 0x04, 0x00, 0xB1, 0x03], .echo 11, .rxResp [0x06],
          .tx [0x02, 0x01, 0x5A, 0xA5, 0x03], .echo 5, .rxResp [0x15, 0x06]],
        ⟨none, some 0x000400#24, none, some 0x09#8, 0⟩⟩ := by decide +kernel

/-- R105, a range of one byte, as a row: no completion response. -/
theorem test_verify :
    seen (.verify 0x000400#24 0x000400#24 [0x5A#8])
      (on framed (reply 11 [0x02, 0x01, 0x06, 0xF9, 0x03] ++ reply 5 [0x02, 0x02, 0x06, 0x06, 0xF2, 0x03]))
      (fun s => (s.result.lastStatus, s.blk.fidx)) =
      some ⟨.noError,
        [.tx [0x01, 0x07, 0x13, 0x00, 0x04, 0x00, 0x00, 0x04, 0x00, 0xDE, 0x03], .echo 11, .rxResp [0x06],
          .tx [0x02, 0x01, 0x5A, 0xA5, 0x03], .echo 5, .wait .verifyFrame, .rxResp [0x06, 0x06]],
        (some 0x06#8, some 0)⟩ := by decide +kernel

/-- V-EX, MismatchError at 0x0F1000, over a range of one byte (P3 has the answer 06 0F). -/
theorem test_reqBlockVerify :
    seen (.reqBlockVerify 0x0F1000#24 0x0F1000#24 .data 0)
      (on { framed with data := ⟨1, [(0, 0x5A#8)]⟩ } (reply 11 [0x02, 0x01, 0x06, 0xF9, 0x03] ++
      reply 5 [0x02, 0x02, 0x06, 0x0F, 0xE9, 0x03])) errors =
      some ⟨.mismatchError,
        [.tx [0x01, 0x07, 0x13, 0x00, 0x10, 0x0F, 0x00, 0x10, 0x0F, 0xA8, 0x03], .echo 11, .rxResp [0x06],
          .tx [0x02, 0x01, 0x5A, 0xA5, 0x03], .echo 5, .wait .verifyFrame, .rxResp [0x06, 0x0F]],
        ⟨none, some 0x0F1000#24, none, some 0x0A#8, 0⟩⟩ := by decide +kernel

/-- R86's example. -/
theorem test_dataFrame :
    seen (.dataFrame [0xAA#8] false) (on framed [delivers (noise 5), quiet]) errors =
      some ⟨.noError, [.tx [0x02, 0x01, 0xAA, 0x55, 0x17], .echo 5], ⟨none, none, none, none, 0⟩⟩ := by decide +kernel

/-- V-DE, the first row. -/
theorem test_responseFrame :
    seen (.responseFrame [0x06#8] true) (framed) errors =
      some ⟨.noError, [.rxResp [0x06]], ⟨none, none, none, none, 0⟩⟩ := by decide +kernel

/-- The bytes in the queue before it are read as the start of the next response (R38). -/
theorem test_responseFrame_behind :
    seen (.responseFrame [0x06#8] true) (framed.receive [0x01, 0x01]) errors =
      some ⟨.formatError, [], ⟨none, none, none, none, 5⟩⟩ := by decide +kernel

/-! ## One step: the handshake -/

/-- P1, request 1. -/
theorem test_reqInit :
    seen (.reqInit 1 1000000 5000 false 0) (on State.reset
        (linesTicks ++ [delivers (noise 1), quiet, quiet] ++ reply 7 [0x02, 0x03, 0x06, 0x10, 0x01, 0xE6, 0x03] ++
          [quiet])) (fun s => (s.seqr, s.baud, s.result.lastStatus)) =
      some ⟨.noError,
        [.parity none, .baud 115200, .line .reset false, .line .clock false, .line .reset true, .wait .settleReset,
          .line .clock true, .wait .settleClock, .flush,
          .tx [0x00], .echo 1, .flush, .wait .sync, .tx [0x01, 0x03, 0x9A, 0x03, 0x32, 0x2E, 0x03], .echo 7,
          .rxResp [0x06, 0x10, 0x01], .baud 1000000],
        (⟨.ready, none, some 1, some .framed, some 1024, some 1000000, some true, some true⟩,
          ⟨some 0x10#8, some 0x01#8⟩, some 0x06#8)⟩ := by decide +kernel

/-- P4, request 1. -/
theorem test_reqInit_g10 :
    seen (.reqInit 4 115200 3300 false 0)
      (on State.reset (linesTicks ++ [delivers (noise 1 ++ [0x06, 0x06]), quiet, quiet]))
      (fun s => (s.seqr, s.baud)) =
      some ⟨.noError,
        [.parity none, .baud 115200, .line .reset false, .line .clock false, .line .reset true, .wait .settleReset,
          .line .clock true, .wait .settleClock, .flush,
          .tx [0xA1], .echo 1, .rxRaw [0x06, 0x06]],
        (⟨.ready, none, some 4, some .g10, some 1024, some 115200, some true, some true⟩, ⟨none, none⟩)⟩
          := by decide +kernel

/-- R115: the flush removes what the Target sends. -/
theorem test_sync :
    seen .sync (on { framed with seqr := { framed.seqr with seq := .syncing } } [delivers (noise 1 ++ [0x77]), quiet,
      quiet]) (fun s => (s.seqr.seq, s.line.rxq)) =
      some ⟨.noError, [.tx [0x00], .echo 1, .flush, .wait .sync], (.synced, [])⟩ := by decide +kernel

/-- R120: the first byte that was not ACK. -/
theorem test_g10ModeSet :
    seen .g10ModeSet (on { imaged with seqr := { imaged.seqr with seq := .syncing } } [delivers (noise 1 ++
      [0x06, 0x15]), quiet, quiet]) (fun s => (errors s, s.seqr.seq)) =
      some ⟨.synchronizationFailed, [.tx [0xA1], .echo 1, .rxRaw [0x06, 0x15]],
        (⟨some 0x15#8, none, some .deviceRejected, none, 0⟩, .idle)⟩ := by decide +kernel

/-- P3, request 2. -/
theorem test_reqResetAndRun :
    seen (.reqResetAndRun 3) (framed) (fun s => (s.seqr.seq, s.seqr.lineReset, s.seqr.lineClock)) =
      some ⟨.noError, [.line .reset false, .wait .run, .line .reset true], (.idle, some true, some true)⟩
        := by decide +kernel

/-! ## One step: the block controller -/

/-- V-P4, with blocks of 4 bytes. -/
theorem test_reqRegion_skip :
    seen (.reqRegion .program .code 0x000000#24 4) ({ framed with
        seqr := { framed.seqr with blockSz := some 4 }, args := { verbose := some 1 }, code := Memory.filled 4 })
          (fun s => (s.blk.nblk, s.blk.bidx, s.diags)) =
      some ⟨.noError, [], (some 1, some 0, [⟨some 1, .ffSkip 0x000000#24⟩])⟩ := by decide +kernel

/-- The region past the address space (D58). -/
theorem test_reqRegion_bound :
    seen (.reqRegion .erase .code 0xFFFC00#24 2048) ({ framed with code := Memory.filled 2048 }) errors =
      some ⟨.badRequest, [], ⟨none, none, none, some 0x0B#8, 0⟩⟩ := by decide +kernel

/-! ## One step: the whole-image variant -/

/-- The G10 registers. -/
def image (s : State) : G10Regs := s.g10

/-- A G10 session whose CODE buffer holds 512 bytes of 0xFF. -/
def blankImage : State := { imaged with code := Memory.filled 512 }

/-- P4, request 4. -/
theorem test_reqG10EraseWrite :
    seen (.reqG10EraseWrite 512)
      (on blankImage [delivers (noise 1 ++ [0x06, 0x00, 0x03]), quiet, quiet, delivers (noise 1), quiet])
      (fun s => (image s, errors s)) =
      some ⟨.sizeMismatch, [.tx [0xA2], .echo 1, .rxRaw [0x06, 0x00, 0x03], .tx [0x15], .echo 1],
        (⟨some 0x06#8, some 0x00#8, some 0x03#8, none, none, none, none, none⟩,
          ⟨some 0x03#8, none, none, some 0x0C#8, 0⟩)⟩ := by decide +kernel

/-- V-G10, `size = 6`. -/
theorem test_reqG10EraseWrite_multiple :
    seen (.reqG10EraseWrite 6) (blankImage) errors =
      some ⟨.badRequest, [], ⟨none, none, none, some 0x0C#8, 0⟩⟩ := by decide +kernel

/-- V-G10: the CRC of 01 02 03 04 in the order BE, and a device that differs in the last bit. -/
theorem test_reqG10CrcCheck :
    seen (.reqG10CrcCheck 4)
      (on { imaged with params := { P with g10Caps := [(0x01#8, 4)] }, code := ⟨4, [(0, 1), (1, 2), (2, 3), (3, 4)]⟩ }
        [delivers (noise 1 ++ [0x06, 0x00, 0x01]), quiet, quiet, delivers (noise 1 ++ [0x89, 0xC2]), quiet,
          quiet]) image =
      some ⟨.checksumMismatch,
        [.tx [0xA3], .echo 1, .rxRaw [0x06, 0x00, 0x01], .tx [0x06], .echo 1, .rxRaw [0x89, 0xC2]],
        ⟨some 0x06#8, some 0x00#8, some 0x01#8, none, none, some 0x89C3#16, some 0x89C2#16, some false⟩⟩
          := by decide +kernel

/-- P4, the opening of request 2. -/
theorem test_g10EraseWrite :
    seen .g10EraseWrite (on imaged [delivers (noise 1 ++ [0x06, 0x00, 0x01]), quiet, quiet]) image =
      some ⟨.noError, [.tx [0xA2], .echo 1, .rxRaw [0x06, 0x00, 0x01]],
        ⟨some 0x06#8, some 0x00#8, some 0x01#8, none, none, none, none, none⟩⟩ := by decide +kernel

/-- P4, the opening of request 3. -/
theorem test_g10CrcCheck :
    seen .g10CrcCheck (on imaged [delivers (noise 1 ++ [0x06, 0x00, 0x01]), quiet, quiet]) image =
      some ⟨.noError, [.tx [0xA3], .echo 1, .rxRaw [0x06, 0x00, 0x01]],
        ⟨some 0x06#8, some 0x00#8, some 0x01#8, none, none, none, none, none⟩⟩ := by decide +kernel

/-- P4, the capacity ACK. -/
theorem test_g10Ack :
    seen .g10Ack (on imaged [delivers (noise 1), quiet]) errors =
      some ⟨.noError, [.tx [0x06], .echo 1], ⟨none, none, none, none, 0⟩⟩ := by decide +kernel

/-- P4, the capacity NACK and the abort. -/
theorem test_g10Nack :
    seen .g10Nack (on { imaged with g10 := { capCode := some 0x03#8 } } [delivers (noise 1), quiet]) errors =
      some ⟨.sizeMismatch, [.tx [0x15], .echo 1], ⟨some 0x03#8, none, none, none, 0⟩⟩ := by decide +kernel

/-- V-G10, word 5 answered by 15. -/
theorem test_g10Word :
    seen (.g10Word 0x14#8 0x15#8 0x16#8 0x17#8)
      (on { imaged with g10 := { widx := some 5 } } [delivers (noise 4 ++ [0x15]), quiet, quiet]) errors =
      some ⟨.programFailed, [.tx [0x14, 0x15, 0x16, 0x17], .echo 4, .rxRaw [0x15]],
        ⟨none, some 0x000014#24, none, none, 0⟩⟩ := by decide +kernel

/-! ## The Transport, the queue and the machine -/

/-- What `decode_response` gives: the error, the payload, and how many bytes stay queued. -/
structure Decoded where
  error   : Option ErrKind
  payload : List Byte
  left    : Nat
deriving DecidableEq, Repr

/-- What `decode_response` gives on a silent line. -/
def decoded (queue : List Byte) (n : Nat) : Decoded :=
  match decodeResponse n (framed.receive queue) with
  | .ok pl t => ⟨none, pl, t.line.rxq.length⟩
  | .error (.raised e) t => ⟨some e.kind, [], t.line.rxq.length⟩
  | .error _ t => ⟨none, [], t.line.rxq.length⟩

/-- Rows of V-DE. -/
theorem test_decode_rows :
    [decoded [0x02, 0x01, 0x06, 0xF9, 0x17] 1, decoded [0x01, 0x01, 0x06, 0xF9, 0x03] 1,
      decoded [0x02, 0x02, 0x06, 0x06, 0x00, 0x04] 1, decoded [0x02, 0x01, 0x06, 0xF8, 0x04] 1,
      decoded [0x02, 0x01, 0x06, 0xF8, 0x03] 1, decoded [0x02, 0x01, 0x06, 0xF9] 1] =
    [⟨none, [0x06#8], 0⟩, ⟨some .formatError, [], 3⟩, ⟨some .lengthMismatch, [], 4⟩, ⟨some .formatError, [], 0⟩,
      ⟨some .checksumError, [], 0⟩, ⟨some .timeout, [], 0⟩] := by decide +kernel

/-- V-DE, the last row, for a request (R169). -/
theorem test_closed :
    seen .reqResetCmd (framed.setOpen false) errors =
      some ⟨.io, [], ⟨none, none, none, some 0x02#8, 0⟩⟩ := by decide +kernel

/-- A short write is `Io`; the bytes written stay sent (R47, R160). -/
theorem test_shortWrite :
    seen (.reqBlockErase 0x000400#24) (on framed [{ fail := true, wrote := 2 }]) errors =
      some ⟨.io, [.tx [0x01, 0x04]], ⟨none, none, none, some 0x06#8, 0⟩⟩ := by decide +kernel

/-- V-RQ, a code outside R78. -/
theorem test_unknownCode :
    (after (step { State.reset with inputs := [.present .request [0x0F]] })).map (fun t => (t.err.kind, t.err.op)) =
      some (.badRequest, some 0x0F#8) := by decide +kernel

/-- A word of the opcode table runs; on a silent line its echo never comes (V-EC). -/
theorem test_step_word :
    (after (step (framed.withFetchWord 8 0x22))).map (fun t => (t.err.kind, t.hist)) =
      some (.timeout, [.tx [0x01, 0x04, 0x22, 0x00, 0x00, 0x00, 0xDA, 0x03]]) := by decide +kernel

/-- V-CK0. -/
theorem test_cks :
    (cks [], cks [0x01], cks [0xFF, 0x02], cks (List.replicate 256 0xFF#8)) =
      (0x00#8, 0xFF#8, 0xFF#8, 0x00#8) := by decide +kernel

/-- R174: the record is what was emitted while VERBOSE > 0, and an event emitted while VERBOSE held none is a read of it
(R41, I21). -/
theorem test_recorded :
    recorded [⟨some 1, .ffSkip 0x000000#24⟩, ⟨some 0, .ffSkip 0x000400#24⟩] = .ok [.ffSkip 0x000000#24] ∧
      recorded [⟨none, .error .io none none⟩] = .error (.readNone .VERBOSE) := ⟨rfl, rfl⟩

/-- R77: bytes on the line that are no response frame are read by decode, with the length they claim. -/
theorem test_malformed :
    (after (present .response [0x02, 0x01, 0x06, 0xFA, 0x03] framed)).map (fun t => t.err.kind) = some .checksumError
      := by decide +kernel

/-- V-P4's region with a request arriving at its first register write, at its MemRead and at its end: each is refused
(R79), and the region is processed as without them (R8, R138). -/
theorem test_busy_moment :
    seen (.reqRegion .program .code 0x000000#24 4)
      { framed with
        seqr := { framed.seqr with blockSz := some 4 }, args := { verbose := some 1 }, code := Memory.filled 4
        moments := [{ busy := [0x01] }, {}, {}, {}, {}, {}, { busy := [0x02, 0x03] }, {}, { busy := [0x0E] }] }
      (fun s => (errors s, s.blk.bidx, s.moments.length)) =
      some ⟨.badRequest, [], (⟨none, none, none, some 0x0E#8, 0⟩, some 0, 0)⟩ := by decide +kernel

/-- R176: a reset at the Wait of RESET_AND_RUN: the first line is driven and the second is not, and no error is
reported. -/
theorem test_reset_moment :
    seen (.reqResetAndRun 3) { framed with moments := [{}, {}, { reset := true }] } (fun s => (s.seqr.seq, s.line.reset)) =
      some ⟨.noError, [.line .reset false], (.idle, some false)⟩ := by decide +kernel

/-- I5: bytes that are no unit the Engine sends are refused. -/
theorem test_noUnit :
    (after (present .raw [0x77] framed)).map (fun t => (t.err.kind, t.err.op)) = some (.badRequest, none)
      := by decide +kernel

/-- R25: the size of V-A1, an underflow, no multiple of the granule, and a size above the largest. -/
theorem test_dataSize :
    (dataSizeOf P 0x0F13FF#24, dataSizeOf P 0x0F0FFF#24, dataSizeOf P 0x0F1400#24, dataSizeOf P 0xFFFFFF#24) =
      (1024, 0, 0, 0) := by decide +kernel

/-! ## Witnesses: each meets all the hypotheses of the obligation it is named after

The echo of a witness repeats the bytes sent (`id`). -/

/-- An instruction that answers a next state with a property that can be decided. -/
theorem next_with {o : Host.Outcome State Fault Refusal} (q : State → Prop) [DecidablePred q]
    (h : (after o).any (fun t => decide (q t)) = true) : ∃ t, o = .next t ∧ q t := by
  cases o with
  | next t => exact ⟨t, rfl, by simpa [after] using h⟩
  | fault _ => simp [after] at h
  | refused _ => simp [after] at h

/-- An instruction that answers a next state. -/
theorem next_some {o : Host.Outcome State Fault Refusal} (h : (after o).isSome = true) : ∃ t, o = .next t := by
  cases o with
  | next t => exact ⟨t, rfl⟩
  | fault _ => simp [after] at h
  | refused _ => simp [after] at h

/-- Moments checked for being undisturbed. -/
theorem undisturbed_of {s : State} (h : (s.moments.all fun m => !m.reset && m.busy.isEmpty) = true) : s.undisturbed :=
  fun m hm => by simpa using List.all_eq_true.mp h m hm

/-- Moments checked for an Engine reset. -/
theorem noReset_of {s : State} (h : (s.moments.all fun m => !m.reset) = true) : s.noReset :=
  fun m hm => by simpa using List.all_eq_true.mp h m hm

/-- A rule that begins another primitive at a state with a property that can be decided. -/
theorem some_with {o : Option State} (q : State → Prop) [DecidablePred q]
    (h : o.any (fun u => decide (q u)) = true) : ∃ u, o = some u ∧ q u := by
  cases o with
  | some u => exact ⟨u, rfl, by simpa using h⟩
  | none => simp at h

/-- An echo that repeats the bytes sent. -/
theorem echoLike_id : EchoLike id := fun _ => rfl

theorem witness_DecodeEncode :
    P.valid = true ∧ P.rawDistinct = true ∧ (Instr.blankCheck 0x000000#24 0xFFFFFF#24).wellFormed = true ∧
      (Instr.verify 0xFFFFFF#24 0xFFFFFF#24 [0x5A#8]).wellFormed = true ∧
      (Instr.reqInit (2 ^ 32 - 1) 0 0 true 0).wellFormed = true := by decide

theorem witness_FrameSumsToZero :
    encodeCommand P 0x22#8 (le3 0x000400#24) = .ok [0x01, 0x04, 0x22, 0x00, 0x04, 0x00, 0xD6, 0x03] ∧
      encodeData P [0xAA#8] false = .ok [0x02, 0x01, 0xAA, 0x55, 0x17] := ⟨rfl, rfl⟩

theorem witness_DecodePriority :
    ∃ (s : State) (n m : Nat), (1 ≤ n ∧ n ≤ 256) ∧ (1 ≤ m ∧ m ≤ 256) ∧ n = 1 ∧ m = 256 ∧ s.script = [] ∧
      s.line.isOpen = true ∧ s.calm := ⟨framed, 1, 256, by decide, by decide, rfl, rfl, rfl, rfl, rfl⟩

theorem witness_RecvExactPieces :
    ∃ (s : State) (pieces : List (List Byte)) (rest : List Tick), s.lineClear ∧ (∀ c ∈ pieces, c ≠ []) ∧
      pieces.flatten.length = 3 ∧ s.script = pieces.map delivers ++ rest :=
  ⟨on framed ([[0x02, 0x01], [0x06]].map delivers ++ [quiet]), [[0x02, 0x01], [0x06]], [quiet], ⟨rfl, rfl, rfl⟩, by decide,
    rfl, rfl⟩

theorem witness_ResponseFrameLoopsBack :
    ∃ (s : State) (bytes : List Byte) (rest : List Tick), s.seqr.op = none ∧ baudReady s = true ∧ s.lineClear ∧ 1 ≤ bytes.length ∧
      bytes.length ≤ 256 ∧ bytes.length = 256 ∧ s.script = quiet :: quiet :: rest :=
  ⟨on framed [quiet, quiet], List.replicate 256 0x55#8, [], rfl, rfl, ⟨rfl, rfl, rfl⟩, by rw [List.length_replicate]; decide,
    by rw [List.length_replicate], List.length_replicate, rfl⟩

theorem witness_ResponseFrameLoopsBack_encoded :
    ∃ (s : State) (bytes frame : List Byte), s.lineClear ∧ 1 ≤ bytes.length ∧ bytes.length ≤ 256 ∧
      s.script = quiet :: quiet :: [] ∧ encodeData s.params bytes false = .ok frame :=
  ⟨on framed [quiet, quiet], [0xAA#8], [0x02, 0x01, 0xAA, 0x55, 0x17], ⟨rfl, rfl, rfl⟩, by decide, by decide, rfl, rfl⟩

theorem witness_ResponseFrameLoopsBack_refused :
    ∃ (s : State) (rest : List Tick), s.lineClear ∧ s.script = quiet :: quiet :: rest ∧ baudReady s = false :=
  ⟨on imaged [quiet, quiet], [], ⟨rfl, rfl, rfl⟩, rfl, rfl⟩

theorem witness_DataFrameRow_elsewhere : imaged.seqr.op = none ∧ framedReady imaged = false := ⟨rfl, rfl⟩

theorem witness_DataFrameRow_sent :
    ∃ (s : State) (bytes : List Byte), s.seqr.op = none ∧ framedReady s = true ∧ s.lineClear ∧ 1 ≤ bytes.length ∧ bytes.length ≤ 256 ∧
      s.script = sendTicks s.params (id (dataBytes s.params bytes false)) [] ++ [] :=
  ⟨on framed (sendTicks P (id (dataBytes P [0xAA#8] false)) [] ++ []), [0xAA#8], rfl, rfl, ⟨rfl, rfl, rfl⟩, by decide,
    by decide, rfl⟩

theorem witness_DataFrameRow_refused :
    ∃ (s : State) (bytes : List Byte), s.seqr.op = none ∧ framedReady s = true ∧ s.calm ∧ ([] : List Byte) = [] ∧
      256 < bytes.length :=
  ⟨framed, List.replicate 257 0x00#8, rfl, rfl, rfl, rfl, by rw [List.length_replicate]; decide⟩

theorem witness_StatusCommandsComplete_reset :
    ∃ s : State, s.seqr.op = none ∧ framedReady s = true ∧ s.lineClear ∧
      s.script = commandTicks s.params id .reset [] [Config.ack] ++ [] :=
  ⟨on framed (commandTicks P id .reset [] [Config.ack] ++ []), rfl, rfl, ⟨rfl, rfl, rfl⟩, rfl⟩

theorem witness_StatusCommandsComplete_erase :
    ∃ s : State, s.seqr.op = none ∧ framedReady s = true ∧ s.lineClear ∧
      s.script = commandTicks s.params id .blockErase (le3 0xFFFC00#24) [Config.ack] ++ [] :=
  ⟨on framed (commandTicks P id .blockErase (le3 0xFFFC00#24) [Config.ack] ++ []), rfl, rfl, ⟨rfl, rfl, rfl⟩, rfl⟩

/-- A framed session with a CODE buffer of two bytes. -/
def sourced : State := { framed with code := ⟨2, [(1, 0x5A#8)]⟩ }

theorem witness_StatusCommandsRejected :
    ∀ o ∈ [Opcode.reset, .blockErase, .siliconSignature, .checksum, .program, .verify], ∀ q : List Byte,
      ∃ (s : State) (b : Byte), s.seqr.op = none ∧ framedReady s = true ∧ s.lineClear ∧ b ≠ Config.ack ∧
        s.ident.idValid = false ∧ 1 + ((0xFFFFFF#24 : Addr).toNat - (0xFFFFFF#24 : Addr).toNat + 1) ≤
          (s.buffer .code).size ∧ s.script = commandTicks s.params id o q [b] ++ [] :=
  fun o _ q => ⟨on sourced (commandTicks P id o q [0x15#8] ++ []), 0x15#8, rfl, rfl, ⟨rfl, rfl, rfl⟩, by decide, rfl,
    (by decide : 2 ≤ 2), rfl⟩

theorem witness_StatusCommandsRejected_baud :
    ∃ (s : State) (rate mv : Nat) (code volt b : Byte), s.seqr.op = none ∧ framedReady s = true ∧ s.lineClear ∧
      b ≠ Config.ack ∧ s.params.baudCode rate = some code ∧ volt = BitVec.ofNat 8 (mv / 100) ∧ mv ≤ 25599 ∧
      s.script = commandTicks s.params id .baudSet [code, volt] [b, 0x20#8, 0x00#8] ++ [] :=
  ⟨on framed (commandTicks P id .baudSet [0x00#8, 0xFF#8] [0x05#8, 0x20#8, 0x00#8] ++ []), 115200, 25599, 0x00#8,
    0xFF#8, 0x05#8, rfl, rfl, ⟨rfl, rfl, rfl⟩, by decide, rfl, rfl, by decide, rfl⟩

theorem witness_BlankCheckAnswers :
    ∀ b ∈ [0x06#8, 0x1B#8, 0x04#8], ∃ (s : State) (a e : Addr), s.seqr.op = none ∧ framedReady s = true ∧
      s.lineClear ∧ a.toNat ≤ e.toNat ∧
      s.script = commandTicks s.params id .blankCheck (blankPayload s.params a e) [b] ++ [] :=
  fun b _ => ⟨on framed (commandTicks P id .blankCheck (blankPayload P 0x000400#24 0x000400#24) [b] ++ []),
    0x000400#24,
    0x000400#24, rfl, rfl, ⟨rfl, rfl, rfl⟩, by decide, rfl⟩

theorem witness_BaudSetCompletes :
    ∃ (s : State) (rate mv : Nat) (code volt : Byte), s.seqr.op = none ∧ framedReady s = true ∧ s.lineClear ∧
      s.params.baudCode rate = some code ∧ volt = BitVec.ofNat 8 (mv / 100) ∧ mv ≤ 25599 ∧
      s.script = commandTicks s.params id .baudSet [code, volt] [Config.ack, 0x20#8, 0x00#8] ++ [] :=
  ⟨on framed (commandTicks P id .baudSet [0x00#8, 0xFF#8] [Config.ack, 0x20#8, 0x00#8] ++ []), 115200, 25599, 0x00#8,
    0xFF#8, rfl, rfl, ⟨rfl, rfl, rfl⟩, rfl, rfl, by decide, rfl⟩

theorem witness_SetLinkBaudCompletes :
    ∃ (s : State) (rest : List Tick), s.seqr.op = none ∧ s.calm ∧ s.line.isOpen = true ∧ s.script = quiet :: rest :=
  ⟨on State.reset [quiet], [], rfl, rfl, rfl, rfl⟩

theorem witness_SetLinkBaudCompletes_fails :
    (∃ (s : State) (rest : List Tick), s.seqr.op = none ∧ s.calm ∧ s.line.isOpen = true ∧
      s.script = { fail := true } :: rest) ∧
    ∃ (s : State) (rest : List Tick), s.seqr.op = none ∧ s.calm ∧ s.line.isOpen = false ∧
      s.script = quiet :: rest :=
  ⟨⟨on framed [{ fail := true }], [], rfl, rfl, rfl, rfl⟩, ⟨on (framed.setOpen false) [quiet], [], rfl, rfl, rfl, rfl⟩⟩

theorem witness_SignatureCompletes :
    ∃ (s : State) (code name fw : List Byte) (ce de : Addr), s.seqr.op = none ∧ framedReady s = true ∧
      s.ident.idValid = false ∧ s.lineClear ∧ code.length = 3 ∧ name.length = 10 ∧ fw.length = 3 ∧
      s.script = commandTicks s.params id .siliconSignature [] [Config.ack] ++
        [delivers (dataBytes s.params (code ++ name ++ le3 ce ++ le3 de ++ fw) true), quiet] ++ [] :=
  ⟨on framed (commandTicks P id .siliconSignature [] [Config.ack] ++
      [delivers (dataBytes P (noise 3 ++ noise 10 ++ le3 0xFFFFFF#24 ++ le3 0x0F13FF#24 ++ noise 3) true), quiet] ++
        []),
    noise 3, noise 10, noise 3, 0xFFFFFF#24, 0x0F13FF#24, rfl, rfl, rfl, ⟨rfl, rfl, rfl⟩, rfl, rfl, rfl, rfl⟩

theorem witness_ChecksumCompletes :
    ∃ (s : State) (a e : Addr), s.seqr.op = none ∧ framedReady s = true ∧ s.lineClear ∧ a.toNat ≤ e.toNat ∧
      s.script = commandTicks s.params id .checksum (le3 a ++ le3 e) [Config.ack] ++
        [delivers (dataBytes s.params [0x34#8, 0x12#8] true), quiet] ++ [] :=
  ⟨on framed (commandTicks P id .checksum (le3 0x000000#24 ++ le3 0xFFFFFF#24) [Config.ack] ++
      [delivers (dataBytes P [0x34#8, 0x12#8] true), quiet] ++ []),
    0x000000#24, 0xFFFFFF#24, rfl, rfl, ⟨rfl, rfl, rfl⟩, by decide, rfl⟩

theorem witness_ProgramCompletes :
    ∃ (s : State) (a e : Addr) (off : Nat) (bytes : List Byte),
      s.seqr.op = none ∧ framedReady s = true ∧ s.lineClear ∧
      bytes ≠ [] ∧ a.toNat ≤ e.toNat ∧ off + (e.toNat - a.toNat + 1) ≤ (s.buffer .code).size ∧
      bytes = (s.buffer .code).slice off (e.toNat - a.toNat + 1) ∧ (s.buffer .code).wf = true ∧
      s.script = programTicks s.params id a e bytes ++ [] :=
  ⟨on sourced (programTicks P id 0xFFFFFF#24 0xFFFFFF#24 [0x5A#8] ++ []), 0xFFFFFF#24, 0xFFFFFF#24, 1, [0x5A#8], rfl,
    rfl,
    ⟨rfl, rfl, rfl⟩, by decide, by decide, by decide, by decide, by decide, rfl⟩

theorem witness_VerifyCompletes :
    ∃ (s : State) (a e : Addr) (off : Nat) (bytes : List Byte),
      s.seqr.op = none ∧ framedReady s = true ∧ s.lineClear ∧
      bytes ≠ [] ∧ a.toNat ≤ e.toNat ∧ off + (e.toNat - a.toNat + 1) ≤ (s.buffer .code).size ∧
      bytes = (s.buffer .code).slice off (e.toNat - a.toNat + 1) ∧ (s.buffer .code).wf = true ∧
      s.script = verifyTicks s.params id a e bytes ++ [] :=
  ⟨on sourced (verifyTicks P id 0x000000#24 0x000001#24 [0xFF#8, 0x5A#8] ++ []), 0x000000#24, 0x000001#24, 0,
    [0xFF#8, 0x5A#8], rfl, rfl, ⟨rfl, rfl, rfl⟩, by decide, by decide, by decide, by decide, by decide, rfl⟩

/-- The calls of a transfer whose one frame, `[0x5A]`, is answered by `b0` and `b1`. -/
def failing (o : Opcode) (b0 b1 : Byte) : List Tick :=
  commandTicks P id o (rangePayload 0x000400#24 0x000400#24) [Config.ack] ++
    failedTicks P id [] [0x5A#8] ([] : List (List Byte)).isEmpty [b0, b1] ++ []

theorem witness_FrameFailureStops :
    ∀ o ∈ [Opcode.program, Opcode.verify], ∃ (s : State) (off : Nat) (b0 b1 : Byte), s.seqr.op = none ∧
      framedReady s = true ∧ s.lineClear ∧ (s.buffer .code).wf = true ∧ off + ((0x000400#24 : Addr).toNat - (0x000400#24 : Addr).toNat + 1) ≤
        (s.buffer .code).size ∧
      [0x5A#8] = (s.buffer .code).slice off ((0x000400#24 : Addr).toNat - (0x000400#24 : Addr).toNat + 1) ∧
      framesOf [0x5A#8] = [] ++ [0x5A#8] :: [] ∧ ¬ (b0 = Config.ack ∧ b1 = Config.ack) ∧
      s.script = failing o b0 b1 :=
  fun o _ => ⟨on sourced (failing o 0x06#8 0x15#8), 1, 0x06#8, 0x15#8, rfl, rfl, ⟨rfl, rfl, rfl⟩, rfl, (by decide : 2 ≤ 2), rfl,
    rfl, by decide, rfl⟩

theorem witness_FrameFailureStops_completion :
    ∃ (s : State) (b : Byte), s.seqr.op = none ∧ framedReady s = true ∧ s.lineClear ∧ b ≠ Config.ack ∧
      s.script = commandTicks s.params id .program (rangePayload 0x000400#24 0x000400#24) [Config.ack] ++
        transferTicks s.params id (framesOf [0x5A#8]) ++ [delivers (dataBytes s.params [b] true), quiet] ++ [] :=
  ⟨on sourced (commandTicks P id .program (rangePayload 0x000400#24 0x000400#24) [Config.ack] ++
    transferTicks P id (framesOf [0x5A#8]) ++ [delivers (dataBytes P [0x1C#8] true), quiet] ++ []), 0x1C#8, rfl, rfl,
    ⟨rfl, rfl, rfl⟩, by decide, rfl⟩

theorem witness_HandshakeUnitsComplete_sync :
    ∃ s : State, s.seqr.op = none ∧ s.seqr.seq = .syncing ∧ s.lineClear ∧ s.seqr.variant = some .framed ∧
      s.script = sendTicks s.params (id [s.params.syncByte]) [] ++ quiet :: [] :=
  ⟨on { framed with seqr := { framed.seqr with seq := .syncing } } (sendTicks P (id [P.syncByte]) [] ++ quiet :: []),
    rfl,
    rfl, ⟨rfl, rfl, rfl⟩, rfl, rfl⟩

theorem witness_HandshakeUnitsComplete_modeSet :
    ∃ s : State, s.seqr.op = none ∧ s.seqr.seq = .syncing ∧ s.lineClear ∧ s.seqr.variant = some .g10 ∧
      s.script = rawTicks s.params id [s.params.g10ModeSet] [Config.ack, Config.ack] ++ [] :=
  ⟨on { imaged with seqr := { imaged.seqr with seq := .syncing } }
      (rawTicks P id [P.g10ModeSet] [Config.ack, Config.ack] ++ []), rfl, rfl, ⟨rfl, rfl, rfl⟩, rfl, rfl⟩

theorem witness_InitFramedCompletes :
    ∃ (s : State) (proto rate mv : Nat) (code : Byte), s.seqr.op = none ∧ s.calm ∧ s.line.isOpen = true ∧
      s.params.variantOf proto = .framed ∧ s.params.baudCode rate = some code ∧ mv ≤ 25599 ∧
      (true = true → s.readyIn = true) ∧
      s.script = linesTicks ++ syncTicks s.params id code (BitVec.ofNat 8 (mv / 100)) 0x10#8 0x01#8 ++ [] :=
  ⟨on { State.reset with readyIn := true }
      (linesTicks ++ syncTicks P id 0x03#8 (BitVec.ofNat 8 (25599 / 100)) 0x10#8 0x01#8 ++ []), 1, 1000000, 25599,
        0x03#8,
    rfl, rfl, rfl, rfl, rfl, by decide, fun _ => rfl, rfl⟩

theorem witness_InitG10Completes :
    ∃ (s : State) (proto rate mv : Nat), s.seqr.op = none ∧ s.calm ∧ s.line.isOpen = true ∧
      s.params.variantOf proto = .g10 ∧
      (s.params.baudCode rate).isSome = true ∧ mv ≤ 25599 ∧ (true = true → s.readyIn = true) ∧
      s.script = linesTicks ++ rawTicks s.params id [s.params.g10ModeSet] [Config.ack, Config.ack] ++ [] :=
  ⟨on { State.reset with readyIn := true } (linesTicks ++ rawTicks P id [P.g10ModeSet] [Config.ack, Config.ack] ++
    []), 4,
    115200, 0, rfl, rfl, rfl, rfl, rfl, by decide, fun _ => rfl, rfl⟩

/-- The hold of `waiting`. -/
theorem waiting_held : waiting.Held := ⟨rfl, rfl, rfl, rfl, rfl, rfl, rfl, ⟨_, _, rfl, rfl, by decide⟩⟩

theorem witness_DelayedStartHolds_entered :
    ∃ (s : State) (rate mv : Nat), s.seqr.op = none ∧ s.calm ∧ s.line.isOpen = true ∧
      (s.params.baudCode rate).isSome = true ∧
      mv ≤ 25599 ∧ s.readyIn = false ∧ s.script = [quiet, quiet, quiet, quiet] ++ [] :=
  ⟨on State.reset ([quiet, quiet, quiet, quiet] ++ []), 115200, 3300, rfl, rfl, rfl, rfl, by decide, rfl, rfl⟩

theorem witness_DelayedStartHolds_lifted :
    ∃ (s : State) (rate mv : Nat) (code : Byte), s.Held ∧ s.calm ∧ s.line.isOpen = true ∧ s.seqr.variant = some .framed ∧
      s.args.targetBaud = some rate ∧ s.args.voltageMv = some mv ∧ s.params.baudCode rate = some code ∧
      s.script = [quiet, quiet, quiet] ++ syncTicks s.params id code (BitVec.ofNat 8 (mv / 100)) 0x10#8 0x01#8 ++
        [] :=
  ⟨on waiting ([quiet, quiet, quiet] ++ syncTicks P id 0x03#8 (BitVec.ofNat 8 (5000 / 100)) 0x10#8 0x01#8 ++ []),
    1000000,
    5000, 0x03#8, ⟨rfl, rfl, rfl, rfl, rfl, rfl, rfl, ⟨_, _, rfl, rfl, by decide⟩⟩, rfl, rfl, rfl, rfl, rfl, rfl, rfl⟩

/-- A held INIT of a G10 session. -/
def waitingG10 : State := { waiting with seqr := { waiting.seqr with variant := some .g10 } }

/-- The hold of `waitingG10`. -/
theorem waitingG10_held : waitingG10.Held := ⟨rfl, rfl, rfl, rfl, rfl, rfl, rfl, ⟨_, _, rfl, rfl, by decide⟩⟩

theorem witness_DelayedStartHolds_liftedG10 :
    ∃ s : State, s.Held ∧ s.calm ∧ s.line.isOpen = true ∧ s.seqr.variant = some .g10 ∧
      s.script = [quiet, quiet, quiet] ++ rawTicks s.params id [s.params.g10ModeSet] [Config.ack, Config.ack] ++ [] :=
  ⟨on waitingG10 ([quiet, quiet, quiet] ++ rawTicks P id [P.g10ModeSet] [Config.ack, Config.ack] ++ []),
    ⟨rfl, rfl, rfl, rfl, rfl, rfl, rfl, ⟨_, _, rfl, rfl, by decide⟩⟩, rfl, rfl, rfl, rfl⟩

theorem witness_OnlyReadyLiftsHold :
    ∃ (x : Input) (s t : State), s.Held ∧ x ≠ .ready true ∧ x ≠ .engineReset ∧ takeInput x s = .next t :=
  ⟨.closeTransport, waiting, _, waiting_held, by decide, by decide, rfl⟩

theorem witness_InitOutcomes :
    ∃ (s : State) (rate mv : Nat), s.seqr.op = none ∧ rateOk rate mv s = true ∧ s.undisturbed :=
  ⟨framed, 1000000, 25599, rfl, by decide, undisturbed_of (by decide)⟩

/-- The premises of the second part of InitOutcomes, for the calls of each of its clauses. -/
theorem witness_InitOutcomes_fails :
    ∀ variant : Variant, ∀ ticks : Params → List Tick, ∃ (s : State) (proto rate mv : Nat) (code : Byte),
      s.seqr.op = none ∧ s.calm ∧ s.line.isOpen = true ∧ s.params.baudCode rate = some code ∧ mv ≤ 25599 ∧
      (true = true → s.readyIn = true) ∧ s.params.variantOf proto = variant ∧ s.params.echo = true ∧
      s.script = ticks s.params ++ [] ∧ 6 < 7 ∧ 0x1A#8 ≠ Config.ack :=
  fun v ticks => ⟨on { State.reset with readyIn := true } (ticks P ++ []), match v with | .framed => 1 | .g10 => 4,
    1000000, 25599, 0x03#8, rfl, rfl, rfl, rfl, by decide, fun _ => rfl, by cases v <;> rfl, rfl, rfl, by decide,
    by decide⟩

/-- R118, for a step 3 whose sync byte has no echo, and a step 4 whose baud-set is answered by 0x1A. -/
theorem witness_InitOutcomes_steps :
    (∃ t, exec (.reqInit 1 115200 3300 false 0) (on State.reset (linesTicks ++ [quiet, quiet])) = .next t ∧
      t.err = { kind := .synchronizationFailed, cause := some .timeout, op := some 0x01#8 }) ∧
    ∃ t, exec (.reqInit 1 115200 3300 false 0) (on State.reset (linesTicks ++ [delivers (noise 1), quiet, quiet] ++
        reply 7 [0x02, 0x03, 0x1A, 0x00, 0x00, 0xE3, 0x03])) = .next t ∧
      t.err = { kind := .initializationFailed, status := some 0x1A#8, cause := some .deviceRejected,
                op := some 0x01#8 } :=
  ⟨next_with (fun t => t.err = _) (by decide +kernel), next_with (fun t => t.err = _) (by decide +kernel)⟩

theorem witness_ResetAndRun_runs :
    ∃ (s : State) (rest : List Tick), s.seqr.op = none ∧ s.calm ∧ s.line.isOpen = true ∧
      s.script = quiet :: quiet :: rest :=
  ⟨on State.reset [quiet, quiet], [], rfl, rfl, rfl, rfl⟩

theorem witness_ResetAndRun_fails :
    ∃ s : State, s.seqr.op = none ∧ s.undisturbed ∧ s.line.isOpen = false :=
  ⟨framed.setOpen false, rfl, undisturbed_of (by decide), rfl⟩

/-- A framed session whose blocks are of four bytes, with two blocks of data and a tail of one byte in CODE. -/
def blocks : State :=
  { framed with seqr := { framed.seqr with blockSz := some 4 }, code := ⟨9, [(1, 0x5A#8), (8, 0x77#8)]⟩ }

theorem witness_RegionCompletes :
    ∀ mode ∈ [CMode.erase, CMode.program, CMode.verify], ∃ (s : State) (base : Addr) (size bs : Nat)
      (answers : List Bool), s.seqr.op = none ∧ framedReady s = true ∧ s.seqr.blockSz = some bs ∧ 0 < size ∧
      size ≤ (s.buffer .code).size ∧ base.toNat + size / bs * bs ≤ 2 ^ 24 ∧ (s.buffer .code).wf = true ∧ s.lineClear ∧
      answers.length = size / bs ∧
      s.script = regionTicks s.params id mode (s.buffer .code) base bs 0 answers ++ [] :=
  fun mode _ => ⟨on blocks (regionTicks P id mode blocks.code 0xFFFFF8#24 4 0 [true, false] ++ []), 0xFFFFF8#24, 9, 4,
    [true, false], rfl, rfl, rfl, by decide, (by decide : 9 ≤ 9), by decide, rfl, ⟨rfl, rfl, rfl⟩, rfl, rfl⟩

theorem witness_RegionSendsNothing :
    ∃ (s : State) (size bs : Nat), s.seqr.op = none ∧ framedReady s = true ∧ s.seqr.blockSz = some bs ∧
      s.calm ∧ 0 < size ∧ size < bs ∧ size ≤ (s.buffer .code).size := ⟨blocks, 3, 4, rfl, rfl, rfl, rfl, by decide, by decide,
        by decide⟩

theorem witness_RegionSendsNothing_erased :
    ∃ (s : State) (base : Addr) (size bs : Nat), s.seqr.op = none ∧ framedReady s = true ∧ s.seqr.blockSz = some bs ∧
      s.calm ∧ (s.buffer .code).wf = true ∧ size ≤ (s.buffer .code).size ∧ base.toNat + size / bs * bs ≤ 2 ^ 24 ∧
      ∀ j < size / bs * bs, (s.buffer .code).get j = 0xFF#8 :=
  ⟨{ blocks with code := ⟨9, [(8, 0x77#8)]⟩ }, 0xFFFFF8#24, 9, 4, rfl, rfl, rfl, rfl, by decide, by decide, by decide,
    by decide⟩

/-- Each of the ways a block fails, at the second block of `blocks`, of which the first holds data and the second does
not, or at the first one. -/
theorem witness_BlockFails :
    let blank := blocks.code.slice (1 * 4) 4
    let full := blocks.code.slice (0 * 4) 4
    (∃ c e r, BlockFails P id .erase 0#24 3#24 full c e r ∧ r.kind = .deviceRejected) ∧
    (∃ c e r, BlockFails P id .verify 0#24 3#24 blank c e r ∧ r.kind = .mismatchError) ∧
    (∃ c e r, BlockFails P id .program 0#24 3#24 full c e r ∧ r.kind = .deviceRejected) ∧
    (∀ m : StreamMode, ∃ c e r, BlockFails P id m.region 0#24 3#24 full c e r ∧ r.kind = .deviceRejected) ∧
    (∀ m : StreamMode, ∃ c e r, BlockFails P id m.region 0#24 3#24 full c e r ∧ r.kind = m.error) ∧
    ∃ c e r, BlockFails P id .program 0#24 3#24 full c e r ∧ r.kind = .programFailed :=
  ⟨⟨_, _, _, .check (b := 0x04#8) rfl (by decide) (by decide), rfl⟩, ⟨_, _, _, .notBlank (by decide), rfl⟩,
    ⟨_, _, _, .erase (b := 0x1A#8) (by decide) (by decide), rfl⟩,
    fun m => ⟨_, _, _, .command (nb := false) (b := 0x05#8) (by decide) (by decide), rfl⟩,
    fun m => ⟨_, _, _, .frame (c := [0xFF#8, 0x5A#8, 0xFF#8, 0xFF#8]) (nb := true) (pre := []) (post := [])
      (b0 := 0x06#8) (b1 := 0x15#8) (by decide) (by decide) (by decide), rfl⟩,
    ⟨_, _, _, .completion (nb := true) (b := 0x1C#8) (by decide) (by decide), rfl⟩⟩

theorem witness_RegionStopsAtFirstError :
    ∀ mode : CMode, ∀ c e r, BlockFails P id mode 0x000000#24 0x000003#24 (blocks.code.slice (0 * 4) 4) c e r →
      ∃ (s : State) (base : Addr) (size bs : Nat) (answers : List Bool), s.seqr.op = none ∧ framedReady s = true ∧
        s.seqr.blockSz = some bs ∧ 0 < size ∧ size ≤ (s.buffer .code).size ∧ base.toNat + size / bs * bs ≤ 2 ^ 24 ∧
        (s.buffer .code).wf = true ∧ s.lineClear ∧ answers.length < size / bs ∧
        BlockFails s.params id mode (blockStart base bs answers.length) (blockEnd base bs answers.length)
          ((s.buffer .code).slice (answers.length * bs) bs) c e r ∧
        s.script = regionTicks s.params id mode (s.buffer .code) base bs 0 answers ++ c ++ [] :=
  fun _ c _ _ h => ⟨on blocks (c ++ []), 0x000000#24, 9, 4, [], rfl, rfl, rfl, by decide, (by decide : 9 ≤ 9), by decide,
    rfl, ⟨rfl, rfl, rfl⟩, by decide, h, rfl⟩

theorem witness_RegionStopsAtFirstError_second :
    ∃ (s : State) (base : Addr) (size bs : Nat) (answers : List Bool) (c : List Tick) (e : List Event) (r : Err),
      s.seqr.op = none ∧ framedReady s = true ∧
      s.seqr.blockSz = some bs ∧ 0 < size ∧ size ≤ (s.buffer .code).size ∧ base.toNat + size / bs * bs ≤ 2 ^ 24 ∧
      (s.buffer .code).wf = true ∧ s.lineClear ∧ answers.length = 1 ∧ answers.length < size / bs ∧
      BlockFails s.params id .verify (blockStart base bs 1) (blockEnd base bs 1) ((s.buffer .code).slice (1 * bs) bs)
        c e r ∧
      s.script = regionTicks s.params id .verify (s.buffer .code) base bs 0 answers ++ c ++ [] :=
  ⟨on blocks (regionTicks P id .verify blocks.code 0x000000#24 4 0 [true] ++
      commandTicks P id .blankCheck (blankPayload P (blockStart 0x000000#24 4 1) (blockEnd 0x000000#24 4 1))
        [blankStatus true] ++ []),
    0x000000#24, 9, 4, [true], _, _, _, rfl, rfl, rfl, by decide, by decide, by decide, by decide, ⟨rfl, rfl, rfl⟩,
    rfl, by decide, .notBlank (by decide), rfl⟩

theorem witness_RegionIgnoresTail :
    ∃ (s : State) (size bs : Nat) (m : Memory), s.seqr.blockSz = some bs ∧ (s.buffer .code).wf = true ∧ m.wf = true ∧
      m.size = (s.buffer .code).size ∧ m ≠ s.buffer .code ∧ ∀ j < size / bs * bs, m.get j = (s.buffer .code).get j :=
  ⟨blocks, 9, 4, ⟨9, [(1, 0x5A#8)]⟩, rfl, by decide, by decide, rfl, by decide, by decide⟩

theorem witness_ImageUnits_open :
    ∀ cmd : Byte, ∃ s : State, s.seqr.op = none ∧ g10Ready s = true ∧ s.lineClear ∧
      s.script = rawTicks s.params id [cmd] [0x06#8, 0x00#8, 0x01#8] ++ [] :=
  fun cmd => ⟨on imaged (rawTicks P id [cmd] [0x06#8, 0x00#8, 0x01#8] ++ []), rfl, rfl, ⟨rfl, rfl, rfl⟩, rfl⟩

theorem witness_ImageUnits_answer :
    ∀ b : Byte, ∃ s : State, s.seqr.op = none ∧ g10Ready s = true ∧ s.lineClear ∧ s.g10.capCode = some 0x03#8 ∧
      s.script = sendTicks s.params (id [b]) [] ++ [] :=
  fun b => ⟨on { imaged with g10 := { capCode := some 0x03#8 } } (sendTicks P (id [b]) [] ++ []), rfl, rfl,
    ⟨rfl, rfl, rfl⟩, rfl,
    rfl⟩

theorem witness_ImageUnits_none :
    ∀ x : List Tick, ∃ s : State, s.seqr.op = none ∧ g10Ready s = true ∧ s.lineClear ∧ s.g10.capCode = none ∧
      s.g10.widx = none ∧ Config.nack ≠ Config.ack ∧ s.script = x ++ [] :=
  fun x => ⟨on imaged (x ++ []), rfl, rfl, ⟨rfl, rfl, rfl⟩, rfl, rfl, by decide, rfl⟩

theorem witness_ImageUnits_word :
    ∀ b ∈ [Config.ack, Config.nack], ∃ s : State, s.seqr.op = none ∧ g10Ready s = true ∧ s.lineClear ∧
      s.g10.widx = some 5 ∧ s.script = rawTicks s.params id [0x14#8, 0x15#8, 0x16#8, 0x17#8] [b] ++ [] :=
  fun b _ => ⟨on { imaged with g10 := { widx := some 5 } } (rawTicks P id [0x14#8, 0x15#8, 0x16#8, 0x17#8] [b] ++ []),
    rfl,
    rfl, ⟨rfl, rfl, rfl⟩, rfl, rfl⟩

/-- A G10 session whose table has an image of four bytes, and that image. -/
def small : State := { imaged with params := { P with g10Caps := [(0x01#8, 4)] }, code := ⟨4, [(0, 0x5A#8)]⟩ }

/-- The calls of an opening exchange with capacity code 0x01 that is acknowledged. -/
def opening : List Tick :=
  rawTicks small.params id [small.params.g10EraseWrite] [0x06#8, 0x00#8, 0x01#8] ++
    sendTicks small.params (id [Config.ack]) []

theorem witness_EraseWriteCompletes :
    ∃ (s : State) (size : Nat) (code : Byte) (misses : List (Option Byte)), s.seqr.op = none ∧ g10Ready s = true ∧
      s.lineClear ∧ 0 < size ∧ size ≤ s.code.size ∧ size % 4 = 0 ∧ s.params.g10Cap code = some size ∧
      misses.length < 100 ∧ (∀ m ∈ misses, m ≠ some Config.ack) ∧
      s.script = rawTicks s.params id [s.params.g10EraseWrite] [0x06#8, 0x00#8, code] ++
        sendTicks s.params (id [Config.ack]) [] ++ pollTicks (misses ++ [some Config.ack]) ++
        wordTicks s.params id (imageWords s.code (size / 4) 0) ++ [] :=
  ⟨on small (opening ++ pollTicks (List.replicate 99 none ++ [some Config.ack]) ++
      wordTicks small.params id (imageWords small.code (4 / 4) 0) ++ []), 4, 0x01#8, List.replicate 99 none, rfl, rfl,
    ⟨rfl, rfl, rfl⟩, by decide, by decide, by decide, rfl, by simp, by simp, rfl⟩

theorem witness_EraseWriteFailures_timeout :
    ∃ (s : State) (size : Nat) (code : Byte) (misses : List (Option Byte)), s.seqr.op = none ∧ g10Ready s = true ∧
      s.lineClear ∧ 0 < size ∧ size ≤ s.code.size ∧ size % 4 = 0 ∧ s.params.g10Cap code = some size ∧
      misses.length = 100 ∧ (∀ m ∈ misses, m ≠ some Config.ack) ∧
      s.script = rawTicks s.params id [s.params.g10EraseWrite] [0x06#8, 0x00#8, code] ++
        sendTicks s.params (id [Config.ack]) [] ++ pollTicks misses ++ [] :=
  ⟨on small (opening ++ pollTicks (List.replicate 100 none) ++ []), 4, 0x01#8, List.replicate 100 none, rfl, rfl,
    ⟨rfl, rfl, rfl⟩, by decide, by decide, by decide, rfl, by simp, by simp, rfl⟩

theorem witness_EraseWriteFailures_word :
    ∃ (s : State) (size : Nat) (code : Byte) (w : Nat) (b : Byte), s.seqr.op = none ∧ g10Ready s = true ∧
      s.lineClear ∧ 0 < size ∧ size ≤ s.code.size ∧ size % 4 = 0 ∧ s.params.g10Cap code = some size ∧ w < size / 4 ∧
      b ≠ Config.ack ∧
      s.script = rawTicks s.params id [s.params.g10EraseWrite] [0x06#8, 0x00#8, code] ++
        sendTicks s.params (id [Config.ack]) [] ++ pollTicks [some Config.ack] ++
        wordTicks s.params id (imageWords s.code w 0) ++ rawTicks s.params id (s.code.slice (4 * w) 4) [b] ++ [] :=
  ⟨on small (opening ++ pollTicks [some Config.ack] ++ wordTicks small.params id (imageWords small.code 0 0) ++
      rawTicks small.params id (small.code.slice (4 * 0) 4) [0x15#8] ++ []), 4, 0x01#8, 0, 0x15#8, rfl, rfl,
        ⟨rfl, rfl, rfl⟩,
    by decide, by decide, by decide, rfl, by decide, by decide, rfl⟩

theorem witness_SizeMismatchAborts :
    ∀ cmd : Byte, ∃ (s : State) (size : Nat) (code : Byte), s.seqr.op = none ∧ g10Ready s = true ∧ s.lineClear ∧
      0 < size ∧ size ≤ s.code.size ∧ s.params.g10Cap code ≠ some size ∧ size % 4 = 0 ∧
      s.script = rawTicks s.params id [cmd] [0x06#8, 0x00#8, code] ++ sendTicks s.params (id [Config.nack]) [] ++
        [] :=
  fun cmd => ⟨on small (rawTicks small.params id [cmd] [0x06#8, 0x00#8, 0x03#8] ++
      sendTicks small.params (id [Config.nack]) [] ++ []), 4, 0x03#8, rfl, rfl, ⟨rfl, rfl, rfl⟩, by decide,
        (by decide : 4 ≤ 4),
    (by decide : small.params.g10Cap 0x03#8 ≠ some 4), by decide, rfl⟩

/-- The same with the image 01 02 03 04, whose CRC is 0x89C3 (V-G10). -/
def counted : State := { small with code := ⟨4, [(0, 0x01#8), (1, 0x02#8), (2, 0x03#8), (3, 0x04#8)]⟩ }

theorem test_counted_crc : crc16 counted.params (counted.code.slice 0 4) = 0x89C3#16 := by decide +kernel

theorem witness_CrcCheckCompares :
    ∀ d1 : Byte, ∃ (s : State) (size : Nat) (code : Byte), s.seqr.op = none ∧ g10Ready s = true ∧ s.lineClear ∧
      0 < size ∧ size ≤ s.code.size ∧ s.params.g10Cap code = some size ∧
      crc16 s.params (s.code.slice 0 size) = 0x89#8 ++ 0xC3#8 ∧
      s.script = rawTicks s.params id [s.params.g10CrcCheck] [0x06#8, 0x00#8, code] ++
        sendTicks s.params (id [Config.ack]) [0x89#8, d1] ++ [quiet] ++ [] :=
  fun d1 => ⟨on counted (rawTicks counted.params id [counted.params.g10CrcCheck] [0x06#8, 0x00#8, 0x01#8] ++
      sendTicks counted.params (id [Config.ack]) [0x89#8, d1] ++ [quiet] ++ []), 4, 0x01#8, rfl, rfl, ⟨rfl, rfl, rfl⟩,
    by decide, (by decide : 4 ≤ 4), rfl, test_counted_crc, rfl⟩

theorem witness_CrcCheckCompares_registers :
    counted.calm ∧ 4 ≤ counted.code.size ∧ crc16 counted.params (counted.code.slice 0 4) ≠ 0x89C2#16 :=
  ⟨rfl, by decide, by decide +kernel⟩

/-- R153, R154: after RecvExact(2) of a G10_CRC_CHECK whose registers hold an earlier one's values, `CRC_DEV` is written
and then the image is read, before `CRC_LOCAL` and then `CRC_OK` are. -/
theorem test_crcCheck_order :
    ([7, 8, 9, 10, 11].map fun k =>
      (between (.reqG10CrcCheck 4) k { on counted (rawTicks P id [P.g10CrcCheck] [0x06#8, 0x00#8, 0x01#8] ++
          sendTicks P (id [Config.ack]) [0x89#8, 0xC2#8] ++ [quiet]) with
        g10 := { counted.g10 with crcDev := some 1#16, crcLocal := some 1#16, crcOk := some true } }).map fun u =>
          (u.g10.crcDev, u.g10.crcLocal, u.g10.crcOk)) =
      [some (some 1#16, some 1#16, some true), some (some 0x89C2#16, some 1#16, some true),
        some (some 0x89C2#16, some 1#16, some true), some (some 0x89C2#16, some 0x89C3#16, some true),
        some (some 0x89C2#16, some 0x89C3#16, some false)] := by decide +kernel

/-- R40: the registers of a session are written one by one, in the order of the rule. -/
theorem test_writes_order :
    ((List.range 4).map fun k => (between (.reqInit 1 115200 3300 false 0) k State.reset).map fun u =>
      (u.seqr.proto.isSome, u.seqr.variant.isSome, u.seqr.blockSz.isSome)) =
      [some (false, false, false), some (true, false, false), some (true, true, false), some (true, true, true)] := by
  decide +kernel

/-- R34: REGION is accepted with its arguments latched. -/
theorem test_region_latched :
    (between (.reqRegion .erase .data 0x000400#24 0) 0 framed).map (fun u =>
      (u.blk.cmode, u.blk.rbuf, u.blk.rbase, u.blk.rsize)) =
      some (some .erase, some .data, some 0x000400#24, some 0) := by decide +kernel

theorem witness_ImageOfSizeZero : ∃ (s : State) (size : Nat), s.seqr.op = none ∧ g10Ready s = true ∧ s.calm ∧ size % 4 ≠ 0 :=
  ⟨imaged, 6, rfl, rfl, rfl, by decide⟩

theorem witness_CrcVectors :
    ∀ i ∈ [0xFFFF#16, 0x0000#16], ∃ p : Params, p.crcXorout = 0x0000#16 ∧ p.crcInit = i :=
  fun i _ => ⟨{ P with crcInit := i }, rfl, rfl⟩

theorem witness_BusyEngineRefuses :
    ∃ (i : Instr) (r : Req) (s : State), i.request = some r ∧ s.seqr.op ≠ none :=
  ⟨.reqSignature, .signature, waiting, rfl, by decide⟩

theorem witness_BusyEngineRefuses_each :
    ∀ k < 3, ∃ (s : State) (rest : List Tick), s.seqr.op = none ∧ s.line.isOpen = true ∧ s.script = quiet :: rest ∧
      s.moments = List.replicate k ({} : Moment) ++ [{ busy := [0x0E#8] }] :=
  fun k _ => ⟨{ on framed [quiet] with moments := List.replicate k ({} : Moment) ++ [{ busy := [0x0E#8] }] }, [], rfl,
    rfl, rfl, rfl⟩

theorem witness_BusyEngineRefuses_moment :
    ∀ k < 5, ∃ (s : State) (bs : Nat), s.seqr.op = none ∧ framedReady s = true ∧
      s.seqr.blockSz = some bs ∧ s.moments = List.replicate k ({} : Moment) ++ [{ busy := [0x0E#8] }] :=
  fun k _ => ⟨{ blocks with moments := List.replicate k ({} : Moment) ++ [{ busy := [0x0E#8] }] }, _, rfl, rfl, rfl, rfl⟩

theorem witness_PreconditionsRefuse :
    State.reset.params.baudCode 9600 = none ∧ 25599 < 25600 ∧ State.reset.seqr.variant ≠ some .framed ∧
      imaged.seqr.variant ≠ some .framed ∧ State.reset.seqr.seq ≠ .ready ∧
      ({ framed with ident := { idValid := true } } : State).ident.idValid = true ∧
      (0x0007FF#24 : Addr).toNat < (0x000800#24 : Addr).toNat ∧
      (blocks.buffer .code).size < 9 + ((0x000000#24 : Addr).toNat - (0x000000#24 : Addr).toNat + 1) ∧
      (blocks.buffer .code).size < 10 ∧
      (framed.seqr.blockSz = some 1024 ∧ 2 ^ 24 < (0xFFFC00#24 : Addr).toNat + 2048 / 1024 * 1024) ∧
      framed.seqr.variant ≠ some .g10 ∧ small.code.size < 5 := by decide

theorem witness_UnknownCodeRefused :
    0x0E#8 < 0x0F#8 ∧ decode State.reset.params .request (0x06#8 :: [0x00#8]) = .error .badArguments ∧
      decode State.reset.params .raw [0x77] = .error .unknownRaw ∧
      (∃ r, decode framed.params .response [0x02, 0x01, 0x06, 0xFA, 0x03] = .error r) ∧ framed.seqr.op = none ∧
      baudReady framed = true :=
  ⟨by decide, by decide +kernel, by decide +kernel, ⟨.badChecksum, by decide +kernel⟩, rfl, rfl⟩

theorem witness_RaiseWritesErrorRegisters :
    ∃ (m : Eng Unit) (s u : State) (e : Err), m s = .error (.raised e) u ∧ u.moments ≠ [] :=
  ⟨raise { kind := .deviceRejected, status := some 0x1A#8 }, { framed with moments := [{}, { busy := [0x0E#8] }] }, _, _,
    rfl, by decide⟩

theorem witness_ErrorInformation_status :
    ∃ s : State, Instr.reqResetCmd.request = some .resetCmd ∧ s.seqr.op = none ∧ s.undisturbed ∧
      ∃ t, exec .reqResetCmd s = .next t ∧ t.err.kind ≠ .badRequest ∧ t.err ≠ {} ∧ t.err.kind = .deviceRejected :=
  ⟨on framed (reply 5 [0x02, 0x01, 0x15, 0xEA, 0x03]), rfl, rfl, undisturbed_of (by decide), next_with
    (fun t => t.err.kind ≠ .badRequest ∧
    t.err ≠ {} ∧ t.err.kind = .deviceRejected) (by decide +kernel)⟩

theorem witness_ErrorInformation_cause :
    ∃ s : State, (Instr.reqInit 1 115200 3300 false 0).request = some .init ∧ s.seqr.op = none ∧ s.undisturbed ∧
      ∃ t, exec (.reqInit 1 115200 3300 false 0) s = .next t ∧ t.err.kind ≠ .badRequest ∧ t.err ≠ {} ∧
        t.err.kind = .synchronizationFailed :=
  ⟨State.reset.setOpen false, rfl, rfl, undisturbed_of (by decide), next_with (fun t => t.err.kind ≠ .badRequest ∧
    t.err ≠ {} ∧ t.err.kind = .synchronizationFailed) (by decide +kernel)⟩

theorem witness_ErrorInformation_address :
    ∃ s : State, (Instr.reqBlockProgram 0x000400#24 0x000400#24 .code 1).request = some .blockProgram ∧
      s.seqr.op = none ∧ s.undisturbed ∧
      ∃ t, exec (.reqBlockProgram 0x000400#24 0x000400#24 .code 1) s = .next t ∧ t.err.kind ≠ .badRequest ∧ t.err ≠ {} ∧
        t.err.kind = .programFailed :=
  ⟨on sourced (reply 11 [0x02, 0x01, 0x06, 0xF9, 0x03] ++ reply 5 [0x02, 0x02, 0x15, 0x06, 0xE3, 0x03]), rfl, rfl,
    undisturbed_of (by decide), next_with
      (fun t => t.err.kind ≠ .badRequest ∧ t.err ≠ {} ∧ t.err.kind = .programFailed)
      (by decide +kernel)⟩

theorem witness_NoCodecErrorInG10 :
    (∃ t, exec (.reqG10EraseWrite 4) small = .next t) ∧ (∃ t, exec (.reqG10CrcCheck 4) small = .next t) ∧
      small.seqr.op = none ∧ small.undisturbed :=
  ⟨next_some (by decide +kernel), next_some (by decide +kernel), rfl, undisturbed_of (by decide)⟩

theorem witness_ClosedTransportIsIo :
    ∃ (s : State) (rate mv off size bs : Nat) (a e : Addr), s.seqr.op = none ∧ s.undisturbed ∧ s.line.isOpen = false ∧
      framedReady s = true ∧ rateOk rate mv s = true ∧ s.ident.idValid = false ∧ a.toNat ≤ e.toNat ∧
      off + (e.toNat - a.toNat + 1) ≤ (s.buffer .code).size ∧ s.seqr.blockSz = some bs ∧ 0 < size / bs ∧
      size ≤ (s.buffer .code).size ∧ a.toNat + size / bs * bs ≤ 2 ^ 24 ∧
      (s.buffer .code).wf = true ∧ ∃ j < size / bs * bs, (s.buffer .code).get j ≠ 0xFF#8 :=
  ⟨blocks.setOpen false, 115200, 3300, 0, 9, 4, 0x000000#24, 0x000008#24, rfl, undisturbed_of (by decide), rfl, rfl,
    by decide, rfl, by decide, by decide, rfl, by decide, by decide, by decide, by decide, ⟨1, by decide, by decide⟩⟩

theorem witness_ClosedTransportIsIo_g10 :
    ∃ (s : State) (size : Nat), s.seqr.op = none ∧ s.undisturbed ∧ s.line.isOpen = false ∧ g10Ready s = true ∧
      0 < size ∧ size ≤ s.code.size ∧ size % 4 = 0 :=
  ⟨small.setOpen false, 4, rfl, undisturbed_of (by decide), rfl, rfl, by decide, (by decide : 4 ≤ 4), by decide⟩

theorem witness_ClosedTransportIsIo_later :
    ∃ (s : State) (rest : List Tick), s.seqr.op = none ∧ s.undisturbed ∧ s.line.isOpen = false ∧ s.script = quiet :: rest :=
  ⟨on (framed.setOpen false) [quiet], [], rfl, undisturbed_of (by decide), rfl, rfl⟩

theorem witness_StepRunsDecoded :
    ∃ (s : State) (i : Instr), s.inputs = .present .request [0x05#8] :: [] ∧
      decode s.params .request [0x05#8] = .ok i :=
  ⟨{ framed with inputs := [.present .request [0x05#8]] }, .reqSignature, rfl, by decide +kernel⟩

/-- RESET_AND_RUN has seven primitives: after six of them one is left, and the last one ends it. -/
theorem witness_StepRunsDecoded_primitive :
    (between (.reqResetAndRun 3) 6 framed).isSome = true ∧ between (.reqResetAndRun 3) 7 framed = none := by
  decide +kernel

theorem witness_StepRunsDecoded_idle : State.reset.inputs = [] := rfl

theorem witness_EngineResetAbandons :
    (∃ s : State, s.inputs = .engineReset :: []) ∧ ∃ (m : Eng Unit) (s u : State), m s = .error .reset u :=
  ⟨⟨{ waiting with inputs := [.engineReset] }, rfl⟩, ⟨fun s => .error .reset s, framed, framed, rfl⟩⟩

/-- The first word of a response is there, and the second is still to be read. -/
theorem witness_EngineResetAbandons_between :
    ∃ u, between .reqResetCmd 2 (on framed (reply 5 [0x02, 0x01, 0x06, 0xF9, 0x03])) = some u ∧
      u.line.rxq = [0x06, 0xF9, 0x03] :=
  some_with (fun u => u.line.rxq = _) (by decide +kernel)

theorem witness_EngineResetAbandons_moment :
    (∃ (s : State) (rest : List Moment), s.seqr.op = none ∧ framedReady s = true ∧
      s.moments = { reset := true } :: rest) ∧
    ∀ k < 5, ∃ (s : State) (bs : Nat), s.seqr.op = none ∧ framedReady s = true ∧
      s.seqr.blockSz = some bs ∧ s.moments = List.replicate k ({} : Moment) ++ [{ reset := true }] :=
  ⟨⟨{ framed with moments := [{ reset := true }] }, [], rfl, rfl, rfl⟩,
    fun k _ => ⟨{ blocks with moments := List.replicate k ({} : Moment) ++ [{ reset := true }] }, _, rfl, rfl, rfl, rfl⟩⟩

theorem witness_RequestsAfterReset :
    framed.undisturbed ∧ (Instr.reqResetCmd.request = some .resetCmd ∧ Req.resetCmd ≠ .init ∧
      Req.resetCmd ≠ .setLinkBaud ∧ Req.resetCmd ≠ .resetAndRun) ∧
      (Instr.reqSetLinkBaud 115200).request = some .setLinkBaud ∧
      (Instr.reqResetAndRun 3).request = some .resetAndRun ∧
      (Instr.reqInit 1 115200 25599 false 0).request = some .init ∧ rateOk 115200 25599 framed = true :=
  ⟨undisturbed_of (by decide), by decide, by decide, by decide, by decide, by decide⟩

theorem witness_NoneRegisterFaults :
    framed.seqr.op = none ∧ regValue framed .SEQ = some (.num 4) ∧ regValue framed .FREQ = none ∧
      ∀ d ∈ [(⟨some 0, .ffSkip 0#24⟩ : Emitted)], d.level ≠ none := by decide

theorem witness_StoreThenRead :
    (blocks.buffer .code).wf = true ∧ blocks.calm ∧ ∃ t, takeInput (.store .code 7 [0x01, 0xFF]) blocks = .next t :=
  ⟨by decide, rfl, next_some (by decide)⟩

/-- The invariant holds after reset, whatever is presented next. -/
theorem inv_presented (inputs : List Input) : State.Inv { State.reset with inputs := inputs } :=
  ⟨⟨⟨rfl, rfl, fun h => absurd rfl h, nofun, nofun⟩, ⟨rfl, rfl⟩, .inl rfl, nofun⟩, .inl rfl⟩

theorem witness_StepKeepsInv :
    ∃ s : State, s.Inv ∧ ∃ t, step s = .next t ∧ t.hist ≠ [] :=
  ⟨{ State.reset with inputs := [.present .request [0x0E, 0x03, 0x00, 0x00, 0x00]] }, inv_presented _,
    next_with (fun t => t.hist ≠ []) (by decide +kernel)⟩

/-- RESET_AND_RUN between the fall of its line and the register that holds the level. -/
theorem witness_StepKeepsInv_between :
    ∃ s : State, s.Inv ∧ ∃ u, between (.reqResetAndRun 3) 1 s = some u ∧
      u.line.reset = some false ∧ u.seqr.lineReset = none ∧ u.seqr.op = some .resetAndRun :=
  ⟨State.reset, inv_presented [], some_with (fun u => u.line.reset = some false ∧ u.seqr.lineReset = none ∧
    u.seqr.op = some .resetAndRun) (by decide +kernel)⟩

/-- INIT after the first of the writes of R40: `PROTO` is written, and `VARIANT` and `BLOCK_SZ` are not yet. -/
theorem witness_StepKeepsInv_midway :
    ∃ s : State, s.Inv ∧ ∃ u, between (.reqInit 4 115200 3300 false 0) 1 s = some u ∧
      u.seqr.proto = some 4 ∧ u.seqr.variant = none ∧ u.seqr.op = some .init :=
  ⟨State.reset, inv_presented [], some_with (fun u => u.seqr.proto = some 4 ∧ u.seqr.variant = none ∧
    u.seqr.op = some .init) (by decide +kernel)⟩

/-- A held INIT, after its reset line was released and before its clock line is. -/
theorem witness_StepKeepsInv_held :
    waiting.Inv ∧ waiting.Held ∧ waiting.seqr.op = some .init ∧
      ∃ u, betweenHeld 4 { waiting with readyIn := true } = some u ∧ u.line.reset = some true ∧
        u.line.clock ≠ some true ∧ u.hist = [.line .reset true, .wait .settleReset] :=
  ⟨⟨⟨⟨rfl, rfl, fun h => absurd rfl h, nofun, nofun⟩, ⟨rfl, rfl⟩, .inl rfl, nofun⟩, .inr waiting_held⟩, waiting_held, rfl,
    some_with (fun u => u.line.reset = some true ∧ u.line.clock ≠ some true ∧
      u.hist = [.line .reset true, .wait .settleReset]) (by decide +kernel)⟩

theorem witness_EveryRequestEnds : ∃ (i : Instr) (r : Req) (s : State), s.Inv ∧ i.request = some r :=
  ⟨.reqResetAndRun 3, .resetAndRun, _, inv_presented [], rfl⟩

theorem witness_BuffersNeverWritten :
    sourced.code.cells ≠ [] ∧ ∃ t, exec (.reqBlockVerify 0x000000#24 0x000001#24 .code 0) sourced = .next t :=
  ⟨by decide, next_some (by decide +kernel)⟩

theorem witness_BuffersNeverWritten_lifted : ∃ t, takeInput (.ready true) waiting = .next t ∧ t.hist ≠ [] :=
  next_with (fun t => t.hist ≠ []) (by decide +kernel)

theorem witness_BuffersNeverWritten_between :
    ∃ u, between (.reqBlockVerify 0x000000#24 0x000001#24 .code 0) 6
        (on sourced (verifyTicks P id 0x000000#24 0x000001#24 [0xFF#8, 0x5A#8])) = some u ∧
      u.blk.fidx = some 0 ∧ u.hist = commandEvents P .verify (rangePayload 0x000000#24 0x000001#24) [Config.ack] :=
  some_with (fun u => u.blk.fidx = some 0 ∧ u.hist = _) (by decide +kernel)

theorem witness_OnlyUnitsAreSent_between :
    ∃ u, between .reqResetCmd 1 (on framed (reply 5 [])) = some u ∧ u.hist ≠ [] :=
  some_with (fun u => u.hist ≠ []) (by decide +kernel)

theorem witness_OnlyUnitsAreSent_step :
    ∃ t, step { waiting with inputs := [.ready true] } = .next t ∧ Event.tx [0x00] ∈ t.hist :=
  next_with (fun t => Event.tx [0x00] ∈ t.hist) (by decide +kernel)

/-- R160: a write that fails after two bytes leaves them, and the request ends with `Io`. -/
theorem witness_OnlyUnitsAreSent_short :
    ∃ t, exec .reqResetCmd (on framed [{ fail := true, wrote := 2 }]) = .next t ∧ t.hist = [.tx [0x01, 0x01]] ∧
      t.err.kind = .io :=
  next_with (fun t => t.hist = [.tx [0x01, 0x01]] ∧ t.err.kind = .io) (by decide +kernel)

theorem witness_OnlyUnitsAreSent : ∃ t, exec .reqResetCmd framed = .next t ∧ t.hist ≠ [] :=
  next_with (fun t => t.hist ≠ []) (by decide +kernel)

theorem witness_SequencerMovers :
    framed.noReset ∧ (∃ t, exec .reqResetCmd framed = .next t) ∧ Instr.reqResetCmd.request ≠ some .init ∧
      Instr.reqResetCmd.request ≠ some .resetAndRun ∧ Instr.reqResetCmd ≠ .sync ∧ Instr.reqResetCmd ≠ .g10ModeSet :=
  ⟨noReset_of (by decide), next_some (by decide +kernel), by decide, by decide, by decide, by decide⟩

theorem witness_SequencerMovers_init :
    ∃ s : State, s.noReset ∧ (∃ t, exec (.reqInit 4 115200 3300 false 0) s = .next t) ∧ s.seqr.op = none ∧
      rateOk 115200 3300 s = true := ⟨framed, noReset_of (by decide), next_some (by decide +kernel), rfl, by decide⟩

theorem witness_SequencerMovers_refused :
    ∃ s : State, s.noReset ∧ (∃ t, exec (.reqInit 4 115200 3300 false 0) s = .next t) ∧ s.seqr.op ≠ none :=
  ⟨waiting, noReset_of (by decide), next_some (by decide +kernel), by decide⟩

theorem witness_IdentityImmutable :
    ∃ s : State, s.noReset ∧ (∃ t, exec .reqSignature s = .next t) ∧ s.ident.idValid = true ∧
      Instr.reqSignature.request ≠ some .init :=
  ⟨{ framed with ident := identOf P (noise 22) }, noReset_of (by decide), next_some (by decide +kernel), rfl,
    by decide⟩

theorem witness_FlagsWrittenByTheirRule :
    small.noReset ∧ (∃ t, exec (.reqG10CrcCheck 4) small = .next t) ∧
      ∃ t, exec (.reqBlankCheck 0x000000#24 0x000000#24) framed = .next t :=
  ⟨noReset_of (by decide), next_some (by decide +kernel), next_some (by decide +kernel)⟩

theorem witness_CommandFrames :
    framed.noReset ∧ ∀ i ∈ [Instr.reset, .blankCheck 0#24 0#24, .checksum 0#24 0#24, .baudSet 0#8 0#8,
      .siliconSignature,
      .program 0#24 0#24 [0#8]], (after (exec i framed)).isSome = true := ⟨noReset_of (by decide), by decide +kernel⟩

theorem witness_OtherFrames :
    framed.noReset ∧ ∀ i ∈ [Instr.dataFrame [0#8] true, .sync, .reqG10EraseWrite 4, .reqSetBaud 115200 3300,
      .reqSetLinkBaud 115200, .reqResetAndRun 3, .reqRegion .erase .code 0#24 0, .reqInit 1 115200 3300 false 0],
      (after (exec i framed)).isSome = true := ⟨noReset_of (by decide), by decide +kernel⟩

end Sys2Proof.Tests
end

section
/-! PROOF. The 8-bit wrap-around sum and checksum against the integer sum of R12. -/

namespace Sys2Proof

/-- Dropping the carry at every addition is the integer sum mod 256 (R12). -/
theorem toNat_byteSum (s : List Byte) : (byteSum s).toNat = (s.map BitVec.toNat).sum % 256 := by
  induction s with
  | nil => rfl
  | cons b r ih =>
    calc (byteSum (b :: r)).toNat
      _ = (b.toNat + (byteSum r).toNat) % 256 := BitVec.toNat_add b (byteSum r)
      _ = (b.toNat + (r.map BitVec.toNat).sum) % 256 := by rw [ih, Nat.add_mod_mod]
      _ = ((b :: r).map BitVec.toNat).sum % 256 := by rw [List.map_cons, List.sum_cons]

/-- The checksum is the two's complement of the sum: what is missing to 256, and 0 where nothing is. -/
theorem toNat_cks (s : List Byte) : (cks s).toNat = (256 - (byteSum s).toNat) % 256 :=
  BitVec.toNat_neg (byteSum s)

/-- Settles O3, by induction on the byte string: its wrap-around sum is the integer sum mod 256. -/
theorem checksumDefinition : Obligations.ChecksumDefinition := fun s =>
  calc (cks s).toNat
    _ = (256 - (byteSum s).toNat) % 256 := toNat_cks s
    _ = (256 - (s.map BitVec.toNat).sum % 256) % 256 := by rw [toNat_byteSum]

end Sys2Proof
end

section
/-! PROOF. Which registers no rule writes but the one that names them: the identity registers (R27) and the flags
`ID_VALID`, `NOT_BLANK` and `CRC_OK` (R35), over every instruction in which no Engine reset happens. -/

namespace Sys2Proof.Machine

/-! ## What an instruction spares -/

/-- The instructions whose rule writes the identity registers, `ID_VALID` among them (R27, R40, R100). -/
def WritesIdent (i : Instr) : Prop := i = .siliconSignature ∨ i = .reqSignature ∨ i.request = some .init

/-- The instructions whose rule writes `NOT_BLANK`: a blank-check, or a region, which runs them (R28, R102, R130). -/
def WritesNotBlank (i : Instr) : Prop :=
  (∃ a e, i = .blankCheck a e) ∨ i.request = some .blankCheck ∨ i.request = some .region

/-- What an instruction that began in `s₀` has left as it was: each marked register it has no rule to write, and what
its bounds were checked against when it was accepted, so that its rule is known to run inside them. -/
structure Spared (i : Instr) (s₀ s : State) : Prop where
  params : s.params = s₀.params
  noReset : s.noReset
  code : s.code = s₀.code
  data : s.data = s₀.data
  blockSz : i.request ≠ some .init → s.seqr.blockSz = s₀.seqr.blockSz
  ident : ¬ WritesIdent i → s.ident = s₀.ident
  notBlank : ¬ WritesNotBlank i → s.result.notBlank = s₀.result.notBlank
  crcOk : i.request ≠ some .g10CrcCheck → s.g10.crcOk = s₀.g10.crcOk

/-- Where a rule may stop early: anywhere it has spared what it must, and not by an Engine reset. -/
def SparedStop (i : Instr) (s₀ : State) (w : Stop) (s : State) : Prop := w ≠ .reset ∧ Spared i s₀ s

variable {i : Instr} {s₀ s : State}

theorem Spared.refl (h : s.noReset) : Spared i s s :=
  ⟨rfl, h, rfl, rfl, fun _ => rfl, fun _ => rfl, fun _ => rfl, fun _ => rfl⟩

/-- Acceptance and the latched arguments write none of it (R34, R79). -/
theorem Spared.started (h : s.noReset) : Spared i s (started i s) := by
  cases i <;> exact { Spared.refl h with }

theorem Spared.passed (h : Spared i s₀ s) : Spared i s₀ s.passed := by
  rw [passed_eq]
  exact { h with noReset := fun m hm => h.noReset m (List.mem_of_mem_tail hm) }

theorem Spared.drive (h : Spared i s₀ s) (sig : Signal) (b : Bool) : Spared i s₀ (s.drive sig b) := by
  cases sig <;> exact { h with }

theorem Spared.driven (h : Spared i s₀ s) (sig : Signal) (b : Bool) : Spared i s₀ (s.driven sig b) := by
  cases sig <;> exact { h with }

theorem Spared.log (h : Spared i s₀ s) (e : Event) : Spared i s₀ (s.log e) := { h with }

theorem Spared.setSeq (h : Spared i s₀ s) (q : SeqState) : Spared i s₀ (s.setSeq q) := { h with }

/-- The bytes of a buffer stay where they were. -/
theorem Spared.buffer (h : Spared i s₀ s) (b : Buf) : s.buffer b = s₀.buffer b := by
  cases b
  · exact h.code
  · exact h.data

/-- No Engine reset is among what arrives before the next primitive. -/
theorem Spared.no_reset_next (h : Spared i s₀ s) : (s.moments.headD {}).reset ≠ true := by
  cases hm : s.moments with
  | nil => exact Bool.false_ne_true
  | cons m r => exact (Bool.eq_false_iff.1 (h.noReset m (by simp [hm])))

/-! ## What every instruction may write

The marked registers are outside what the line, the status, the sequencer, the block controller and the whole-image
variant write, so these parts of a rule spare them, however they stop. -/

theorem Spared.raised (h : Spared i s₀ s) (e : Err) : SparedStop i s₀ (.raised e) s := ⟨Stop.noConfusion, h⟩

theorem Spared.faulted (h : Spared i s₀ s) (f : Fault) : SparedStop i s₀ (.faulted f) s := ⟨Stop.noConfusion, h⟩

theorem spared_onLine (i : Instr) (s₀ : State) : OnLine s₀.params (Spared i s₀) (SparedStop i s₀) where
  params _ hs := hs.params
  script _ hs := { hs with }
  passed _ hs := hs.passed
  queue _ _ _ hs := { hs with }
  log _ _ _ hs := hs.log _
  sent _ _ _ hs := hs.log _
  reset _ hs hr := absurd hr hs.no_reset_next
  io _ hs := hs.raised _
  short _ _ _ hs := (hs.log _).raised _
  timeout _ hs := hs.raised _

theorem spared_onCommand (i : Instr) (s₀ : State) : OnCommand s₀.params (Spared i s₀) (SparedStop i s₀) where
  toOnLine := spared_onLine i s₀
  status _ _ hs := { hs with }
  codec _ _ _ hs := hs.raised _
  reject _ _ _ hs := hs.raised _
  frame _ _ hs := { hs with }

theorem spared_onControl (i : Instr) (s₀ : State) : OnControl s₀.params (Spared i s₀) (SparedStop i s₀) where
  toOnLine := spared_onLine i s₀
  rate _ _ hs := { hs with }
  parity _ _ hs := { hs with }
  drive _ sig b hs := hs.drive sig b
  driven _ sig b hs := hs.driven sig b
  linkBaud _ _ hs := { hs with }

theorem spared_modeWrites (f v : Byte) : Keeps (Spared i s₀) (SparedStop i s₀) (writes (modeWrites f v)) := by
  refine keeps_writes (spared_onLine i s₀) fun w hw _ hs => ?_
  fin_cases hw <;> exact { hs with }

theorem spared_responseWrites (a b c : Byte) :
    Keeps (Spared i s₀) (SparedStop i s₀) (writes (responseWrites a b c)) := by
  refine keeps_writes (spared_onLine i s₀) fun w hw _ hs => ?_
  fin_cases hw <;> exact { hs with }

theorem spared_regionWrites (mode : CMode) (b : Buf) (base : Addr) (size : Nat) :
    Keeps (Spared i s₀) (SparedStop i s₀) (writes (regionWrites mode b base size)) := by
  refine keeps_writes (spared_onLine i s₀) fun w hw _ hs => ?_
  fin_cases hw <;> exact { hs with }

theorem spared_partStops (i : Instr) (s₀ : State) (kind : ErrKind) :
    PartStops s₀.params (Spared i s₀) (SparedStop i s₀) kind where
  io _ hs := (hs.setSeq _).raised _
  short _ _ _ hs := ((hs.log _).setSeq _).raised _
  timeout _ hs := (hs.setSeq _).raised _

theorem spared_onHandshake (i : Instr) (s₀ : State) : OnHandshake s₀.params (Spared i s₀) (SparedStop i s₀) where
  toOnControl := spared_onControl i s₀
  status _ _ hs := { hs with }
  baud := spared_modeWrites
  seq _ q hs := hs.setSeq q
  syncStop := spared_partStops i s₀ _
  initStop _ := spared_partStops i s₀ _
  initCodec _ _ _ _ hs := (hs.setSeq _).raised _
  initReject _ _ _ _ hs := (hs.setSeq _).raised _
  modeReject _ _ _ _ hs := (hs.setSeq _).raised _
  targetBaud _ _ := .inr fun _ hs => hs.faulted _
  rateCode _ _ _ _ := .inr fun _ hs => (hs.setSeq _).raised _
  voltage _ _ := .inr fun _ hs => hs.faulted _
  delayed _ _ := .inr fun _ hs => hs.faulted _
  variant _ _ := .inr fun _ hs => hs.faulted _

theorem spared_onImage (i : Instr) (s₀ : State) : OnImage s₀.params (Spared i s₀) (SparedStop i s₀) where
  toOnLine := spared_onLine i s₀
  resp := spared_responseWrites
  pollCnt _ _ _ hs := { hs with }
  widx _ _ hs := { hs with }
  sizeStop _ _ hs := hs.raised _
  wordStop _ _ hs := hs.raised _

/-- What REGION writes besides, in an instruction whose rule writes `NOT_BLANK`. -/
theorem spared_onRegion (hi : WritesNotBlank i) (s₀ : State) : OnRegion s₀.params (Spared i s₀) (SparedStop i s₀) where
  toOnCommand := spared_onCommand i s₀
  notBlank _ _ hs := { hs with notBlank := fun hn => absurd hi hn }
  block _ _ hs := { hs with }
  blocks _ _ hs := { hs with }
  emit _ _ hs := { hs with }
  failed _ _ hs := hs.raised _
  mismatch _ _ hs := hs.raised _

/-! ## The rules that write a marked register -/

theorem spared_identityWrites (hi : WritesIdent i) (d : List Byte) :
    Keeps (Spared i s₀) (SparedStop i s₀) (writes (identityWrites d)) := by
  refine keeps_writes (spared_onLine i s₀) fun w hw _ hs => ?_
  fin_cases hw <;> exact { hs with ident := fun hn => absurd hi hn }

theorem spared_sessionWrites (hi : i.request = some .init) (proto : Nat) :
    Keeps (Spared i s₀) (SparedStop i s₀) (writes (sessionWrites proto)) := by
  refine keeps_writes (spared_onLine i s₀) fun w hw _ hs => ?_
  fin_cases hw <;>
    exact { hs with blockSz := fun hn => absurd hi hn, ident := fun hn => absurd (.inr (.inr hi)) hn }

theorem spared_signatureBody (hi : WritesIdent i) : Keeps (Spared i s₀) (SparedStop i s₀) signatureBody :=
  keeps_signatureBody (spared_onCommand i s₀).toOnStatus fun d _ => spared_identityWrites hi d

theorem spared_blankUnit (hi : WritesNotBlank i) (a e : Addr) : Keeps (Spared i s₀) (SparedStop i s₀) (blankUnit a e) :=
  keeps_blankUnit (spared_onCommand i s₀).toOnStatus (spared_onRegion hi s₀).notBlank a e

theorem spared_initBody (hi : i.request = some .init) (proto : Nat) :
    Keeps (Spared i s₀) (SparedStop i s₀) (initBody proto) :=
  keeps_initBody (spared_onHandshake i s₀) (fun _ hs => ⟨Stop.noConfusion, hs⟩) (spared_sessionWrites hi proto)

/-- An accepted region has a block size and lies inside its buffer (R78, R125). -/
theorem regionReady_bounds {b : Buf} {base : Addr} {size : Nat} (h : regionReady b base size s = true) :
    ∃ bs, s.seqr.blockSz = some bs ∧ size ≤ (s.buffer b).size := by
  simp only [regionReady, regionOk, Bool.and_eq_true] at h
  obtain ⟨-, h⟩ := h
  split at h
  · next bs hbs =>
    simp only [Bool.and_eq_true, decide_eq_true_eq] at h
    exact ⟨bs, hbs, h.1⟩
  · cases h

theorem spared_regionBody (hi : i.request = some .region) {mode : CMode} {b : Buf} {base : Addr} {size : Nat}
    (ha : regionReady b base size s₀ = true) : Keeps (Spared i s₀) (SparedStop i s₀) (regionBody mode b base size) := by
  obtain ⟨bs, hbs, hsize⟩ := regionReady_bounds ha
  refine keeps_regionBody (bs := bs) (spared_onRegion (.inr (.inr hi)) s₀) mode b base
    (spared_regionWrites mode b base size) (fun s hs => ?_) fun s hs => ?_
  · rw [hs.blockSz (by simp [hi]), hbs]
  · rwa [hs.buffer]

theorem spared_eraseWriteBody {size : Nat} (ha : wordsReady size s₀ = true) :
    Keeps (Spared i s₀) (SparedStop i s₀) (eraseWriteBody size) := by
  have hsize : size ≤ s₀.code.size := by
    simp only [wordsReady, imageReady, imageOk, Bool.and_eq_true, decide_eq_true_eq] at ha
    obtain ⟨⟨-, hsize⟩, -⟩ := ha
    exact hsize
  exact keeps_eraseWriteBody (spared_onImage i s₀) fun s hs => by rwa [hs.code]

theorem spared_crcCheckBody (hi : i.request = some .g10CrcCheck) (size : Nat) :
    Keeps (Spared i s₀) (SparedStop i s₀) (crcCheckBody size) :=
  keeps_crcCheckBody (spared_onImage i s₀) fun _ => keeps_crcRegisters (spared_onLine i s₀)
    (.inr fun _ hs => hs.faulted _) (fun _ hs => { hs with }) (fun _ _ hs => { hs with })
    (fun _ _ hs => { hs with crcOk := fun hn => absurd hi hn }) fun _ hs => hs.raised _

/-! ## Every instruction -/

/-- The rule of an accepted instruction spares every marked register it does not name. -/
theorem spared_body (i : Instr) {s₀ : State} (ha : accepts i s₀ = true) :
    Keeps (Spared i s₀) (SparedStop i s₀) (body i) := by
  have hl := spared_onLine i s₀
  have hc := spared_onCommand i s₀
  have hh := spared_onHandshake i s₀
  have hm := spared_onImage i s₀
  have hraise : ∀ e s, Spared i s₀ s → SparedStop i s₀ (.raised e) s := fun e _ hs => hs.raised e
  have hfault : ∀ f s, Spared i s₀ s → SparedStop i s₀ (.faulted f) s := fun f _ hs => hs.faulted f
  cases i with
  | reset | reqResetCmd => exact keeps_resetBody hc.toOnStatus
  | verify a e bytes => exact keeps_verifyBody hc a e (hraise _) (keeps_operandFrames bytes)
  | blockErase a | reqBlockErase a => exact keeps_eraseBody hc.toOnStatus a
  | blankCheck a e => exact spared_blankUnit (.inl ⟨a, e, rfl⟩) a e
  | reqBlankCheck a e => exact spared_blankUnit (.inr (.inl rfl)) a e
  | program a e bytes => exact keeps_programBody hc a e (hraise _) (keeps_operandFrames bytes)
  | baudSet code volt => exact keeps_baudSetBody hc.toOnStatus spared_modeWrites code volt
  | checksum a e | reqChecksum a e => exact keeps_checksumBody hc.toOnStatus (fun _ _ hs => { hs with }) a e
  | siliconSignature => exact spared_signatureBody (.inl rfl)
  | reqSignature => exact spared_signatureBody (.inr (.inl rfl))
  | sync => exact keeps_syncStep hl hh.seq hh.syncStop
  | g10ModeSet => exact keeps_modeSetStep hl hh.seq hh.syncStop fun _ _ _ hs => (hs.setSeq _).raised _
  | g10EraseWrite => exact Keeps.getState' fun s hs => keeps_openImage hm (hs.params ▸ .eraseWrite)
  | g10CrcCheck => exact Keeps.getState' fun s hs => keeps_openImage hm (hs.params ▸ .crcCheck)
  | g10Ack => exact keeps_send hl .ack
  | g10Nack => exact keeps_nackRow hl hm.sizeStop (hfault _)
  | g10Word b0 b1 b2 b3 => exact keeps_wordRow hl hm.wordStop (hfault _) b0 b1 b2 b3
  | dataFrame bytes last => exact keeps_dataRow hl (hraise _) (hraise _) bytes last
  | responseFrame bytes last => exact keeps_responseRow hl hc.codec (hraise _) (hraise _) bytes last
  | reqInit proto => exact spared_initBody rfl proto
  | reqSetBaud rate mv => exact keeps_setBaudRate hc.toOnStatus spared_modeWrites (.inr (hraise _)) mv
  | reqSetLinkBaud rate => exact keeps_setLinkBaud hh.toOnControl rate
  | reqBlockProgram a e b off => exact keeps_programBody hc a e (hraise _) (keeps_bufferFrames hl (.inr (hfault _)))
  | reqBlockVerify a e b off => exact keeps_verifyBody hc a e (hraise _) (keeps_bufferFrames hl (.inr (hfault _)))
  | reqRegion mode b base size => exact spared_regionBody rfl ha
  | reqG10EraseWrite size => exact spared_eraseWriteBody ha
  | reqG10CrcCheck size => exact spared_crcCheckBody rfl size
  | reqResetAndRun mode =>
    exact keeps_resetAndRunBody hh.toOnControl (fun _ _ hs => { hs with }) (fun _ hs => hs.setSeq _) mode

/-- The same with the end of a request, which writes `OP` (R79). -/
theorem spared_ruleOf (i : Instr) {s₀ : State} (ha : accepts i s₀ = true) :
    Keeps (Spared i s₀) (SparedStop i s₀) (ruleOf i) := by
  unfold ruleOf
  split
  · exact (spared_body i ha).bind fun _ _ => keeps_primitive (spared_onLine i s₀) fun _ hs => { hs with }
  · exact spared_body i ha

/-- What an instruction leaves as it was, refused or run, however its rule ends. -/
theorem exec_spared {i : Instr} {s t : State} (hn : s.noReset) (h : exec i s = .next t) : Spared i s t := by
  rw [exec_eq] at h
  split at h
  · next hc =>
    rw [Bool.and_eq_true] at hc
    obtain ⟨u, hu, ht⟩ | ⟨f, u, -, hf⟩ := finish_reaches (spared_ruleOf i hc.2).toReaches (Spared.started (i := i) hn)
    · obtain rfl : t = u := by rw [hu] at h; cases h; rfl
      obtain ht | ⟨e, u, ⟨-, hs⟩, rfl⟩ | ⟨-, hs⟩ | ⟨u, ⟨hr, -⟩, -⟩ := ht
      · exact ht
      · exact { hs with }
      · exact hs
      · exact absurd rfl hr
    · rw [hf] at h; cases h
  · cases h
    split <;> exact { Spared.refl hn with }

/-! ## The obligations -/

/-- Once `ID_VALID` is true silicon-signature is run nowhere, neither as a row nor as a request (R27, R100). -/
theorem signatureReady_of_idValid {s : State} (h : s.ident.idValid = true) : signatureReady s = false := by
  simp [signatureReady, h]

/-- A stored identity survives the two instructions that store one, which are turned away. -/
theorem signature_turned_away {s t : State} (hv : s.ident.idValid = true) {i : Instr}
    (hi : i = .siliconSignature ∨ i = .reqSignature) (h : exec i s = .next t) : t.ident = s.ident := by
  have hr := signatureReady_of_idValid hv
  obtain rfl | rfl := hi
  · cases (runUnit_refused (m := signatureBody) (.inr hr)).symm.trans h
    rfl
  · cases (runRequest_refused (r := .signature) (latch := noLatch) (m := signatureBody) (.inr hr)).symm.trans h
    rfl

/-- Settles O57: an instruction without a rule for the identity registers spares them, and the two that store an identity
are turned away where one is stored. -/
theorem identityImmutable : Obligations.IdentityImmutable := by
  refine ⟨fun i s t hn h hinit hcase => ?_, fun s hv => runRequest_refused (.inr (signatureReady_of_idValid hv))⟩
  by_cases hs : i = .siliconSignature ∨ i = .reqSignature
  · have hv : s.ident.idValid = true := hcase.resolve_right fun ⟨hunit, hreq⟩ => hs.elim hunit hreq
    exact signature_turned_away hv hs h
  · exact (exec_spared hn h).ident fun hw => hw.elim (hs ∘ .inl) fun hw => hw.elim (hs ∘ .inr) hinit

/-- Settles O58: each flag is spared by every instruction that has no rule to write it. -/
theorem flagsWrittenByTheirRule : Obligations.FlagsWrittenByTheirRule := by
  intro i s t hn h
  have hs := exec_spared hn h
  refine ⟨fun hunit hreq hinit => ?_, fun hunit hreq hregion => hs.notBlank ?_, hs.crcOk⟩
  · rw [hs.ident fun hw => hw.elim hunit fun hw => hw.elim hreq hinit]
  · rintro (⟨a, e, rfl⟩ | hw | hw)
    · exact hunit a e rfl
    · exact hreq hw
    · exact hregion hw

end Sys2Proof.Machine
end

section
/-! PROOF. The checksum of an encoded frame: both encoders write a start marker, the covered bytes, their checksum and an end
marker, so that what stands between the markers sums to 0 (R61, R62, R84). -/

namespace Sys2Proof

/-! ## What an encoder that succeeds has produced -/

/-- The only frame `encode_command` produces is that of R61. -/
theorem eq_commandBytes_of_encodeCommand {p : Params} {opc : Byte} {pl frame : List Byte}
    (h : encodeCommand p opc pl = .ok frame) : frame = commandBytes p opc pl := by
  unfold encodeCommand at h
  split at h <;> cases h
  rfl

/-- The only frame `encode_data` produces is that of R62. -/
theorem eq_dataBytes_of_encodeData {p : Params} {pl frame : List Byte} {last : Bool}
    (h : encodeData p pl last = .ok frame) : frame = dataBytes p pl last := by
  unfold encodeData at h
  split at h
  · cases h
  · split at h <;> cases h
    rfl

/-! ## The bytes between the markers -/

/-- Dropping the two markers of a frame leaves what they enclose. -/
theorem take_between_markers (start stop : Byte) (enclosed : List Byte) :
    (start :: (enclosed ++ [stop])).tail.take ((start :: (enclosed ++ [stop])).length - 2) = enclosed := by
  simp

/-- Whatever bytes a frame covers, they and their checksum sum to 0 between the markers. -/
theorem byteSum_between_markers {frame covered : List Byte} {start stop : Byte}
    (h : frame = start :: (covered ++ [cks covered] ++ [stop])) : byteSum (frame.tail.take (frame.length - 2)) = 0#8 := by
  rw [h, take_between_markers, byteSum_append]
  simpa [byteSum] using byteSum_cks covered

theorem commandBytes_eq_markers (p : Params) (opc : Byte) (pl : List Byte) :
    let covered := BitVec.ofNat 8 (pl.length + 1) :: opc :: pl
    commandBytes p opc pl = p.soh :: (covered ++ [cks covered] ++ [p.etx]) := by
  simp [commandBytes]

theorem dataBytes_eq_markers (p : Params) (pl : List Byte) (last : Bool) :
    let covered := BitVec.ofNat 8 pl.length :: pl
    dataBytes p pl last = p.stx :: (covered ++ [cks covered] ++ [endMarker p last]) := by
  simp [dataBytes]

/-! ## The obligation -/

/-- Settles O4: a frame is what its encoder writes, and in both layouts SUM is the checksum of LEN and the bytes after
it. -/
theorem frameSumsToZero : Obligations.FrameSumsToZero := by
  rintro p opc pl frame last (h | h)
  · exact byteSum_between_markers ((eq_commandBytes_of_encodeCommand h).trans (commandBytes_eq_markers p opc pl))
  · exact byteSum_between_markers ((eq_dataBytes_of_encodeData h).trans (dataBytes_eq_markers p pl last))

end Sys2Proof
end

section
/-! PROOF. RESET_AND_RUN (R123, R124): what it leaves on a line that answers, and how it can end when no request and no
Engine reset arrives, whatever the Transport does. -/

namespace Sys2Proof.Machine

variable {s : State}

/-! ## On a line that answers -/

/-- The mode goes to the Transport, the reset line is driven low and high again, and `SEQ` is IDLE (R123). -/
theorem resetAndRunBody_quiet {rest : List Tick} (mode : Nat) (hm : s.calm) (ho : s.line.isOpen = true)
    (hs : s.script = quiet :: quiet :: rest) :
    resetAndRunBody mode s =
      .ok () { s with
        seqr := { s.seqr with seq := .idle, lineReset := some true }
        line := { s.line with reset := some true, wiring := some mode }
        script := rest, hist := s.hist ++ [.line .reset false, .wait .run, .line .reset true] } := by
  unfold resetAndRunBody
  rw [update_bind, bind_ok (onRaise_ok (runLines_quiet (s := s.setWiring mode) (rest := rest) hm ho hs))]
  exact primitive_calm (by exact hm)

/-! ## When nothing but a close arrives -/

theorem not_reset_of_undisturbed (h : s.undisturbed) : (s.moments.headD {}).reset = false := by
  cases hm : s.moments with
  | nil => rfl
  | cons m r => exact (h m (by simp [hm])).1

theorem not_busy_of_undisturbed (h : s.undisturbed) : (s.moments.headD {}).busy = [] := by
  cases hm : s.moments with
  | nil => rfl
  | cons m r => exact (h m (by simp [hm])).2

/-- All that can arrive before a primitive then is a close, which changes only whether the Transport is open. -/
theorem passed_undisturbed (h : s.undisturbed) : s.passed = { s with
    moments := s.moments.tail
    line := { s.line with isOpen := if (s.moments.headD {}).close then false else s.line.isOpen } } := by
  rw [passed_eq, not_busy_of_undisturbed h]
  rfl

/-- Where no Engine reset arrives, what arrives before a primitive cannot stop it. -/
theorem keeps_moment_undisturbed {I : State → Prop} {E : Stop → State → Prop} (hu : ∀ s, I s → s.undisturbed)
    (hp : ∀ s, I s → I s.passed) : Keeps I E moment := by
  intro s hs
  rw [moment_eq, not_reset_of_undisturbed (hu s hs)]
  exact ⟨hp s hs, trivial⟩

/-! ## While RESET_AND_RUN runs -/

/-- What holds between the primitives of RESET_AND_RUN. -/
structure Running (s : State) : Prop where
  undisturbed : s.undisturbed
  err : s.err = {}
  op : s.seqr.op = some .resetAndRun

/-- The same once `SEQ <- IDLE` is made (R123). -/
structure RunIdle (s : State) : Prop extends Running s where
  idle : s.seqr.seq = .idle

/-- The one way to stop: `Io`, in a state with `J`. -/
def IoStop (J : State → Prop) (w : Stop) (s : State) : Prop := w = .raised { kind := .io } ∧ J s

theorem Running.accept (h : s.undisturbed) : Running (s.accept .resetAndRun) := ⟨h, rfl, rfl⟩

theorem Running.passed (h : Running s) : Running s.passed := by
  rw [passed_undisturbed h.undisturbed]
  exact { h with undisturbed := fun m hm => h.undisturbed m (List.mem_of_mem_tail hm) }

theorem RunIdle.passed (h : RunIdle s) : RunIdle s.passed where
  toRunning := h.toRunning.passed
  idle := by rw [passed_undisturbed h.undisturbed]; exact h.idle

theorem Running.setSeq_idle (h : Running s) : RunIdle (s.setSeq .idle) := { h with idle := rfl }

theorem Running.drive (h : Running s) (sig : Signal) (b : Bool) : Running (s.drive sig b) := by
  cases sig <;> exact { h with }

theorem Running.driven (h : Running s) (sig : Signal) (b : Bool) : Running (s.driven sig b) := by
  cases sig <;> exact { h with }

theorem running_moment {E : Stop → State → Prop} : Keeps Running E moment :=
  keeps_moment_undisturbed (fun _ hs => hs.undisturbed) fun _ hs => hs.passed

theorem running_primitive {E : Stop → State → Prop} {f : State → State} (hf : ∀ s, Running s → Running (f s)) :
    Keeps Running E (primitive f) := running_moment.bind fun _ _ => Keeps.update hf

/-- A control call waits for no bytes, so it cannot time out: it is `Io` on a closed Transport or where the call fails, and
stops in no other way (R47, R169). -/
theorem running_control {act : State → State} (hact : ∀ s, Running s → Running (act s)) (ev : Event) :
    Keeps Running (IoStop Running) (control act ev) := by
  have hio : ∀ s, Running s → IoStop Running (.raised { kind := .io }) s := fun _ hs => ⟨rfl, hs⟩
  have htransport : Keeps Running (IoStop Running) transport :=
    running_moment.bind fun _ _ => Keeps.getState' fun s _ => by
      split
      · exact Keeps.pure _ trivial
      · exact Keeps.abort hio
  have htick : Keeps Running (IoStop Running) nextTick := fun _ hs => ⟨{ hs with }, trivial⟩
  refine htransport.bind fun _ _ => htick.bind fun t _ => ?_
  split
  · exact Keeps.abort hio
  · exact Keeps.update fun s hs => { hact (s.receive t.deliver) { hs with } with }

theorem running_setLine (sig : Signal) (b : Bool) : Keeps Running (IoStop Running) (setLine sig b) :=
  (running_control (fun _ hs => hs.drive sig b) _).bind fun _ _ => running_primitive fun _ hs => hs.driven sig b

theorem running_waitFor (d : Delay) : Keeps Running (IoStop Running) (waitFor d) :=
  running_primitive fun _ hs => { hs with }

theorem running_runLines : Keeps Running (IoStop Running) runLines :=
  (running_setLine _ _).bind fun _ _ => (running_waitFor _).bind fun _ _ => running_setLine _ _

/-- RESET_AND_RUN leaves `SEQ` at IDLE on both its ways out: behind the lines, and in the state the error is raised in
(R123). -/
theorem resetAndRunBody_reaches (mode : Nat) : Reaches Running RunIdle (IoStop RunIdle) (resetAndRunBody mode) := by
  have hlines : Keeps Running (IoStop RunIdle) (onRaise id (fun s => s.setSeq .idle) runLines) :=
    running_runLines.onRaise (fun _ _ ⟨he, hs⟩ => ⟨he, hs.setSeq_idle⟩) fun _ _ hw ⟨he, _⟩ => absurd he (hw _)
  exact (Keeps.update fun _ hs => { hs with }).reaches fun _ =>
    hlines.reaches fun _ => running_moment.reaches fun _ _ hs => hs.setSeq_idle

/-- The same with the end of the request, which clears `OP` (R79). -/
theorem resetAndRun_reaches (mode : Nat) :
    Reaches Running (fun t => ∃ u, RunIdle u ∧ t = u.endRequest) (IoStop RunIdle)
      (do resetAndRunBody mode; primitive State.endRequest) :=
  have hmoment : Keeps RunIdle (IoStop RunIdle) moment :=
    keeps_moment_undisturbed (fun _ hs => hs.undisturbed) fun _ hs => hs.passed
  (resetAndRunBody_reaches mode).bind fun _ => hmoment.reaches fun _ u hu => ⟨u, hu, rfl⟩

/-! ## The obligation -/

theorem exec_reqResetAndRun (mode : Nat) (s : State) :
    exec (.reqResetAndRun mode) s = runRequest .resetAndRun always noLatch (resetAndRunBody mode) s := rfl

/-- Undisturbed, RESET_AND_RUN ends with `SEQ` at IDLE, without an error or with `Io` (R123, R124). -/
theorem exec_reqResetAndRun_ends (mode : Nat) (ho : s.seqr.op = none) (hu : s.undisturbed) :
    ∃ t, exec (.reqResetAndRun mode) s = .next t ∧ t.seqr.seq = .idle ∧ t.seqr.op = none ∧
      (t.err = {} ∨ t.err = { kind := .io, op := some 0x0E#8 }) := by
  rw [exec_reqResetAndRun, runRequest_run ho rfl]
  have hends := finish_reaches (resetAndRun_reaches mode) (Running.accept hu)
  obtain ⟨t, ht, ⟨u, hu, rfl⟩ | ⟨e, u, ⟨he, hu⟩, rfl⟩ | ⟨hw, -⟩ | ⟨u, ⟨hw, -⟩, -⟩⟩ | ⟨f, u, ⟨hw, -⟩, -⟩ := hends
  · exact ⟨_, ht, hu.idle, rfl, .inl hu.err⟩
  · cases he
    refine ⟨_, ht, hu.idle, rfl, .inr ?_⟩
    rw [takeError_eq, hu.op]
    rfl
  · cases hw
  · cases hw
  · cases hw

/-- Settles O26: with the lines answering, the rule's own run; otherwise every primitive of it keeps the request running,
and the only stop is the `Io` of a control call. -/
theorem resetAndRun : Obligations.ResetAndRun := by
  refine fun s mode rest ho => ⟨fun hm hopen hs => ?_, exec_reqResetAndRun_ends mode ho⟩
  rw [exec_reqResetAndRun, runRequest_ok (latch := noLatch) ho rfl
    (resetAndRunBody_quiet (s := s.accept .resetAndRun) mode hm hopen hs) (by exact hm)]
  simp [State.endRequest, ho]

end Sys2Proof.Machine
end

section
/-! PROOF. A REGION request with nothing to transfer: one of size 0, which is absent, one smaller than a block, and one in
program mode whose whole blocks are erased (R126, R131, R138, R140). -/

namespace Sys2Proof.Machine

variable {s : State} {mode : CMode} {b : Buf} {base : Addr} {size bs : Nat}

/-! ## The buffers behind register writes and events -/

@[simp] theorem accept_buffer (s : State) (r : Req) (z : Buf) : (s.accept r).buffer z = s.buffer z := by cases z <;> rfl

@[simp] theorem setRegion_buffer (s : State) (m : CMode) (c : Buf) (a : Addr) (n : Nat) (z : Buf) :
    (s.setRegion m c a n).buffer z = s.buffer z := by cases z <;> rfl

@[simp] theorem setBlocks_buffer (s : State) (n : Nat) (z : Buf) : (s.setBlocks n).buffer z = s.buffer z := by
  cases z <;> rfl

@[simp] theorem emit_buffer (s : State) (d : Diag) (z : Buf) : (s.emit d).buffer z = s.buffer z := by cases z <;> rfl

/-! ## REGION's precondition and rule -/

/-- What an accepted region asks for, once the block size is known (R78, R125). -/
theorem regionReady_of_bounds (hf : framedReady s = true) (hbs : s.seqr.blockSz = some bs)
    (hsize : size ≤ (s.buffer b).size) (hend : base.toNat + size / bs * bs ≤ 2 ^ 24) :
    regionReady b base size s = true := by
  simp only [regionReady, regionOk, blockCount, hf, hbs, hsize, hend, decide_true, Bool.and_self]

/-- A region of size 0 is absent: only its registers are written (R140). -/
theorem regionBody_absent (hc : s.calm) : regionBody mode b base 0 s = .ok () (s.setRegion mode b base 0) :=
  writes_bind (regionWrites_aside mode b base _) hc _

/-- A region of another size goes through its whole blocks, behind the write of `NBLK` (R125, R126). -/
theorem regionBody_present (hc : s.calm) (hbs : s.seqr.blockSz = some bs) (h0 : size ≠ 0) :
    regionBody mode b base size s =
      regionLoop mode b base bs (size / bs) 0 ((s.setRegion mode b base size).setBlocks (size / bs)) := by
  refine (writes_bind (regionWrites_aside mode b base _) hc _).trans ?_
  rw [wrote_region, regionBlocks, if_neg h0, getState_bind]
  exact (bind_ok (needReg_some _ (a := bs) hbs _)).trans (primitive_bind (s := s.setRegion mode b base size) hc _ _)

/-- A REGION request whose rule ends without an error and keeps the sequencer's registers leaves them as they were before
it. -/
theorem exec_reqRegion_ok {t : State} (ho : s.seqr.op = none) (ha : regionReady b base size s = true)
    (hm : regionBody mode b base size ((s.accept .region).setRegion mode b base size) = .ok () t) (hc : t.calm)
    (hq : t.seqr = { s.seqr with op := some .region }) :
    exec (.reqRegion mode b base size) s = .next { t with seqr := s.seqr } := by
  have hop : { t.seqr with op := none } = s.seqr := by rw [hq, noOp_eq ho]
  rw [← hop]
  exact runRequest_ok ho ha hm hc

/-! ## Erased blocks in program mode -/

/-- The first `n` bytes of a buffer are there and erased (R129). -/
structure Memory.ErasedTo (m : Memory) (n : Nat) : Prop where
  wf : m.wf = true
  size : n ≤ m.size
  get : ∀ j < n, m.get j = 0xFF#8

theorem Memory.ErasedTo.allErased_slice {m : Memory} {n off k : Nat} (h : m.ErasedTo n) (hk : off + k ≤ n) :
    allErased (m.slice off k) = true := by
  have hget : ∀ j < k, m.get (off + j) = Config.erased := fun j hj => h.get _ (by omega)
  simpa [allErased, slice_eq_map h.wf] using hget

/-- An erased block is left to its diagnostic (R131). -/
theorem programBlock_erased {a e : Addr} {blk : List Byte} {frames : List (Eng (List Byte))} (h : allErased blk = true) :
    programBlock a e blk frames = emit (.ffSkip a) := by
  rw [programBlock, if_pos h]

theorem regionBlock_skips {i n : Nat} (he : (s.buffer b).ErasedTo n) (hc : s.calm) (hi : i * bs + bs ≤ n) :
    regionBlock .program b base bs i s = .ok () ((s.setBlock i).emit (.ffSkip (blockStart base bs i))) := by
  rw [regionBlock_body hc (hi.trans he.size), blockBody, programBlock_erased (he.allErased_slice hi)]
  exact emit_calm (s := s.setBlock i) hc _

/-- Erased blocks write `BIDX` and the diagnostics, and nothing else (R131, R138). -/
theorem regionLoop_skips (b : Buf) (base : Addr) (bs : Nat) :
    ∀ (n i : Nat) {s : State}, (s.buffer b).ErasedTo ((i + n) * bs) → s.calm →
      ∃ k d, regionLoop .program b base bs n i s = .ok () { s with blk := { s.blk with bidx := k }, diags := d }
  | 0, _, s, _, _ => ⟨s.blk.bidx, s.diags, rfl⟩
  | n + 1, i, s, he, hc => by
    have hi : i * bs + bs ≤ (i + (n + 1)) * bs := by rw [← Nat.succ_mul]; exact Nat.mul_le_mul_right _ (by omega)
    have hblock := regionBlock_skips (base := base) he hc hi
    have hrest : (((s.setBlock i).emit (.ffSkip (blockStart base bs i))).buffer b).ErasedTo ((i + 1 + n) * bs) := by
      rwa [emit_buffer, setBlock_buffer, Nat.add_assoc, Nat.add_comm 1]
    obtain ⟨k, d, hloop⟩ := regionLoop_skips b base bs n (i + 1) hrest hc
    exact ⟨k, d, (bind_ok hblock).trans hloop⟩

/-- A program region whose processed part is erased (R138), an absent one and one smaller than a block among them. -/
theorem regionBody_program_erased (he : (s.buffer b).ErasedTo (size / bs * bs)) (hc : s.calm)
    (hbs : s.seqr.blockSz = some bs) :
    ∃ r d, regionBody .program b base size s = .ok () { s with blk := r, diags := d } := by
  by_cases h0 : size = 0
  · subst h0
    exact ⟨_, _, regionBody_absent hc⟩
  · have he' : (((s.setRegion .program b base size).setBlocks (size / bs)).buffer b).ErasedTo ((0 + size / bs) * bs) := by
      rwa [setBlocks_buffer, setRegion_buffer, Nat.zero_add]
    obtain ⟨k, d, hloop⟩ := regionLoop_skips b base bs (size / bs) 0 he' hc
    exact ⟨_, d, (regionBody_present hc hbs h0).trans hloop⟩

/-! ## The obligation -/

/-- Settles O28: an absent region returns behind its register writes, a region smaller than a block has no block to go
through, and each erased block of a program region comes down to its diagnostic. -/
theorem regionSendsNothing : Obligations.RegionSendsNothing := by
  intro s mode b base size bs ho hf hbs hc
  have hbase : base.toNat ≤ 2 ^ 24 := base.isLt.le
  refine ⟨?_, fun hpos hlt hsize => ?_, fun hw hsize hend hff => ?_⟩
  · have hready := regionReady_of_bounds (b := b) hf hbs (Nat.zero_le _) (by simpa using hbase)
    exact exec_reqRegion_ok ho hready (regionBody_absent hc) hc rfl
  · have hnone : size / bs = 0 := Nat.div_eq_of_lt hlt
    have hready := regionReady_of_bounds hf hbs hsize (by simpa [hnone] using hbase)
    have hbody := regionBody_present (s := (s.accept .region).setRegion mode b base size) (mode := mode) (b := b)
      (base := base) hc hbs hpos.ne'
    rw [hnone] at hbody
    exact exec_reqRegion_ok ho hready hbody hc rfl
  · have hready := regionReady_of_bounds hf hbs hsize hend
    have he : (((s.accept .region).setRegion .program b base size).buffer b).ErasedTo (size / bs * bs) := by
      rw [setRegion_buffer, accept_buffer]
      exact ⟨hw, (Nat.div_mul_le_self ..).trans hsize, hff⟩
    obtain ⟨r, d, hbody⟩ := regionBody_program_erased (base := base) he hc hbs
    exact ⟨_, exec_reqRegion_ok ho hready hbody hc rfl, rfl, rfl, rfl, rfl, rfl⟩

end Sys2Proof.Machine
end

section
/-! PROOF. The two checks of the whole-image requests: the capacity code against the size of the image (R146, R147), and
the device's CRC against the image's own, with the order in which G10_CRC_CHECK writes its registers (R153, R154). -/

namespace Sys2Proof.Machine

variable {f : List Byte → List Byte} {s : State} {rest : List Tick} {size : Nat} {r0 r1 code d0 d1 : Byte}

/-! ## Acceptance -/

/-- What G10_CRC_CHECK asks for (R78). -/
theorem imageReady_of_size (hg : g10Ready s = true) (h : size ≤ s.code.size) : imageReady size s = true := by
  simp [imageReady, imageOk, hg, h]

/-- What G10_ERASE_WRITE asks for (R78, R143). -/
theorem wordsReady_of_size (hg : g10Ready s = true) (h : size ≤ s.code.size) (h4 : size % 4 = 0) :
    wordsReady size s = true := by
  simp [wordsReady, imageReady_of_size hg h, Config.g10Word, h4]

/-- A request whose rule does nothing else clears the error registers (R79). -/
theorem endRequest_accept (r : Req) (ho : s.seqr.op = none) : (s.accept r).endRequest = s.cleared := by
  simp [State.endRequest, State.accept, State.cleared, noOp_eq ho]

theorem exec_reqG10EraseWrite (size : Nat) (s : State) :
    exec (.reqG10EraseWrite size) s = runRequest .g10EraseWrite (wordsReady size) noLatch (eraseWriteBody size) s := rfl

theorem exec_reqG10CrcCheck (size : Nat) (s : State) :
    exec (.reqG10CrcCheck size) s = runRequest .g10CrcCheck (imageReady size) noLatch (crcCheckBody size) s := rfl

/-! ## The capacity check behind the opening exchange -/

@[simp] theorem setResponse_onLine (s : State) (a b c : Byte) (x : List Tick) (q : List Byte) (e : List Event) :
    (s.setResponse a b c).onLine x q e = (s.onLine x q e).setResponse a b c := rfl

theorem lineClear_opened (h : s.lineClear) (x : List Tick) (e : List Event) (a b c : Byte) :
    ((s.onLine x [] e).setResponse a b c).lineClear := lineClear_onLine h x e

/-- Whichever opening the request has, a code that does not map to the size ends it with NACK and `SizeMismatch`, and
nothing behind the check is run (R146, R147). -/
theorem opened_mismatch {α : Type} {opening : Eng Unit} {next : Unit → Eng α} {events : List Event} (hc : s.lineClear)
    (hf : EchoLike f) (hz : s.params.g10Cap code ≠ some size)
    (hopen : opening s = .ok ()
      ((s.onLine (sendTicks s.params (f [Config.nack]) [] ++ rest) [] events).setResponse r0 r1 code)) :
    (opening >>= fun _ => capacityCheck size >>= next) s =
      .error (.raised { kind := .sizeMismatch, status := some code })
        ((s.onLine rest [] (events ++ sendEvents s.params [Config.nack])).setResponse r0 r1 code) := by
  refine (bind_ok hopen).trans (bind_error ?_)
  refine (capacityCheck_mismatch (lineClear_opened hc _ _ r0 r1 code) hf rfl hz (by rfl)).trans ?_
  simp only [setResponse_onLine, onLine_onLine, setResponse_params, onLine_params]

theorem eraseWriteBody_mismatch (hc : s.lineClear) (hf : EchoLike f) (h0 : size ≠ 0)
    (hz : s.params.g10Cap code ≠ some size)
    (hs : s.script = rawTicks s.params f [s.params.g10EraseWrite] [r0, r1, code] ++
      sendTicks s.params (f [Config.nack]) [] ++ rest) :
    eraseWriteBody size s =
      .error (.raised { kind := .sizeMismatch, status := some code })
        ((s.onLine rest [] (rawEvents s.params [s.params.g10EraseWrite] [r0, r1, code] ++
          sendEvents s.params [Config.nack])).setResponse r0 r1 code) := by
  rw [eraseWriteBody, if_neg h0]
  exact opened_mismatch hc hf hz (eraseWriteOpen_answered hc hf (by rw [hs, List.append_assoc]))

theorem crcCheckBody_mismatch (hc : s.lineClear) (hf : EchoLike f) (h0 : size ≠ 0)
    (hz : s.params.g10Cap code ≠ some size)
    (hs : s.script = rawTicks s.params f [s.params.g10CrcCheck] [r0, r1, code] ++
      sendTicks s.params (f [Config.nack]) [] ++ rest) :
    crcCheckBody size s =
      .error (.raised { kind := .sizeMismatch, status := some code })
        ((s.onLine rest [] (rawEvents s.params [s.params.g10CrcCheck] [r0, r1, code] ++
          sendEvents s.params [Config.nack])).setResponse r0 r1 code) := by
  rw [crcCheckBody, if_neg h0]
  exact opened_mismatch hc hf hz (crcCheckOpen_answered hc hf (by rw [hs, List.append_assoc]))

/-- Settles O34: both requests stop at the capacity check, before what they do with the image. -/
theorem sizeMismatchAborts : Obligations.SizeMismatchAborts := by
  intro s f rest size r0 r1 code ho hg hc hf hpos hsize hz g10 outcome
  refine ⟨fun h4 hs => ?_, fun hs => ?_⟩
  · exact runRequest_raised ho (wordsReady_of_size hg hsize h4)
      (eraseWriteBody_mismatch (s := s.accept .g10EraseWrite) hc hf hpos.ne' hz hs)
  · exact runRequest_raised ho (imageReady_of_size hg hsize)
      (crcCheckBody_mismatch (s := s.accept .g10CrcCheck) hc hf hpos.ne' hz hs)

/-! ## The CRC compare of a whole request -/

/-- A code that maps to the size is answered by ACK (R146). -/
theorem capacityCheck_eq_ack (hg : s.g10.capCode = some code) (hz : s.params.g10Cap code = some size) :
    capacityCheck size s = ackUnit s := by
  unfold capacityCheck
  rw [getState_bind, bind_ok (needReg_some _ hg _), if_pos hz]

theorem bind_run_congr {α β : Type} {m n : Eng α} (h : m s = n s) (g : α → Eng β) : (m >>= g) s = (n >>= g) s := by
  show EStateM.bind m g s = EStateM.bind n g s
  rw [EStateM.bind, EStateM.bind, h]

/-- ACK, and the two bytes of the device's CRC, which the line delivers behind its echo (R146, R153). -/
theorem capacityCheck_recvRaw {α : Type} {next : List Byte → Eng α} (hc : s.lineClear) (hf : EchoLike f)
    (hg : s.g10.capCode = some code) (hz : s.params.g10Cap code = some size)
    (hs : s.script = sendTicks s.params (f [Config.ack]) [d0, d1] ++ [quiet] ++ rest) :
    (do
      capacityCheck size
      let d ← recvRaw 2
      next d : Eng α) s =
      next [d0, d1] (s.onLine rest [] (sendEvents s.params [Config.ack] ++ [.rxRaw [d0, d1]])) :=
  (bind_run_congr (capacityCheck_eq_ack hg hz) _).trans (sendRaw_bind hc hf (by simp) (by simp) rfl hs)

/-- What G10_CRC_CHECK leaves of an image that fits: its lines in the transcript, the response registers, and the two
CRC registers compared (R153, R154). -/
def State.crcChecked (s : State) (rest : List Tick) (size : Nat) (r0 r1 code d0 d1 : Byte) : State :=
  let loc := crc16 s.params (s.code.slice 0 size)
  let dev := value16 s.params.g10CrcOrder d0 d1
  let events := rawEvents s.params [s.params.g10CrcCheck] [r0, r1, code] ++
    (sendEvents s.params [Config.ack] ++ [.rxRaw [d0, d1]])
  ((((s.onLine rest [] events).setResponse r0 r1 code).setCrcDev dev).setCrcLocal loc).setCrcOk (loc == dev)

theorem crcCheckBody_fits (hc : s.lineClear) (hf : EchoLike f) (h0 : size ≠ 0) (hsize : size ≤ s.code.size)
    (hz : s.params.g10Cap code = some size)
    (hs : s.script = rawTicks s.params f [s.params.g10CrcCheck] [r0, r1, code] ++
      sendTicks s.params (f [Config.ack]) [d0, d1] ++ [quiet] ++ rest) :
    crcCheckBody size s =
      if crc16 s.params (s.code.slice 0 size) = value16 s.params.g10CrcOrder d0 d1 then
        .ok () (s.crcChecked rest size r0 r1 code d0 d1)
      else .error (.raised { kind := .checksumMismatch }) (s.crcChecked rest size r0 r1 code d0 d1) := by
  have hopen := crcCheckOpen_answered (rest := sendTicks s.params (f [Config.ack]) [d0, d1] ++ [quiet] ++ rest) hc hf
    (by simpa only [List.append_assoc] using hs)
  rw [crcCheckBody, if_neg h0, bind_ok hopen]
  refine (capacityCheck_recvRaw (lineClear_opened hc _ _ r0 r1 code) hf rfl hz (by rfl)).trans ?_
  rw [setResponse_onLine, onLine_onLine, getState_bind]
  exact crcRegisters_calm hc.2.2 hsize

/-- G10_CRC_CHECK with an image that fits (R153, R154). -/
theorem exec_reqG10CrcCheck_fits (ho : s.seqr.op = none) (hg : g10Ready s = true) (hc : s.lineClear) (hf : EchoLike f)
    (h0 : size ≠ 0) (hsize : size ≤ s.code.size) (hz : s.params.g10Cap code = some size)
    (hs : s.script = rawTicks s.params f [s.params.g10CrcCheck] [r0, r1, code] ++
      sendTicks s.params (f [Config.ack]) [d0, d1] ++ [quiet] ++ rest) :
    (crc16 s.params (s.code.slice 0 size) = value16 s.params.g10CrcOrder d0 d1 →
        exec (.reqG10CrcCheck size) s = .next (s.cleared.crcChecked rest size r0 r1 code d0 d1)) ∧
      (crc16 s.params (s.code.slice 0 size) ≠ value16 s.params.g10CrcOrder d0 d1 →
        exec (.reqG10CrcCheck size) s =
          .next (((s.accept .g10CrcCheck).crcChecked rest size r0 r1 code d0 d1).takeError
            { kind := .checksumMismatch })) := by
  have hready := imageReady_of_size hg hsize
  have hbody := crcCheckBody_fits (s := s.accept .g10CrcCheck) hc hf h0 hsize hz hs
  refine ⟨fun heq => ?_, fun hne => ?_⟩
  · rw [if_pos (by exact heq)] at hbody
    have hexec := runRequest_ok (latch := noLatch) ho hready hbody hc.2.2
    rw [← endRequest_accept .g10CrcCheck ho]
    exact hexec
  · rw [if_neg (by exact hne)] at hbody
    exact runRequest_raised ho hready hbody

/-! ## One primitive at a time

Where nothing else arrives, the reset that `stateAfter` sends comes before primitive `k` and moves one nearer with each
primitive that is done. -/

variable {k : Nat} {m : Eng Unit} {g : Unit → Eng Unit}

theorem resetAfter_calm (hc : s.calm) (k : Nat) :
    s.resetAfter k = { s with moments := List.replicate k {} ++ [{ reset := true }] } := by
  have hm : s.moments = [] := hc
  simp [State.resetAfter, hm]

theorem moment_resetAfter_zero (hc : s.calm) : moment (s.resetAfter 0) = .error .reset s := by
  have hm : { s with moments := [] } = s := congrArg (fun l => { s with moments := l }) (Eq.symm hc)
  rw [resetAfter_calm hc]
  exact congrArg (EStateM.Result.error Stop.reset) hm

theorem moment_resetAfter_succ (hc : s.calm) (k : Nat) : moment (s.resetAfter (k + 1)) = .ok () (s.resetAfter k) := by
  rw [resetAfter_calm hc, resetAfter_calm hc]
  rfl

theorem stateAfter_eq_some (hc : s.calm) {u : State} (h : m (s.resetAfter k) = .error .reset u) :
    stateAfter m k s = some u := by
  have hm : s.moments = [] := hc
  simp [stateAfter, h, hm]

theorem stateAfter_eq_none (h : ∀ u, m (s.resetAfter k) ≠ .error .reset u) : stateAfter m k s = none := by
  unfold stateAfter
  split
  · next u hu => exact absurd hu (h u)
  · rfl

/-- What is left of a rule behind a primitive, looked at from the state the primitive leaves. -/
theorem stateAfter_congr {n : Eng Unit} {t : State} {j : Nat} (hs : s.calm) (ht : t.calm)
    (h : m (s.resetAfter k) = n (t.resetAfter j)) : stateAfter m k s = stateAfter n j t := by
  have hs : s.moments = [] := hs
  have ht : t.moments = [] := ht
  simp only [stateAfter, h, hs, ht, List.take_nil, List.any_nil]

theorem stateAfter_primitive_zero {w : State → State} (hc : s.calm) : stateAfter (primitive w >>= g) 0 s = some s :=
  stateAfter_eq_some hc (bind_error (bind_error (moment_resetAfter_zero hc)))

/-- A register write that neither reads nor changes what is to arrive. -/
theorem stateAfter_primitive_succ {w : State → State} (hc : s.calm)
    (hw : ∀ l, w { s with moments := l } = { w s with moments := l }) :
    stateAfter (primitive w >>= g) (k + 1) s = stateAfter (g ()) k (w s) := by
  have hcalm : (w s).calm := (congrArg State.moments (hw s.moments)).trans hc
  have hstep : primitive w (s.resetAfter (k + 1)) = .ok () ((w s).resetAfter k) := by
    rw [resetAfter_calm hcalm, ← hw, ← resetAfter_calm hc]
    exact (bind_ok (moment_resetAfter_succ hc k)).trans rfl
  exact stateAfter_congr hc hcalm (bind_ok hstep)

theorem stateAfter_memRead_zero {b : Buf} {off n : Nat} {g : List Byte → Eng Unit} (hc : s.calm) :
    stateAfter (memRead b off n >>= g) 0 s = some s :=
  stateAfter_eq_some hc (bind_error (bind_error (moment_resetAfter_zero hc)))

theorem stateAfter_memRead_succ {b : Buf} {off n : Nat} {g : List Byte → Eng Unit} (hc : s.calm)
    (h : off + n ≤ (s.buffer b).size) :
    stateAfter (memRead b off n >>= g) (k + 1) s = stateAfter (g ((s.buffer b).slice off n)) k s := by
  have hbuf : (s.resetAfter k).buffer b = s.buffer b := by cases b <;> rfl
  have hread : memRead b off n (s.resetAfter (k + 1)) = .ok ((s.buffer b).slice off n) (s.resetAfter k) := by
    refine (bind_ok (moment_resetAfter_succ hc k)).trans ((getState_bind ..).trans ?_)
    rw [hbuf, if_pos h]
    rfl
  exact stateAfter_congr hc hc (bind_ok hread)

/-- A check ends the rule without a primitive where it holds, and with the raise where it does not. -/
theorem stateAfter_check {c : Prop} [Decidable c] (hc : s.calm) (e : Err) (k : Nat) :
    stateAfter (if c then pure () else raise e) k s = if k = 0 ∧ ¬ c then some s else none := by
  by_cases h : c
  · rw [if_pos h, if_neg (fun hk => hk.2 h)]
    exact stateAfter_eq_none fun u hu => by cases hu
  · rw [if_neg h]
    cases k with
    | zero =>
      rw [if_pos ⟨rfl, h⟩]
      exact stateAfter_eq_some hc (bind_error (moment_resetAfter_zero hc))
    | succ k =>
      rw [if_neg (fun hk => Nat.succ_ne_zero _ hk.1)]
      refine stateAfter_eq_none fun u hu => ?_
      cases (bind_ok (moment_resetAfter_succ hc k)).symm.trans hu

/-! ## The order of the CRC registers -/

theorem stateAfter_crcCompare_succ (hc : s.calm) (dev loc : Half) (k : Nat) :
    stateAfter (crcCompare dev loc) (k + 1) s =
      if k = 0 ∧ loc ≠ dev then some (s.setCrcOk false) else none := by
  refine (stateAfter_primitive_succ hc fun _ => rfl).trans ((stateAfter_check (s := s.setCrcOk _) hc _ k).trans ?_)
  refine ite_congr rfl (fun hne => ?_) fun _ => rfl
  rw [beq_false_of_ne hne.2]

/-- What is left of the rule once `CRC_DEV` is written and the image is read (R153, R154). -/
theorem stateAfter_crcRegisters (hc : s.calm) (hsize : size ≤ s.code.size) (dev : Half) (k : Nat) :
    stateAfter (crcRegisters dev size) (k + 2) s =
      stateAfter (do
        primitive fun t => t.setCrcLocal (crc16 s.params (s.code.slice 0 size))
        crcCompare dev (crc16 s.params (s.code.slice 0 size))) k (s.setCrcDev dev) :=
  (stateAfter_primitive_succ (k := k + 1) hc fun _ => rfl).trans
    (stateAfter_memRead_succ (s := s.setCrcDev dev) (b := .code) hc (by rw [Nat.zero_add]; exact hsize))

/-- Settles O35: the run of the whole request, and the four primitives of its last part one by one. -/
theorem crcCheckCompares : Obligations.CrcCheckCompares := by
  refine ⟨fun s f rest size r0 r1 code d0 d1 ho hg hc hf hpos hsize hz hs => ?_, fun s dev size k hc hsize => ?_⟩
  · have h := exec_reqG10CrcCheck_fits ho hg hc hf hpos.ne' hsize hz hs
    simp only [State.crcChecked, value16_eq, ← List.append_assoc] at h
    exact h
  · intro loc
    match k with
    | 0 => exact stateAfter_primitive_zero hc
    | 1 => exact (stateAfter_primitive_succ hc fun _ => rfl).trans (stateAfter_memRead_zero hc)
    | 2 => exact (stateAfter_crcRegisters hc hsize dev 0).trans (stateAfter_primitive_zero hc)
    | 3 =>
      refine (stateAfter_crcRegisters hc hsize dev 1).trans ?_
      refine (stateAfter_primitive_succ (s := s.setCrcDev dev) hc fun _ => rfl).trans ?_
      exact stateAfter_primitive_zero hc
    | k + 4 =>
      refine (stateAfter_crcRegisters hc hsize dev (k + 2)).trans ?_
      refine (stateAfter_primitive_succ (s := s.setCrcDev dev) hc fun _ => rfl).trans ?_
      refine (stateAfter_crcCompare_succ (s := (s.setCrcDev dev).setCrcLocal loc) hc dev loc k).trans ?_
      simp [State.setCrcDev, State.setCrcLocal, State.setCrcOk]

end Sys2Proof.Machine
end

section
/-! PROOF. What an Engine reset leaves of the request port (R177): every request that asks for a session is refused, and
SET_LINK_BAUD, RESET_AND_RUN and INIT run to an end that is no `BadRequest`. -/

namespace Sys2Proof.Machine

variable {s s₀ s₁ : State}

/-! ## The requests that ask for a session -/

theorem exec_refused {i : Instr} {r : Req} (hi : i.request = some r) (ha : accepts i s = false) :
    exec i s = .next (s.refuse r.code) := by
  rw [exec_eq, ha, Bool.and_false, hi]
  rfl

/-- A reset leaves `VARIANT` at `none` and `SEQ` at IDLE, and every precondition but those of three requests asks for a
variant that is READY (R78, R177). -/
theorem accepts_engineReset {i : Instr} {r : Req} (hi : i.request = some r) (hinit : r ≠ .init)
    (hlink : r ≠ .setLinkBaud) (hrun : r ≠ .resetAndRun) (s : State) : accepts i s.engineReset = false := by
  have hframed : framedReady s.engineReset = false := rfl
  have hg10 : g10Ready s.engineReset = false := rfl
  cases i with
  | reqInit => exact absurd (Option.some.inj hi).symm hinit
  | reqSetLinkBaud => exact absurd (Option.some.inj hi).symm hlink
  | reqResetAndRun => exact absurd (Option.some.inj hi).symm hrun
  | reqResetCmd | reqBlockErase => exact hframed
  | reqSetBaud | reqBlankCheck | reqChecksum | reqBlockProgram | reqBlockVerify | reqRegion =>
    simp [accepts, baudOk, rangeReady, sourceReady, regionReady, hframed]
  | reqSignature => rfl
  | reqG10EraseWrite | reqG10CrcCheck => simp [accepts, wordsReady, imageReady, hg10]
  | _ => cases hi

/-! ## While an accepted request runs -/

/-- What holds between the primitives of a request that was accepted in `s₀` and is not disturbed: no error is recorded,
and what the handshake's and the line's own writes spare is as it was. -/
structure Underway (s₀ s : State) : Prop where
  params : s.params = s₀.params
  undisturbed : s.undisturbed
  err : s.err = {}
  op : s.seqr.op = s₀.seqr.op
  proto : s.seqr.proto = s₀.seqr.proto
  variant : s.seqr.variant = s₀.seqr.variant
  args : s.args = s₀.args

/-- How such a request may stop early: by an error that is no `BadRequest`, or, an INIT, at its hold (R117). -/
def UnderwayStop (s₀ : State) : Stop → State → Prop
  | .raised e, s => e.kind ≠ .badRequest ∧ Underway s₀ s
  | .held, s => s₀.seqr.op = some .init ∧ Underway s₀ s
  | .reset, _ => False
  | .faulted _, _ => False

theorem Underway.refl (hu : s.undisturbed) (he : s.err = {}) : Underway s s := ⟨rfl, hu, he, rfl, rfl, rfl, rfl⟩

theorem Underway.passed (h : Underway s₀ s) : Underway s₀ s.passed := by
  rw [passed_undisturbed h.undisturbed]
  exact { h with undisturbed := fun m hm => h.undisturbed m (List.mem_of_mem_tail hm) }

theorem Underway.setSeq (h : Underway s₀ s) (q : SeqState) : Underway s₀ (s.setSeq q) := { h with }

theorem Underway.log (h : Underway s₀ s) (e : Event) : Underway s₀ (s.log e) := { h with }

theorem Underway.drive (h : Underway s₀ s) (sig : Signal) (b : Bool) : Underway s₀ (s.drive sig b) := by
  cases sig <;> exact { h with }

theorem Underway.driven (h : Underway s₀ s) (sig : Signal) (b : Bool) : Underway s₀ (s.driven sig b) := by
  cases sig <;> exact { h with }

/-- The writes of R40 give `PROTO` and `VARIANT`, and the rest stays. -/
theorem Underway.openSession (h : Underway s₀ s) (proto : Nat) :
    Underway (s₀.openSession proto) (s.openSession proto) :=
  { h with proto := rfl, variant := congrArg (fun p : Params => some (p.variantOf proto)) h.params }

theorem underway_onControl (s₀ : State) : OnControl s₀.params (Underway s₀) (UnderwayStop s₀) where
  params _ hs := hs.params
  script _ hs := { hs with }
  passed _ hs := hs.passed
  queue _ _ _ hs := { hs with }
  log _ _ _ hs := hs.log _
  sent _ _ _ hs := hs.log _
  reset _ hs hr := by rw [not_reset_of_undisturbed hs.undisturbed] at hr; cases hr
  io _ hs := ⟨ErrKind.noConfusion, hs⟩
  short _ _ _ hs := ⟨ErrKind.noConfusion, hs.log _⟩
  timeout _ hs := ⟨ErrKind.noConfusion, hs⟩
  rate _ _ hs := { hs with }
  parity _ _ hs := { hs with }
  drive _ sig b hs := hs.drive sig b
  driven _ sig b hs := hs.driven sig b
  linkBaud _ _ hs := { hs with }

/-- A rule that runs on from what was accepted, and behind it the end of the request: no fault, no reset, and an error
that is no `BadRequest`. -/
theorem finish_underway {m : Eng Unit} (hm : Reaches (Underway s₀) (Underway s₁) (UnderwayStop s₁) m)
    (hs : Underway s₀ s) : ∃ t, finish (do m; primitive State.endRequest) s = .next t ∧
      t.err.kind ≠ .badRequest ∧ t.seqr.proto = s₁.seqr.proto ∧ (t.seqr.op = none ∨ s₁.seqr.op = some .init) := by
  have hend : Reaches (Underway s₁) (fun t => ∃ u, Underway s₁ u ∧ t = u.endRequest) (UnderwayStop s₁)
      (primitive State.endRequest) := primitive_reaches (underway_onControl s₁).toOnLine fun u hu => ⟨u, hu, rfl⟩
  have hnone : ({} : ErrRegs).kind ≠ .badRequest := ErrKind.noConfusion
  obtain ⟨t, ht, ⟨u, hu, rfl⟩ | ⟨e, u, ⟨he, hu⟩, rfl⟩ | ⟨hop, hu⟩ | ⟨_, hr, -⟩⟩ | ⟨_, _, hf, -⟩ :=
    finish_reaches (hm.bind fun _ => hend) hs
  · exact ⟨_, ht, hu.err ▸ hnone, hu.proto, .inl rfl⟩
  · exact ⟨_, ht, he, hu.proto, .inl rfl⟩
  · exact ⟨_, ht, hu.err ▸ hnone, hu.proto, .inr hop⟩
  · exact hr.elim
  · exact hf.elim

/-! ## SET_LINK_BAUD -/

theorem exec_reqSetLinkBaud (rate : Nat) (s : State) :
    exec (.reqSetLinkBaud rate) s = runRequest .setLinkBaud always noLatch (setLinkBaud rate) s := rfl

/-- Undisturbed, SET_LINK_BAUD ends whatever the line does, and not with `BadRequest` (R98). -/
theorem exec_reqSetLinkBaud_ends (rate : Nat) (ho : s.seqr.op = none) (hu : s.undisturbed) :
    ∃ t, exec (.reqSetLinkBaud rate) s = .next t ∧ t.err.kind ≠ .badRequest ∧ t.seqr.op = none := by
  rw [exec_reqSetLinkBaud, runRequest_run ho rfl]
  have hrule := (keeps_setLinkBaud (underway_onControl (s.accept .setLinkBaud)) rate).toReaches
  obtain ⟨t, ht, he, -, hop⟩ := finish_underway hrule (Underway.refl hu rfl)
  exact ⟨t, ht, he, hop.resolve_right nofun⟩

/-! ## INIT -/

/-- What INIT has latched and written before the handshake begins: the arguments the handshake reads, with a rate the
table has, and the session's variant (R34, R40). -/
structure ReadyToShake (s : State) : Prop where
  rate : ∃ rate, s.args.targetBaud = some rate ∧ (s.params.baudCode rate).isSome = true
  voltage : s.args.voltageMv.isSome = true
  delayed : s.args.delayedStart.isSome = true
  variant : s.seqr.variant.isSome = true

theorem underway_partStops (s₀ : State) {kind : ErrKind} (hk : kind ≠ .badRequest) :
    PartStops s₀.params (Underway s₀) (UnderwayStop s₀) kind where
  io _ hs := ⟨hk, hs.setSeq _⟩
  short _ _ _ hs := ⟨hk, (hs.log _).setSeq _⟩
  timeout _ hs := ⟨hk, hs.setSeq _⟩

theorem underway_modeWrites (f v : Byte) : Keeps (Underway s₀) (UnderwayStop s₀) (writes (modeWrites f v)) := by
  refine keeps_writes (underway_onControl s₀).toOnLine fun w hw _ hs => ?_
  fin_cases hw <;> exact { hs with }

/-- The handshake finds every register it reads, and reports its errors as its own (R118, R120). -/
theorem underway_onHandshake (h : ReadyToShake s₀) : OnHandshake s₀.params (Underway s₀) (UnderwayStop s₀) where
  toOnControl := underway_onControl s₀
  status _ _ hs := { hs with }
  baud := underway_modeWrites
  seq _ q hs := hs.setSeq q
  syncStop := underway_partStops s₀ ErrKind.noConfusion
  initStop _ := underway_partStops s₀ ErrKind.noConfusion
  initCodec _ _ _ _ hs := ⟨ErrKind.noConfusion, hs.setSeq _⟩
  initReject _ _ _ _ hs := ⟨ErrKind.noConfusion, hs.setSeq _⟩
  modeReject _ _ _ _ hs := ⟨ErrKind.noConfusion, hs.setSeq _⟩
  targetBaud _ hs := by
    obtain ⟨rate, hr, -⟩ := h.rate
    exact .inl (by rw [hs.args, hr]; rfl)
  rateCode _ hs rate hr := by
    obtain ⟨rate', hr', hcode⟩ := h.rate
    rw [hs.args, hr'] at hr
    exact .inl (Option.some.inj hr ▸ hcode)
  voltage _ hs := .inl (hs.args ▸ h.voltage)
  delayed _ hs := .inl (hs.args ▸ h.delayed)
  variant _ hs := .inl (hs.variant ▸ h.variant)

/-- Where no Engine reset arrives, register writes are all made. -/
theorem writes_undisturbed : ∀ {fs : List (State → State)} {s : State}, Aside fs → s.undisturbed →
    ∃ t, writes fs s = .ok () t
  | [], s, _, _ => ⟨s, rfl⟩
  | f :: r, s, ha, hu => by
    have hstep : primitive f s = .ok () (f s.passed) := by
      rw [primitive_eq, not_reset_of_undisturbed hu]
      rfl
    have hmoments : (f s.passed).moments = s.moments.tail := by
      rw [passed_undisturbed hu]
      exact (wrote_kept (fs := [f]) (fun g hg => ha g (by simp_all)) _).1
    have hnext : (f s.passed).undisturbed := fun m hm => hu m (List.mem_of_mem_tail (hmoments ▸ hm))
    obtain ⟨t, ht⟩ := writes_undisturbed (fs := r) (fun g hg => ha g (by simp [hg])) hnext
    exact ⟨t, (bind_ok hstep).trans ht⟩

/-- Where no Engine reset arrives, register writes lead to what they establish once they are all made. -/
theorem writes_reaches {I J : State → Prop} {E : Stop → State → Prop} {fs : List (State → State)} (ha : Aside fs)
    (hu : ∀ s, I s → s.undisturbed) (hp : ∀ s, I s → I s.passed) (hJ : ∀ s, I s → J (s.wrote fs)) :
    Reaches I J E (writes fs) := by
  intro s hs
  obtain ⟨t, ht⟩ := writes_undisturbed ha (hu s hs)
  have hrun := writes_run hp (pre := []) ha hs
  rw [show s.wrote [] = s from rfl, ht] at hrun
  obtain ⟨u, hI, rfl⟩ := hrun
  rw [ht]
  exact hJ u hI

/-- The session's registers are written while the request runs on (R40). -/
theorem sessionWrites_underway {E : Stop → State → Prop} (proto : Nat) :
    Reaches (Underway s₀) (Underway (s₀.openSession proto)) E (writes (sessionWrites proto)) :=
  writes_reaches (sessionWrites_aside proto) (fun _ hs => hs.undisturbed) (fun _ hs => hs.passed) fun _ hs =>
    hs.openSession proto

theorem exec_reqInit (proto rate mv verbose : Nat) (delayed : Bool) (s : State) :
    exec (.reqInit proto rate mv delayed verbose) s =
      runRequest .init (rateOk rate mv) (latchInit proto rate mv delayed verbose) (initBody proto) s := rfl

/-- Undisturbed, an accepted INIT ends or holds with `PROTO` written, and not with `BadRequest` (R40, R117, R122). -/
theorem exec_reqInit_ends {proto rate mv verbose : Nat} {delayed : Bool} (ho : s.seqr.op = none) (hu : s.undisturbed)
    (ha : rateOk rate mv s = true) :
    ∃ t, exec (.reqInit proto rate mv delayed verbose) s = .next t ∧ t.err.kind ≠ .badRequest ∧
      t.seqr.proto = some proto := by
  rw [exec_reqInit, runRequest_run ho ha]
  have hcode : (s.params.baudCode rate).isSome = true := (Bool.and_eq_true_iff.1 ha).1
  have hready : ReadyToShake ((latchInit proto rate mv delayed verbose (s.accept .init)).openSession proto) :=
    ⟨⟨rate, rfl, hcode⟩, rfl, rfl, rfl⟩
  have hrule := initBody_reaches (underway_onHandshake hready) (fun _ hs => ⟨rfl, hs⟩) (sessionWrites_underway proto)
  obtain ⟨t, ht, he, hproto, -⟩ := finish_underway hrule (Underway.refl hu rfl)
  exact ⟨t, ht, he, hproto⟩

/-! ## The obligation -/

/-- Settles O48: a reset makes every other precondition false, and each of the three requests, accepted, runs to an end
whose error, if any, its rule raised. -/
theorem requestsAfterReset : Obligations.RequestsAfterReset := by
  intro s i r hi hu
  have ho : s.engineReset.seqr.op = none := rfl
  have hu' : s.engineReset.undisturbed := hu
  refine ⟨fun hinit hlink hrun => exec_refused hi (accepts_engineReset hi hinit hlink hrun s), fun hr => ?_, ?_⟩
  · cases i with
    | reqSetLinkBaud rate => exact exec_reqSetLinkBaud_ends rate ho hu'
    | reqResetAndRun mode =>
      obtain ⟨t, ht, -, hop, he | he⟩ := exec_reqResetAndRun_ends mode ho hu'
      · exact ⟨t, ht, by rw [he]; exact ErrKind.noConfusion, hop⟩
      · exact ⟨t, ht, by rw [he]; exact ErrKind.noConfusion, hop⟩
    | _ => obtain rfl | rfl := hr <;> cases hi
  · rintro proto rate mv verbose delayed rfl ha
    exact exec_reqInit_ends ho hu' ha

end Sys2Proof.Machine
end

section
/-! PROOF. The decoder reads back what the encoder writes (spec/30_encoding.md R59 to R71), port by port: command frames and
the data frames behind them, single frames, unframed bytes, and requests. -/

namespace Sys2Proof

variable {p : Params}

/-- A unit that spells a well-formed instruction decodes to it. -/
theorem decode_of_parse {port : Port} {bs : List Byte} {i : Instr} (h : parse p port bs = .ok i) (hw : i.wellFormed = true) :
    decode p port bs = .ok i := by
  simp only [decode, h, guardWellFormed, hw, if_true]

/-! ## Command frames -/

theorem parse_command (o : Opcode) {pl : List Byte} (hl : pl.length ≤ 255) :
    parse p .command (commandBytes p o.byte pl) = ofCommand p o pl [] := by
  simpa [parse] using decodeCommand_commandBytes p o [] hl

/-- An address range of a payload is the two addresses it was made from (R69). -/
theorem rangePayload_eq (s e : Addr) :
    rangePayload s e = [s.extractLsb' 0 8, s.extractLsb' 8 8, s.extractLsb' 16 8,
      e.extractLsb' 0 8, e.extractLsb' 8 8, e.extractLsb' 16 8] := rfl

/-- The data frames of a range are read back to the bytes they carry (R106). -/
theorem takeData_framesOf {s e : Addr} {bytes : List Byte} (h : rangeBytesOk s e bytes = true) :
    takeData p (frameCount (e.toNat - s.toNat + 1)) (e.toNat - s.toNat + 1) (dataPhase p (framesOf bytes)) = .ok bytes := by
  simp only [rangeBytesOk, Bool.and_eq_true, decide_eq_true_eq, beq_iff_eq] at h
  obtain ⟨-, hlen⟩ := h
  rw [framesOf, hlen]
  exact takeData_dataPhase p hlen (Nat.succ_pos _) rfl

/-- A command that streams: its range, and behind it the data frames (R71, R104, R105). -/
theorem parse_stream {o : Opcode} {i : Addr → Addr → List Byte → Instr} (ho : o = .program ∧ i = .program ∨ o = .verify ∧ i = .verify)
    {s e : Addr} {bytes : List Byte} (h : rangeBytesOk s e bytes = true) :
    parse p .command (commandBytes p o.byte (rangePayload s e) ++ dataPhase p (framesOf bytes)) = .ok (i s e bytes) := by
  have hdata := takeData_framesOf (p := p) h
  rw [parse, decodeCommand_commandBytes p o _ (by simp), rangePayload_eq]
  obtain ⟨rfl, rfl⟩ | ⟨rfl, rfl⟩ := ho <;> simp only [ofCommand, ofLe3_le3, hdata] <;> rfl

/-! ## Data and response frames -/

/-- A frame read back gives its payload and which of the two end markers it has (R60, R62, R63). -/
theorem decodeDataFrame_dataBytes (hv : p.valid = true) {bytes : List Byte} (h : frameBytesOk bytes = true) (last : Bool) :
    decodeDataFrame p (dataBytes p bytes last) = .ok (bytes, last) := by
  simp only [frameBytesOk, Bool.and_eq_true, decide_eq_true_eq] at h
  obtain ⟨h0, h1⟩ := h
  have hmarks : p.etb ≠ p.etx := by
    simp only [Params.valid, Bool.and_eq_true, bne_iff_ne] at hv
    exact hv.1.1.1.1.1.2.symm
  have hframe := takeFrame_dataBytes p last [] h0 h1
  rw [List.append_nil] at hframe
  cases last <;> simp [decodeDataFrame, hframe, endMarker, hmarks]

/-! ## Unframed bytes -/

/-- An unframed byte is read back where no other one of the table has its value (log entry 5). -/
theorem decodeRaw_byte (hd : p.rawDistinct = true) {b : Byte} {i : Instr}
    (h : (b, i) ∈ [(p.syncByte, .sync), (p.g10ModeSet, .g10ModeSet), (p.g10EraseWrite, .g10EraseWrite),
      (p.g10CrcCheck, .g10CrcCheck), (Config.ack, .g10Ack), (Config.nack, Instr.g10Nack)]) :
    decodeRaw p [b] = .ok i := by
  rw [Params.rawDistinct, decide_eq_true_eq, ← List.nodup_reverse] at hd
  simp only [List.reverse_cons, List.reverse_nil, List.nil_append, List.cons_append, List.nodup_cons, List.mem_cons,
    List.not_mem_nil, or_false, not_or] at hd
  simp only [List.mem_cons, Prod.mk.injEq, List.not_mem_nil, or_false] at h
  rcases h with ⟨rfl, rfl⟩ | ⟨rfl, rfl⟩ | ⟨rfl, rfl⟩ | ⟨rfl, rfl⟩ | ⟨rfl, rfl⟩ | ⟨rfl, rfl⟩ <;>
    simp [decodeRaw, hd]

/-! ## Requests -/

theorem port_of_request {i : Instr} {r : Req} (h : i.request = some r) : i.port = .request := by
  cases i <;> cases h <;> rfl

/-- A request is read back where its arguments are (R78, log entry 4). -/
theorem parse_request {i : Instr} {r : Req} {args : List Byte} (hr : i.request = some r)
    (he : encode p i = r.code :: args) (h : takeRequest r args = some (i, [])) : parse p i.port (encode p i) = .ok i := by
  simp [port_of_request hr, he, parse, decodeRequest, h, closed]

/-! ## Every instruction -/

/-- What is encoded is read back, before its operands are checked again. -/
theorem parse_encode (hv : p.valid = true) (hd : p.rawDistinct = true) {i : Instr} (hw : i.wellFormed = true) :
    parse p i.port (encode p i) = .ok i := by
  cases i with
  | reset | siliconSignature | baudSet => exact parse_command _ (by simp)
  | blockErase a => exact (parse_command _ (by simp)).trans (by simp [le3, ofCommand, closed, ofLe3_le3])
  | checksum s e => exact (parse_command _ (by simp)).trans (by simp [rangePayload_eq, ofCommand, closed, ofLe3_le3])
  | blankCheck s e =>
    refine (parse_command _ (Machine.length_blankPayload p s e)).trans ?_
    simp [blankPayload, rangePayload_eq, ofCommand, closed, ofLe3_le3]
  | program s e bytes => exact parse_stream (.inl ⟨rfl, rfl⟩) hw
  | verify s e bytes => exact parse_stream (.inr ⟨rfl, rfl⟩) hw
  | sync | g10ModeSet | g10EraseWrite | g10CrcCheck | g10Ack | g10Nack => exact decodeRaw_byte hd (by simp)
  | g10Word => rfl
  | dataFrame bytes last | responseFrame bytes last =>
    exact congrArg (Except.map _) (decodeDataFrame_dataBytes hv hw last)
  | reqResetCmd | reqSignature => rfl
  | reqBlockErase a =>
    refine parse_request rfl rfl ?_
    simp [takeRequest, takeAddr_le3_nil]
  | reqBlankCheck s e | reqChecksum s e =>
    refine parse_request rfl rfl ?_
    simp [takeRequest, takeAddr_le3, takeAddr_le3_nil]
  | reqInit proto rate mv delayed verbose =>
    simp only [Instr.wellFormed, Bool.and_eq_true] at hw
    obtain ⟨⟨⟨hproto, hrate⟩, hmv⟩, hverbose⟩ := hw
    refine parse_request rfl rfl ?_
    simp [takeRequest, takeNat_le4 hproto, takeNat_le4 hrate, takeNat_le4 hmv, takeBool_boolByte, takeNat_le4_nil hverbose]
  | reqSetBaud rate mv =>
    simp only [Instr.wellFormed, Bool.and_eq_true] at hw
    refine parse_request rfl rfl ?_
    simp [takeRequest, takeNat_le4 hw.1, takeNat_le4_nil hw.2]
  | reqSetLinkBaud n | reqG10EraseWrite n | reqG10CrcCheck n | reqResetAndRun n =>
    refine parse_request rfl rfl ?_
    simp [takeRequest, takeNat_le4_nil hw]
  | reqBlockProgram s e b off | reqBlockVerify s e b off =>
    refine parse_request rfl rfl ?_
    simp [takeRequest, takeAddr_le3, takeBuf_bufByte, takeNat_le4_nil hw]
  | reqRegion mode b base size =>
    refine parse_request rfl rfl ?_
    simp [takeRequest, takeMode_modeByte, takeBuf_bufByte, takeAddr_le3, takeNat_le4_nil hw]

/-- Settles O1: on each port the encoding is read back to the instruction, which is well formed. -/
theorem decodeEncode : Obligations.DecodeEncode := fun _ _ hv hd hw => decode_of_parse (parse_encode hv hd hw) hw

end Sys2Proof
end

section
/-! PROOF. What every rule may write and how it may stop, once for all instructions: from what a predicate must survive for
the registers an instruction names, its whole rule keeps it. A claim about every state an instruction can leave is one case
of it. -/

namespace Sys2Proof

/-- The kinds that are recorded alone (R157). -/
def ErrKind.bare (k : ErrKind) : Bool :=
  k ∈ [.io, .timeout, .formatError, .checksumError, .lengthMismatch, .checksumMismatch, .payloadTooLarge, .badRequest]

/-- The registers and Transport settings that some rule writes and others do not. -/
inductive Part where
  | seq | session | linkBaud | lineReset | lineClock | identity | modes | status | notBlank | cksum | block | frame | image
  | baudArgs | otherArgs | rate | parity | resetLine | clockLine | wiring
deriving DecidableEq

/-- What each instruction may write beside the line, the error registers and `OP` (R26, R32 to R34, R40, R96 to R105, R123). -/
def Instr.parts : Instr → List Part
  | .reset | .reqResetCmd | .blockErase _ | .reqBlockErase _ => [.status]
  | .blankCheck .. | .reqBlankCheck .. => [.status, .notBlank]
  | .checksum .. | .reqChecksum .. => [.status, .cksum]
  | .baudSet .. => [.status, .modes]
  | .siliconSignature | .reqSignature => [.status, .identity]
  | .program .. | .verify .. | .reqBlockProgram .. | .reqBlockVerify .. => [.status, .frame]
  | .dataFrame .. | .responseFrame .. | .g10Ack | .g10Nack | .g10Word .. => []
  | .sync | .g10ModeSet => [.seq]
  | .g10EraseWrite | .g10CrcCheck | .reqG10EraseWrite _ | .reqG10CrcCheck _ => [.image]
  | .reqSetBaud .. => [.status, .modes, .baudArgs]
  | .reqSetLinkBaud _ => [.linkBaud, .rate]
  | .reqResetAndRun _ => [.seq, .lineReset, .resetLine, .wiring]
  | .reqRegion .. => [.status, .notBlank, .block, .frame]
  | .reqInit .. => [.status, .seq, .session, .linkBaud, .lineReset, .lineClock, .identity, .modes, .baudArgs, .otherArgs,
      .rate, .parity, .resetLine, .clockLine]

/-- Whether an instruction may write it. -/
def Instr.mayWrite (i : Instr) (p : Part) : Bool := decide (p ∈ i.parts)

end Sys2Proof

namespace Sys2Proof.Machine

variable {α : Type} {i : Instr} {s₀ s t : State} {I J : State → Prop} {E : Stop → State → Prop}

/-! ## What no rule writes -/

/-- What stays between the primitives of a rule that began in `s₀`: the parameters, the latched arguments, the buffers, the
session's registers and `OP`, and what the world has yet to give. -/
structure Steady (s₀ s : State) : Prop where
  params : s.params = s₀.params
  args : s.args = s₀.args
  code : s.code = s₀.code
  data : s.data = s₀.data
  readyIn : s.readyIn = s₀.readyIn
  inputs : s.inputs = s₀.inputs
  op : s.seqr.op = s₀.seqr.op
  proto : s.seqr.proto = s₀.seqr.proto
  variant : s.seqr.variant = s₀.seqr.variant
  blockSz : s.seqr.blockSz = s₀.seqr.blockSz

theorem Steady.refl (s : State) : Steady s s := ⟨rfl, rfl, rfl, rfl, rfl, rfl, rfl, rfl, rfl, rfl⟩

theorem Steady.passed (h : Steady s₀ s) : Steady s₀ s.passed := by
  rw [passed_eq]
  exact { h with }

theorem Steady.drive (h : Steady s₀ s) (sig : Signal) (b : Bool) : Steady s₀ (s.drive sig b) := by
  cases sig <;> exact { h with }

theorem Steady.driven (h : Steady s₀ s) (sig : Signal) (b : Bool) : Steady s₀ (s.driven sig b) := by
  cases sig <;> exact { h with }

theorem Steady.buffer (h : Steady s₀ s) (b : Buf) : s.buffer b = s₀.buffer b := by
  cases b
  · exact h.code
  · exact h.data

/-! ## What a rule's errors carry -/

/-- An error carries exactly the information R157 records with its kind. -/
structure Err.Informed (e : Err) : Prop where
  addr : e.addr.isSome = true ↔ e.kind = .programFailed ∨ e.kind = .mismatchError
  cause : e.cause.isSome = true ↔ e.kind = .synchronizationFailed ∨ e.kind = .initializationFailed
  needsStatus : e.kind = .deviceRejected ∨ e.kind = .sizeMismatch → e.status.isSome = true
  mayHaveStatus : e.status.isSome = true → e.kind = .deviceRejected ∨ e.kind = .sizeMismatch ∨
    e.kind = .synchronizationFailed ∨ e.kind = .initializationFailed

theorem informed_bare {k : ErrKind} (h : k.bare = true) : ({ kind := k } : Err).Informed := by
  cases k with
  | io | timeout | formatError | checksumError | lengthMismatch | checksumMismatch | payloadTooLarge | badRequest =>
    constructor <;> simp
  | noError | deviceRejected | programFailed | mismatchError | initializationFailed | synchronizationFailed | sizeMismatch =>
    exact absurd h (by decide)

theorem informed_rejected (b : Byte) : ({ kind := .deviceRejected, status := some b } : Err).Informed := by
  constructor <;> simp

theorem informed_sizeMismatch (b : Byte) : ({ kind := .sizeMismatch, status := some b } : Err).Informed := by
  constructor <;> simp

theorem informed_programFailed (a : Addr) : ({ kind := .programFailed, addr := some a } : Err).Informed := by
  constructor <;> simp

theorem informed_mismatch (a : Addr) : ({ kind := .mismatchError, addr := some a } : Err).Informed := by
  constructor <;> simp

/-- A handshake error carries its cause, and the status of what it wraps (R163). -/
theorem informed_wrapError {k : ErrKind} (hk : k = .synchronizationFailed ∨ k = .initializationFailed) (e : Err) :
    (wrapError k e).Informed := by
  obtain rfl | rfl := hk <;> constructor <;> simp [wrapError]

theorem codecKind_bare {k : ErrKind} (h : k = .formatError ∨ k = .lengthMismatch ∨ k = .checksumError) : k.bare = true := by
  obtain rfl | rfl | rfl := h <;> rfl

/-! ## Every rule but INIT's -/

theorem Keeps.lands {m : Eng α} {Q : α → Prop} (hm : Keeps I E m Q) (hJ : ∀ s, I s → J s) : Reaches I J E m := by
  intro s hs
  have h := hm s hs
  cases hr : m s with
  | ok a t => rw [hr] at h; exact hJ t h.1
  | error w t => rw [hr] at h; exact h


/-- What a predicate must survive for the rule of an instruction to keep it, and how the rule may stop. The signature leads
from `I` to `J`; every other rule keeps `I`. -/
structure OnRule (i : Instr) (s₀ : State) (I J : State → Prop) (E : Stop → State → Prop) : Prop
    extends OnLine s₀.params I E where
  lands : ∀ s, I s → J s
  steady : ∀ s, I s → Steady s₀ s
  raised : ∀ e s, e.Informed → I s → E (.raised e) s
  fault : i.request = none → ∀ f s, I s → E (.faulted f) s
  status : i.mayWrite .status = true → ∀ s b, I s → I (s.setStatus b)
  notBlank : i.mayWrite .notBlank = true → ∀ s b, I s → I (s.setNotBlank b)
  cksum : i.mayWrite .cksum = true → ∀ s v, I s → I (s.setCksum v)
  modes : i.mayWrite .modes = true → ∀ f v, ∀ w ∈ modeWrites f v, ∀ s, I s → I (w s)
  identity : i.mayWrite .identity = true → i.request ≠ some .init → ∀ d, d.length = 22 → Reaches I J E (writes (identityWrites d))
  frame : i.mayWrite .frame = true → ∀ s k, I s → I (s.setFrame k)
  region : i.mayWrite .block = true → ∀ mode b base size, ∀ w ∈ regionWrites mode b base size, ∀ s, I s → I (w s)
  block : i.mayWrite .block = true → ∀ s n, I s → I (s.setBlock n) ∧ I (s.setBlocks n)
  emit : i.mayWrite .block = true → ∀ s d, I s → I (s.emit d)
  resp : i.mayWrite .image = true → ∀ a b c, ∀ w ∈ responseWrites a b c, ∀ s, I s → I (w s)
  pollCnt : i.mayWrite .image = true → ∀ s n, n ≤ Config.g10PollMax → I s → I (s.setPoll n)
  widx : i.mayWrite .image = true → ∀ s n, I s → I (s.setWord n)
  crc : i.request = some .g10CrcCheck → ∀ dev size, size ≤ s₀.code.size → Keeps I E (crcRegisters dev size)
  seq : i.mayWrite .seq = true → ∀ s q, (i.request = some .resetAndRun → q = .idle) → I s → I (s.setSeq q)
  short' : i.mayWrite .seq = true → ∀ s bytes, (∃ unit, WireUnit s₀.params unit ∧ bytes <+: unit) → I s →
    E (.raised (wrapError .synchronizationFailed { kind := .io })) ((s.log (.tx bytes)).setSeq .idle)
  link : i.mayWrite .linkBaud = true → ∀ s r, I s → I (s.setRate r) ∧ I (s.setLinkBaud r)
  lines : i.mayWrite .resetLine = true → ∀ s b, I s → I (s.drive .reset b) ∧ I (s.driven .reset b)
  wiring : i.mayWrite .wiring = true → ∀ s m, I s → I (s.setWiring m)

namespace OnRule

variable (h : OnRule i s₀ I J E)
include h

theorem codec : CodecStops I E := fun _ hk _ hs => h.raised _ _ (informed_bare (codecKind_bare hk)) hs

theorem rejects : RejectStops I E := fun b _ _ hs => h.raised _ _ (informed_rejected b) hs

theorem failed (a : Addr) : FrameStops I E .programFailed a := fun _ hs => h.raised _ _ (informed_programFailed a) hs

theorem mismatches (a : Addr) : FrameStops I E .mismatchError a := fun _ hs => h.raised _ _ (informed_mismatch a) hs

theorem onStatus (hp : i.mayWrite .status = true) : OnStatus s₀.params I E :=
  { h.toOnLine with status := h.status hp, codec := h.codec, reject := h.rejects }

theorem onCommand (hp : i.mayWrite .status = true) (hf : i.mayWrite .frame = true) : OnCommand s₀.params I E :=
  { h.onStatus hp with frame := h.frame hf }

theorem onRegion (hi : i.request = some .region) : OnRegion s₀.params I E :=
  have hp : i.mayWrite .status = true ∧ i.mayWrite .frame = true ∧ i.mayWrite .notBlank = true ∧ i.mayWrite .block = true := by
    cases i <;> cases hi
    exact ⟨rfl, rfl, rfl, rfl⟩
  { h.onCommand hp.1 hp.2.1 with
    notBlank := h.notBlank hp.2.2.1
    block := fun s n hs => (h.block hp.2.2.2 s n hs).1
    blocks := fun s n hs => (h.block hp.2.2.2 s n hs).2
    emit := h.emit hp.2.2.2
    failed := h.failed
    mismatch := h.mismatches }

theorem onImage (hp : i.mayWrite .image = true) : OnImage s₀.params I E :=
  { h.toOnLine with
    resp := fun a b c => keeps_writes h.toOnLine (h.resp hp a b c)
    pollCnt := h.pollCnt hp
    widx := h.widx hp
    sizeStop := fun c _ hs => h.raised _ _ (informed_sizeMismatch c) hs
    wordStop := fun _ _ hs => h.raised _ _ (informed_programFailed _) hs }

/-- The two units of the handshake wrap their errors as the handshake does (log entry 17). -/
theorem partStops (hp : i.mayWrite .seq = true) : PartStops s₀.params I E .synchronizationFailed where
  io _ hs := h.raised _ _ (informed_wrapError (.inl rfl) _) (h.seq hp _ _ (fun _ => rfl) hs)
  short := h.short' hp
  timeout _ hs := h.raised _ _ (informed_wrapError (.inl rfl) _) (h.seq hp _ _ (fun _ => rfl) hs)

theorem keeps_setLinkBaud (hp : i.mayWrite .linkBaud = true) (r : Nat) : Keeps I E (setLinkBaud r) :=
  (keeps_control h.toOnLine (fun s hs => (h.link hp s r hs).1) (by simp)).bind fun _ _ =>
    keeps_primitive h.toOnLine fun s hs => (h.link hp s r hs).2

/-- RESET_AND_RUN drives the reset line only (R123). -/
theorem keeps_resetAndRunBody (hq : i.mayWrite .seq = true) (hl : i.mayWrite .resetLine = true) (hw : i.mayWrite .wiring = true) (mode : Nat) :
    Keeps I E (resetAndRunBody mode) := by
  have hon : OnLine s₀.params I (Reraised id (fun s => s.setSeq .idle) E) :=
    { h.toOnLine with
      io := fun s hs => h.io _ (h.seq hq s _ (fun _ => rfl) hs)
      short := fun s b hb hs => h.short _ b hb (h.seq hq s _ (fun _ => rfl) hs)
      timeout := fun s hs => h.timeout _ (h.seq hq s _ (fun _ => rfl) hs) }
  have hline (b : Bool) : Keeps I (Reraised id (fun s => s.setSeq .idle) E) (setLine .reset b) :=
    (keeps_control hon (fun s hs => (h.lines hl s b hs).1) (by simp)).bind fun _ _ =>
      keeps_primitive hon fun s hs => (h.lines hl s b hs).2
  have hlines : Keeps I (Reraised id (fun s => s.setSeq .idle) E) runLines :=
    (hline _).bind fun _ _ => (keeps_waitFor hon _).bind fun _ _ => hline _
  exact (Keeps.update fun s hs => h.wiring hw s mode hs).bind fun _ _ => hlines.reraised.bind fun _ _ =>
    keeps_primitive h.toOnLine fun s hs => h.seq hq s _ (fun _ => rfl) hs

/-- The signature, on its own and as a request. -/
theorem signature_reaches (hp : i.mayWrite .status = true) (hd : i.mayWrite .identity = true)
    (hi : i.request ≠ some .init) : Reaches I J E signatureBody :=
  signatureBody_reaches (h.onStatus hp) (h.identity hd hi)

/-- The rule of an accepted instruction keeps what survives its writes; the signature and INIT have conditions of their
own. -/
theorem keeps_body (hs₀ : s₀ = started i s) (ha : accepts i s = true) (hi : i.request ≠ some .init)
    (hd : i.mayWrite .identity = false) : Keeps I E (body i) := by
  have hbare {k : ErrKind} (hk : k.bare = true) (s : State) (hs : I s) : E (.raised { kind := k }) s :=
    h.raised _ _ (informed_bare hk) hs
  have hfault (f : Fault) (hn : i.request = none) (s : State) (hs : I s) : E (.faulted f) s := h.fault hn f s hs
  have hframes {a e : Addr} {b : Buf} {off : Nat} (hsrc : sourceReady a e b off s₀ = true) :
      FramesKeep I E (bufferFrames b off (rangeLength a e)) :=
    keeps_bufferFrames h.toOnLine (.inl fun t ht => by
      simp only [sourceReady, sourceOk, Bool.and_eq_true, decide_eq_true_eq] at hsrc
      rw [(h.steady t ht).buffer]
      exact hsrc.2)
  cases i with
  | reset | reqResetCmd => exact keeps_resetBody (h.onStatus rfl)
  | blockErase a | reqBlockErase a => exact keeps_eraseBody (h.onStatus rfl) a
  | blankCheck a e | reqBlankCheck a e => exact keeps_blankUnit (h.onStatus rfl) (h.notBlank rfl) a e
  | checksum a e | reqChecksum a e => exact keeps_checksumBody (h.onStatus rfl) (h.cksum rfl) a e
  | siliconSignature | reqSignature => exact absurd hd (by decide)
  | program a e bytes =>
    exact keeps_programBody (h.onCommand rfl rfl) a e (h.failed a) (keeps_operandFrames bytes)
  | verify a e bytes =>
    exact keeps_verifyBody (h.onCommand rfl rfl) a e (h.mismatches a) (keeps_operandFrames bytes)
  | reqBlockProgram a e b off =>
    subst hs₀
    exact keeps_programBody (h.onCommand rfl rfl) a e (h.failed a) (hframes ha)
  | reqBlockVerify a e b off =>
    subst hs₀
    exact keeps_verifyBody (h.onCommand rfl rfl) a e (h.mismatches a) (hframes ha)
  | baudSet code volt =>
    exact keeps_baudSetBody (h.onStatus rfl) (fun f v => keeps_writes h.toOnLine (h.modes rfl f v)) code volt
  | reqSetBaud rate mv =>
    simp only [accepts, baudOk, rateOk, Bool.and_eq_true] at ha
    obtain ⟨-, hcode, -⟩ := ha
    exact keeps_setBaudRate (h.onStatus rfl) (fun f v => keeps_writes h.toOnLine (h.modes rfl f v))
      (.inl (hs₀ ▸ hcode)) mv
  | sync => exact keeps_syncStep h.toOnLine (fun s q => h.seq rfl s q nofun) (h.partStops rfl)
  | g10ModeSet =>
    exact keeps_modeSetStep h.toOnLine (fun s q => h.seq rfl s q nofun) (h.partStops rfl) fun b _ s hs =>
      h.raised _ _ (informed_wrapError (.inl rfl) _) (h.seq rfl _ _ nofun hs)
  | g10EraseWrite =>
    exact Keeps.getState' fun s hs => keeps_openImage (h.onImage rfl) (h.params s hs ▸ .eraseWrite)
  | g10CrcCheck => exact Keeps.getState' fun s hs => keeps_openImage (h.onImage rfl) (h.params s hs ▸ .crcCheck)
  | g10Ack => exact keeps_send h.toOnLine .ack
  | g10Nack =>
    exact keeps_nackRow h.toOnLine (fun c _ hs => h.raised _ _ (informed_sizeMismatch c) hs) (hfault _ rfl)
  | g10Word b0 b1 b2 b3 =>
    exact keeps_wordRow h.toOnLine (fun _ _ hs => h.raised _ _ (informed_programFailed _) hs) (hfault _ rfl) b0 b1 b2 b3
  | dataFrame bytes last => exact keeps_dataRow h.toOnLine (hbare rfl) (hbare rfl) bytes last
  | responseFrame bytes last =>
    exact keeps_responseRow h.toOnLine h.codec (hbare rfl) (hbare rfl) bytes last
  | reqInit => exact absurd rfl hi
  | reqSetLinkBaud rate => exact h.keeps_setLinkBaud rfl rate
  | reqRegion mode b base size =>
    subst hs₀
    obtain ⟨bs, hbs, hsize⟩ := regionReady_bounds ha
    refine keeps_regionBody (bs := bs) (h.onRegion rfl) mode b base (keeps_writes h.toOnLine (h.region rfl _ _ _ _))
      (fun t ht => (h.steady t ht).blockSz.trans hbs) fun t ht => ?_
    rw [(h.steady t ht).buffer, started]
    cases b <;> exact hsize
  | reqG10EraseWrite size =>
    subst hs₀
    simp only [accepts, wordsReady, imageReady, imageOk, Bool.and_eq_true, decide_eq_true_eq] at ha
    obtain ⟨⟨-, hsize⟩, -⟩ := ha
    exact keeps_eraseWriteBody (h.onImage rfl) fun t ht => (h.steady t ht).code ▸ hsize
  | reqG10CrcCheck size =>
    subst hs₀
    simp only [accepts, imageReady, imageOk, Bool.and_eq_true, decide_eq_true_eq] at ha
    exact keeps_crcCheckBody (h.onImage rfl) fun dev => h.crc rfl dev size ha.2
  | reqResetAndRun mode => exact h.keeps_resetAndRunBody rfl rfl rfl mode

/-- The rule of every accepted instruction but INIT. -/
theorem body_reaches (hs₀ : s₀ = started i s) (ha : accepts i s = true) (hi : i.request ≠ some .init) :
    Reaches I J E (body i) := by
  cases hd : i.mayWrite .identity
  · exact (h.keeps_body hs₀ ha hi hd).lands h.lands
  · have hsig : i = .siliconSignature ∨ i = .reqSignature := by
      cases i with
      | siliconSignature => exact .inl rfl
      | reqSignature => exact .inr rfl
      | reqInit => exact absurd rfl hi
      | _ => cases hd
    obtain rfl | rfl := hsig <;> exact h.signature_reaches rfl rfl hi

end OnRule

theorem Reaches.mono {K : State → Prop} {m : Eng α} (hm : Reaches I J E m) (hK : ∀ s, J s → K s) : Reaches I K E m := by
  intro s hs
  have h := hm s hs
  cases hr : m s with
  | ok a t => rw [hr] at h; exact hK t h
  | error w t => rw [hr] at h; exact h

/-! ## How an instruction ends -/

/-- What the end of an instruction's rule needs of the states `J` its body leads to. -/
structure Closing (i : Instr) (J : State → Prop) (E : Stop → State → Prop) : Prop where
  op : ∀ s, J s → s.seqr.op = i.request
  passed : ∀ s, J s → J s.passed
  reset : ∀ s, J s → (s.moments.headD {}).reset = true → E .reset s.passed

theorem started_op (ho : s.seqr.op = none) : (started i s).seqr.op = i.request := by
  cases i with
  | reqInit | reqResetCmd | reqSetBaud | reqSetLinkBaud | reqSignature | reqBlockErase | reqBlankCheck | reqChecksum
  | reqBlockProgram | reqBlockVerify | reqRegion | reqG10EraseWrite | reqG10CrcCheck | reqResetAndRun => rfl
  | _ => exact ho

/-- How an instruction that is taken may end: at its last primitive, with an error, at the hold, or by an Engine reset. -/
inductive Ended (J : State → Prop) (E : Stop → State → Prop) : State → Prop where
  | done (u : State) (h : J u) : Ended J E u.endRequest
  | raised (e : Err) (u : State) (h : E (.raised e) u) : Ended J E (u.takeError e)
  | held (u : State) (h : E .held u) : Ended J E u
  | reset (u : State) (h : E .reset u) : Ended J E u.engineReset

theorem endRequest_of_noOp {u : State} (h : u.seqr.op = none) : u.endRequest = u := by
  obtain ⟨_, ⟨_, _, _, _, _, _, _, _⟩⟩ := u
  cases h
  rfl

/-- The last primitive of a request (R79). -/
theorem closes_request {m : Eng Unit} (hc : Closing i J E) (hm : Reaches I J E m) :
    Reaches I (fun t => ∃ u, J u ∧ t = u.endRequest) E (do m; primitive State.endRequest) :=
  hm.bind fun _ s hs => by
    rw [primitive_eq]
    cases hr : (s.moments.headD {}).reset
    · exact ⟨s.passed, hc.passed s hs, rfl⟩
    · exact hc.reset s hs hr

/-- A unit of the wire has no request to end. -/
theorem closes_unit {m : Eng Unit} (hop : ∀ s, J s → s.seqr.op = none) (hm : Reaches I J E m) :
    Reaches I (fun t => ∃ u, J u ∧ t = u.endRequest) E m := by
  intro s hs
  have h := hm s hs
  cases hr : m s with
  | ok _ t => rw [hr] at h; exact ⟨t, h, (endRequest_of_noOp (hop t h)).symm⟩
  | error w t => rw [hr] at h; exact h

theorem ruleOf_reaches (hc : Closing i J E) (hb : Reaches I J E (body i)) :
    Reaches I (fun t => ∃ u, J u ∧ t = u.endRequest) E (ruleOf i) := by
  unfold ruleOf
  split
  · exact closes_request hc hb
  · next hn => exact closes_unit (fun s hs => (hc.op s hs).trans hn) hb

theorem finish_ended {m : Eng Unit} (hm : Reaches I (fun t => ∃ u, J u ∧ t = u.endRequest) E m) (hs : I s) :
    (∃ t, finish m s = .next t ∧ Ended J E t) ∨ ∃ f u, E (.faulted f) u ∧ finish m s = .fault f := by
  obtain ⟨t, ht, ⟨u, hu, rfl⟩ | ⟨e, u, he, rfl⟩ | hh | ⟨u, hu, rfl⟩⟩ | h := finish_reaches hm hs
  · exact .inl ⟨_, ht, .done u hu⟩
  · exact .inl ⟨_, ht, .raised e u he⟩
  · exact .inl ⟨_, ht, .held t hh⟩
  · exact .inl ⟨_, ht, .reset u hu⟩
  · exact .inr h

theorem exec_taken (ho : s.seqr.op = none) (ha : accepts i s = true) : exec i s = finish (ruleOf i) (started i s) := by
  rw [exec_eq, ho, ha]
  rfl

/-- What an instruction that is not taken leaves (R79; log entry 1). -/
def State.turnAway (s : State) (i : Instr) : State :=
  match i.request with
  | some r => s.refuse r.code
  | none => s.refuseUnit

theorem exec_turned_away (h : ¬ (s.seqr.op = none ∧ accepts i s = true)) : exec i s = .next (s.turnAway i) := by
  rw [exec_eq, if_neg (by simpa using h)]
  rfl

/-- How an instruction ends: it is turned away, or its rule runs to an end or to a fault. -/
theorem exec_ended (hb : s.seqr.op = none → accepts i s = true → Reaches I (fun t => ∃ u, J u ∧ t = u.endRequest) E (ruleOf i))
    (hI : I (started i s)) (h : exec i s = .next t) : t = s.turnAway i ∨ Ended J E t := by
  by_cases hacc : s.seqr.op = none ∧ accepts i s = true
  · rw [exec_taken hacc.1 hacc.2] at h
    obtain ⟨t', ht', hend⟩ | ⟨f, u, -, hf⟩ := finish_ended (hb hacc.1 hacc.2) hI
    · rw [h] at ht'
      cases ht'
      exact .inr hend
    · rw [h] at hf
      cases hf
  · rw [exec_turned_away hacc] at h
    cases h
    exact .inl rfl

/-- What holds between two primitives of an instruction is what holds where an Engine reset would stop its rule. -/
theorem between_stop (hb : s.seqr.op = none → accepts i s = true → Reaches I (fun t => ∃ u, J u ∧ t = u.endRequest) E (ruleOf i))
    {k : Nat} {u : State} (hI : I ((started i s).resetAfter k)) (h : between i k s = some u) : E .reset u := by
  obtain ⟨ho, ha, hr⟩ := between_reset h
  have hk := hb ho ha _ hI
  rwa [hr] at hk

end Sys2Proof.Machine
end

section
/-! PROOF. What INIT may write behind the registers of its session, and how its handshake may stop: one condition for the whole
of it, and the two facts the sequence itself establishes, the lines low where it holds and READY where it ends. -/

namespace Sys2Proof.Machine

variable {α β : Type} {s₀ s : State} {I J : State → Prop} {E : Stop → State → Prop} {proto : Nat}

/-! ## The errors of the handshake -/

/-- The errors the handshake reports, by the variant of its session: what its kind wraps, and the status byte of a rejection
(R118, R120, R163). -/
inductive HandshakeError (v : Option Variant) : Err → Prop where
  | line {kind cause : ErrKind} (hk : kind = .synchronizationFailed ∨ kind = .initializationFailed ∧ v = some .framed)
      (hc : cause = .io ∨ cause = .timeout) : HandshakeError v (wrapError kind { kind := cause })
  | codec {cause : ErrKind} (hv : v = some .framed)
      (hc : cause = .formatError ∨ cause = .lengthMismatch ∨ cause = .checksumError) :
    HandshakeError v (wrapError .initializationFailed { kind := cause })
  | baudSet (b : Byte) (hv : v = some .framed) :
    HandshakeError v (wrapError .initializationFailed { kind := .deviceRejected, status := some b })
  | modeSet (b : Byte) (hv : v = some .g10) :
    HandshakeError v (wrapError .synchronizationFailed { kind := .deviceRejected, status := some b })

theorem HandshakeError.informed {v : Option Variant} {e : Err} (h : HandshakeError v e) : e.Informed := by
  cases h with
  | line hk => exact informed_wrapError (hk.imp id And.left) _
  | codec | baudSet => exact informed_wrapError (.inr rfl) _
  | modeSet => exact informed_wrapError (.inl rfl) _

/-! ## The handshake -/

/-- What a predicate must survive for the handshake of the session opened in `s₀` to keep it, and how it may stop. -/
structure OnInit (s₀ : State) (I : State → Prop) (E : Stop → State → Prop) : Prop extends OnControl s₀.params I E where
  steady : ∀ s, I s → Steady s₀ s
  status : ∀ s b, I s → I (s.setStatus b)
  modes : ∀ f v, ∀ w ∈ modeWrites f v, ∀ s, I s → I (w s)
  seq : ∀ s q, I s → I (s.setSeq q)
  failed : ∀ e s, HandshakeError s₀.seqr.variant e → I s → E (.raised e) (s.setSeq .idle)
  cut : ∀ kind, kind = .synchronizationFailed ∨ kind = .initializationFailed ∧ s₀.seqr.variant = some .framed →
    ∀ s bytes, (∃ unit, WireUnit s₀.params unit ∧ bytes <+: unit) → I s →
      E (.raised (wrapError kind { kind := .io })) ((s.log (.tx bytes)).setSeq .idle)
  /-- it finds what it reads, or may stop where it does not -/
  ready : ReadyToShake s₀ ∨ (∀ f s, I s → E (.faulted f) s) ∧
    ∀ s, I s → E (.raised (wrapError .initializationFailed { kind := .badRequest })) (s.setSeq .idle)

namespace OnInit

variable (h : OnInit s₀ I E)
include h

theorem partStops {kind : ErrKind}
    (hk : kind = .synchronizationFailed ∨ kind = .initializationFailed ∧ s₀.seqr.variant = some .framed) :
    PartStops s₀.params I E kind where
  io _ hs := h.failed _ _ (.line hk (.inl rfl)) hs
  short := h.cut kind hk
  timeout _ hs := h.failed _ _ (.line hk (.inr rfl)) hs

theorem variant_of {v : Variant} (hv : ∃ s, I s ∧ s.seqr.variant = some v) : s₀.seqr.variant = some v := by
  obtain ⟨s, hs, hv⟩ := hv
  rw [← (h.steady s hs).variant, hv]

theorem onHandshake : OnHandshake s₀.params I E where
  toOnControl := h.toOnControl
  status := h.status
  baud f v := keeps_writes h.toOnLine (h.modes f v)
  seq := h.seq
  syncStop := h.partStops (.inl rfl)
  initStop hv := h.partStops (.inr ⟨rfl, h.variant_of hv⟩)
  initCodec hv _ hk _ hs := h.failed _ _ (.codec (h.variant_of hv) hk) hs
  initReject hv b _ _ hs := h.failed _ _ (.baudSet b (h.variant_of hv)) hs
  modeReject hv b _ _ hs := h.failed _ _ (.modeSet b (h.variant_of hv)) hs
  targetBaud s hs := by
    refine h.ready.imp (fun hr => ?_) fun hf s hs => hf.1 _ s hs
    obtain ⟨rate, hrate, -⟩ := hr.rate
    rw [(h.steady s hs).args, hrate]
    rfl
  rateCode s hs rate hrate := by
    refine h.ready.imp (fun hr => ?_) fun hf s hs => hf.2 s hs
    obtain ⟨rate', hrate', hcode⟩ := hr.rate
    rw [(h.steady s hs).args, hrate'] at hrate
    exact Option.some.inj hrate ▸ hcode
  voltage s hs := h.ready.imp (fun hr => (h.steady s hs).args ▸ hr.voltage) fun hf s hs => hf.1 _ s hs
  delayed s hs := h.ready.imp (fun hr => (h.steady s hs).args ▸ hr.delayed) fun hf s hs => hf.1 _ s hs
  variant s hs := h.ready.imp (fun hr => (h.steady s hs).variant ▸ hr.variant) fun hf s hs => hf.1 _ s hs

theorem keeps_tail : Keeps I E initTail := keeps_initTail h.onHandshake

end OnInit

/-! ## Up to the hold -/

/-- Step 1 is done: both lines are driven low, and the sequencer is still where the session began (R113, R117). -/
structure StepOneDone (I : State → Prop) (s : State) : Prop where
  kept : I s
  seq : s.seqr.seq = .idle
  resetLow : s.seqr.lineReset = some false
  clockLow : s.seqr.lineClock = some false

theorem control_reaches (h : OnLine s₀.params I E) {act : State → State} {ev : Event} (hact : ∀ s, I s → J (act s))
    (hJ : ∀ s, J s → J (s.log ev)) : Reaches I J E (control act ev) := by
  refine (keeps_transport h).reaches fun _ => (keeps_nextTick h).reaches fun t => ?_
  split
  · exact fun s hs => h.io s hs
  · exact fun s hs => hJ _ (hact _ (h.receive t.deliver hs))

theorem OnControl.idle (h : OnControl s₀.params I E) :
    OnControl s₀.params (fun s => I s ∧ s.seqr.seq = .idle) E where
  toOnLine := h.toOnLine.and (fun _ hs => hs) (fun _ _ _ hs => hs) (fun _ _ hs => hs) fun s hs => by
    rw [passed_eq]
    exact hs
  rate s r hs := ⟨h.rate s r hs.1, hs.2⟩
  parity s r hs := ⟨h.parity s r hs.1, hs.2⟩
  drive s sig b hs := ⟨h.drive s sig b hs.1, by cases sig <;> exact hs.2⟩
  driven s sig b hs := ⟨h.driven s sig b hs.1, by cases sig <;> exact hs.2⟩
  linkBaud s r hs := ⟨h.linkBaud s r hs.1, hs.2⟩

/-- The two lines of step 1 are low behind it. -/
theorem stepOne_reaches (h : OnControl s₀.params I E) :
    Reaches (fun s => I s ∧ s.seqr.seq = .idle) (StepOneDone I) E stepOne := by
  have hi := h.idle
  have hlow : OnLine s₀.params (fun s => (I s ∧ s.seqr.seq = .idle) ∧ s.seqr.lineReset = some false) E :=
    hi.toOnLine.and (fun _ hs => hs) (fun _ _ _ hs => hs) (fun _ _ hs => hs) fun s hs => by
      rw [passed_eq]
      exact hs
  have hreset : Reaches (fun s => I s ∧ s.seqr.seq = .idle)
      (fun s => (I s ∧ s.seqr.seq = .idle) ∧ s.seqr.lineReset = some false) E (setLine .reset false) :=
    (keeps_control hi.toOnLine (fun s hs => hi.drive s .reset false hs) (by simp)).reaches fun _ =>
      primitive_reaches hi.toOnLine fun s hs => ⟨hi.driven s .reset false hs, rfl⟩
  have hclock : Reaches (fun s => (I s ∧ s.seqr.seq = .idle) ∧ s.seqr.lineReset = some false) (StepOneDone I) E
      (setLine .clock false) :=
    (keeps_control hlow (fun s hs => ⟨hi.drive s .clock false hs.1, hs.2⟩) (by simp)).reaches fun _ =>
      primitive_reaches hlow fun s hs =>
        have hd := hi.driven s .clock false hs.1
        ⟨hd.1, hd.2, hs.2, rfl⟩
  exact fun s hs => ((keeps_setParity hi s.params.parity).reaches fun _ =>
    (keeps_setLinkBaud hi s.params.initBaud).reaches fun _ => hreset.bind fun _ => hclock) s hs

theorem reaches_reraised {f : Err → Err} {g : State → State} {m : Eng α} (hm : Reaches I J (Reraised f g E) m) :
    Reaches I J E (Machine.onRaise f g m) := by
  intro s hs
  have h := hm s hs
  unfold Machine.onRaise
  cases hr : m s with
  | ok a t => rw [hr] at h; exact h
  | error w t => rw [hr] at h; cases w <;> exact h

/-- Where a delayed start holds (R117). -/
structure Holding (I : State → Prop) (s : State) : Prop extends StepOneDone I s where
  delayed : s.args.delayedStart = some true
  notReady : s.readyIn = false

/-- INIT behind the writes of R40 keeps what the handshake keeps, and holds only with both lines low. -/
theorem initSteps_reaches (h : OnInit s₀ I E) (hh : ∀ s, Holding I s → E .held s) :
    Reaches (fun s => I s ∧ s.seqr.seq = .idle) I E initSteps := by
  have hs := h.onHandshake
  have hone : Reaches (fun s => I s ∧ s.seqr.seq = .idle) (StepOneDone I) E
      (handshakePart .synchronizationFailed stepOne) :=
    reaches_reraised (stepOne_reaches (h.toOnControl.wrapped hs.syncStop))
  refine hone.bind fun _ => Reaches.bind (J := I) (fun s hd => ?_) fun _ => h.keeps_tail.toReaches
  unfold holdReady
  rw [getState_bind]
  cases hv : s.args.delayedStart with
  | none => exact (hs.delayed s hd.kept).resolve_left (by simp [hv]) s hd.kept
  | some d =>
    rw [bind_ok (needReg_some _ rfl s)]
    by_cases hc : (d && !s.readyIn) = true
    · rw [if_pos hc]
      simp only [Bool.and_eq_true, Bool.not_eq_true'] at hc
      exact hh s { hd with delayed := hc.1 ▸ hv, notReady := hc.2 }
    · rw [if_neg hc]
      exact hd.kept

/-- INIT: the writes of R40 lead from `I` to the session's start, and the handshake keeps `J` from there. -/
theorem init_reaches (h : OnInit s₀ J E) (hh : ∀ s, Holding J s → E .held s)
    (hw : Reaches I (fun s => J s ∧ s.seqr.seq = .idle) E (writes (sessionWrites proto))) :
    Reaches I J E (initBody proto) :=
  hw.bind fun _ => initSteps_reaches h hh

/-! ## Where the handshake ends -/

/-- A rule that comes to its end does so in a state with `J`. -/
def Ends (J : State → Prop) (m : Eng α) : Prop := ∀ s a t, m s = .ok a t → J t

theorem Ends.bind {m : Eng α} {f : α → Eng β} (hf : ∀ a, Ends J (f a)) : Ends J (m >>= f) := by
  intro s b t h
  cases hm : m s with
  | ok a u => rw [bind_ok hm] at h; exact hf a u b t h
  | error w u => rw [bind_error hm] at h; cases h

theorem Ends.primitive {f : State → State} (hf : ∀ s, J (f s)) : Ends J (primitive f) :=
  Ends.bind fun _ s _ t h => by cases h; exact hf s

theorem Ends.onRaise {f : Err → Err} {g : State → State} {m : Eng α} (hm : Ends J m) : Ends J (Machine.onRaise f g m) := by
  intro s a t h
  unfold Machine.onRaise at h
  cases hr : m s with
  | ok b u => rw [hr] at h; cases h; exact hm s _ _ hr
  | error w u => rw [hr] at h; cases w <;> cases h

theorem Reaches.ends {K : State → Prop} {m : Eng α} (hm : Reaches I J E m) (he : Ends K m) :
    Reaches I (fun s => J s ∧ K s) E m := by
  intro s hs
  have h := hm s hs
  cases hr : m s with
  | ok a t => rw [hr] at h; exact ⟨h, he s a t hr⟩
  | error w t => rw [hr] at h; exact h

/-- A handshake that comes to its end is READY (R116, R119). -/
theorem initTail_ends : Ends (fun s => s.seqr.seq = .ready) initTail := by
  have hready : Ends (fun s => s.seqr.seq = .ready) (primitive fun s => s.setSeq .ready) := Ends.primitive fun _ => rfl
  refine Ends.bind fun _ => Ends.bind fun _ => Ends.bind fun s => Ends.bind fun v => ?_
  cases v with
  | framed =>
    exact Ends.bind fun _ => Ends.onRaise (Ends.bind fun _ => Ends.bind fun _ => Ends.bind fun _ => Ends.bind fun _ =>
      Ends.bind fun _ => hready)
  | g10 =>
    exact Ends.onRaise (Ends.bind fun _ => Ends.bind fun _ => Ends.bind fun _ => Ends.bind fun _ => Ends.bind fun _ => hready)

theorem initBody_ends (proto : Nat) : Ends (fun s => s.seqr.seq = .ready) (initBody proto) :=
  Ends.bind fun _ => Ends.bind fun _ => Ends.bind fun _ => initTail_ends

end Sys2Proof.Machine
end

section
/-! PROOF. Claims about the line, the transcript, the moments and the error registers alone: no register a rule writes matters to
them, so that what arrives, what is logged and how a rule may stop is all there is to show. -/

namespace Sys2Proof.Machine

variable {α : Type} {i : Instr} {s₀ s t : State} {I : State → Prop} {E : Stop → State → Prop}

/-- Two states that differ in registers, in the Transport and in the script only. -/
structure Alike (s t : State) : Prop where
  params : t.params = s.params
  args : t.args = s.args
  code : t.code = s.code
  data : t.data = s.data
  readyIn : t.readyIn = s.readyIn
  inputs : t.inputs = s.inputs
  op : t.seqr.op = s.seqr.op
  proto : t.seqr.proto = s.seqr.proto
  variant : t.seqr.variant = s.seqr.variant
  blockSz : t.seqr.blockSz = s.seqr.blockSz
  hist : t.hist = s.hist
  moments : t.moments = s.moments
  err : t.err = s.err

theorem Alike.steady (h : Alike s t) (hs : Steady s₀ s) : Steady s₀ t where
  params := h.params.trans hs.params
  args := h.args.trans hs.args
  code := h.code.trans hs.code
  data := h.data.trans hs.data
  readyIn := h.readyIn.trans hs.readyIn
  inputs := h.inputs.trans hs.inputs
  op := h.op.trans hs.op
  proto := h.proto.trans hs.proto
  variant := h.variant.trans hs.variant
  blockSz := h.blockSz.trans hs.blockSz

theorem Alike.refl (s : State) : Alike s s := ⟨rfl, rfl, rfl, rfl, rfl, rfl, rfl, rfl, rfl, rfl, rfl, rfl, rfl⟩

theorem alike_drive (s : State) (sig : Signal) (b : Bool) : Alike s (s.drive sig b) := by
  cases sig <;> exact { Alike.refl s with }

theorem alike_driven (s : State) (sig : Signal) (b : Bool) : Alike s (s.driven sig b) := by
  cases sig <;> exact { Alike.refl s with }

/-- A claim no register write matters to. -/
structure World (s₀ : State) (I : State → Prop) : Prop where
  steady : ∀ s, I s → Steady s₀ s
  alike : ∀ s t, Alike s t → I s → I t
  passed : ∀ s, I s → I s.passed
  log : ∀ s e, (∀ b, e ≠ Event.tx b) → I s → I (s.log e)
  sent : ∀ s bytes, WireUnit s₀.params bytes → I s → I (s.log (.tx bytes))

/-- How what arrives and the Transport may stop a rule. -/
structure LineStops (s₀ : State) (I : State → Prop) (E : Stop → State → Prop) : Prop where
  reset : ∀ s, I s → (s.moments.headD {}).reset = true → E .reset s.passed
  io : ∀ s, I s → E (.raised { kind := .io }) s
  short : ∀ s bytes, (∃ unit, WireUnit s₀.params unit ∧ bytes <+: unit) → I s →
    E (.raised { kind := .io }) (s.log (.tx bytes))
  timeout : ∀ s, I s → E (.raised { kind := .timeout }) s

theorem World.onLine (h : World s₀ I) (hE : LineStops s₀ I E) : OnLine s₀.params I E where
  params s hs := (h.steady s hs).params
  script s hs := h.alike s _ { Alike.refl s with } hs
  passed := h.passed
  queue s _ _ hs := h.alike s _ { Alike.refl s with } hs
  log := h.log
  sent := h.sent
  reset := hE.reset
  io := hE.io
  short := hE.short
  timeout := hE.timeout

/-- How the rule of an instruction other than INIT may stop. -/
structure RuleStops (i : Instr) (s₀ : State) (I : State → Prop) (E : Stop → State → Prop) : Prop where
  reset : ∀ s, I s → (s.moments.headD {}).reset = true → E .reset s.passed
  raised : ∀ e s, e.Informed → I s → E (.raised e) s
  cut : ∀ e s bytes, e = { kind := .io } ∨ e = wrapError .synchronizationFailed { kind := .io } →
    (∃ unit, WireUnit s₀.params unit ∧ bytes <+: unit) → I s → E (.raised e) (s.log (.tx bytes))
  fault : i.request = none → ∀ f s, I s → E (.faulted f) s

theorem RuleStops.lineStops (h : RuleStops i s₀ I E) : LineStops s₀ I E where
  reset := h.reset
  io s hs := h.raised _ s (informed_bare rfl) hs
  short s b hb hs := h.cut _ s b (.inl rfl) hb hs
  timeout s hs := h.raised _ s (informed_bare rfl) hs

theorem World.setSeq (h : World s₀ I) (q : SeqState) (hs : I s) : I (s.setSeq q) := h.alike s _ { Alike.refl s with } hs

theorem World.modes (h : World s₀ I) (f v : Byte) : ∀ w ∈ modeWrites f v, ∀ s, I s → I (w s) := by
  intro w hw s hs
  fin_cases hw <;> exact h.alike s _ { Alike.refl s with } hs

theorem World.onRule (h : World s₀ I) (hE : RuleStops i s₀ I E) : OnRule i s₀ I I E where
  toOnLine := h.onLine hE.lineStops
  lands _ hs := hs
  steady := h.steady
  raised := hE.raised
  fault := hE.fault
  status _ s b hs := h.alike s _ { Alike.refl s with } hs
  notBlank _ s b hs := h.alike s _ { Alike.refl s with } hs
  cksum _ s v hs := h.alike s _ { Alike.refl s with } hs
  modes _ := h.modes
  identity _ _ d _ := (keeps_writes (h.onLine hE.lineStops) fun w hw s hs => by
    fin_cases hw <;> exact h.alike s _ { Alike.refl s with } hs).toReaches
  frame _ s k hs := h.alike s _ { Alike.refl s with } hs
  region _ mode b base size w hw s hs := by fin_cases hw <;> exact h.alike s _ { Alike.refl s with } hs
  block _ s n hs := ⟨h.alike s _ { Alike.refl s with } hs, h.alike s _ { Alike.refl s with } hs⟩
  emit _ s d hs := h.alike s _ { Alike.refl s with } hs
  resp _ a b c w hw s hs := by fin_cases hw <;> exact h.alike s _ { Alike.refl s with } hs
  pollCnt _ s n _ hs := h.alike s _ { Alike.refl s with } hs
  widx _ s n hs := h.alike s _ { Alike.refl s with } hs
  crc _ dev size hsize := keeps_crcRegisters (h.onLine hE.lineStops)
    (.inl fun s hs => (h.steady s hs).code ▸ hsize) (fun s hs => h.alike s _ { Alike.refl s with } hs)
    (fun s _ hs => h.alike s _ { Alike.refl s with } hs) (fun s _ hs => h.alike s _ { Alike.refl s with } hs)
    fun s hs => hE.raised _ s (informed_bare rfl) hs
  seq _ s q _ hs := h.setSeq q hs
  short' _ s bytes hb hs := hE.cut _ (s.setSeq .idle) bytes (.inr rfl) hb (h.setSeq .idle hs)
  link _ s r hs := ⟨h.alike s _ { Alike.refl s with } hs, h.alike s _ { Alike.refl s with } hs⟩
  lines _ s b hs := ⟨h.alike s _ (alike_drive s .reset b) hs, h.alike s _ (alike_driven s .reset b) hs⟩
  wiring _ s m hs := h.alike s _ { Alike.refl s with } hs

/-- How INIT may stop; its errors leave `SEQ` at IDLE. -/
structure InitStops (s₀ : State) (I : State → Prop) (E : Stop → State → Prop) : Prop extends LineStops s₀ I E where
  failed : ∀ e s, HandshakeError s₀.seqr.variant e → I s → s.seqr.seq = .idle → E (.raised e) s
  cut : ∀ kind, kind = .synchronizationFailed ∨ kind = .initializationFailed ∧ s₀.seqr.variant = some .framed →
    ∀ s bytes, (∃ unit, WireUnit s₀.params unit ∧ bytes <+: unit) → I s → s.seqr.seq = .idle →
      E (.raised (wrapError kind { kind := .io })) (s.log (.tx bytes))
  ready : ReadyToShake s₀ ∨ (∀ f s, I s → E (.faulted f) s) ∧
    ∀ s, I s → E (.raised (wrapError .initializationFailed { kind := .badRequest })) s

theorem World.onInit (h : World s₀ I) (hE : InitStops s₀ I E) : OnInit s₀ I E where
  toOnLine := h.onLine hE.toLineStops
  steady := h.steady
  rate s _ hs := h.alike s _ { Alike.refl s with } hs
  parity s _ hs := h.alike s _ { Alike.refl s with } hs
  drive s sig b hs := h.alike s _ (alike_drive s sig b) hs
  driven s sig b hs := h.alike s _ (alike_driven s sig b) hs
  linkBaud s _ hs := h.alike s _ { Alike.refl s with } hs
  status s _ hs := h.alike s _ { Alike.refl s with } hs
  modes := h.modes
  seq _ q hs := h.setSeq q hs
  failed e _ he hs := hE.failed e _ he (h.setSeq .idle hs) rfl
  cut kind hk s bytes hb hs := hE.cut kind hk (s.setSeq .idle) bytes hb (h.setSeq .idle hs) rfl
  ready := hE.ready.imp id fun hf => ⟨hf.1, fun _ hs => hf.2 _ (h.setSeq .idle hs)⟩

end Sys2Proof.Machine
end

section
/-! PROOF. What no instruction changes outside the Engine (R45), and what it puts on the wire: whole units, but for the beginning
of one where a write failed and `Io` ends the run (R68, R76, R160). -/

namespace Sys2Proof.Machine

variable {i : Instr} {s₀ s t u : State} {k : Nat}

/-! ## What is kept and what is sent -/

/-- The buffers, the parameters and what the world has yet to give are unchanged. -/
def Outside (s t : State) : Prop :=
  t.code = s.code ∧ t.data = s.data ∧ t.params = s.params ∧ t.inputs = s.inputs ∧ t.readyIn = s.readyIn

theorem Outside.refl (s : State) : Outside s s := ⟨rfl, rfl, rfl, rfl, rfl⟩

theorem Outside.trans {a b c : State} (h : Outside a b) (g : Outside b c) : Outside a c := by
  obtain ⟨hc, hd, hp, hi, hr⟩ := h
  obtain ⟨gc, gd, gp, gi, gr⟩ := g
  exact ⟨gc.trans hc, gd.trans hd, gp.trans hp, gi.trans hi, gr.trans hr⟩

theorem Steady.outside (h : Steady s₀ s) : Outside s₀ s := ⟨h.code, h.data, h.params, h.inputs, h.readyIn⟩

/-- The transcript has grown by lines that send whole units. -/
def State.Sends (s t : State) : Prop := ∃ events, t.hist = s.hist ++ events ∧ sendsUnits s.params events

/-- The transcript has grown by lines of which the last sends the beginning of a unit. -/
def State.Cuts (s t : State) : Prop := ∃ events, t.hist = s.hist ++ events ∧ cutShort s.params events

theorem sendsUnits_nil (p : Params) : sendsUnits p [] := fun _ h => nomatch h

theorem sends_of_hist (h : t.hist = s.hist) : s.Sends t := ⟨[], by simpa using h, sendsUnits_nil _⟩

theorem State.Sends.log (h : s₀.Sends s) {e : Event} (he : ∀ b, e ≠ .tx b) : s₀.Sends (s.log e) := by
  obtain ⟨events, hh, hu⟩ := h
  refine ⟨events ++ [e], by simp [State.log, hh], fun b hb => ?_⟩
  rcases List.mem_append.1 hb with hb | hb
  · exact hu b hb
  · exact absurd (List.mem_singleton.1 hb).symm (he b)

theorem State.Sends.sent (h : s₀.Sends s) {bytes : List Byte} (hw : WireUnit s₀.params bytes) :
    s₀.Sends (s.log (.tx bytes)) := by
  obtain ⟨events, hh, hu⟩ := h
  refine ⟨events ++ [.tx bytes], by simp [State.log, hh], fun b hb => ?_⟩
  rcases List.mem_append.1 hb with hb | hb
  · exact hu b hb
  · cases List.mem_singleton.1 hb
    exact hw

theorem State.Sends.cut (h : s₀.Sends s) {bytes : List Byte} (hb : ∃ unit, WireUnit s₀.params unit ∧ bytes <+: unit) :
    s₀.Cuts (s.log (.tx bytes)) := by
  obtain ⟨events, hh, hu⟩ := h
  obtain ⟨unit, hw, hp⟩ := hb
  exact ⟨events ++ [.tx bytes], by simp [State.log, hh], events, bytes, unit, rfl, hu, hw, hp⟩

/-- An error that reports `Io`, as itself or as the cause of a handshake error. -/
def Err.ByIo (e : Err) : Prop :=
  e.kind = .io ∨ (e.kind = .synchronizationFailed ∨ e.kind = .initializationFailed) ∧ e.cause = some .io

/-! ## While a rule runs -/

/-- While a rule runs, the lines it has added to the transcript send whole units. -/
structure Sending (s₀ s : State) : Prop where
  steady : Steady s₀ s
  sends : s₀.Sends s

/-- How a rule that sends may stop. -/
def SentStop (s₀ : State) : Stop → State → Prop
  | .raised e, s => Outside s₀ s ∧ (s₀.Sends s ∨ s₀.Cuts s ∧ e.ByIo)
  | .held, s | .reset, s => Outside s₀ s ∧ s₀.Sends s
  | .faulted _, _ => True

theorem Sending.refl (s : State) : Sending s s := ⟨Steady.refl s, sends_of_hist rfl⟩

theorem Sending.stop (h : Sending s₀ s) : Outside s₀ s ∧ s₀.Sends s := ⟨h.steady.outside, h.sends⟩

theorem Sending.raised (h : Sending s₀ s) (e : Err) : SentStop s₀ (.raised e) s := ⟨h.steady.outside, .inl h.sends⟩

theorem Sending.cut (h : Sending s₀ s) {e : Err} {bytes : List Byte} (he : e.ByIo)
    (hb : ∃ unit, WireUnit s₀.params unit ∧ bytes <+: unit) : SentStop s₀ (.raised e) (s.log (.tx bytes)) :=
  ⟨h.steady.outside, .inr ⟨h.sends.cut hb, he⟩⟩

theorem sending_world (s₀ : State) : World s₀ (Sending s₀) where
  steady _ hs := hs.steady
  alike _ _ ha hs := ⟨ha.steady hs.steady, by rw [State.Sends, ha.hist]; exact hs.sends⟩
  passed s hs := ⟨hs.steady.passed, by rw [passed_eq]; exact hs.sends⟩
  log _ _ he hs := ⟨{ hs.steady with }, hs.sends.log he⟩
  sent _ _ hb hs := ⟨{ hs.steady with }, hs.sends.sent hb⟩

theorem sending_lineStops (s₀ : State) : LineStops s₀ (Sending s₀) (SentStop s₀) where
  reset s hs _ := ((sending_world s₀).passed s hs).stop
  io _ hs := hs.raised _
  short _ _ hb hs := hs.cut (.inl rfl) hb
  timeout _ hs := hs.raised _

theorem sending_ruleStops (i : Instr) (s₀ : State) : RuleStops i s₀ (Sending s₀) (SentStop s₀) where
  reset := (sending_lineStops s₀).reset
  raised _ _ _ hs := hs.raised _
  cut _ _ _ he hb hs := hs.cut (he.elim (fun h => h ▸ .inl rfl) fun h => h ▸ .inr ⟨.inl rfl, rfl⟩) hb
  fault _ _ _ _ := trivial

theorem sending_initStops (s₀ : State) : InitStops s₀ (Sending s₀) (SentStop s₀) where
  toLineStops := sending_lineStops s₀
  failed _ _ _ hs _ := hs.raised _
  cut _ hk _ _ hb hs _ := hs.cut (.inr ⟨hk.imp id And.left, rfl⟩) hb
  ready := .inr ⟨fun _ _ _ => trivial, fun _ hs => hs.raised _⟩

theorem sending_onInit (s₀ : State) : OnInit s₀ (Sending s₀) (SentStop s₀) :=
  (sending_world s₀).onInit (sending_initStops s₀)

/-- Register writes that touch neither the transcript nor the world outside. -/
theorem wrote_keeps {P : State → Prop} : ∀ {fs : List (State → State)} {s : State}, (∀ f ∈ fs, ∀ s, P s → P (f s)) → P s →
    P (s.wrote fs)
  | [], _, _, hs => hs
  | f :: _, _, hf, hs => wrote_keeps (P := P) (s := f _) (fun g hg => hf g (by simp [hg])) (hf f (by simp) _ hs)

theorem sessionWrites_stop (proto : Nat) {done : List (State → State)} (hd : done <+: sessionWrites proto)
    (hs : Sending s₀ s) : SentStop s₀ .reset (s.wrote done) := by
  refine wrote_keeps (P := fun t => Outside s₀ t ∧ s₀.Sends t) (fun f hf t ht => ?_) hs.stop
  have hf := hd.subset hf
  fin_cases hf <;> exact ⟨ht.1, ht.2⟩

theorem sending_sessionWrites (s₀ : State) (proto : Nat) :
    Reaches (Sending s₀) (fun s => Sending (s₀.openSession proto) s ∧ s.seqr.seq = .idle) (SentStop s₀)
      (writes (sessionWrites proto)) :=
  group_reaches (sending_world s₀).passed (sessionWrites_aside proto)
    (fun _ hs => ⟨⟨{ hs.steady with
      proto := rfl
      variant := congrArg (fun p => some (Params.variantOf p proto)) hs.steady.params
      blockSz := congrArg (fun p => some (Params.blockSize p proto)) hs.steady.params }, hs.sends⟩, rfl⟩)
    fun _ _ hs hd => sessionWrites_stop proto hd hs

/-- The session's registers are nothing the stops speak of. -/
theorem sentStop_openSession (s₀ : State) (proto : Nat) : SentStop (s₀.openSession proto) = SentStop s₀ := by
  funext w t
  cases w <;> rfl

/-! ## Every instruction -/

/-- Where the rule of an instruction has come to its end. -/
structure Sent (i : Instr) (s₀ u : State) : Prop where
  outside : Outside s₀ u
  sends : s₀.Sends u
  op : u.seqr.op = i.request

theorem sent_closing (i : Instr) (s₀ : State) : Closing i (Sent i s₀) (SentStop s₀) where
  op _ hs := hs.op
  passed _ hs := by
    rw [passed_eq]
    exact ⟨hs.outside, hs.sends, hs.op⟩
  reset _ hs _ := by
    rw [passed_eq]
    exact ⟨hs.outside, hs.sends⟩

theorem sending_initBody (s₀ : State) (proto : Nat) :
    Reaches (Sending s₀) (Sending (s₀.openSession proto)) (SentStop s₀) (initBody proto) := by
  have h := sending_onInit (s₀.openSession proto)
  rw [sentStop_openSession] at h
  exact init_reaches h (fun _ hh => ⟨hh.kept.steady.outside, hh.kept.sends⟩) (sending_sessionWrites s₀ proto)

/-- The rule of an instruction that is taken sends whole units and changes nothing outside. -/
theorem sending_ruleOf (hs₀ : s₀ = started i s) (ho : s.seqr.op = none) (ha : accepts i s = true) :
    Reaches (Sending s₀) (fun t => ∃ u, Sent i s₀ u ∧ t = u.endRequest) (SentStop s₀) (ruleOf i) := by
  have hop : s₀.seqr.op = i.request := hs₀ ▸ started_op ho
  refine ruleOf_reaches (sent_closing i s₀) ?_
  by_cases hi : i.request = some .init
  · cases i with
    | reqInit proto =>
      exact (sending_initBody s₀ proto).mono fun u hu =>
        ⟨hu.steady.outside, hu.sends, hu.steady.op.trans hop⟩
    | _ => cases hi
  · exact (((sending_world s₀).onRule (sending_ruleStops i s₀)).body_reaches hs₀ ha hi).mono fun u hu =>
      ⟨hu.steady.outside, hu.sends, hu.steady.op.trans hop⟩

/-- Where an instruction starts, nothing outside has changed and nothing is sent. -/
theorem started_left (i : Instr) (s : State) : Outside s (started i s) ∧ (started i s).hist = s.hist := by
  cases i <;> exact ⟨Outside.refl s, rfl⟩

theorem Ended.outside {J : State → Prop} (hJ : ∀ u, J u → Outside s₀ u) (h : Ended J (SentStop s₀) t) : Outside s₀ t := by
  cases h with
  | done u hu => exact hJ u hu
  | raised e u hu => exact hu.1
  | held u hu => exact hu.1
  | reset u hu => exact hu.1

/-- What a step or an instruction has sent when it is over. -/
def State.Sent (s t : State) : Prop := ∃ events, t.hist = s.hist ++ events ∧
  (sendsUnits s.params events ∨ cutShort s.params events ∧ t.endedWithIo)

theorem State.Sends.sentAll (h : s.Sends t) : s.Sent t := by
  obtain ⟨events, hh, hu⟩ := h
  exact ⟨events, hh, .inl hu⟩

theorem sent_of_hist (h : t.hist = s.hist) : s.Sent t := (sends_of_hist h).sentAll

theorem Ended.sent {J : State → Prop} (hJ : ∀ u, J u → s₀.Sends u) (h : Ended J (SentStop s₀) t) : s₀.Sent t := by
  cases h with
  | done u hu => exact State.Sends.sentAll (hJ u hu)
  | raised e u hu =>
    obtain ⟨-, hs | ⟨⟨events, hh, hc⟩, he⟩⟩ := hu
    · exact State.Sends.sentAll (t := u.takeError e) hs
    · exact ⟨events, hh, .inr ⟨hc, he⟩⟩
  | held u hu => exact hu.2.sentAll
  | reset u hu => exact State.Sends.sentAll (t := u.engineReset) hu.2

theorem turnAway_left (i : Instr) (s : State) : Outside s (s.turnAway i) ∧ (s.turnAway i).hist = s.hist := by
  unfold State.turnAway
  cases i.request <;> exact ⟨Outside.refl s, rfl⟩

theorem exec_outside_sent (h : exec i s = .next t) : Outside s t ∧ s.Sent t := by
  obtain ⟨hout, hhist⟩ := started_left i s
  obtain rfl | hend := exec_ended (sending_ruleOf rfl) (Sending.refl _) h
  · exact ⟨(turnAway_left i s).1, sent_of_hist (turnAway_left i s).2⟩
  · have ho := hend.outside fun u hu => hu.outside
    have hs := hend.sent fun u hu => hu.sends
    rw [State.Sent, hhist, hout.2.2.1] at hs
    exact ⟨hout.trans ho, hs⟩

/-! ## Between two primitives, and the rest of a held INIT -/

theorem sending_resetAfter (k : Nat) (s : State) : Sending s (s.resetAfter k) := ⟨{ Steady.refl s with }, sends_of_hist rfl⟩

theorem between_left (h : between i k s = some u) : Outside s u ∧ s.Sends u := by
  obtain ⟨hout, hhist⟩ := started_left i s
  obtain ⟨ho, hs⟩ := between_stop (sending_ruleOf rfl) (sending_resetAfter k _) h
  rw [State.Sends, hhist, hout.2.2.1] at hs
  exact ⟨hout.trans ho, hs⟩

/-- The rest of a held INIT, whatever state it goes on from. -/
theorem sending_resume (s : State) : Reaches (Sending s) (fun t => ∃ u, (Outside s u ∧ s.Sends u) ∧ t = u.endRequest)
    (SentStop s) (do initTail; primitive State.endRequest) :=
  (sending_onInit s).keeps_tail.reaches fun _ => primitive_reaches (sending_onInit s).toOnLine fun u hu =>
    ⟨u, hu.stop, rfl⟩

theorem resumeInit_outside_sent (h : resumeInit s = .next t) : Outside s t ∧ s.Sent t := by
  obtain ⟨t', ht', hend⟩ | ⟨f, u, -, hf⟩ := finish_ended (sending_resume s) (Sending.refl s)
  · cases h.symm.trans ht'
    exact ⟨hend.outside fun _ hu => hu.1, hend.sent fun _ hu => hu.2⟩
  · cases h.symm.trans hf

theorem betweenHeld_left (h : betweenHeld k s = some u) : Outside s u ∧ s.Sends u := by
  have hk := sending_resume s _ (sending_resetAfter k s)
  rwa [stateAfter_reset h] at hk

theorem between_any_left (h : between i k s = some u ∨ betweenHeld k s = some u) : Outside s u ∧ s.Sends u :=
  h.elim between_left betweenHeld_left

/-! ## Every input -/

theorem malformed_sent {bytes : List Byte} (ho : s.seqr.op = none) (h : finish (takeMalformed bytes) s = .next t) :
    s.Sent t := by
  have hk := keeps_takeMalformed ((sending_world s).onLine (sending_lineStops s)) (fun _ _ _ hs => hs.raised _) bytes
  obtain ⟨t', ht', hend⟩ | ⟨f, u, -, hf⟩ :=
    finish_ended (closes_unit (fun _ hu => hu.steady.op.trans ho) hk.toReaches) (Sending.refl s)
  · cases h.symm.trans ht'
    exact hend.sent fun _ hu => hu.sends
  · cases h.symm.trans hf

theorem present_sent {port : Port} {bytes : List Byte} (h : present port bytes s = .next t) : s.Sent t := by
  unfold present at h
  split at h
  · exact (exec_outside_sent h).2
  · split at h
    · cases h; exact sent_of_hist rfl
    · cases h; exact sent_of_hist rfl
    · unfold runUnit at h
      split at h
      · next ha => exact malformed_sent (by simpa using (Bool.and_eq_true_iff.1 ha).1) h
      · cases h; exact sent_of_hist rfl
    · cases h; exact sent_of_hist rfl

theorem callerMove_next {u : State} (h : callerMove s u = .next t) : t = u := by
  unfold callerMove at h
  split at h <;> cases h
  rfl

theorem readyInput_outside_sent {level : Bool} (h : readyInput level s = .next t) :
    Outside { s with readyIn := level } t ∧ s.Sent t := by
  unfold readyInput at h
  dsimp only at h
  split at h
  · exact resumeInit_outside_sent h
  · cases h
    exact ⟨Outside.refl _, sent_of_hist rfl⟩

theorem buffer_hist (s : State) (b : Buf) (m : Memory) : (s.withBuffer b m).hist = s.hist := by cases b <;> rfl

theorem takeInput_sent {x : Input} (h : takeInput x s = .next t) : s.Sent t := by
  cases x with
  | present port bytes => exact present_sent h
  | openTransport => exact sent_of_hist (by rw [callerMove_next (s := s) (u := s.setOpen true) h]; rfl)
  | closeTransport | deliver bytes | engineReset => cases h; exact sent_of_hist rfl
  | ready level => exact (readyInput_outside_sent h).2
  | allocate b size =>
    exact sent_of_hist ((congrArg State.hist (callerMove_next (s := s) h)).trans (buffer_hist ..))
  | store b off bytes =>
    simp only [takeInput, storeBuffer] at h
    split at h
    · exact sent_of_hist ((congrArg State.hist (callerMove_next (s := s) h)).trans (buffer_hist ..))
    · cases h
  | read r =>
    simp only [takeInput, viewReg] at h
    split at h
    · cases h
    · split at h <;> cases h
      exact sent_of_hist rfl

/-! ## The obligations -/

/-- Settles O54: the rule of an instruction writes registers, the Transport and the model's own fields only, and an Engine reset
keeps what is outside. -/
theorem buffersNeverWritten : Obligations.BuffersNeverWritten :=
  ⟨fun _ _ _ h => (exec_outside_sent h).1, fun _ _ _ _ h => (between_any_left h).1,
    fun _ _ _ h => (readyInput_outside_sent h).1⟩

/-- Settles O55: between the primitives of a rule the transcript holds whole units, and the one stop that leaves the beginning of
a unit reports `Io`. -/
theorem onlyUnitsAreSent : Obligations.OnlyUnitsAreSent := by
  refine ⟨fun s t h => ?_, fun _ _ _ h => (exec_outside_sent h).2, fun _ _ _ _ h => (between_any_left h).2⟩
  unfold step at h
  split at h
  · cases h
    exact sent_of_hist rfl
  · next rest _ => exact takeInput_sent (s := { s with inputs := rest }) h

end Sys2Proof.Machine
end

section
/-! PROOF. The invariant: the core holds between the primitives of every rule, but where a rule writes the registers of one group
one after the other, and it holds again where the rule ends, fails or is held (R7, R16, R17, R27, R40, R117, R154). -/

namespace Sys2Proof.Machine

variable {i : Instr} {s₀ s t u : State} {k : Nat}

/-! ## While a rule runs -/

/-- While a rule runs, the core holds and the registers of the session stay. -/
structure Going (s₀ s : State) : Prop where
  steady : Steady s₀ s
  core : s.Core

/-- How a rule may stop: with the core, but that an Engine reset may find what `R` says, and a fault is for a unit only. -/
def CoreStop (r : Option Req) (R : State → Prop) : Stop → State → Prop
  | .raised _, s => s.Core
  | .held, s => s.Core ∧ s.Held
  | .reset, s => R s
  | .faulted _, _ => r = none

theorem Going.passed (h : Going s₀ s) : Going s₀ s.passed := by
  have hc := h.core
  refine ⟨h.steady.passed, ?_⟩
  rw [passed_eq]
  exact { hc with }

theorem going_onLine {r : Option Req} {R : State → Prop} (hR : ∀ s, Going s₀ s → R s) :
    OnLine s₀.params (Going s₀) (CoreStop r R) where
  params _ hs := hs.steady.params
  script _ hs := ⟨{ hs.steady with }, { hs.core with }⟩
  passed _ hs := hs.passed
  queue _ _ _ hs := ⟨{ hs.steady with }, { hs.core with }⟩
  log _ _ _ hs := ⟨{ hs.steady with }, { hs.core with }⟩
  sent _ _ _ hs := ⟨{ hs.steady with }, { hs.core with }⟩
  reset _ hs _ := hR _ hs.passed
  io _ hs := hs.core
  short _ _ _ hs := { hs.core with }
  timeout _ hs := hs.core

/-- The sequencer may move where there is a session, and to IDLE everywhere (R16). -/
theorem State.Core.setSeq (h : s.Core) {q : SeqState} (hq : q ≠ .idle → s.seqr.proto.isSome = true) : (s.setSeq q).Core :=
  { h with session := hq }

theorem Going.setSeq (h : Going s₀ s) {q : SeqState} (hq : q ≠ .idle → s₀.seqr.proto.isSome = true) : Going s₀ (s.setSeq q) :=
  ⟨{ h.steady with }, h.core.setSeq fun hn => h.steady.proto ▸ hq hn⟩

theorem State.Core.setPoll (h : s.Core) {n : Nat} (hn : n ≤ Config.g10PollMax) : (s.setPoll n).Core :=
  { h with pollBound := fun _ hm => Option.some.inj hm ▸ hn }

/-- The two CRC registers and their comparison (R154). -/
theorem State.Core.crc (h : s.Core) (dev loc : Half) : (((s.setCrcDev dev).setCrcLocal loc).setCrcOk (loc == dev)).Core :=
  { h with compared := fun _ hb => ⟨loc, dev, rfl, rfl, (Option.some.inj hb).symm⟩ }

/-- A whole signature record (R22 to R27). -/
theorem State.Core.identify (h : s.Core) {d : List Byte} (hd : d.length = 22) : (s.identify d).Core :=
  { h with identified := fun _ => ⟨d, hd, rfl⟩, whole := .inr rfl }

theorem State.Core.openSession (h : s.Core) (proto : Nat) : (s.openSession proto).Core :=
  { h with
    session := fun hn => absurd rfl hn
    identified := fun hv => nomatch hv
    agrees := ⟨rfl, rfl⟩
    whole := .inl rfl }

theorem going_modes (f v : Byte) : ∀ w ∈ modeWrites f v, ∀ s, Going s₀ s → Going s₀ (w s) := by
  intro w hw s hs
  fin_cases hw <;> exact ⟨{ hs.steady with }, { hs.core with }⟩

/-! ## In the middle of a group -/

/-- What an Engine reset may find in the middle of an instruction. -/
def Found (i : Instr) (s₀ u : State) : Prop := s₀.Midway i u ∧ u.seqr.op = i.request

theorem Going.found (h : Going s₀ s) (hop : s₀.seqr.op = i.request) : Found i s₀ s :=
  ⟨{ h.core.toBase with agrees := .inl h.core.agrees, whole := .inl h.core.whole, compared := .inl h.core.compared },
    h.steady.op.trans hop⟩

/-- The identity registers are being written: `ID_VALID` is not set yet (R100). -/
structure Identifying (s₀ s : State) : Prop where
  steady : Steady s₀ s
  base : s.Base
  agrees : s.sessionAgrees
  compared : s.crcCompared
  unread : s.ident.idValid = false

theorem Identifying.found (h : Identifying s₀ s) (hop : s₀.seqr.op = i.request)
    (hi : i = .siliconSignature ∨ i = .reqSignature) : Found i s₀ s :=
  ⟨{ h.base with agrees := .inl h.agrees, whole := .inr (hi.imp id .inl), compared := .inl h.compared },
    h.steady.op.trans hop⟩

theorem identityWrites_split (d : List Byte) : ∃ front, identityWrites d =
    front ++ [fun s : State => { s with ident := { s.ident with idValid := true } }] ∧
    ∀ w ∈ front, ∀ s, Identifying s₀ s → Identifying s₀ (w s) := by
  refine ⟨(identityWrites d).dropLast, rfl, fun w hw s hs => ?_⟩
  have hb := hs.base
  have hw : w ∈ (identityWrites d).take 7 := hw
  fin_cases hw <;>
    exact { hs with steady := { hs.steady with }, base := { hb with identified := fun hv => by cases hs.unread.symm.trans hv } }

/-- Behind any of the identity writes the core holds but for the identity, and behind the last it holds whole. -/
theorem identityWrites_found (hop : s₀.seqr.op = i.request) (hi : i = .siliconSignature ∨ i = .reqSignature)
    (hs : Going s₀ s) (hv : s.ident.idValid = false) {d : List Byte} (hd : d.length = 22) {done : List (State → State)}
    (hp : done <+: identityWrites d) : Found i s₀ (s.wrote done) := by
  obtain ⟨front, hsplit, hfront⟩ := identityWrites_split (s₀ := s₀) d
  rw [hsplit, List.prefix_concat_iff, ← hsplit] at hp
  obtain rfl | hp := hp
  · exact Going.found ⟨{ hs.steady with }, hs.core.identify hd⟩ hop
  · have hstart : Identifying s₀ s := ⟨hs.steady, hs.core.toBase, hs.core.agrees, hs.core.compared, hv⟩
    exact (wrote_keeps (fun w hw => hfront w (hp.subset hw)) hstart).found hop hi

/-- The session's registers are being written (R40): nothing is in the transcript yet. -/
structure Opening (s₀ s : State) : Prop where
  op : s.seqr.op = s₀.seqr.op
  hist : s.hist = s₀.hist
  base : s.Base
  compared : s.crcCompared

theorem Opening.found (h : Opening s₀ s) (hop : s₀.seqr.op = i.request) (hi : i.request = some .init) : Found i s₀ s :=
  ⟨{ h.base with
      agrees := .inr ⟨hi, h.hist⟩, whole := .inr (.inr (.inr ⟨hi, h.hist⟩)), compared := .inl h.compared },
    h.op.trans hop⟩

theorem Opening.until_cleared (proto : Nat) :
    ∀ w ∈ (sessionWrites proto).take 4, ∀ s, Opening s₀ s → Opening s₀ (w s) := by
  intro w hw s hs
  have hb := hs.base
  fin_cases hw
  · exact { hs with base := { hb with session := fun _ => rfl } }
  · exact { hs with base := { hb with } }
  · exact { hs with base := { hb with } }
  · exact { hs with base := { hb with identified := nofun } }

theorem Opening.behind_cleared (proto : Nat) : ∀ w ∈ (sessionWrites proto).drop 4, ∀ s,
    Opening s₀ s ∧ s.ident.idValid = false → Opening s₀ (w s) ∧ (w s).ident.idValid = false := by
  intro w hw s hs
  obtain ⟨hs, hv⟩ := hs
  have hb := hs.base
  have hn : s.ident.idValid = true → False := fun h => by cases hv.symm.trans h
  fin_cases hw
  on_goal 10 => -- the last write puts SEQ at IDLE, where no session is asked for
    exact ⟨{ hs with base := { hb with session := fun h => absurd rfl h } }, hv⟩
  all_goals exact ⟨{ hs with base := { hb with identified := fun h => (hn h).elim } }, hv⟩

/-- Behind any of the session's writes the core holds but for the registers of the session and the identity. -/
theorem sessionWrites_found (hop : s₀.seqr.op = i.request) (hi : i.request = some .init) (hs : Opening s₀ s) {proto : Nat}
    {done : List (State → State)} (hp : done <+: sessionWrites proto) : Found i s₀ (s.wrote done) := by
  obtain ⟨rest, hrest⟩ := hp
  have hdone : done = done.take 4 ++ done.drop 4 := (List.take_append_drop 4 done).symm
  have hfront : Opening s₀ (s.wrote (done.take 4)) :=
    wrote_keeps (fun w hw => Opening.until_cleared proto w (by
      rw [← hrest, List.take_append]
      exact List.mem_append_left _ hw)) hs
  by_cases hl : done.length ≤ 4
  · rw [List.take_of_length_le hl] at hfront
    exact hfront.found hop hi
  · have hcleared : (s.wrote (done.take 4)).ident.idValid = false := by
      have h4 : done.take 4 = (sessionWrites proto).take 4 := by
        rw [← hrest, List.take_append_of_le_length (by omega)]
      rw [h4]
      rfl
    have hback := wrote_keeps (fs := done.drop 4) (fun w hw => Opening.behind_cleared proto w (by
      rw [← hrest, List.drop_append_of_le_length (by omega)]
      exact List.mem_append_left _ hw)) ⟨hfront, hcleared⟩
    rw [← wrote_append, ← hdone] at hback
    exact hback.1.found hop hi

/-! ## The rule of every instruction but INIT -/

/-- While a rule runs that has yet to write the identity registers, they are not valid (R27, R100). -/
structure Unread (i : Instr) (s₀ s : State) : Prop extends Going s₀ s where
  unread : i.mayWrite .identity = true → s.ident.idValid = false

theorem Unread.passed (h : Unread i s₀ s) : Unread i s₀ s.passed where
  toGoing := h.toGoing.passed
  unread hi := by
    rw [passed_eq]
    exact h.unread hi

theorem unread_onLine (hop : s₀.seqr.op = i.request) :
    OnLine s₀.params (Unread i s₀) (CoreStop i.request (Found i s₀)) where
  params _ hs := hs.steady.params
  script _ hs := ⟨⟨{ hs.steady with }, { hs.core with }⟩, hs.unread⟩
  passed _ hs := hs.passed
  queue _ _ _ hs := ⟨⟨{ hs.steady with }, { hs.core with }⟩, hs.unread⟩
  log _ _ _ hs := ⟨⟨{ hs.steady with }, { hs.core with }⟩, hs.unread⟩
  sent _ _ _ hs := ⟨⟨{ hs.steady with }, { hs.core with }⟩, hs.unread⟩
  reset _ hs _ := hs.passed.toGoing.found hop
  io _ hs := hs.core
  short _ _ _ hs := { hs.core with }
  timeout _ hs := hs.core

theorem unread_onRule (hop : s₀.seqr.op = i.request)
    (hseq : i.mayWrite .seq = true → i.request ≠ some .resetAndRun → s₀.seqr.proto.isSome = true) :
    OnRule i s₀ (Unread i s₀) (Going s₀) (CoreStop i.request (Found i s₀)) where
  toOnLine := unread_onLine hop
  lands _ hs := hs.toGoing
  steady _ hs := hs.steady
  raised _ _ _ hs := hs.core
  fault hi _ _ _ := hi
  status _ _ _ hs := ⟨⟨{ hs.steady with }, { hs.core with }⟩, hs.unread⟩
  notBlank _ _ _ hs := ⟨⟨{ hs.steady with }, { hs.core with }⟩, hs.unread⟩
  cksum _ _ _ hs := ⟨⟨{ hs.steady with }, { hs.core with }⟩, hs.unread⟩
  modes _ _ _ w hw _ hs := by fin_cases hw <;> exact ⟨⟨{ hs.steady with }, { hs.core with }⟩, hs.unread⟩
  identity hid hi d hd := by
    have hsig : i = .siliconSignature ∨ i = .reqSignature := by
      cases i with
      | siliconSignature => exact .inl rfl
      | reqSignature => exact .inr rfl
      | reqInit => exact absurd rfl hi
      | _ => cases hid
    exact group_reaches (fun _ hs => hs.passed) (identityWrites_aside d)
      (fun _ hs => ⟨{ hs.steady with }, hs.core.identify hd⟩) fun _ _ hs hp =>
        identityWrites_found hop hsig hs.toGoing (hs.unread hid) hd hp
  frame _ _ _ hs := ⟨⟨{ hs.steady with }, { hs.core with }⟩, hs.unread⟩
  region _ _ _ _ _ w hw _ hs := by fin_cases hw <;> exact ⟨⟨{ hs.steady with }, { hs.core with }⟩, hs.unread⟩
  block _ _ _ hs := ⟨⟨⟨{ hs.steady with }, { hs.core with }⟩, hs.unread⟩, ⟨⟨{ hs.steady with }, { hs.core with }⟩, hs.unread⟩⟩
  emit _ _ _ hs := ⟨⟨{ hs.steady with }, { hs.core with }⟩, hs.unread⟩
  resp _ _ _ _ w hw _ hs := by fin_cases hw <;> exact ⟨⟨{ hs.steady with }, { hs.core with }⟩, hs.unread⟩
  pollCnt _ _ _ hn hs := ⟨⟨{ hs.steady with }, hs.core.setPoll hn⟩, hs.unread⟩
  widx _ _ _ hs := ⟨⟨{ hs.steady with }, { hs.core with }⟩, hs.unread⟩
  crc hi dev size hsize := by
    have hcrc {s : State} (hs : Unread i s₀ s) (loc : Option Half) : Found i s₀ { s with g10 :=
        { s.g10 with crcDev := some dev, crcLocal := loc } } :=
      ⟨{ hs.core.toBase with agrees := .inl hs.core.agrees, whole := .inl hs.core.whole, compared := .inr hi },
        hs.steady.op.trans hop⟩
    exact keeps_crcGroup (unread_onLine hop) (.inl fun _ hs => hs.steady.code ▸ hsize)
      (fun _ loc hs => ⟨⟨{ hs.steady with }, hs.core.crc dev loc⟩, hs.unread⟩) (fun s hs => hcrc hs s.g10.crcLocal)
      (fun _ loc hs => hcrc hs (some loc)) fun _ hs => hs.core
  seq hq _ q hrun hs := by
    refine ⟨hs.toGoing.setSeq fun hn => hseq hq fun hr => hn (hrun hr), hs.unread⟩
  short' _ _ _ _ hs :=
    have hc := hs.core.setSeq (q := .idle) fun hn => absurd rfl hn
    { hc with }
  link _ _ _ hs := ⟨⟨⟨{ hs.steady with }, { hs.core with }⟩, hs.unread⟩, ⟨⟨{ hs.steady with }, { hs.core with }⟩, hs.unread⟩⟩
  lines _ _ b hs := ⟨⟨⟨hs.steady.drive .reset b, { hs.core with }⟩, hs.unread⟩,
    ⟨⟨hs.steady.driven .reset b, { hs.core with }⟩, hs.unread⟩⟩
  wiring _ _ _ hs := ⟨⟨{ hs.steady with }, { hs.core with }⟩, hs.unread⟩

/-! ## INIT and the rest of a held one -/

theorem going_onInit {r : Option Req} {R : State → Prop} (hR : ∀ s, Going s₀ s → R s) (hready : ReadyToShake s₀)
    (hp : s₀.seqr.proto.isSome = true) : OnInit s₀ (Going s₀) (CoreStop r R) where
  toOnLine := going_onLine hR
  rate _ _ hs := ⟨{ hs.steady with }, { hs.core with }⟩
  parity _ _ hs := ⟨{ hs.steady with }, { hs.core with }⟩
  drive _ sig b hs := ⟨hs.steady.drive sig b, by cases sig <;> exact { hs.core with }⟩
  driven _ sig b hs := ⟨hs.steady.driven sig b, by cases sig <;> exact { hs.core with }⟩
  linkBaud _ _ hs := ⟨{ hs.steady with }, { hs.core with }⟩
  steady _ hs := hs.steady
  status _ _ hs := ⟨{ hs.steady with }, { hs.core with }⟩
  modes := going_modes
  seq _ _ hs := hs.setSeq fun _ => hp
  failed _ _ _ hs := (hs.setSeq fun hn => absurd rfl hn).core
  cut _ _ _ _ _ hs :=
    have hc := (hs.setSeq (q := .idle) fun hn => absurd rfl hn).core
    { hc with }
  ready := .inl hready

/-- Step 1 done, a delayed start holds as the invariant says (R117). -/
theorem Holding.held (h : Holding (Going s₀) s) (hop : s₀.seqr.op = some .init) (hp : s₀.seqr.proto.isSome = true)
    {rate mv : Nat} (hr : s₀.args.targetBaud = some rate) (hv : s₀.args.voltageMv = some mv) (hok : rateOk rate mv s₀ = true) :
    s.Held where
  op := h.kept.steady.op.trans hop
  seq := h.seq
  delayed := h.delayed
  notReady := h.notReady
  proto := h.kept.steady.proto ▸ hp
  resetLow := h.resetLow
  clockLow := h.clockLow
  rate := ⟨rate, mv, by rw [h.kept.steady.args, hr], by rw [h.kept.steady.args, hv], by
    rw [rateOk, h.kept.steady.params]
    exact hok⟩

/-- What INIT has latched and opened before its handshake (R34, R40). -/
theorem readyToShake_openSession {proto rate mv verbose : Nat} {delayed : Bool} (ha : rateOk rate mv s = true) :
    ReadyToShake ((started (.reqInit proto rate mv delayed verbose) s).openSession proto) :=
  ⟨⟨rate, rfl, (Bool.and_eq_true_iff.1 ha).1⟩, rfl, rfl, rfl⟩

/-- The registers of a session that has not begun yet (R40). -/
theorem going_openSession (proto : Nat) (hs : Going s₀ s) : Going (s₀.openSession proto) (s.openSession proto) :=
  ⟨{ hs.steady with
      proto := rfl
      variant := congrArg (fun p => some (Params.variantOf p proto)) hs.steady.params
      blockSz := congrArg (fun p => some (Params.blockSize p proto)) hs.steady.params },
    hs.core.openSession proto⟩

/-- INIT before anything has entered the transcript. -/
def Unopened (s₀ s : State) : Prop := Going s₀ s ∧ s.hist = s₀.hist

theorem Unopened.opening (h : Unopened s₀ s) : Opening s₀ s := ⟨h.1.steady.op, h.2, h.1.core.toBase, h.1.core.compared⟩

theorem init_going {proto rate mv verbose : Nat} {delayed : Bool} (hi : i = .reqInit proto rate mv delayed verbose)
    (hs₀ : s₀ = started i s) (ho : s.seqr.op = none) (ha : accepts i s = true) :
    Reaches (Unopened s₀) (Going (s₀.openSession proto)) (CoreStop i.request (Found i s₀)) (body i) := by
  subst hi
  have hop : s₀.seqr.op = some .init := hs₀ ▸ started_op ho
  have hfound (u : State) (hu : Going (s₀.openSession proto) u) : Found (.reqInit proto rate mv delayed verbose) s₀ u :=
    ⟨{ hu.core.toBase with agrees := .inl hu.core.agrees, whole := .inl hu.core.whole, compared := .inl hu.core.compared },
      hu.steady.op.trans hop⟩
  have hsession : Reaches (Unopened s₀) (fun u => Going (s₀.openSession proto) u ∧ u.seqr.seq = .idle)
      (CoreStop (some .init) (Found (.reqInit proto rate mv delayed verbose) s₀))
      (writes (sessionWrites proto)) :=
    group_reaches (fun _ hs => ⟨hs.1.passed, by rw [passed_eq]; exact hs.2⟩) (sessionWrites_aside proto)
      (fun _ hs => by rw [wrote_session]; exact ⟨going_openSession proto hs.1, rfl⟩) fun _ _ hs hp => sessionWrites_found hop rfl hs.opening hp
  refine init_reaches (going_onInit hfound ?_ rfl) (fun u hu => ⟨hu.kept.core, ?_⟩) hsession
  · exact hs₀ ▸ readyToShake_openSession ha
  · subst hs₀
    exact hu.held hop rfl rfl rfl ha

/-! ## Every instruction -/

theorem going_closing (hop : s₀.seqr.op = i.request) (hfound : ∀ u, Going s₀ u → Found i t u) :
    Closing i (Going s₀) (CoreStop i.request (Found i t)) where
  op _ hs := hs.steady.op.trans hop
  passed _ hs := hs.passed
  reset _ hs _ := hfound _ hs.passed

/-- The rule of an instruction that is taken, from where it starts. -/
theorem going_ruleOf (hs₀ : s₀ = started i s) (hinv : s.Inv) (ho : s.seqr.op = none) (ha : accepts i s = true) :
    ∃ I J : State → Prop, Reaches I (fun t => ∃ u, J u ∧ t = u.endRequest) (CoreStop i.request (Found i s₀)) (ruleOf i) ∧
      (∀ u, J u → u.Core) ∧ I s₀ ∧ ∀ k, I (s₀.resetAfter k) := by
  have hop : s₀.seqr.op = i.request := hs₀ ▸ started_op ho
  have hcore : s₀.Core := by
    have hc := hinv.1
    subst hs₀
    cases i <;> exact { hc with }
  have hgoing : Going s₀ s₀ := ⟨Steady.refl _, hcore⟩
  have hafter (k : Nat) : Going s₀ (s₀.resetAfter k) := ⟨{ Steady.refl s₀ with }, { hcore with }⟩
  by_cases hi : i.request = some .init
  · cases i with
    | reqInit proto rate mv delayed verbose =>
      have hfound (u : State) (hu : Going (s₀.openSession proto) u) : Found (.reqInit proto rate mv delayed verbose) s₀ u :=
        ⟨{ hu.core.toBase with agrees := .inl hu.core.agrees, whole := .inl hu.core.whole, compared := .inl hu.core.compared },
          hu.steady.op.trans hop⟩
      exact ⟨_, _, ruleOf_reaches (going_closing (s₀ := s₀.openSession proto) hop hfound) (init_going rfl hs₀ ho ha),
        fun _ hu => hu.core, ⟨hgoing, rfl⟩, fun k => ⟨hafter k, rfl⟩⟩
    | _ => cases hi
  · have hseq : i.mayWrite .seq = true → i.request ≠ some .resetAndRun → s₀.seqr.proto.isSome = true := by
      intro hq hrun
      have hsession := hinv.1.session
      cases i with
      | sync | g10ModeSet =>
        subst hs₀
        obtain ⟨-, hsyncing⟩ := Bool.and_eq_true_iff.1 ha
        exact hsession (by rw [eq_of_beq hsyncing]; decide)
      | reqInit => exact absurd rfl hi
      | reqResetAndRun => exact absurd rfl hrun
      | _ => cases hq
    have hunread : i.mayWrite .identity = true → s₀.ident.idValid = false := by
      intro hid
      cases i with
      | siliconSignature | reqSignature =>
        subst hs₀
        obtain ⟨-, hv⟩ := Bool.and_eq_true_iff.1 ha
        exact Bool.not_eq_true' _ ▸ hv
      | reqInit => exact absurd rfl hi
      | _ => cases hid
    exact ⟨_, _, ruleOf_reaches (going_closing hop fun _ hu => hu.found hop)
      ((unread_onRule hop hseq).body_reaches hs₀ ha hi), fun _ hu => hu.core, ⟨hgoing, hunread⟩, fun k => ⟨hafter k, hunread⟩⟩

/-! ## What an instruction leaves -/

/-- The invariant holds after a reset, whatever the buffers hold in their canonical form. -/
theorem inv_engineReset (hc : s.code.wf = true) (hd : s.data.wf = true) : s.engineReset.Inv :=
  ⟨{ codeWf := hc, dataWf := hd
     session := fun hn => absurd rfl hn
     identified := nofun
     pollBound := nofun
     agrees := ⟨rfl, rfl⟩
     whole := .inl rfl
     compared := nofun }, .inl rfl⟩

theorem inv_ended {J R : State → Prop} (hJ : ∀ u, J u → u.Core) (hR : ∀ u, R u → u.Base)
    {r : Option Req} (h : Ended J (CoreStop r R) t) : t.Inv := by
  cases h with
  | done u hu =>
    have hc := hJ u hu
    exact ⟨{ hc with }, .inl rfl⟩
  | raised e u hu =>
    have hc : u.Core := hu
    exact ⟨{ hc with }, .inl rfl⟩
  | held u hu => exact ⟨hu.1, .inr hu.2⟩
  | reset u hu => exact inv_engineReset (hR u hu).codeWf (hR u hu).dataWf

/-- A refusal writes `ERR` and `ERR_OP` only (R79). -/
theorem inv_refused (h : s.Inv) (e : ErrRegs) : ({ s with err := e } : State).Inv := by
  obtain ⟨hc, ho⟩ := h
  exact ⟨{ hc with }, ho.imp id fun hh => { hh with }⟩

theorem inv_turnAway (h : s.Inv) (i : Instr) : (s.turnAway i).Inv := by
  unfold State.turnAway
  cases i.request <;> exact inv_refused h _

theorem exec_inv (hinv : s.Inv) (h : exec i s = .next t) : t.Inv := by
  by_cases hacc : s.seqr.op = none ∧ accepts i s = true
  · obtain ⟨I, J, hrule, hJ, hI, -⟩ := going_ruleOf rfl hinv hacc.1 hacc.2
    obtain rfl | hend := exec_ended (fun _ _ => hrule) hI h
    · exact inv_turnAway hinv i
    · exact inv_ended hJ (fun u hu => hu.1.toBase) hend
  · rw [exec_turned_away hacc] at h
    cases h
    exact inv_turnAway hinv i

/-- A request finds everything it reads (R41, R45). -/
theorem exec_request_ends {r : Req} (hinv : s.Inv) (hr : i.request = some r) : ∃ t, exec i s = .next t := by
  by_cases hacc : s.seqr.op = none ∧ accepts i s = true
  · obtain ⟨I, J, hrule, -, hI, -⟩ := going_ruleOf rfl hinv hacc.1 hacc.2
    rw [exec_taken hacc.1 hacc.2]
    obtain ⟨t, ht, -⟩ | ⟨f, u, hf, -⟩ := finish_ended hrule hI
    · exact ⟨t, ht⟩
    · cases hr.symm.trans hf
  · exact ⟨_, exec_turned_away hacc⟩

theorem between_midway (hinv : s.Inv) (h : between i k s = some u) : s.Midway i u ∧ u.seqr.op = i.request := by
  obtain ⟨ho, ha, hr⟩ := between_reset h
  obtain ⟨I, J, hrule, -, -, hI⟩ := going_ruleOf rfl hinv ho ha
  have hk := hrule _ (hI k)
  rw [hr] at hk
  obtain ⟨hm, hop⟩ : Found i (started i s) u := hk
  have hhist := (started_left i s).2
  exact ⟨{ hm with
    agrees := hm.agrees.imp id fun ha => ⟨ha.1, ha.2.trans hhist⟩
    whole := hm.whole.imp id fun hw => hw.imp id fun hw => hw.imp id fun hw => ⟨hw.1, hw.2.trans hhist⟩ }, hop⟩

/-! ## A held INIT that goes on -/

theorem readyToShake_of_held (hc : s.Core) (hh : s.Held) : ReadyToShake s := by
  obtain ⟨rate, mv, hr, hm, hok⟩ := hh.rate
  refine ⟨⟨rate, hr, (Bool.and_eq_true_iff.1 hok).1⟩, by rw [hm]; rfl, by rw [hh.delayed]; rfl, ?_⟩
  rw [hc.agrees.1, Option.isSome_map]
  exact hh.proto

/-- The rest of a held INIT keeps the core between all its primitives. -/
theorem resume_going (hready : ReadyToShake s) (hp : s.seqr.proto.isSome = true) (hop : s.seqr.op = some .init) :
    Reaches (Going s) (fun t => ∃ u, Going s u ∧ t = u.endRequest)
      (CoreStop (some .init) fun u => u.Core ∧ u.seqr.op = some .init) (do initTail; primitive State.endRequest) := by
  have h := going_onInit (r := some .init) (R := fun u => u.Core ∧ u.seqr.op = some .init)
    (fun u (hu : Going s u) => ⟨hu.core, hu.steady.op.trans hop⟩) hready hp
  exact h.keeps_tail.reaches fun _ => primitive_reaches h.toOnLine fun u hu => ⟨u, hu, rfl⟩

theorem resumeInit_inv (hc : s.Core) (hready : ReadyToShake s) (hp : s.seqr.proto.isSome = true)
    (hop : s.seqr.op = some .init) (h : resumeInit s = .next t) : t.Inv := by
  obtain ⟨t', ht', hend⟩ | ⟨f, u, hf, -⟩ := finish_ended (resume_going hready hp hop) ⟨Steady.refl s, hc⟩
  · cases h.symm.trans ht'
    exact inv_ended (fun u hu => hu.core) (fun u hu => hu.1.toBase) hend
  · cases hf

theorem betweenHeld_core (hc : s.Core) (hready : ReadyToShake s) (hp : s.seqr.proto.isSome = true)
    (hop : s.seqr.op = some .init) (h : betweenHeld k s = some u) : u.Core ∧ u.seqr.op = some .init := by
  have hk := resume_going hready hp hop (s.resetAfter k) ⟨{ Steady.refl s with }, { hc with }⟩
  rwa [stateAfter_reset h] at hk

/-! ## Every input -/

theorem readyInput_inv {level : Bool} (hinv : s.Inv) (h : readyInput level s = .next t) : t.Inv := by
  obtain ⟨hc, hop⟩ := hinv
  unfold readyInput at h
  dsimp only at h
  split at h
  · next hl =>
    obtain ⟨-, hinit⟩ := Bool.and_eq_true_iff.1 hl
    have hop' : s.seqr.op = some .init := eq_of_beq hinit
    have hh : s.Held := hop.resolve_left (by simp [hop'])
    have hr := readyToShake_of_held hc hh
    exact resumeInit_inv (s := { s with readyIn := level }) { hc with } { hr with } hh.proto hop' h
  · next hl =>
    cases h
    refine ⟨{ hc with }, hop.imp id fun hh => { hh with notReady := ?_ }⟩
    rw [hh.op] at hl
    simpa using hl

theorem malformed_inv {bytes : List Byte} (hinv : s.Inv) (ho : s.seqr.op = none)
    (h : finish (takeMalformed bytes) s = .next t) : t.Inv := by
  have hk := keeps_takeMalformed (going_onLine (r := none) (s₀ := s) (R := State.Core) fun _ hs => hs.core)
    (fun _ _ _ hs => hs.core) bytes
  obtain ⟨t', ht', hend⟩ | ⟨f, u, -, hf⟩ :=
    finish_ended (closes_unit (fun _ hu => hu.steady.op.trans ho) hk.toReaches) ⟨Steady.refl s, hinv.1⟩
  · cases h.symm.trans ht'
    exact inv_ended (fun u hu => hu.core) (fun u hu => hu.toBase) hend
  · cases h.symm.trans hf

theorem present_inv {port : Port} {bytes : List Byte} (hinv : s.Inv) (h : present port bytes s = .next t) : t.Inv := by
  unfold present at h
  split at h
  · exact exec_inv hinv h
  · split at h
    · cases h; exact inv_refused hinv _
    · cases h; exact hinv
    · unfold runUnit at h
      split at h
      · next ha => exact malformed_inv hinv (by simpa using (Bool.and_eq_true_iff.1 ha).1) h
      · cases h; exact inv_refused hinv _
    · cases h; exact inv_refused hinv _

/-- The Caller's move on a buffer keeps its canonical form (R36). -/
theorem inv_withBuffer (hinv : s.Inv) (b : Buf) {m : Memory} (hm : m.wf = true) : (s.withBuffer b m).Inv := by
  obtain ⟨hc, hop⟩ := hinv
  cases b
  · exact ⟨{ hc with codeWf := hm }, hop.imp id fun hh => { hh with }⟩
  · exact ⟨{ hc with dataWf := hm }, hop.imp id fun hh => { hh with }⟩

theorem State.Base.bufferWf (h : s.Base) (b : Buf) : (s.buffer b).wf = true := by
  cases b
  · exact h.codeWf
  · exact h.dataWf

theorem takeInput_inv {x : Input} (hinv : s.Inv) (h : takeInput x s = .next t) : t.Inv := by
  obtain ⟨hc, hop⟩ := hinv
  cases x with
  | present port bytes => exact present_inv ⟨hc, hop⟩ h
  | openTransport =>
    rw [callerMove_next (s := s) (u := s.setOpen true) h]
    exact ⟨{ hc with }, hop.imp id fun hh => { hh with }⟩
  | closeTransport | deliver bytes =>
    cases h
    exact ⟨{ hc with }, hop.imp id fun hh => { hh with }⟩
  | engineReset =>
    cases h
    exact inv_engineReset hc.codeWf hc.dataWf
  | ready level => exact readyInput_inv ⟨hc, hop⟩ h
  | allocate b size =>
    rw [callerMove_next (s := s) (u := s.withBuffer b (Memory.filled size)) h]
    exact inv_withBuffer ⟨hc, hop⟩ b (wf_filled size)
  | store b off bytes =>
    simp only [takeInput, storeBuffer] at h
    split at h
    · next m hm =>
      rw [callerMove_next h]
      exact inv_withBuffer ⟨hc, hop⟩ b (wf_write (hc.toBase.bufferWf b) hm)
    · cases h
  | read r =>
    simp only [takeInput, viewReg] at h
    split at h
    · cases h
    · split at h <;> cases h
      exact ⟨{ hc with }, hop.imp id fun hh => { hh with }⟩

theorem step_inv (hinv : s.Inv) (h : step s = .next t) : t.Inv := by
  unfold step at h
  split at h
  · cases h
    exact hinv
  · next rest _ =>
    obtain ⟨hc, hop⟩ := hinv
    exact takeInput_inv (s := { s with inputs := rest }) ⟨{ hc with }, hop.imp id fun hh => { hh with }⟩ h

/-! ## The obligations -/

/-- Settles O51: after a reset no register holds a value and the buffers are empty. -/
theorem invAtReset : Obligations.InvAtReset := fun p => inv_engineReset (s := State.resetWith p) rfl rfl

/-- Settles O52: every rule keeps the core, but for the registers of the group it is writing, and an instruction ends with no
request in progress or at the hold. -/
theorem stepKeepsInv : Obligations.StepKeepsInv := by
  refine ⟨fun _ _ hinv h => step_inv hinv h, fun _ _ _ _ hinv h => between_midway hinv h, fun k s u hinv hh h => ?_⟩
  have hc := hinv.1
  have hr := readyToShake_of_held hc hh
  exact betweenHeld_core (s := { s with readyIn := true }) { hc with } { hr with } hh.proto hh.op h

/-- Settles O53: what a request needs is what its precondition and the invariant give, so that only a unit can fault. -/
theorem everyRequestEnds : Obligations.EveryRequestEnds := by
  intro i r s hinv hr
  obtain ⟨t, ht⟩ := exec_request_ends hinv hr
  exact ⟨t, ht, (exec_inv hinv ht).2⟩

end Sys2Proof.Machine
end

section
/-! PROOF. What stands in the error registers after a request during which nothing else happens: exactly what its kind records
(R157), and no codec error in the whole-image variant (R155). -/

namespace Sys2Proof.Machine

variable {i : Instr} {s₀ s t u : State}

/-! ## While nothing else happens -/

/-- A request runs, no other arrives and no reset happens, and no error is taken yet. -/
structure Alone (s₀ s : State) : Prop where
  steady : Steady s₀ s
  undisturbed : s.undisturbed
  err : s.err = {}

theorem Alone.passed (h : Alone s₀ s) : Alone s₀ s.passed := by
  refine ⟨h.steady.passed, ?_, ?_⟩
  · rw [passed_undisturbed h.undisturbed]
    exact fun m hm => h.undisturbed m (List.mem_of_mem_tail hm)
  · rw [passed_undisturbed h.undisturbed]
    exact h.err

theorem Alone.started (i : Instr) {r : Req} (hi : i.request = some r) (hu : s.undisturbed) :
    Alone (started i s) (started i s) := by
  refine ⟨Steady.refl _, ?_, ?_⟩
  · cases i <;> exact hu
  · cases i with
    | reqInit | reqResetCmd | reqSetBaud | reqSetLinkBaud | reqSignature | reqBlockErase | reqBlankCheck | reqChecksum
    | reqBlockProgram | reqBlockVerify | reqRegion | reqG10EraseWrite | reqG10CrcCheck | reqResetAndRun => rfl
    | _ => cases hi

theorem alone_world (s₀ : State) : World s₀ (Alone s₀) where
  steady _ hs := hs.steady
  alike _ _ ha hs := ⟨ha.steady hs.steady, by rw [State.undisturbed, ha.moments]; exact hs.undisturbed, ha.err.trans hs.err⟩
  passed _ hs := hs.passed
  log _ _ _ hs := ⟨{ hs.steady with }, hs.undisturbed, hs.err⟩
  sent _ _ _ hs := ⟨{ hs.steady with }, hs.undisturbed, hs.err⟩

/-- How a rule may stop alone: with an error that `P` allows, or at the hold. -/
def AloneStop (P : Err → Prop) (s₀ : State) : Stop → State → Prop
  | .raised e, s => P e ∧ Steady s₀ s
  | .held, s => s.err = {}
  | .reset, _ => False
  | .faulted _, _ => True

variable {P : Err → Prop}

theorem alone_lineStops (hio : P { kind := .io }) (htime : P { kind := .timeout }) (s₀ : State) :
    LineStops s₀ (Alone s₀) (AloneStop P s₀) where
  reset _ hs hr := by cases (not_reset_of_undisturbed hs.undisturbed).symm.trans hr
  io _ hs := ⟨hio, hs.steady⟩
  short _ _ _ hs := ⟨hio, { hs.steady with }⟩
  timeout _ hs := ⟨htime, hs.steady⟩

theorem alone_ruleStops (i : Instr) (s₀ : State) : RuleStops i s₀ (Alone s₀) (AloneStop Err.Informed s₀) where
  reset := (alone_lineStops (informed_bare rfl) (informed_bare rfl) s₀).reset
  raised _ _ he hs := ⟨he, hs.steady⟩
  cut _ _ _ he _ hs :=
    ⟨he.elim (fun h => h ▸ informed_bare rfl) fun h => h ▸ informed_wrapError (.inl rfl) _, { hs.steady with }⟩
  fault _ _ _ _ := trivial

theorem alone_initStops (s₀ : State) : InitStops s₀ (Alone s₀) (AloneStop Err.Informed s₀) where
  toLineStops := alone_lineStops (informed_bare rfl) (informed_bare rfl) s₀
  failed _ _ he hs _ := ⟨he.informed, hs.steady⟩
  cut _ hk _ _ _ hs _ := ⟨informed_wrapError (hk.imp id And.left) _, { hs.steady with }⟩
  ready := .inr ⟨fun _ _ _ => trivial, fun _ hs => ⟨informed_wrapError (.inr rfl) _, hs.steady⟩⟩

theorem alone_sessionWrites {E : Stop → State → Prop} (s₀ : State) (proto : Nat) :
    Reaches (Alone s₀) (fun s => Alone (s₀.openSession proto) s ∧ s.seqr.seq = .idle) E (writes (sessionWrites proto)) :=
  writes_reaches (sessionWrites_aside proto) (fun _ hs => hs.undisturbed) (fun _ hs => hs.passed) fun s hs => by
    rw [wrote_session]
    exact ⟨⟨{ hs.steady with
      proto := rfl
      variant := congrArg (fun p => some (Params.variantOf p proto)) hs.steady.params
      blockSz := congrArg (fun p => some (Params.blockSize p proto)) hs.steady.params }, hs.undisturbed, hs.err⟩, rfl⟩

/-- Alone, a request ends without an error, or with one that carries what its kind records. -/
theorem alone_body (hs₀ : s₀ = started i s) (ha : accepts i s = true) :
    ∃ s₁, Reaches (Alone s₀) (Alone s₁) (AloneStop Err.Informed s₁) (body i) ∧ s₁.seqr.op = s₀.seqr.op := by
  by_cases hi : i.request = some .init
  · cases i with
    | reqInit proto rate mv delayed verbose =>
      exact ⟨s₀.openSession proto, init_reaches ((alone_world _).onInit (alone_initStops _)) (fun _ hh => hh.kept.err)
        (alone_sessionWrites s₀ proto), rfl⟩
    | _ => cases hi
  · exact ⟨s₀, ((alone_world s₀).onRule (alone_ruleStops i s₀)).body_reaches hs₀ ha hi, rfl⟩

theorem alone_closing (hop : s₀.seqr.op = i.request) : Closing i (Alone s₀) (AloneStop P s₀) where
  op _ hs := hs.steady.op.trans hop
  passed _ hs := hs.passed
  reset _ hs hr := by cases (not_reset_of_undisturbed hs.undisturbed).symm.trans hr

/-- How a request that is taken ends when nothing else happens. -/
theorem ended_alone {r : Req} {s₁ : State} (hop : s₁.seqr.op = some r) (h : Ended (Alone s₁) (AloneStop P s₁) t)
    (hne : t.err ≠ {}) : ∃ e, P e ∧
      t.err = { kind := e.kind, status := e.status, addr := e.addr, cause := e.cause, op := some r.code } := by
  cases h with
  | done u hu => exact absurd hu.err hne
  | raised e u hu => exact ⟨e, hu.1, by rw [takeError_eq, hu.2.op, hop]; rfl⟩
  | held u hu => exact absurd hu hne
  | reset u hu => exact hu.elim

/-! ## The obligations -/

theorem turnAway_request {r : Req} (hi : i.request = some r) : s.turnAway i = s.refuse r.code := by
  rw [State.turnAway, hi]

/-- Settles O42: every error a rule raises carries what its kind records, and `ERR_OP` takes the code of the request. -/
theorem errorInformation : Obligations.ErrorInformation := by
  intro i r s t hi ho hu h hbad hne
  have hop : (started i s).seqr.op = some r := (started_op ho).trans hi
  by_cases ha : accepts i s = true
  · obtain ⟨s₁, hbody, hop₁⟩ := alone_body rfl ha
    have hrule := ruleOf_reaches (alone_closing (hop₁.trans (started_op ho))) hbody
    obtain rfl | hend := exec_ended (fun _ _ => hrule) (Alone.started i hi hu) h
    · exact absurd (by rw [turnAway_request hi]; rfl) hbad
    · obtain ⟨e, he, herr⟩ := ended_alone (hop₁.trans hop) hend hne
      rw [herr]
      exact ⟨rfl, he.addr, he.cause, he.needsStatus, he.mayHaveStatus⟩
  · rw [exec_refused hi (by simpa using ha)] at h
    cases h
    exact absurd rfl hbad

/-- The kinds the codec raises (R89). -/
def NoCodec (e : Err) : Prop := e.kind ≠ .formatError ∧ e.kind ≠ .lengthMismatch ∧ e.kind ≠ .checksumError

theorem alone_onImage (s₀ : State) : OnImage s₀.params (Alone s₀) (AloneStop NoCodec s₀) where
  toOnLine := (alone_world s₀).onLine (alone_lineStops ⟨nofun, nofun, nofun⟩ ⟨nofun, nofun, nofun⟩ s₀)
  resp a b c := keeps_writes ((alone_world s₀).onLine (alone_lineStops ⟨nofun, nofun, nofun⟩ ⟨nofun, nofun, nofun⟩ s₀)) fun w hw s hs => by
    fin_cases hw <;> exact ⟨{ hs.steady with }, hs.undisturbed, hs.err⟩
  pollCnt _ _ _ hs := ⟨{ hs.steady with }, hs.undisturbed, hs.err⟩
  widx _ _ hs := ⟨{ hs.steady with }, hs.undisturbed, hs.err⟩
  sizeStop _ _ hs := ⟨⟨nofun, nofun, nofun⟩, hs.steady⟩
  wordStop _ _ hs := ⟨⟨nofun, nofun, nofun⟩, hs.steady⟩

/-- Neither whole-image rule decodes a frame (R155). -/
theorem imageBody_noCodec {size : Nat} (hi : i = .reqG10EraseWrite size ∨ i = .reqG10CrcCheck size)
    (hz : size ≤ s₀.code.size) : Keeps (Alone s₀) (AloneStop NoCodec s₀) (body i) := by
  have h := alone_onImage s₀
  have hb (s : State) (hs : Alone s₀ s) : size ≤ s.code.size := hs.steady.code ▸ hz
  obtain rfl | rfl := hi
  · exact keeps_eraseWriteBody h hb
  · exact keeps_crcCheckBody h fun dev => keeps_crcRegisters h.toOnLine (.inl hb)
      (fun _ hs => ⟨{ hs.steady with }, hs.undisturbed, hs.err⟩) (fun _ _ hs => ⟨{ hs.steady with }, hs.undisturbed, hs.err⟩)
      (fun _ _ hs => ⟨{ hs.steady with }, hs.undisturbed, hs.err⟩) fun _ hs => ⟨⟨nofun, nofun, nofun⟩, hs.steady⟩

theorem imageOk_of_accepts {size : Nat} (hi : i = .reqG10EraseWrite size ∨ i = .reqG10CrcCheck size)
    (ha : accepts i s = true) : size ≤ s.code.size := by
  obtain rfl | rfl := hi <;> simp only [accepts, wordsReady, imageReady, imageOk, Bool.and_eq_true, decide_eq_true_eq] at ha
  · exact ha.1.2
  · exact ha.2

/-- Settles O43: the two whole-image requests raise `Io`, `Timeout` and the errors of their own checks. -/
theorem noCodecErrorInG10 : Obligations.NoCodecErrorInG10 := by
  intro i size s t hi ho hu h
  obtain ⟨r, hr⟩ : ∃ r, i.request = some r := by obtain rfl | rfl := hi <;> exact ⟨_, rfl⟩
  by_cases ha : accepts i s = true
  · have hz : size ≤ (started i s).code.size := by
      rw [(started_left i s).1.1]
      exact imageOk_of_accepts hi ha
    have hrule := ruleOf_reaches (alone_closing (started_op ho)) (imageBody_noCodec hi hz).toReaches
    obtain rfl | hend := exec_ended (fun _ _ => hrule) (Alone.started i hr hu) h
    · rw [turnAway_request hr]
      exact ⟨nofun, nofun, nofun⟩
    · by_cases hne : t.err = {}
      · rw [hne]
        exact ⟨nofun, nofun, nofun⟩
      · obtain ⟨e, he, herr⟩ := ended_alone ((started_op ho).trans hr) hend hne
        rw [herr]
        exact he
  · rw [exec_refused hr (by simpa using ha)] at h
    cases h
    exact ⟨nofun, nofun, nofun⟩

end Sys2Proof.Machine
end

section
/-! PROOF. How an accepted INIT ends when nothing else happens (R117, R118, R120, R122): it holds, it is READY, or it is back in
IDLE with the handshake error of the part that failed. -/

namespace Sys2Proof.Machine

variable {α β : Type} {s₀ s t : State} {proto rate mv verbose : Nat} {delayed : Bool}

/-! ## Every error of INIT is wrapped -/

/-- A rule raises only errors with `P`. -/
def Raises (P : Err → Prop) (m : Eng α) : Prop := ∀ s e t, m s = .error (.raised e) t → P e

variable {P : Err → Prop}

theorem Raises.bind {m : Eng α} {f : α → Eng β} (hm : Raises P m) (hf : ∀ a, Raises P (f a)) : Raises P (m >>= f) := by
  intro s e t h
  cases hr : m s with
  | ok a u => rw [bind_ok hr] at h; exact hf a u e t h
  | error w u =>
    rw [bind_error hr] at h
    cases h
    exact hm s e t hr

theorem raises_getState : Raises P getState := fun _ _ _ h => nomatch h

theorem raises_needReg (r : Reg) (v : Option α) : Raises P (needReg r v) := fun s e t h => by cases v <;> cases h

theorem raises_primitive (f : State → State) : Raises P (primitive f) := fun s e t h => by
  rw [primitive_eq] at h
  split at h <;> cases h

theorem raises_writes : ∀ fs : List (State → State), Raises P (writes fs)
  | [] => fun _ _ _ h => nomatch h
  | f :: r => (raises_primitive f).bind fun _ => raises_writes r

/-- A part of the handshake reports the cause it wraps (R163). -/
theorem raises_handshakePart (kind : ErrKind) (m : Eng α) : Raises (fun e => e.cause.isSome = true) (handshakePart kind m) := by
  intro s e t h
  unfold handshakePart onRaise at h
  cases hr : m s with
  | ok a u => rw [hr] at h; cases h
  | error w u => rw [hr] at h; cases w <;> cases h; rfl

theorem raises_initBody (proto : Nat) : Raises (fun e => e.cause.isSome = true) (initBody proto) := by
  refine (raises_writes _).bind fun _ => (raises_handshakePart _ _).bind fun _ => Raises.bind ?_ fun _ => ?_
  · refine raises_getState.bind fun s => (raises_needReg _ _).bind fun d => fun u e t h => ?_
    rw [ite_run] at h
    split at h <;> cases h
  · refine (raises_primitive _).bind fun _ => (raises_handshakePart _ _).bind fun _ => raises_getState.bind fun s =>
      (raises_needReg _ _).bind fun v => ?_
    cases v with
    | framed => exact (raises_handshakePart _ _).bind fun _ => raises_handshakePart _ _
    | g10 => exact raises_handshakePart _ _

/-! ## INIT alone -/

/-- INIT runs, nothing else happens, and the identity is cleared. -/
structure Shaking (s₀ s : State) : Prop extends Alone s₀ s where
  cleared : s.ident = {}

/-- How INIT may stop: with an error of its handshake, at IDLE, or at the hold. An error that names no cause is never
raised. -/
def ShakingStop (s₀ : State) : Stop → State → Prop
  | .raised e, s => e.cause = none ∨ HandshakeError s₀.seqr.variant e ∧ Steady s₀ s ∧ s.seqr.seq = .idle ∧ s.ident = {}
  | .held, s => Holding (Shaking s₀) s
  | .reset, _ => False
  | .faulted _, _ => False

theorem Shaking.passed (h : Shaking s₀ s) : Shaking s₀ s.passed where
  toAlone := h.toAlone.passed
  cleared := by rw [passed_eq]; exact h.cleared

theorem shaking_onInit (hready : ReadyToShake s₀) : OnInit s₀ (Shaking s₀) (ShakingStop s₀) where
  params _ hs := hs.steady.params
  script _ hs := ⟨⟨{ hs.steady with }, hs.undisturbed, hs.err⟩, hs.cleared⟩
  passed _ hs := hs.passed
  queue _ _ _ hs := ⟨⟨{ hs.steady with }, hs.undisturbed, hs.err⟩, hs.cleared⟩
  log _ _ _ hs := ⟨⟨{ hs.steady with }, hs.undisturbed, hs.err⟩, hs.cleared⟩
  sent _ _ _ hs := ⟨⟨{ hs.steady with }, hs.undisturbed, hs.err⟩, hs.cleared⟩
  reset _ hs hr := by cases (not_reset_of_undisturbed hs.undisturbed).symm.trans hr
  io _ _ := .inl rfl
  short _ _ _ _ := .inl rfl
  timeout _ _ := .inl rfl
  rate _ _ hs := ⟨⟨{ hs.steady with }, hs.undisturbed, hs.err⟩, hs.cleared⟩
  parity _ _ hs := ⟨⟨{ hs.steady with }, hs.undisturbed, hs.err⟩, hs.cleared⟩
  drive _ sig b hs := by cases sig <;> exact ⟨⟨{ hs.steady with }, hs.undisturbed, hs.err⟩, hs.cleared⟩
  driven _ sig b hs := by cases sig <;> exact ⟨⟨{ hs.steady with }, hs.undisturbed, hs.err⟩, hs.cleared⟩
  linkBaud _ _ hs := ⟨⟨{ hs.steady with }, hs.undisturbed, hs.err⟩, hs.cleared⟩
  steady _ hs := hs.steady
  status _ _ hs := ⟨⟨{ hs.steady with }, hs.undisturbed, hs.err⟩, hs.cleared⟩
  modes _ _ w hw _ hs := by fin_cases hw <;> exact ⟨⟨{ hs.steady with }, hs.undisturbed, hs.err⟩, hs.cleared⟩
  seq _ _ hs := ⟨⟨{ hs.steady with }, hs.undisturbed, hs.err⟩, hs.cleared⟩
  failed _ _ he hs := .inr ⟨he, { hs.steady with }, rfl, hs.cleared⟩
  cut _ hk _ _ _ hs := .inr ⟨.line hk (.inl rfl), { hs.steady with }, rfl, hs.cleared⟩
  ready := .inl hready

theorem shaking_initBody (ha : rateOk rate mv s = true) (hs₀ : s₀ = started (.reqInit proto rate mv delayed verbose) s) :
    Reaches (Alone s₀) (fun u => Shaking (s₀.openSession proto) u ∧ u.seqr.seq = .ready) (ShakingStop (s₀.openSession proto))
      (initBody proto) := by
  have hready : ReadyToShake (s₀.openSession proto) := hs₀ ▸ readyToShake_openSession ha
  have hsession : Reaches (Alone s₀) (fun u => Shaking (s₀.openSession proto) u ∧ u.seqr.seq = .idle)
      (ShakingStop (s₀.openSession proto)) (writes (sessionWrites proto)) :=
    writes_reaches (sessionWrites_aside proto) (fun _ hs => hs.undisturbed) (fun _ hs => hs.passed) fun s hs => by
      rw [wrote_session]
      exact ⟨⟨⟨{ hs.steady with
        proto := rfl
        variant := congrArg (fun p => some (Params.variantOf p proto)) hs.steady.params
        blockSz := congrArg (fun p => some (Params.blockSize p proto)) hs.steady.params }, hs.undisturbed, hs.err⟩, rfl⟩, rfl⟩
  exact (init_reaches (shaking_onInit hready) (fun _ hh => hh) hsession).ends (initBody_ends proto)

/-- How INIT ends, with the error it may raise among those of the handshake. -/
theorem initBody_outcome (ha : rateOk rate mv s = true) (hs₀ : s₀ = started (.reqInit proto rate mv delayed verbose) s)
    (hu : Alone s₀ s₀) :
    match initBody proto s₀ with
    | .ok _ t => Shaking (s₀.openSession proto) t ∧ t.seqr.seq = .ready
    | .error (.raised e) t => HandshakeError (some (s.params.variantOf proto)) e ∧ Steady (s₀.openSession proto) t ∧
        t.seqr.seq = .idle ∧ t.ident = {}
    | .error .held t => Holding (Shaking (s₀.openSession proto)) t
    | .error _ _ => False := by
  have hk := shaking_initBody ha hs₀ s₀ hu
  have hr := raises_initBody proto s₀
  cases hm : initBody proto s₀ with
  | ok a t => rw [hm] at hk; exact hk
  | error w t =>
    rw [hm] at hk
    cases w with
    | raised e =>
      obtain hn | he := hk
      · have := hr e t hm
        exact absurd hn (by simpa [Option.isSome_iff_ne_none] using this)
      · subst hs₀
        exact he
    | held => exact hk
    | reset => exact hk
    | faulted f => exact hk

/-- Alone, an accepted INIT holds, is READY without an error, or is back in IDLE with an error of its handshake. -/
theorem exec_reqInit_outcome (ho : s.seqr.op = none) (ha : rateOk rate mv s = true) (hu : s.undisturbed) :
    ∃ t, exec (.reqInit proto rate mv delayed verbose) s = .next t ∧
      ((t.seqr.op = some .init ∧ t.seqr.seq = .idle ∧ delayed = true ∧ s.readyIn = false) ∨
       (t.seqr.op = none ∧ t.seqr.seq = .ready ∧ t.err = {}) ∨
       ∃ e, HandshakeError (some (s.params.variantOf proto)) e ∧ t.seqr.op = none ∧ t.seqr.seq = .idle ∧ t.ident = {} ∧
        t.err = { kind := e.kind, status := e.status, addr := e.addr, cause := e.cause, op := some 0x01#8 }) := by
  have hk := initBody_outcome (proto := proto) (verbose := verbose) (delayed := delayed) ha rfl
    (Alone.started _ (r := .init) rfl hu)
  rw [exec_taken (i := .reqInit proto rate mv delayed verbose) ho ha]
  cases hm : initBody proto (started (.reqInit proto rate mv delayed verbose) s) with
  | ok a t =>
    rw [hm] at hk
    obtain ⟨hshaking, hseq⟩ := hk
    have hlast : primitive State.endRequest t = .ok () t.passed.endRequest := by
      rw [primitive_eq, not_reset_of_undisturbed hshaking.undisturbed]
      rfl
    refine ⟨_, finish_ok ((bind_ok hm).trans hlast), .inr (.inl ⟨rfl, ?_, hshaking.passed.err⟩)⟩
    rw [passed_eq]
    exact hseq
  | error w t =>
    rw [hm] at hk
    cases w with
    | raised e =>
      obtain ⟨he, hsteady, hseq, hident⟩ := hk
      refine ⟨_, finish_raised (bind_error hm), .inr (.inr ⟨e, he, rfl, hseq, hident, ?_⟩)⟩
      rw [takeError_eq, hsteady.op]
      rfl
    | held =>
      have hargs := hk.kept.steady.args
      refine ⟨_, finish_held (bind_error hm), .inl ⟨hk.kept.steady.op, hk.seq, ?_, hk.kept.steady.readyIn.symm.trans hk.notReady⟩⟩
      have hd := hk.delayed
      rw [hargs] at hd
      exact Option.some.inj hd
    | reset => exact hk.elim
    | faulted f => exact hk.elim

/-! ## A Transport call that fails -/

/-- What a rule of Transport calls leaves behind: nothing arrives, the Transport is open, and the request is in progress. -/
structure CallsDone (s t : State) (rest : List Tick) : Prop where
  calm : t.calm
  isOpen : t.line.isOpen = true
  script : t.script = rest
  op : t.seqr.op = s.seqr.op

/-- A rule of `c` Transport calls: it passes where none fails, and is `Io` where one does. -/
structure Calls (c : Nat) (m : Eng α) : Prop where
  passes : ∀ s rest, s.calm → s.line.isOpen = true → s.script = List.replicate c quiet ++ rest →
    ∃ a t, m s = .ok a t ∧ CallsDone s t rest
  fails : ∀ n < c, ∀ s rest, s.calm → s.line.isOpen = true → s.script = List.replicate n quiet ++ { fail := true } :: rest →
    ∃ t, m s = .error (.raised { kind := .io }) t ∧ t.script = rest ∧ t.seqr.op = s.seqr.op

theorem Calls.bind {c d : Nat} {m : Eng α} {f : α → Eng β} (hm : Calls c m) (hf : ∀ a, Calls d (f a)) :
    Calls (c + d) (m >>= f) where
  passes s rest hc ho hs := by
    rw [List.replicate_add, List.append_assoc] at hs
    obtain ⟨a, t, ht, hd⟩ := hm.passes s _ hc ho hs
    obtain ⟨b, u, hu, hd'⟩ := (hf a).passes t rest hd.calm hd.isOpen hd.script
    exact ⟨b, u, (bind_ok ht).trans hu, hd'.calm, hd'.isOpen, hd'.script, hd'.op.trans hd.op⟩
  fails n hn s rest hc ho hs := by
    by_cases hlt : n < c
    · obtain ⟨t, ht, hd⟩ := hm.fails n hlt s rest hc ho hs
      exact ⟨t, bind_error ht, hd⟩
    · rw [show n = c + (n - c) by omega, List.replicate_add, List.append_assoc] at hs
      obtain ⟨a, t, ht, hd⟩ := hm.passes s _ hc ho hs
      obtain ⟨u, hu, hr, hop⟩ := (hf a).fails (n - c) (by omega) t rest hd.calm hd.isOpen hd.script
      exact ⟨u, (bind_ok ht).trans hu, hr, hop.trans hd.op⟩

theorem calls_primitive {f : State → State} (hf : ∀ s, (f s).moments = s.moments ∧ (f s).line.isOpen = s.line.isOpen ∧
    (f s).script = s.script ∧ (f s).seqr.op = s.seqr.op) : Calls 0 (primitive f) where
  passes s rest hc ho hs := by
    obtain ⟨hm, hl, hscript, hop⟩ := hf s
    exact ⟨(), f s, primitive_calm hc, hm.trans hc, hl.trans ho, hscript.trans hs, hop⟩
  fails n hn := absurd hn (Nat.not_lt_zero n)

theorem calls_control {act : State → State} {ev : Event} (ha : ∀ s, (act s).moments = s.moments ∧
    (act s).line.isOpen = s.line.isOpen ∧ (act s).script = s.script ∧ (act s).seqr.op = s.seqr.op) : Calls 1 (control act ev) where
  passes s rest hc ho hs := by
    obtain ⟨hm, hl, hscript, hop⟩ := ha { s with script := rest }
    exact ⟨(), _, control_quiet hc ho hs, hm.trans hc, hl.trans ho, hscript, hop⟩
  fails n hn s rest hc ho hs := by
    obtain rfl : n = 0 := by omega
    exact ⟨_, control_fails hc ho hs, rfl, rfl⟩

theorem calls_setLine (sig : Signal) (b : Bool) : Calls 1 (setLine sig b) :=
  (calls_control fun s => by cases sig <;> exact ⟨rfl, rfl, rfl, rfl⟩).bind fun _ =>
    calls_primitive fun s => by cases sig <;> exact ⟨rfl, rfl, rfl, rfl⟩

theorem calls_waitFor (d : Delay) : Calls 0 (waitFor d) := calls_primitive fun _ => ⟨rfl, rfl, rfl, rfl⟩

theorem calls_getState {c : Nat} {f : State → Eng β} (hf : ∀ s, Calls c (f s)) : Calls c (getState >>= f) where
  passes s := (hf s).passes s
  fails n hn s := (hf s).fails n hn s

theorem calls_setParity (p : Option Parity) : Calls 1 (setParity p) := calls_control fun _ => ⟨rfl, rfl, rfl, rfl⟩

theorem calls_setLinkBaud (r : Nat) : Calls 1 (setLinkBaud r) :=
  (calls_control (act := fun s => s.setRate r) fun _ => ⟨rfl, rfl, rfl, rfl⟩).bind fun _ =>
    calls_primitive (f := fun s => s.setLinkBaud r) fun _ => ⟨rfl, rfl, rfl, rfl⟩

theorem calls_flush : Calls 1 flush := calls_control fun _ => ⟨rfl, rfl, rfl, rfl⟩

theorem calls_stepOne : Calls 4 stepOne :=
  calls_getState fun _ => (calls_setParity _).bind (d := 3) fun _ => (calls_setLinkBaud _).bind (d := 2) fun _ =>
    (calls_setLine _ _).bind (d := 1) fun _ => calls_setLine _ _

theorem calls_stepTwo : Calls 3 stepTwo :=
  (calls_setLine _ _).bind (d := 2) fun _ => (calls_waitFor _).bind (d := 2) fun _ => (calls_setLine _ _).bind (d := 1) fun _ =>
    (calls_waitFor _).bind (d := 1) fun _ => calls_flush.bind (d := 0) fun _ =>
      calls_primitive (f := fun s => s.setSeq .syncing) fun _ => ⟨rfl, rfl, rfl, rfl⟩

/-! ## The parts that fail -/

/-- A rule raises `e` and leaves the sequencer at IDLE, the request in progress and `rest` of the script. -/
def FailsIdle (m : Eng Unit) (s : State) (e : Err) (rest : List Tick) : Prop :=
  ∃ u, m s = .error (.raised e) u ∧ u.seqr.op = s.seqr.op ∧ u.seqr.seq = .idle ∧ u.script = rest

variable {f : List Byte → List Byte} {rest : List Tick} {e : Err} {u : State}

theorem failsIdle_part {kind : ErrKind} {m : Eng Unit} (h : m s = .error (.raised e) u) (hop : u.seqr.op = s.seqr.op)
    (hr : u.script = rest) : FailsIdle (handshakePart kind m) s (wrapError kind e) rest :=
  ⟨_, handshakePart_raised h, hop, rfl, hr⟩

theorem FailsIdle.bind {m : Eng Unit} {g : Unit → Eng Unit} (h : FailsIdle m s e rest) : FailsIdle (m >>= g) s e rest := by
  obtain ⟨u, hu, hd⟩ := h
  exact ⟨u, bind_error hu, hd⟩

/-- What step 2 leaves behind the hold (R114). -/
def State.stepTwoDone (s : State) (rest : List Tick) : State :=
  { s with
    seqr := { s.seqr with seq := .syncing, lineReset := some true, lineClock := some true }
    line := { s.line with rxq := [], reset := some true, clock := some true }
    script := rest, hist := s.hist ++ stepTwoEvents }

/-- What steps 1 and 2 leave, with these calls to come (R113, R114). -/
def State.stepsDone (s : State) (ticks : List Tick) : State :=
  (s.stepOneDone ([quiet, quiet, quiet] ++ ticks)).stepTwoDone ticks

/-- Steps 3 and 4, by the session's variant (R112, R119). -/
def lastSteps : Variant → Eng Unit
  | .framed => do
    syncStep
    stepFour
  | .g10 => modeSetStep

theorem initTail_lastSteps {v : Variant} (hc : s.calm) (ho : s.line.isOpen = true) (hv : s.seqr.variant = some v)
    (hs : s.script = [quiet, quiet, quiet] ++ rest) : initTail s = lastSteps v (s.stepTwoDone rest) := by
  unfold initTail
  rw [primitive_bind hc]
  refine (bind_ok (handshakePart_ok (stepTwo_quiet (by exact hc) (by exact ho) (by exact hs)))).trans ?_
  refine (getState_bind ..).trans ((bind_ok (needReg_some _ hv _)).trans ?_)
  cases v <;> rfl

/-- `Io` at the `n`-th call of steps 1 and 2 (R118). -/
theorem initSteps_io {n : Nat} {d : Bool} (hc : s.calm) (ho : s.line.isOpen = true) (hd : s.args.delayedStart = some d)
    (hr : d = true → s.readyIn = true) (hn : n < 7) (hs : s.script = List.replicate n quiet ++ { fail := true } :: rest) :
    FailsIdle initSteps s (wrapError .synchronizationFailed { kind := .io }) rest := by
  by_cases h4 : n < 4
  · obtain ⟨u, hu, hrest, hop⟩ := calls_stepOne.fails n h4 s rest hc ho hs
    exact (failsIdle_part hu hop hrest).bind
  · rw [show n = 4 + (n - 4) by omega, List.replicate_add, List.append_assoc] at hs
    obtain ⟨u, hu, hrest, hop⟩ := calls_stepTwo.fails (n - 4) (by omega)
      ((s.stepOneDone (List.replicate (n - 4) quiet ++ { fail := true } :: rest)).setSeq .held) rest hc ho rfl
    have htail : FailsIdle initTail (s.stepOneDone (List.replicate (n - 4) quiet ++ { fail := true } :: rest))
        (wrapError .synchronizationFailed { kind := .io }) rest := by
      unfold FailsIdle initTail
      rw [primitive_bind (by exact hc)]
      exact (failsIdle_part hu hop hrest).bind
    unfold FailsIdle
    rw [initSteps_goesOn hc ho hd hr hs]
    exact htail

/-- No echo of the synchronisation byte (R118). -/
theorem syncStep_timeout (hc : s.lineClear) (he : s.params.echo = true) (hs : s.script = quiet :: quiet :: rest) :
    FailsIdle syncStep s (wrapError .synchronizationFailed { kind := .timeout }) rest := by
  have hsend : send [s.params.syncByte] s = .error (.raised { kind := .timeout })
      (s.onLine rest [] [.tx [s.params.syncByte]]) := by
    unfold send
    rw [transport_bind hc.2.2 hc.1, bind_ok (writeBytes_delivers hs), getState_bind]
    refine (congrFun (if_pos (show (s.onLine _ _ _).params.echo = true from he)) _).trans (bind_error ?_)
    have hq : s.line.rxq ++ [] = [] := by rw [hc.2.1]; rfl
    rw [readExact_nothing (rest := rest) (by simp) hq rfl]
    simp [State.onLine]
  exact failsIdle_part ((getState_bind ..).trans (bind_error hsend)) rfl rfl

/-- `Io` at the flush behind the synchronisation byte (R118). -/
theorem syncStep_io (hc : s.lineClear) (hf : EchoLike f)
    (hs : s.script = sendTicks s.params (f [s.params.syncByte]) [] ++ { fail := true } :: rest) :
    FailsIdle syncStep s (wrapError .synchronizationFailed { kind := .io }) rest := by
  refine failsIdle_part ((getState_bind ..).trans ((bind_ok (send_ok hc (by simp) (hf _) hs)).trans
    (bind_error (control_fails (rest := rest) (by exact hc.2.2) (by exact hc.1) rfl)))) rfl rfl

/-- A baud-set that is answered by another byte than ACK (R120). -/
theorem stepFour_rejected {rate mv : Nat} {code b x y : Byte} (hc : s.lineClear) (hf : EchoLike f) (hb : b ≠ Config.ack)
    (hr : s.args.targetBaud = some rate) (hv : s.args.voltageMv = some mv) (hcode : s.params.baudCode rate = some code)
    (hs : s.script = commandTicks s.params f .baudSet [code, voltageByte mv] [b, x, y] ++ rest) :
    FailsIdle stepFour s (wrapError .initializationFailed { kind := .deviceRejected, status := some b }) rest := by
  have hset : setBaudRate rate mv s = _ := (getState_bind ..).trans (by
    simp only [hcode]
    exact baudSetBody_rejected hc hf hb hs)
  exact failsIdle_part ((getState_bind ..).trans ((bind_ok (needReg_some _ hr s)).trans
    ((bind_ok (needReg_some _ hv s)).trans (bind_error hset)))) rfl rfl

/-- `Io` at the local switch (R120). -/
theorem stepFour_io {rate mv : Nat} {code x y : Byte} (hc : s.lineClear) (hf : EchoLike f)
    (hr : s.args.targetBaud = some rate) (hv : s.args.voltageMv = some mv) (hcode : s.params.baudCode rate = some code)
    (hs : s.script = commandTicks s.params f .baudSet [code, voltageByte mv] [Config.ack, x, y] ++ { fail := true } :: rest) :
    FailsIdle stepFour s (wrapError .initializationFailed { kind := .io }) rest := by
  have hset : setBaudRate rate mv s = _ := (getState_bind ..).trans (by
    simp only [hcode]
    exact baudSetBody_answered hc hf hs)
  exact failsIdle_part ((getState_bind ..).trans ((bind_ok (needReg_some _ hr s)).trans
    ((bind_ok (needReg_some _ hv s)).trans ((bind_ok hset).trans (bind_error (bind_error
      (control_fails (rest := rest) (by exact hc.2.2) (by exact hc.1) rfl))))))) rfl rfl

/-- A mode-set that is not answered by two ACKs (R120). -/
theorem modeSetStep_rejected {r0 r1 : Byte} (hc : s.lineClear) (hf : EchoLike f) (hn : ¬ (r0 = Config.ack ∧ r1 = Config.ack))
    (hs : s.script = rawTicks s.params f [s.params.g10ModeSet] [r0, r1] ++ rest) :
    FailsIdle modeSetStep s (wrapError .synchronizationFailed
      { kind := .deviceRejected, status := some (if r0 = Config.ack then r1 else r0) }) rest := by
  have hraw := sendRaw_bind (n := 2) (g := fun r => do
      modeSetCheck r
      primitive fun s => s.setSeq .synced
      primitive fun s => s.setSeq .ready) hc hf (by simp) (by simp) rfl hs
  exact failsIdle_part ((getState_bind ..).trans (hraw.trans (bind_error (modeSetCheck_rejected (by exact hc.2.2) hn)))) rfl rfl

/-! ## The obligation -/

/-- An accepted INIT whose handshake fails in one of its parts (R118, R120, R122). -/
theorem exec_reqInit_fails (ho : s.seqr.op = none) (ha : rateOk rate mv s = true) (hc : s.calm)
    (h : FailsIdle initSteps ((started (.reqInit proto rate mv delayed verbose) s).openSession proto) e rest) :
    ∃ t, exec (.reqInit proto rate mv delayed verbose) s = .next t ∧
      t.err = { kind := e.kind, status := e.status, addr := e.addr, cause := e.cause, op := some 0x01#8 } ∧
      t.seqr.seq = .idle ∧ t.seqr.op = none ∧ t.script = rest := by
  obtain ⟨u, hu, hop, hseq, hrest⟩ := h
  rw [exec_taken (i := .reqInit proto rate mv delayed verbose) ho ha]
  refine ⟨_, finish_raised (bind_error ((initBody_eq (by exact hc)).trans hu)), ?_, hseq, rfl, hrest⟩
  rw [takeError_eq, hop]
  rfl

/-- The handshake's last steps fail behind steps 1 and 2 (R112). -/
theorem initSteps_fails {v : Variant} {d : Bool} {ticks : List Tick} (hc : s.calm) (ho : s.line.isOpen = true)
    (hd : s.args.delayedStart = some d) (hr : d = true → s.readyIn = true) (hv : s.seqr.variant = some v)
    (hs : s.script = linesTicks ++ ticks)
    (h : FailsIdle (lastSteps v) (s.stepsDone ticks) e rest) :
    FailsIdle initSteps s e rest := by
  unfold FailsIdle
  rw [initSteps_goesOn (rest := [quiet, quiet, quiet] ++ ticks) hc ho hd hr hs,
    initTail_lastSteps (s := s.stepOneDone _) (by exact hc) (by exact ho) hv rfl]
  exact h

/-- Step 3 is done, framed (R115). -/
theorem lastSteps_stepFour {ticks : List Tick} (hc : s.lineClear) (hf : EchoLike f)
    (hs : s.script = sendTicks s.params (f [s.params.syncByte]) [] ++ quiet :: ticks)
    (h : FailsIdle stepFour ((s.onLine ticks [] (sendEvents s.params [s.params.syncByte] ++ [.flush, .wait .sync])).setSeq
      .synced) e rest) : FailsIdle (lastSteps .framed) s e rest := by
  obtain ⟨u, hu, hd⟩ := h
  exact ⟨u, (bind_ok (syncStep_answered hc hf hs)).trans hu, hd⟩

/-- Settles O25: alone, INIT ends as the handshake keeps it, and each part of it that fails reports its error. -/
theorem initOutcomes : Obligations.InitOutcomes := by
  constructor
  · intro s proto rate mv verbose delayed ho ha hu
    obtain ⟨t, ht, hheld | hready | ⟨e, he, hop, hseq, hident, herr⟩⟩ := exec_reqInit_outcome (proto := proto)
      (verbose := verbose) (delayed := delayed) ho ha hu
    · exact ⟨t, ht, .inl hheld⟩
    · exact ⟨t, ht, .inr (.inl hready)⟩
    · refine ⟨t, ht, .inr (.inr ⟨hop, hseq, ?_⟩)⟩
      rw [herr]
      cases he with
      | @line kind cause hk hcause =>
        refine ⟨rfl, rfl, hident, cause, rfl, ?_, ?_⟩
        · obtain rfl | rfl := hcause <;> simp [wrapError]
        · obtain rfl | ⟨rfl, hv⟩ := hk
          · exact .inl ⟨rfl, hcause.imp id .inl⟩
          · refine .inr ⟨rfl, Option.some.inj hv, ?_⟩
            obtain rfl | rfl := hcause <;> decide
      | @codec cause hv hcause =>
        refine ⟨rfl, rfl, hident, cause, rfl, ?_, .inr ⟨rfl, Option.some.inj hv, ?_⟩⟩
        · obtain rfl | rfl | rfl := hcause <;> simp [wrapError]
        · obtain rfl | rfl | rfl := hcause <;> decide
      | baudSet b hv => exact ⟨rfl, rfl, hident, _, rfl, by simp [wrapError], .inr ⟨rfl, Option.some.inj hv, by simp⟩⟩
      | modeSet b hv => exact ⟨rfl, rfl, hident, _, rfl, by simp [wrapError], .inl ⟨rfl, .inr (.inr ⟨rfl, Option.some.inj hv⟩)⟩⟩
  · intro s f rest proto rate mv verbose n delayed code b x y r0 r1 ho hc hopen hf hcode hmv hr
    have ha : rateOk rate mv s = true := by simp [rateOk, hcode, Config.voltageMax, hmv]
    let opened := (started (.reqInit proto rate mv delayed verbose) s).openSession proto
    have hclear (ticks : List Tick) : (opened.stepsDone ticks).lineClear := ⟨hopen, rfl, hc⟩
    have hsteps {v : Variant} (hv : s.params.variantOf proto = v) (ticks : List Tick) (hs : s.script = linesTicks ++ ticks) {e : Err}
        (h : FailsIdle (lastSteps v) (opened.stepsDone ticks) e rest) : FailsIdle initSteps opened e rest :=
      initSteps_fails hc hopen rfl hr (congrArg some hv) hs h
    have hmode (hn : ¬ (r0 = Config.ack ∧ r1 = Config.ack)) := modeSetStep_rejected (rest := rest)
      (hclear (rawTicks s.params f [s.params.g10ModeSet] [r0, r1] ++ rest)) hf hn rfl
    have hfails {e : Err} := exec_reqInit_fails (e := e) (proto := proto) (verbose := verbose) (delayed := delayed) (rest := rest) ho ha hc
    refine ⟨fun hn hs => hfails (initSteps_io hc hopen rfl hr hn (hs.trans (by simp))), fun hv => ⟨fun he hs => ?_, fun hs => ?_,
      fun hb hs => ?_, fun hs => ?_⟩, fun hv => ⟨fun h0 hs => ?_, fun h0 h1 hs => ?_⟩⟩
    · exact hfails (hsteps hv ([quiet, quiet] ++ rest) (by simpa using hs)
        (syncStep_timeout (hclear _) he rfl).bind)
    · exact hfails (hsteps hv (sendTicks s.params (f [s.params.syncByte]) [] ++ { fail := true } :: rest) (by simpa using hs)
        (syncStep_io (hclear _) hf rfl).bind)
    · exact hfails (hsteps hv (sendTicks s.params (f [s.params.syncByte]) [] ++ quiet ::
        (commandTicks s.params f .baudSet [code, voltageByte mv] [b, x, y] ++ rest)) (by simpa [voltageByte] using hs)
        (lastSteps_stepFour (hclear _) hf rfl
          (stepFour_rejected (by exact ⟨hopen, rfl, hc⟩) hf hb rfl rfl hcode rfl)))
    · exact hfails (hsteps hv (sendTicks s.params (f [s.params.syncByte]) [] ++ quiet ::
        (commandTicks s.params f .baudSet [code, voltageByte mv] [Config.ack, x, y] ++ { fail := true } :: rest))
        (by simpa [voltageByte] using hs)
        (lastSteps_stepFour (hclear _) hf rfl
          (stepFour_io (by exact ⟨hopen, rfl, hc⟩) hf rfl rfl hcode rfl)))
    · have h := hmode fun h => h0 h.1
      rw [if_neg h0] at h
      exact hfails (hsteps hv _ (by simpa using hs) h)
    · have h := hmode fun h => h1 h.2
      rw [if_pos h0] at h
      exact hfails (hsteps hv _ (by simpa using hs) h)

end Sys2Proof.Machine
end

section
/-! PROOF. What each instruction leaves unchanged: every register and every setting of the Transport that `Instr.parts` does not
name, and what no instruction writes at all (R18, R19, R26 to R34, R96 to R105, R123). -/

namespace Sys2Proof.Machine

variable {i : Instr} {s s₀ s₁ t u : State} {I J : State → Prop} {E : Stop → State → Prop}

/-! ## The frame of an instruction -/

/-- `t` agrees with `s` but for the line, the error registers and `OP`, and for the parts that `i` may write. -/
structure Frame (i : Instr) (s t : State) : Prop where
  params : t.params = s.params
  code : t.code = s.code
  data : t.data = s.data
  readyIn : t.readyIn = s.readyIn
  inputs : t.inputs = s.inputs
  view : t.view = s.view
  seq : i.mayWrite .seq = false → t.seqr.seq = s.seqr.seq
  proto : i.mayWrite .session = false → t.seqr.proto = s.seqr.proto
  variant : i.mayWrite .session = false → t.seqr.variant = s.seqr.variant
  blockSz : i.mayWrite .session = false → t.seqr.blockSz = s.seqr.blockSz
  linkBaud : i.mayWrite .linkBaud = false → t.seqr.linkBaud = s.seqr.linkBaud
  lineReset : i.mayWrite .lineReset = false → t.seqr.lineReset = s.seqr.lineReset
  lineClock : i.mayWrite .lineClock = false → t.seqr.lineClock = s.seqr.lineClock
  ident : i.mayWrite .identity = false → t.ident = s.ident
  baud : i.mayWrite .modes = false → t.baud = s.baud
  notBlank : i.mayWrite .notBlank = false → t.result.notBlank = s.result.notBlank
  cksum : i.mayWrite .cksum = false → t.result.cksum16 = s.result.cksum16
  status : i.mayWrite .status = false → t.result.lastStatus = s.result.lastStatus
  block : i.mayWrite .block = false → { t.blk with fidx := none } = { s.blk with fidx := none }
  fidx : i.mayWrite .frame = false → t.blk.fidx = s.blk.fidx
  g10 : i.mayWrite .image = false → t.g10 = s.g10
  targetBaud : i.mayWrite .baudArgs = false → t.args.targetBaud = s.args.targetBaud
  voltageMv : i.mayWrite .baudArgs = false → t.args.voltageMv = s.args.voltageMv
  delayed : i.mayWrite .otherArgs = false → t.args.delayedStart = s.args.delayedStart
  protoIn : i.mayWrite .otherArgs = false → t.args.protoIn = s.args.protoIn
  verbose : i.mayWrite .otherArgs = false → t.args.verbose = s.args.verbose
  rate : i.mayWrite .rate = false → t.line.rate = s.line.rate
  parity : i.mayWrite .parity = false → t.line.parity = s.line.parity
  resetLine : i.mayWrite .resetLine = false → t.line.reset = s.line.reset
  clockLine : i.mayWrite .clockLine = false → t.line.clock = s.line.clock
  wiring : i.mayWrite .wiring = false → t.line.wiring = s.line.wiring

theorem Frame.refl (i : Instr) (s : State) : Frame i s s := by constructor <;> intros <;> rfl

/-- The value of a part: the new one where the instruction may write it. -/
def Instr.part {α : Type} (i : Instr) (p : Part) (new old : α) : α := if i.mayWrite p then new else old

theorem eq_part {α : Type} {p : Part} {new old : α} (h : i.mayWrite p = false → new = old) : new = Instr.part i p new old := by
  unfold Instr.part
  split
  · rfl
  · next hn => exact h (by simpa using hn)

theorem Frame.seqr_eq (h : Frame i s t) : t.seqr =
    { seq := Instr.part i .seq t.seqr.seq s.seqr.seq, op := t.seqr.op
      proto := Instr.part i .session t.seqr.proto s.seqr.proto
      variant := Instr.part i .session t.seqr.variant s.seqr.variant
      blockSz := Instr.part i .session t.seqr.blockSz s.seqr.blockSz
      linkBaud := Instr.part i .linkBaud t.seqr.linkBaud s.seqr.linkBaud
      lineReset := Instr.part i .lineReset t.seqr.lineReset s.seqr.lineReset
      lineClock := Instr.part i .lineClock t.seqr.lineClock s.seqr.lineClock } := by
  rw [← eq_part h.seq, ← eq_part h.proto, ← eq_part h.variant, ← eq_part h.blockSz, ← eq_part h.linkBaud,
    ← eq_part h.lineReset, ← eq_part h.lineClock]

theorem Frame.result_eq (h : Frame i s t) : t.result =
    { notBlank := Instr.part i .notBlank t.result.notBlank s.result.notBlank
      cksum16 := Instr.part i .cksum t.result.cksum16 s.result.cksum16
      lastStatus := Instr.part i .status t.result.lastStatus s.result.lastStatus } := by
  rw [← eq_part h.notBlank, ← eq_part h.cksum, ← eq_part h.status]

theorem Frame.blk_eq (h : Frame i s t) :
    t.blk = { Instr.part i .block t.blk s.blk with fidx := Instr.part i .frame t.blk.fidx s.blk.fidx } := by
  rw [← eq_part h.fidx]
  unfold Instr.part
  split
  · rfl
  · next hn => exact congrArg (fun b : BlockRegs => { b with fidx := t.blk.fidx }) (h.block (by simpa using hn))

theorem Frame.args_eq (h : Frame i s t) : t.args =
    { targetBaud := Instr.part i .baudArgs t.args.targetBaud s.args.targetBaud
      voltageMv := Instr.part i .baudArgs t.args.voltageMv s.args.voltageMv
      delayedStart := Instr.part i .otherArgs t.args.delayedStart s.args.delayedStart
      protoIn := Instr.part i .otherArgs t.args.protoIn s.args.protoIn
      verbose := Instr.part i .otherArgs t.args.verbose s.args.verbose } := by
  rw [← eq_part h.targetBaud, ← eq_part h.voltageMv, ← eq_part h.delayed, ← eq_part h.protoIn, ← eq_part h.verbose]

theorem Frame.line_eq (h : Frame i s t) : t.line =
    { isOpen := t.line.isOpen, rxq := t.line.rxq
      rate := Instr.part i .rate t.line.rate s.line.rate
      parity := Instr.part i .parity t.line.parity s.line.parity
      reset := Instr.part i .resetLine t.line.reset s.line.reset
      clock := Instr.part i .clockLine t.line.clock s.line.clock
      wiring := Instr.part i .wiring t.line.wiring s.line.wiring } := by
  rw [← eq_part h.rate, ← eq_part h.parity, ← eq_part h.resetLine, ← eq_part h.clockLine, ← eq_part h.wiring]

/-- A state in the frame, written out. -/
def Instr.framed (i : Instr) (s t : State) : State :=
  { s.lineOf t with
    seqr :=
      { seq := Instr.part i .seq t.seqr.seq s.seqr.seq, op := t.seqr.op
        proto := Instr.part i .session t.seqr.proto s.seqr.proto
        variant := Instr.part i .session t.seqr.variant s.seqr.variant
        blockSz := Instr.part i .session t.seqr.blockSz s.seqr.blockSz
        linkBaud := Instr.part i .linkBaud t.seqr.linkBaud s.seqr.linkBaud
        lineReset := Instr.part i .lineReset t.seqr.lineReset s.seqr.lineReset
        lineClock := Instr.part i .lineClock t.seqr.lineClock s.seqr.lineClock }
    ident := Instr.part i .identity t.ident s.ident
    baud := Instr.part i .modes t.baud s.baud
    result :=
      { notBlank := Instr.part i .notBlank t.result.notBlank s.result.notBlank
        cksum16 := Instr.part i .cksum t.result.cksum16 s.result.cksum16
        lastStatus := Instr.part i .status t.result.lastStatus s.result.lastStatus }
    blk := { Instr.part i .block t.blk s.blk with fidx := Instr.part i .frame t.blk.fidx s.blk.fidx }
    g10 := Instr.part i .image t.g10 s.g10
    args :=
      { targetBaud := Instr.part i .baudArgs t.args.targetBaud s.args.targetBaud
        voltageMv := Instr.part i .baudArgs t.args.voltageMv s.args.voltageMv
        delayedStart := Instr.part i .otherArgs t.args.delayedStart s.args.delayedStart
        protoIn := Instr.part i .otherArgs t.args.protoIn s.args.protoIn
        verbose := Instr.part i .otherArgs t.args.verbose s.args.verbose }
    line :=
      { isOpen := t.line.isOpen, rxq := t.line.rxq
        rate := Instr.part i .rate t.line.rate s.line.rate
        parity := Instr.part i .parity t.line.parity s.line.parity
        reset := Instr.part i .resetLine t.line.reset s.line.reset
        clock := Instr.part i .clockLine t.line.clock s.line.clock
        wiring := Instr.part i .wiring t.line.wiring s.line.wiring } }

theorem Frame.eq_framed (h : Frame i s t) : t = Instr.framed i s t := by
  unfold Instr.framed State.lineOf
  rw [← h.seqr_eq, ← h.result_eq, ← h.blk_eq, ← h.args_eq, ← h.line_eq, ← eq_part h.ident, ← eq_part h.baud, ← eq_part h.g10,
    ← h.params, ← h.code, ← h.data, ← h.readyIn, ← h.inputs, ← h.view]

/-! ## Every write is in the frame -/

/-- A rule keeps the frame, and the session it runs in. -/
structure Framing (i : Instr) (s s₀ t : State) : Prop where
  steady : Steady s₀ t
  frame : Frame i s t

/-- However a rule stops, but by an Engine reset, the frame is kept. -/
def FrameStop (i : Instr) (s : State) : Stop → State → Prop
  | .raised _, t | .held, t => Frame i s t
  | .reset, _ | .faulted _, _ => True

theorem not_unwritten {p : Part} {q : Prop} (h : i.mayWrite p = true) (hn : i.mayWrite p = false) : q := by
  rw [h] at hn
  cases hn

theorem Frame.passed (h : Frame i s t) : Frame i s t.passed := by
  rw [passed_eq]
  exact { h with }

theorem Framing.passed (h : Framing i s s₀ t) : Framing i s s₀ t.passed := ⟨h.steady.passed, h.frame.passed⟩

theorem Frame.seqTo (hp : i.mayWrite .seq = true) (h : Frame i s t) (q : SeqState) : Frame i s (t.setSeq q) :=
  { h with seq := not_unwritten hp }

theorem framing_onLine (i : Instr) (s s₀ : State) : OnLine s₀.params (Framing i s s₀) (FrameStop i s) where
  params _ ht := ht.steady.params
  script _ ht := ⟨{ ht.steady with }, { ht.frame with }⟩
  passed _ ht := ht.passed
  queue _ _ _ ht := ⟨{ ht.steady with }, { ht.frame with }⟩
  log _ _ _ ht := ⟨{ ht.steady with }, { ht.frame with }⟩
  sent _ _ _ ht := ⟨{ ht.steady with }, { ht.frame with }⟩
  reset _ _ _ := trivial
  io _ ht := ht.frame
  short _ _ _ ht := { ht.frame with }
  timeout _ ht := ht.frame

theorem framing_modes (hp : i.mayWrite .modes = true) (f v : Byte) :
    ∀ w ∈ modeWrites f v, ∀ t, Framing i s s₀ t → Framing i s s₀ (w t) := by
  intro w hw t ht
  fin_cases hw <;> exact ⟨{ ht.steady with }, { ht.frame with baud := not_unwritten hp }⟩

theorem framing_onRule (i : Instr) (s s₀ : State) :
    OnRule i s₀ (Framing i s s₀) (Framing i s s₀) (FrameStop i s) where
  toOnLine := framing_onLine i s s₀
  lands _ ht := ht
  steady _ ht := ht.steady
  raised _ _ _ ht := ht.frame
  fault _ _ _ _ := trivial
  status hp _ _ ht := ⟨{ ht.steady with }, { ht.frame with status := not_unwritten hp }⟩
  notBlank hp _ _ ht := ⟨{ ht.steady with }, { ht.frame with notBlank := not_unwritten hp }⟩
  cksum hp _ _ ht := ⟨{ ht.steady with }, { ht.frame with cksum := not_unwritten hp }⟩
  modes hp := framing_modes hp
  identity hp _ _ _ := (keeps_writes (framing_onLine i s s₀) fun w hw _ ht => by
    fin_cases hw <;> exact ⟨{ ht.steady with }, { ht.frame with ident := not_unwritten hp }⟩).toReaches
  frame hp _ _ ht := ⟨{ ht.steady with }, { ht.frame with fidx := not_unwritten hp }⟩
  region hp _ _ _ _ w hw _ ht := by
    fin_cases hw <;> exact ⟨{ ht.steady with }, { ht.frame with block := not_unwritten hp }⟩
  block hp _ _ ht := ⟨⟨{ ht.steady with }, { ht.frame with block := not_unwritten hp }⟩,
    ⟨{ ht.steady with }, { ht.frame with block := not_unwritten hp }⟩⟩
  emit _ _ _ ht := ⟨{ ht.steady with }, { ht.frame with }⟩
  resp hp _ _ _ w hw _ ht := by
    fin_cases hw <;> exact ⟨{ ht.steady with }, { ht.frame with g10 := not_unwritten hp }⟩
  pollCnt hp _ _ _ ht := ⟨{ ht.steady with }, { ht.frame with g10 := not_unwritten hp }⟩
  widx hp _ _ ht := ⟨{ ht.steady with }, { ht.frame with g10 := not_unwritten hp }⟩
  crc hi dev size hsize := by
    have hp : i.mayWrite .image = true := by cases i <;> cases hi; rfl
    exact keeps_crcRegisters (framing_onLine i s s₀) (.inl fun _ ht => ht.steady.code ▸ hsize)
      (fun _ ht => ⟨{ ht.steady with }, { ht.frame with g10 := not_unwritten hp }⟩)
      (fun _ _ ht => ⟨{ ht.steady with }, { ht.frame with g10 := not_unwritten hp }⟩)
      (fun _ _ ht => ⟨{ ht.steady with }, { ht.frame with g10 := not_unwritten hp }⟩) fun _ ht => ht.frame
  seq hp _ q _ ht := ⟨{ ht.steady with }, ht.frame.seqTo hp q⟩
  short' hp _ _ _ ht := { ht.frame with seq := not_unwritten hp }
  link hp _ _ ht := by
    have hr : i.mayWrite .rate = true := by
      cases i with
      | reqSetLinkBaud | reqInit => rfl
      | _ => cases hp
    exact ⟨⟨{ ht.steady with }, { ht.frame with rate := not_unwritten hr }⟩,
      ⟨{ ht.steady with }, { ht.frame with linkBaud := not_unwritten hp }⟩⟩
  lines hp _ _ ht := by
    have hr : i.mayWrite .lineReset = true := by
      cases i with
      | reqResetAndRun | reqInit => rfl
      | _ => cases hp
    exact ⟨⟨{ ht.steady with }, { ht.frame with resetLine := not_unwritten hp }⟩,
      ⟨{ ht.steady with }, { ht.frame with lineReset := not_unwritten hr }⟩⟩
  wiring hp _ _ ht := ⟨{ ht.steady with }, { ht.frame with wiring := not_unwritten hp }⟩

/-! ## INIT -/

variable {proto rate mv verbose : Nat} {delayed : Bool}

theorem framing_onInit (hi : i = .reqInit proto rate mv delayed verbose) (s s₀ : State) :
    OnInit s₀ (Framing i s s₀) (FrameStop i s) where
  toOnLine := framing_onLine i s s₀
  rate _ _ ht := ⟨{ ht.steady with }, { ht.frame with rate := not_unwritten (hi ▸ rfl) }⟩
  parity _ _ ht := ⟨{ ht.steady with }, { ht.frame with parity := not_unwritten (hi ▸ rfl) }⟩
  drive _ sig b ht := by
    refine ⟨ht.steady.drive sig b, ?_⟩
    cases sig
    · exact { ht.frame with resetLine := not_unwritten (hi ▸ rfl) }
    · exact { ht.frame with clockLine := not_unwritten (hi ▸ rfl) }
  driven _ sig b ht := by
    refine ⟨ht.steady.driven sig b, ?_⟩
    cases sig
    · exact { ht.frame with lineReset := not_unwritten (hi ▸ rfl) }
    · exact { ht.frame with lineClock := not_unwritten (hi ▸ rfl) }
  linkBaud _ _ ht := ⟨{ ht.steady with }, { ht.frame with linkBaud := not_unwritten (hi ▸ rfl) }⟩
  steady _ ht := ht.steady
  status _ _ ht := ⟨{ ht.steady with }, { ht.frame with status := not_unwritten (hi ▸ rfl) }⟩
  modes := framing_modes (hi ▸ rfl)
  seq _ q ht := ⟨{ ht.steady with }, ht.frame.seqTo (hi ▸ rfl) q⟩
  failed _ _ _ ht := ht.frame.seqTo (hi ▸ rfl) .idle
  cut _ _ _ _ _ ht := { ht.frame with seq := not_unwritten (hi ▸ rfl) }
  ready := .inr ⟨fun _ _ _ => trivial, fun _ ht => ht.frame.seqTo (hi ▸ rfl) .idle⟩

/-- The writes of R40 are INIT's own. -/
theorem Frame.openSession (hi : i = .reqInit proto rate mv delayed verbose) (h : Frame i s t) (n : Nat) :
    Frame i s (t.openSession n) :=
  { h with
    seq := not_unwritten (hi ▸ rfl), proto := not_unwritten (hi ▸ rfl), variant := not_unwritten (hi ▸ rfl)
    blockSz := not_unwritten (hi ▸ rfl), ident := not_unwritten (hi ▸ rfl), baud := not_unwritten (hi ▸ rfl) }

theorem Steady.openSession (h : Steady s₀ s) (n : Nat) : Steady (s₀.openSession n) (s.openSession n) :=
  { h with
    proto := rfl
    variant := congrArg (fun p => some (Params.variantOf p n)) h.params
    blockSz := congrArg (fun p => some (Params.blockSize p n)) h.params }

theorem framing_initBody (hi : i = .reqInit proto rate mv delayed verbose) (s s₀ : State) :
    Reaches (Framing i s s₀) (Framing i s (s₀.openSession proto)) (FrameStop i s) (initBody proto) := by
  refine init_reaches (framing_onInit hi s _) (fun _ hh => hh.kept.frame) ?_
  refine group_reaches (fun _ ht => ht.passed) (sessionWrites_aside proto) (fun t ht => ?_) fun _ _ _ _ => trivial
  rw [wrote_session]
  exact ⟨⟨ht.steady.openSession proto, ht.frame.openSession hi proto⟩, rfl⟩

/-! ## Every instruction -/

/-- The arguments a request latches are parts it may write (R34). -/
theorem frame_started (i : Instr) (s : State) : Frame i s (started i s) := by
  cases i with
  | reqInit =>
    exact { Frame.refl _ s with
      targetBaud := not_unwritten rfl, voltageMv := not_unwritten rfl, delayed := not_unwritten rfl
      protoIn := not_unwritten rfl, verbose := not_unwritten rfl }
  | reqSetBaud => exact { Frame.refl _ s with targetBaud := not_unwritten rfl, voltageMv := not_unwritten rfl }
  | reqRegion => exact { Frame.refl _ s with block := not_unwritten rfl }
  | _ => exact { Frame.refl _ s with }

theorem framing_ruleOf (hs₀ : s₀ = started i s) (ho : s.seqr.op = none) (ha : accepts i s = true) :
    Reaches (Framing i s s₀) (fun t => ∃ u, Frame i s u ∧ t = u.endRequest) (FrameStop i s) (ruleOf i) := by
  have hop : s₀.seqr.op = i.request := hs₀ ▸ started_op ho
  have hclosing {s₁ : State} (hop : s₁.seqr.op = i.request) : Closing i (Framing i s s₁) (FrameStop i s) :=
    ⟨fun _ ht => ht.steady.op.trans hop, fun _ ht => ht.passed, fun _ _ _ => trivial⟩
  have hframe {s₁ t : State} (ht : ∃ u, Framing i s s₁ u ∧ t = u.endRequest) : ∃ u, Frame i s u ∧ t = u.endRequest := by
    obtain ⟨u, hu, rfl⟩ := ht
    exact ⟨u, hu.frame, rfl⟩
  by_cases hi : i.request = some .init
  · cases i with
    | reqInit proto =>
      exact (ruleOf_reaches (hclosing (s₁ := s₀.openSession proto) hop) (framing_initBody rfl s s₀)).mono fun _ => hframe
    | _ => cases hi
  · exact (ruleOf_reaches (hclosing hop) ((framing_onRule i s s₀).body_reaches hs₀ ha hi)).mono fun _ => hframe

/-- How an instruction that is taken ends where no Engine reset arrives. -/
theorem exec_ran (hn : s.noReset) (ho : s.seqr.op = none) (ha : accepts i s = true)
    (hb : Reaches I (fun t => ∃ u, J u ∧ t = u.endRequest) E (ruleOf i)) (hI : I (started i s)) (h : exec i s = .next t) :
    Ended J (fun w u => w ≠ .reset ∧ E w u) t := by
  have hrule : Reaches (fun u => u = started i s) (fun t => ∃ u, J u ∧ t = u.endRequest) (fun w u => w ≠ .reset ∧ E w u)
      (ruleOf i) := by
    rintro _ rfl
    have hk := hb _ hI
    have hr := spared_ruleOf i ha _ (Spared.started hn)
    cases hm : ruleOf i (started i s) with
    | ok a t => rw [hm] at hk; exact hk
    | error w t => rw [hm] at hk hr; exact ⟨hr.1, hk⟩
  rw [exec_taken ho ha] at h
  obtain ⟨t', ht', hend⟩ | ⟨f, u, -, hf⟩ := finish_ended hrule rfl
  · cases h.symm.trans ht'
    exact hend
  · cases h.symm.trans hf

theorem frame_turnAway (i : Instr) (s : State) : Frame i s (s.turnAway i) := by
  unfold State.turnAway
  cases i.request <;> exact { Frame.refl i s with }

/-- Whatever the line does, an instruction keeps its frame where no Engine reset arrives. -/
theorem exec_frame (hn : s.noReset) (h : exec i s = .next t) : Frame i s t := by
  by_cases hacc : s.seqr.op = none ∧ accepts i s = true
  · obtain ⟨ho, ha⟩ := hacc
    cases exec_ran hn ho ha (framing_ruleOf rfl ho ha) ⟨Steady.refl _, frame_started i s⟩ h with
    | done u hu => exact { hu with }
    | raised e u hu =>
      have hf : Frame i s u := hu.2
      exact { hf with }
    | held u hu => exact hu.2
    | reset u hu => exact absurd rfl hu.1
  · rw [exec_turned_away hacc] at h
    cases h
    exact frame_turnAway i s

theorem exec_eq_framed (hn : s.noReset) (h : exec i s = .next t) : t = Instr.framed i s t := (exec_frame hn h).eq_framed

/-! ## The session an INIT opens -/

/-- However INIT stops, but by an Engine reset, its session is the one it opened. -/
def OpenedStop (s₁ : State) : Stop → State → Prop
  | .raised _, t | .held, t => Steady s₁ t
  | .reset, _ | .faulted _, _ => True

theorem steady_world (s₀ : State) : World s₀ (Steady s₀) where
  steady _ hs := hs
  alike _ _ ha hs := ha.steady hs
  passed _ hs := hs.passed
  log _ _ _ hs := { hs with }
  sent _ _ _ hs := { hs with }

theorem opened_initStops (s₀ : State) : InitStops s₀ (Steady s₀) (OpenedStop s₀) where
  reset _ _ _ := trivial
  io _ hs := hs
  short _ _ _ hs := { hs with }
  timeout _ hs := hs
  failed _ _ _ hs _ := hs
  cut _ _ _ _ _ hs _ := { hs with }
  ready := .inr ⟨fun _ _ _ => trivial, fun _ hs => hs⟩

theorem opened_ruleOf (ho : s.seqr.op = none) :
    Reaches (Steady (started (.reqInit proto rate mv delayed verbose) s))
      (fun t => ∃ u, Steady ((started (.reqInit proto rate mv delayed verbose) s).openSession proto) u ∧ t = u.endRequest)
      (OpenedStop ((started (.reqInit proto rate mv delayed verbose) s).openSession proto))
      (ruleOf (.reqInit proto rate mv delayed verbose)) := by
  refine ruleOf_reaches ⟨fun t ht => ht.op.trans (started_op ho), fun _ ht => ht.passed, fun _ _ _ => trivial⟩ ?_
  refine init_reaches ((steady_world _).onInit (opened_initStops _)) (fun _ hh => hh.kept) ?_
  refine group_reaches (fun _ ht => ht.passed) (sessionWrites_aside proto) (fun t ht => ?_) fun _ _ _ _ => trivial
  rw [wrote_session]
  exact ⟨ht.openSession proto, rfl⟩

/-- An accepted INIT leaves the session it opened, however it ends (R18, R19, R40). -/
theorem exec_reqInit_session (hn : s.noReset) (ho : s.seqr.op = none) (ha : rateOk rate mv s = true)
    (h : exec (.reqInit proto rate mv delayed verbose) s = .next t) :
    t.seqr.proto = some proto ∧ t.seqr.variant = some (s.params.variantOf proto) ∧
      t.seqr.blockSz = some (s.params.blockSize proto) := by
  have hopened {u : State} (hu : Steady ((started (.reqInit proto rate mv delayed verbose) s).openSession proto) u) :
      u.seqr.proto = some proto ∧ u.seqr.variant = some (s.params.variantOf proto) ∧
        u.seqr.blockSz = some (s.params.blockSize proto) := ⟨hu.proto, hu.variant, hu.blockSz⟩
  cases exec_ran (i := .reqInit proto rate mv delayed verbose) hn ho ha (opened_ruleOf ho) (Steady.refl _) h with
  | done u hu => exact hopened (u := u) hu
  | raised e u hu => exact hopened (u := u) hu.2
  | held u hu => exact hopened hu.2
  | reset u hu => exact absurd rfl hu.1

/-! ## The obligations -/

/-- Settles O56: the session is a part of INIT alone, and `SEQ` one of INIT, of the two units of the handshake and of
RESET_AND_RUN. -/
theorem sequencerMovers : Obligations.SequencerMovers := by
  constructor
  · intro i s t hn h hi
    have hf := exec_frame hn h
    have hsession : i.mayWrite .session = false := by
      cases i with
      | reqInit => exact absurd rfl hi
      | _ => rfl
    refine ⟨hf.proto hsession, hf.variant hsession, hf.blockSz hsession, fun hrun hsync hmode => hf.seq ?_⟩
    cases i with
    | reqInit => exact absurd rfl hi
    | sync => exact absurd rfl hsync
    | g10ModeSet => exact absurd rfl hmode
    | reqResetAndRun => exact absurd rfl hrun
    | _ => rfl
  · intro s t proto rate mv verbose delayed hn h
    refine ⟨fun ho ha => ?_, fun hbad => ?_⟩
    · obtain ⟨hp, hv, hb⟩ := exec_reqInit_session hn ho ha h
      refine ⟨hp, hb, ?_⟩
      rw [regValue, hv]
      cases s.params.variantOf proto <;> rfl
    · have hrefused : ¬ (s.seqr.op = none ∧ accepts (.reqInit proto rate mv delayed verbose) s = true) := fun hacc => by
        obtain ho | ha := hbad
        · exact ho hacc.1
        · cases ha.symm.trans hacc.2
      rw [exec_turned_away hrefused] at h
      cases h
      rfl

/-- Settles O59: each framed command writes its parts only. -/
theorem commandFrames : Obligations.CommandFrames := by
  intro s t a e bytes code volt b off hn
  refine ⟨?_, ?_, ?_, exec_eq_framed hn, ?_, ?_⟩
  · rintro (h | h | h | h) <;> exact exec_eq_framed hn h
  · rintro (h | h) <;> exact exec_eq_framed hn h
  · rintro (h | h) <;> exact exec_eq_framed hn h
  · rintro (h | h) <;> exact exec_eq_framed hn h
  · rintro (h | h | h | h) <;> exact exec_eq_framed hn h

/-- Settles O60: each of the remaining instructions writes its parts only. -/
theorem otherFrames : Obligations.OtherFrames := by
  intro s t proto rate mv verbose mode size delayed last bytes cm b base b0 b1 b2 b3 hn
  refine ⟨?_, ?_, ?_, exec_eq_framed hn, exec_eq_framed hn, exec_eq_framed hn, exec_eq_framed hn, exec_eq_framed hn⟩
  · rintro (h | h | h | h | h) <;> exact exec_eq_framed hn h
  · rintro (h | h) <;> exact exec_eq_framed hn h
  · rintro (h | h | h | h) <;> exact exec_eq_framed hn h

end Sys2Proof.Machine
end

section
/-! PROOF. The vectors of the spec, the request port's refusals (R78, R79, I5), the raising of an error (R158), the result view (R42)
and the Caller's buffers (R45, R55). -/

namespace Sys2Proof.Machine

variable {i : Instr} {s t u : State}

/-! ## The spec's vectors -/

/-- Settles O2: the words of the spec, decoded with the suggested parameters. -/
theorem specWordsDecode : Obligations.SpecWordsDecode := by
  unfold Obligations.SpecWordsDecode
  decide +kernel

/-- Settles O37: the vectors of V-G10. -/
theorem crcVectors : Obligations.CrcVectors := by
  intro p hx
  have hrun (bytes : List Byte) : crc16 p bytes = crcRun p.crcInit bytes := by
    rw [crc16, hx]
    exact BitVec.xor_zero
  refine ⟨fun hi => ?_, fun hi => ?_⟩ <;> simp only [hrun, hi] <;> decide +kernel

/-- Settles O46: R41's table. -/
theorem resetValues : Obligations.ResetValues := fun _ => ⟨rfl, rfl, rfl, rfl, rfl, rfl, rfl, rfl⟩

/-! ## One step -/

/-- Settles O45: what a presented unit decodes to is run, and a primitive leads to the next or to the outcome. -/
theorem stepRunsDecoded : Obligations.StepRunsDecoded := by
  intro s port bytes rest i
  refine ⟨fun hs hd => ?_, fun hs => ?_, fun k => ⟨fun u hu => ?_, fun hn => ?_⟩⟩
  · rw [step, hs]
    show present port bytes { s with inputs := rest } = _
    simp only [present, hd]
  · rw [step, hs]
  · rw [primitiveStep, hu]
  · rw [primitiveStep, hn]

/-! ## Refusals -/

/-- Settles O39: each way a precondition fails makes `accepts` false. -/
theorem preconditionsRefuse : Obligations.PreconditionsRefuse := by
  intro s proto rate mv verbose off size delayed a e b mode
  have hrefused (i : Instr) {r : Req} (hi : i.request = some r) (ha : accepts i s = false) :
      exec i s = .next { s with err := { s.err with kind := .badRequest, op := some r.code } } := exec_refused hi ha
  refine ⟨fun h => ?_, fun h => ?_, fun h => ?_, fun h => ?_, fun h => ?_, fun h => ?_, fun bs hbs h => ?_, fun h => ?_⟩
  · have hr : rateOk rate mv s = false := by
      rw [rateOk, Bool.and_eq_false_iff]
      exact h.imp (fun h => by rw [h]; rfl) fun h => decide_eq_false (Nat.not_le.2 h)
    exact ⟨hrefused (.reqInit proto rate mv delayed verbose) rfl hr,
      hrefused (.reqSetBaud rate mv) rfl (by simp [accepts, baudOk, hr])⟩
  · have hr : framedReady s = false := by
      rw [framedReady, Bool.and_eq_false_iff]
      exact h.imp (fun h => by simpa using h) fun h => by simpa using h
    have hrange : rangeReady a e s = false := by rw [rangeReady, hr]; rfl
    have hsource : sourceReady a e b off s = false := by rw [sourceReady, hrange]; rfl
    exact ⟨hrefused .reqResetCmd rfl hr, hrefused (.reqSetBaud rate mv) rfl (by simp [accepts, baudOk, hr]),
      hrefused .reqSignature rfl (by simp [accepts, signatureReady, hr]), hrefused (.reqBlockErase a) rfl hr,
      hrefused (.reqBlankCheck a e) rfl hrange, hrefused (.reqChecksum a e) rfl hrange,
      hrefused (.reqBlockProgram a e b off) rfl hsource, hrefused (.reqBlockVerify a e b off) rfl hsource,
      hrefused (.reqRegion mode b a size) rfl (by simp [accepts, regionReady, hr])⟩
  · exact hrefused .reqSignature rfl (by simp [accepts, signatureReady, h])
  · have hrange : rangeReady a e s = false := by simp [rangeReady, rangeOk, h]
    have hsource : sourceReady a e b off s = false := by rw [sourceReady, hrange]; rfl
    exact ⟨hrefused (.reqBlankCheck a e) rfl hrange, hrefused (.reqChecksum a e) rfl hrange,
      hrefused (.reqBlockProgram a e b off) rfl hsource, hrefused (.reqBlockVerify a e b off) rfl hsource⟩
  · have hsource : sourceReady a e b off s = false := by
      rw [sourceReady, sourceOk, rangeLength, decide_eq_false (Nat.not_le.2 h), Bool.and_false]
    exact ⟨hrefused (.reqBlockProgram a e b off) rfl hsource, hrefused (.reqBlockVerify a e b off) rfl hsource⟩
  · refine hrefused (.reqRegion mode b a size) rfl ?_
    rw [accepts, regionReady, regionOk]
    cases s.seqr.blockSz <;> simp [h]
  · refine hrefused (.reqRegion mode b a size) rfl ?_
    rw [accepts, regionReady, regionOk, hbs]
    show (framedReady s && (decide (size ≤ (s.buffer b).size) && decide (a.toNat + size / bs * bs ≤ 2 ^ 24))) = false
    rw [decide_eq_false (Nat.not_le.2 h), Bool.and_false, Bool.and_false]
  · have hr : imageReady size s = false := by
      rw [imageReady, g10Ready, imageOk, Bool.and_eq_false_iff, Bool.and_eq_false_iff]
      obtain h | h | h := h
      · exact .inl (.inl (by simpa using h))
      · exact .inl (.inr (by simpa using h))
      · exact .inr (by simpa using h)
    exact ⟨hrefused (.reqG10EraseWrite size) rfl (by simp [accepts, wordsReady, hr]), hrefused (.reqG10CrcCheck size) rfl hr⟩

theorem ofCode_unknown {code : Byte} (h : code = 0x00#8 ∨ 0x0E#8 < code) : Req.ofCode code = none := by
  rw [Req.ofCode, List.find?_eq_none]
  intro r _
  simp only [beq_iff_eq]
  rintro rfl
  revert h
  cases r <;> decide

theorem present_request_error {code : Byte} {args : List Byte} {r : Reject}
    (h : decode s.params .request (code :: args) = .error r) : present .request (code :: args) s = .next (s.refuse code) := by
  simp only [present, h]

/-- Settles O40: what does not decode is refused by the port it stands on, and a response goes to decode. -/
theorem unknownCodeRefused : Obligations.UnknownCodeRefused := by
  intro s code args
  refine ⟨fun h => ?_, fun r h => present_request_error h, fun port bytes r h hreq hresp => ?_, fun bytes r h ho hb => ?_⟩
  · refine present_request_error (r := .unknownCode) ?_
    simp only [decode, parse, decodeRequest, ofCode_unknown h]
  · simp only [present, h]
    cases port with
    | request => exact absurd rfl hreq
    | response => exact absurd rfl hresp
    | command | data | raw => rfl
  · simp only [present, h]
    exact runUnit_run ho hb

/-! ## Raising an error -/

/-- Settles O41: `takeError` written out, at the state the rule has reached, or at that state with `SEQ` at IDLE. -/
theorem raiseWritesErrorRegisters : Obligations.RaiseWritesErrorRegisters := fun _ kind _ _ _ h =>
  ⟨⟨_, finish_raised h, rfl, rfl, rfl, rfl⟩, ⟨_, finish_raised (handshakePart_raised (k := kind) h), rfl, rfl, rfl, rfl⟩⟩

/-! ## A held INIT -/

/-- Whatever is presented to a held INIT is turned away (R79). -/
theorem exec_held (hh : s.Held) (i : Instr) : exec i s = .next (s.turnAway i) :=
  exec_turned_away fun h => by cases hh.op.symm.trans h.1

theorem held_turnAway (hh : s.Held) (i : Instr) : (s.turnAway i).Held ∧ (s.turnAway i).hist = s.hist := by
  unfold State.turnAway
  cases i.request <;> exact ⟨{ hh with }, rfl⟩

theorem present_held {port : Port} {bytes : List Byte} (hh : s.Held) (h : present port bytes s = .next t) :
    t.Held ∧ t.hist = s.hist := by
  unfold present at h
  split at h
  · rw [exec_held hh] at h
    cases h
    exact held_turnAway hh _
  · split at h
    · cases h; exact ⟨{ hh with }, rfl⟩
    · cases h; exact ⟨hh, rfl⟩
    · rw [runUnit_refused (.inl (by rw [hh.op]; nofun))] at h
      cases h; exact ⟨{ hh with }, rfl⟩
    · cases h; exact ⟨{ hh with }, rfl⟩

theorem callerMove_held (hh : s.Held) : callerMove s u ≠ .next t := by
  rw [callerMove, hh.op]
  nofun

/-- Settles O24: with a request in progress every other input is refused, or moves the Transport only. -/
theorem onlyReadyLiftsHold : Obligations.OnlyReadyLiftsHold := by
  intro x s t hh hready hreset h
  cases x with
  | present port bytes => exact present_held hh h
  | openTransport | allocate => exact absurd h (callerMove_held hh)
  | closeTransport | deliver =>
    cases h
    exact ⟨{ hh with }, rfl⟩
  | ready level =>
    cases level
    · cases h
      exact ⟨{ hh with notReady := rfl }, rfl⟩
    · exact absurd rfl hready
  | store b off bytes =>
    simp only [takeInput, storeBuffer] at h
    split at h
    · exact absurd h (callerMove_held hh)
    · cases h
  | engineReset => exact absurd rfl hreset
  | read r =>
    simp only [takeInput, viewReg, hh.op] at h
    cases h

/-! ## The result view -/

/-- What is recorded, where `VERBOSE` held a value at every event (R174). -/
theorem recorded_ok : ∀ ds : List Emitted, (∀ d ∈ ds, d.level ≠ none) →
    recorded ds = .ok ((ds.filter fun d => d.level.any (0 < ·)).map Emitted.event)
  | [], _ => rfl
  | ⟨none, d⟩ :: r, h => absurd rfl (h ⟨none, d⟩ (by simp))
  | ⟨some v, d⟩ :: r, h => by
    rw [recorded, recorded_ok r fun d hd => h d (by simp [hd])]
    by_cases hv : 0 < v <;> simp [hv]

theorem recorded_error : ∀ ds : List Emitted, (∃ d ∈ ds, d.level = none) → recorded ds = .error (.readNone .VERBOSE)
  | [], h => by simp at h
  | ⟨none, d⟩ :: r, _ => rfl
  | ⟨some v, d⟩ :: r, h => by
    rw [recorded, recorded_error r (by simpa using h)]

/-- After a reset the view faults for every register but four (R41). -/
theorem view_after_reset (p : Params) (r : Reg) : takeInput (.read r) (State.resetWith p) = .fault (.readNone r) ↔
    r ≠ .SEQ ∧ r ≠ .OP ∧ r ≠ .ID_VALID ∧ r ≠ .ERR := by
  have hview : takeInput (.read r) (State.resetWith p) = match regValue (State.resetWith p) r with
      | some v => .next { State.resetWith p with view := some (r, v) }
      | none => .fault (.readNone r) := rfl
  rw [hview]
  cases r with
  | SEQ | OP | ID_VALID | ERR => exact ⟨nofun, fun h => by simp at h⟩
  | _ => exact ⟨fun _ => ⟨nofun, nofun, nofun, nofun⟩, fun _ => rfl⟩

/-- Settles O49: the view shows the register's field, and the record reads `VERBOSE` once for each event. -/
theorem noneRegisterFaults : Obligations.NoneRegisterFaults := by
  refine ⟨fun s r ho => ⟨fun v hv => ?_, fun hn => ?_⟩, fun s r => ?_, fun p r => ?_, fun ds => ⟨⟨fun h => ?_, recorded_error ds⟩,
    recorded_ok ds⟩⟩
  · simp only [takeInput, viewReg, ho, hv]
    rfl
  · simp only [takeInput, viewReg, ho, hn]
    rfl
  · intro byte half addr level kind
    have hkind : ErrKind.code = kind := funext fun k => by cases k <;> rfl
    cases r with
    | SEQ => exact congrArg (some ∘ RegVal.num) (by cases s.seqr.seq <;> rfl)
    | OP =>
      refine congrArg (some ∘ RegVal.num) ?_
      cases s.seqr.op with
      | none => rfl
      | some r => cases r <;> rfl
    | VARIANT => exact congrArg (Option.map · s.seqr.variant) (funext fun v => by cases v <;> rfl)
    | CMODE => exact congrArg (Option.map · s.blk.cmode) (funext fun m => by cases m <;> rfl)
    | ERR => exact congrArg (some ∘ RegVal.num) (congrFun hkind _)
    | ERR_CAUSE => exact congrArg (fun f => s.err.cause.map fun k => RegVal.num (f k)) hkind
    | _ => rfl
  · exact view_after_reset p r
  · by_contra hn
    push Not at hn
    rw [recorded_ok ds hn] at h
    cases h

/-! ## The Caller's buffers -/

theorem storeBuffer_next {b : Buf} {off : Nat} {bytes : List Byte} (h : storeBuffer b off bytes s = .next t) :
    ∃ m, (s.buffer b).write off bytes = some m ∧ t = s.withBuffer b m := by
  unfold storeBuffer at h
  split at h
  · next m hm => exact ⟨m, hm, callerMove_next h⟩
  · cases h

theorem buffer_withBuffer (s : State) (b : Buf) (m : Memory) : (s.withBuffer b m).buffer b = m := by cases b <;> rfl

/-- Settles O50: a read after a write, byte by byte. -/
theorem storeThenRead : Obligations.StoreThenRead := by
  intro s t b off bytes hw hc h
  obtain ⟨m, hm, rfl⟩ := storeBuffer_next h
  rw [buffer_withBuffer]
  have hsize : off + bytes.length ≤ (s.buffer b).size ∧ m.size = (s.buffer b).size := by
    unfold Memory.write at hm
    split at hm
    · next hle => cases hm; exact ⟨hle, rfl⟩
    · cases hm
  obtain ⟨hle, hsz⟩ := hsize
  have hget := get_write hw hm
  refine ⟨?_, hsz, fun i hi => ?_⟩
  · have hc' : (s.withBuffer b m).calm := by cases b <;> exact hc
    rw [memRead_ok hc' (by rw [buffer_withBuffer, hsz]; exact hle), buffer_withBuffer]
    congr 1
    refine List.ext_getElem? fun j => ?_
    by_cases hj : j < bytes.length
    · rw [getElem_slice (wf_write hw hm) hj, hget, if_pos (by omega)]
      simp [hj]
    · simp [hj]
  · rw [hget, if_neg (by omega)]

end Sys2Proof.Machine
end

section
/-! PROOF. The pieces of a transfer and the frame codec on the line (R89, R92, R106). -/

namespace Sys2Proof

/-- All but the last piece of a transfer are full. -/
theorem length_dropLast_chunks : ∀ {k : Nat} {bytes c : List Byte}, k = frameCount bytes.length →
    c ∈ (chunks k bytes).dropLast → c.length = 256
  | 0, _, _, _, h => by simp [chunks] at h
  | 1, _, _, _, h => by simp [chunks] at h
  | k + 2, bytes, c, hk, h => by
    unfold frameCount at hk
    rw [chunks, List.dropLast_cons_of_ne_nil (by simp [chunks]), List.mem_cons] at h
    obtain rfl | h := h
    · simp only [List.length_take]; omega
    · exact length_dropLast_chunks (by simp only [frameCount, List.length_drop]; omega) h

end Sys2Proof

namespace Sys2Proof.Machine

variable {i : Instr} {s t t' : State} {r : Req} {e : Err}

/-- Settles O5: the pieces are counted, put together again and measured. -/
theorem transferPieces : Obligations.TransferPieces := fun bytes =>
  ⟨length_framesOf bytes, flatten_framesOf bytes, fun _ h => framesOf_bounds h, fun _ h => length_dropLast_chunks rfl h⟩

/-! ## The outcome of an instruction whose body's run is known -/

theorem exec_unit_ok (hi : i.request = none) (ho : s.seqr.op = none) (ha : accepts i s = true) (hm : body i s = .ok () t) :
    exec i s = .next t := by
  rw [exec_taken ho ha]
  unfold ruleOf started
  rw [hi]
  exact finish_ok hm

theorem exec_unit_raised (hi : i.request = none) (ho : s.seqr.op = none) (ha : accepts i s = true)
    (hm : body i s = .error (.raised e) t) : exec i s = .next (t.takeError e) := by
  rw [exec_taken ho ha]
  unfold ruleOf started
  rw [hi]
  exact finish_raised hm

theorem exec_request_ok (hi : i.request = some r) (ho : s.seqr.op = none) (ha : accepts i s = true)
    (hm : body i (latched i (s.accept r)) = .ok () t) (hc : t.calm) (ht : t.endRequest = t') : exec i s = .next t' := by
  rw [exec_taken ho ha, ← ht]
  unfold ruleOf started
  rw [hi]
  exact finish_request hm hc

theorem exec_request_raised (hi : i.request = some r) (ho : s.seqr.op = none) (ha : accepts i s = true)
    (hm : body i (latched i (s.accept r)) = .error (.raised e) t) : exec i s = .next (t.takeError e) := by
  rw [exec_taken ho ha]
  unfold ruleOf started
  rw [hi]
  exact finish_raised (bind_error hm)

/-- An error taken with no request in progress has no code. -/
theorem takeError_noOp (ho : s.seqr.op = none) (e : Err) :
    (s.takeError e).err = { kind := e.kind, status := e.status, addr := e.addr, cause := e.cause } ∧
    s.takeError e = { s with err := (s.takeError e).err, diags := (s.takeError e).diags } := by
  rw [takeError_eq, ho, noOp_eq ho]
  exact ⟨rfl, rfl⟩

/-! ## Reading -/

/-- The reads of `RecvExact` take one piece after the other (R92). -/
theorem recvLoop_pieces {rest : List Tick} : ∀ {pieces : List (List Byte)} {fuel : Nat} (acc : List Byte) {s : State},
    s.line.rxq = [] → (∀ c ∈ pieces, c ≠ []) → pieces.flatten.length ≤ fuel → s.script = pieces.map delivers ++ rest →
      recvLoop fuel pieces.flatten.length acc s = .ok (acc ++ pieces.flatten) (s.onLine rest [] [])
  | [], fuel, acc, s, hq, _, _, hs => by
    have hend : s.onLine rest [] [] = s := by
      simp only [List.map_nil, List.nil_append] at hs
      simp [State.onLine, ← hs, ← hq]
    rw [hend]
    simpa using recvLoop_zero fuel acc s
  | c :: r, fuel, acc, s, hq, hne, hl, hs => by
    have hc : 0 < c.length := List.length_pos_iff.2 (hne c (by simp))
    simp only [List.flatten_cons, List.length_append] at hl ⊢
    obtain ⟨k, rfl⟩ : ∃ k, fuel = k + 1 := ⟨fuel - 1, by omega⟩
    have hr := readBytes_delivers (c.length + r.flatten.length) hs
    rw [hq, List.nil_append, List.take_of_length_le (by omega), List.drop_of_length_le (by omega)] at hr
    rw [recvLoop, if_neg (by omega), bind_ok hr, if_neg (by simpa using hne c (by simp)),
      show c.length + r.flatten.length - c.length = r.flatten.length by omega,
      recvLoop_pieces (acc ++ c) rfl (fun d hd => hne d (by simp [hd])) (by omega) rfl]
    simp

/-- Settles O7: one read for each piece. -/
theorem recvExactPieces : Obligations.RecvExactPieces := by
  intro s pieces n rest hc hne hn hs
  obtain ⟨ho, hq, hm⟩ := hc
  subst hn
  exact (transport_bind hm ho _).trans (recvLoop_pieces [] hq hne (Nat.le_refl _) hs)

/-! ## Decoding -/

theorem declen_le (b : Byte) : declen b ≤ 256 := by
  unfold declen
  split <;> omega

/-- No LEN stands for more than the largest response, so R89's header has two errors. -/
theorem checkHeader_eq (p : Params) (n : Nat) (a b : Byte) : checkHeader p n [a, b] =
    if a ≠ p.stx then some .formatError else if declen b ≠ n then some .lengthMismatch else none := by
  have hle : ¬ declen b > Config.maxRespLen := Nat.not_lt.2 (declen_le b)
  unfold checkHeader
  rw [byteAt_zero, byteAt_one, if_neg hle]

theorem byteAt_take {l : List Byte} {i n : Nat} (h : i < n) : byteAt (l.take n) i = byteAt l i := by
  simp [byteAt, List.getElem?_take_of_lt h]

/-- The checks behind the header, as R89 states them over the whole frame. -/
theorem checkRest_take (p : Params) (a b : Byte) {n : Nat} {r : List Byte} (h : n + 2 ≤ r.length) :
    checkRest p b n (r.take (n + 2)) =
      if byteAt (a :: b :: r) (n + 3) ≠ p.etx ∧ byteAt (a :: b :: r) (n + 3) ≠ p.etb then some .formatError
      else if byteSum (b :: r.take (n + 1)) ≠ 0#8 then some .checksumError else none := by
  have hlast : r.take (n + 1) = r.take n ++ [byteAt r n] := by
    rw [List.take_succ_eq_append_getElem (by omega)]
    simp [byteAt, List.getElem?_eq_getElem (show n < r.length by omega)]
  have hsum : byteSum (b :: r.take (n + 1)) = b + byteSum (r.take n) + byteAt r n := by
    rw [hlast]
    simp [byteSum, BitVec.add_assoc]
  rw [hsum, checkRest, byteAt_take (by omega), byteAt_take (by omega), List.take_take, Nat.min_eq_left (by omega)]
  rfl

/-- Settles O6: the header is read and checked, then the rest. -/
theorem decodePriority : Obligations.DecodePriority := by
  intro s n h0 h hs ho hc
  have hcalm (q : List Byte) : (s.onLine [] q []).calm := hc
  have hread := recvExact_silent (Nat.le_refl 2) hc ho hs
  unfold decodeResponse
  generalize hq : s.line.rxq = q at hread ⊢
  dsimp only
  match q, hq with
  | [], _ | [_], _ =>
    rw [if_neg (by simp)] at hread
    exact bind_error hread
  | a :: b :: r, hq =>
    rw [if_pos (by simp)] at hread
    rw [bind_ok hread, getState_bind, if_neg (by simp)]
    simp only [List.take_succ_cons, List.take_zero, List.drop_succ_cons, List.drop_zero, checkHeader_eq, byteAt_zero,
      byteAt_one, onLine_params]
    by_cases ha : a ≠ s.params.stx
    · simp only [if_pos ha, raise_calm (hcalm r)]
    by_cases hb : declen b ≠ n
    · simp only [if_neg ha, if_pos hb, raise_calm (hcalm r)]
    simp only [if_neg ha, if_neg hb, List.length_cons]
    have hrest := recvExact_silent (s := s.onLine [] r []) (n := n + 2) (by omega) (hcalm r) ho rfl
    rw [onLine_rxq, onLine_onLine, onLine_onLine] at hrest
    by_cases hl : r.length < n + 2
    · rw [if_neg (by omega)] at hrest
      rw [if_pos (by omega)]
      exact bind_error hrest
    rw [if_pos (by omega)] at hrest
    rw [if_neg (by omega), bind_ok hrest, getState_bind]
    simp only [onLine_params, checkRest_take s.params a b (Nat.not_lt.1 hl), List.append_nil]
    by_cases he : byteAt (a :: b :: r) (n + 3) ≠ s.params.etx ∧ byteAt (a :: b :: r) (n + 3) ≠ s.params.etb
    · simp only [if_pos he, raise_calm (hcalm _)]
    by_cases hsum : byteSum (b :: r.take (n + 1)) ≠ 0#8
    · simp only [if_neg he, if_pos hsum, raise_calm (hcalm _)]
    simp only [if_neg he, if_neg hsum, update_bind, log_onLine, List.take_take, Nat.min_eq_left (Nat.le_add_right n 2),
      List.nil_append]
    rfl

/-! ## The two rows of the codec -/

/-- Settles O8: the codec reads back what it wrote, and the row runs it on the frame it delivers. -/
theorem responseFrameLoopsBack : Obligations.ResponseFrameLoopsBack := by
  intro s bytes frame last rest hc h0 h hs
  obtain ⟨ho, hq, hm⟩ := hc
  have hframe : encodeData s.params bytes last = .ok (dataBytes s.params bytes last) := encodeData_ok s.params last h0 h
  have hback : decodeResponse bytes.length (s.receive (dataBytes s.params bytes last)) =
      .ok bytes (s.onLine rest [] [.rxResp bytes]) :=
    decodeResponse_ok (bytes := []) (s := s.receive (dataBytes s.params bytes last)) last hm ho rfl h0 h hs (by simp [hq])
  refine ⟨fun hf => ?_, fun hop ha => exec_unit_ok rfl hop ha ?_, fun ha => exec_turned_away fun h => ?_⟩
  · cases hframe.symm.trans hf
    exact hback
  · show takeResponse bytes last s = _
    rw [takeResponse, getState_bind]
    simp only [hframe]
    rw [update_bind, bind_ok hback]
    rfl
  · cases ha.symm.trans h.2

/-- Settles O9: the encoder's answer decides. -/
theorem dataFrameRow : Obligations.DataFrameRow := by
  intro s f bytes last rest hop
  have hraised {k : ErrKind} (ha : framedReady s = true) (hm : s.calm) (he : encodeData s.params bytes last = .error k) :
      exec (.dataFrame bytes last) s = .next (s.takeError { kind := k }) := by
    refine exec_unit_raised rfl hop ha ?_
    show sendData bytes last s = _
    rw [sendData, getState_bind, he]
    exact raise_calm hm _
  refine ⟨fun ha => exec_turned_away fun h => ?_, fun ha hc hf h0 h hs => exec_unit_ok rfl hop ha ?_, fun ha hm hn => ?_,
    fun ha hm hl => ?_⟩
  · cases ha.symm.trans h.2
  · exact sendData_ok hc h0 h (by rw [hf, length_dataBytes]) hs
  · subst hn
    exact ⟨_, hraised ha hm rfl, takeError_noOp hop _⟩
  · exact ⟨_, hraised ha hm (if_pos hl), takeError_noOp hop _⟩

end Sys2Proof.Machine
end

section
/-! PROOF. The framed commands, as rows and as requests, on a line that answers them (R95 to R110). -/

namespace Sys2Proof.Machine

variable {i : Instr} {s t : State} {f : List Byte → List Byte} {rest : List Tick} {a e : Addr}

/-- A request that ends leaves what its rule leaves at the state with the error registers cleared (R79). -/
theorem endRequest_answered (r : Req) (ho : s.seqr.op = none) (x : List Tick) (ev : List Event) (b : Byte) :
    ((s.accept r).answered x ev b).endRequest = s.cleared.answered x ev b := by
  rw [← endRequest_accept r ho]
  rfl

/-- Settles O10: `statusExchange_answered`, for a row and for its request. -/
theorem statusCommandsComplete : Obligations.StatusCommandsComplete := by
  intro s f rest a ho ha hc hf
  have answered {u : State} {o : Opcode} {q : List Byte} (hu : u.lineClear) (hq : q.length ≤ 255)
      (hs : u.script = commandTicks u.params f o q [Config.ack] ++ rest) :
      statusExchange o q u = .ok () (u.answered rest (commandEvents u.params o q [Config.ack]) Config.ack) :=
    (statusExchange_answered hu hf hq hs).trans (if_pos rfl)
  refine ⟨fun hs => ⟨exec_unit_ok rfl ho ha (answered hc (by simp) hs), ?_⟩,
    fun hs => ⟨exec_unit_ok rfl ho ha (answered hc (by simp) hs), ?_⟩⟩
  · exact exec_request_ok rfl ho ha (answered (u := s.accept .resetCmd) hc (by simp) hs) hc.2.2 (endRequest_answered _ ho ..)
  · exact exec_request_ok rfl ho ha (answered (u := s.accept .blockErase) hc (by simp) hs) hc.2.2 (endRequest_answered _ ho ..)

theorem setBaudRate_code {rate mv : Nat} {code : Byte} (h : s.params.baudCode rate = some code) :
    setBaudRate rate mv s = baudSetBody code (voltageByte mv) s := by
  rw [setBaudRate, getState_bind, h]

theorem baudOk_ready {rate mv : Nat} {code : Byte} (ha : framedReady s = true) (h : s.params.baudCode rate = some code)
    (hm : mv ≤ 25599) : baudOk rate mv s = true := by
  have hv : mv ≤ Config.voltageMax := hm
  simp [baudOk, rateOk, ha, h, hv]

theorem rangeReady_ready (ha : framedReady s = true) (h : a.toNat ≤ e.toNat) : rangeReady a e s = true := by
  simp [rangeReady, rangeOk, ha, h]

theorem sourceReady_ready {b : Buf} {off : Nat} (ha : framedReady s = true) (h : a.toNat ≤ e.toNat)
    (hb : off + (e.toNat - a.toNat + 1) ≤ (s.buffer b).size) : sourceReady a e b off s = true := by
  simp [sourceReady, sourceOk, rangeLength, rangeReady_ready ha h, hb]

theorem baudReady_ready (ha : framedReady s = true) : baudReady s = true := by
  simp only [framedReady, Bool.and_eq_true] at ha
  simp [baudReady, ha.1, ha.2]

theorem signatureReady_ready (ha : framedReady s = true) (h : s.ident.idValid = false) : signatureReady s = true := by
  simp [signatureReady, ha, h]

/-- Settles O11: a rejected status ends the command's rule at its first step. -/
theorem statusCommandsRejected : Obligations.StatusCommandsRejected := by
  intro s f rest a e buf off rate mv bytes code volt b x y ho ha hc hf hb answer rejects
  have rejected {u : State} {o : Opcode} {q : List Byte} (hu : u.lineClear) (hq : q.length ≤ 255)
      (hs : u.script = commandTicks u.params f o q [b] ++ rest) : statusExchange o q u =
        .error (.raised { kind := .deviceRejected, status := some b }) (u.answered rest (commandEvents u.params o q [b]) b) :=
    (statusExchange_answered hu hf hq hs).trans (if_neg hb)
  have hsource (hle : a.toNat ≤ e.toNat) (hz : off + (e.toNat - a.toNat + 1) ≤ (s.buffer buf).size) :
      sourceReady a e buf off s = true := sourceReady_ready ha hle hz
  refine ⟨fun hs => ⟨?_, ?_⟩, fun hs => ⟨?_, ?_⟩, fun hs => ⟨?_, fun hr hv hm => ?_⟩, fun hs hid => ⟨?_, ?_⟩,
    fun hs => ⟨?_, fun hle => ?_⟩, fun hs => ⟨?_, fun hle hz => ?_⟩, fun hs => ⟨?_, fun hle hz => ?_⟩⟩
  · exact exec_unit_raised rfl ho ha (rejected hc (by simp) hs)
  · exact exec_request_raised rfl ho ha (rejected (u := s.accept .resetCmd) hc (by simp) hs)
  · exact exec_unit_raised rfl ho ha (rejected hc (by simp) hs)
  · exact exec_request_raised rfl ho ha (rejected (u := s.accept .blockErase) hc (by simp) hs)
  · exact exec_unit_raised rfl ho (baudReady_ready ha) (baudSetBody_rejected hc hf hb hs)
  · subst hv
    refine exec_request_raised rfl ho (baudOk_ready ha hr hm) ((setBaudRate_code (by exact hr)).trans ?_)
    exact baudSetBody_rejected (s := latchBaud rate mv (s.accept .setBaud)) hc hf hb hs
  · exact exec_unit_raised rfl ho (signatureReady_ready ha hid) (bind_error (rejected hc (by simp) hs))
  · exact exec_request_raised rfl ho (signatureReady_ready ha hid)
      (bind_error (rejected (u := s.accept .signature) hc (by simp) hs))
  · exact exec_unit_raised rfl ho ha (bind_error (rejected hc (by simp) hs))
  · exact exec_request_raised rfl ho (rangeReady_ready ha hle)
      (bind_error (rejected (u := s.accept .checksum) hc (by simp) hs))
  · exact exec_unit_raised rfl ho ha (bind_error (rejected hc (by simp) hs))
  · exact exec_request_raised rfl ho (hsource hle hz)
      (bind_error (rejected (u := s.accept .blockProgram) hc (by simp) hs))
  · exact exec_unit_raised rfl ho ha (bind_error (rejected hc (by simp) hs))
  · exact exec_request_raised rfl ho (hsource hle hz)
      (bind_error (rejected (u := s.accept .blockVerify) hc (by simp) hs))

/-- Settles O12: `blankBody_answered` by the answer. -/
theorem blankCheckAnswers : Obligations.BlankCheckAnswers := by
  intro s f rest a e b ho ha hc hf hs events rejected
  have hunit (u : State) (hu : u.lineClear) (hs : u.script = commandTicks u.params f .blankCheck (blankPayload u.params a e) [b] ++ rest) :
      blankUnit a e u = match blankAnswer b with
        | some nb => .ok () ((u.answered rest (commandEvents u.params .blankCheck (blankPayload u.params a e) [b]) b).setNotBlank nb)
        | none => .error (.raised rejected)
          (u.answered rest (commandEvents u.params .blankCheck (blankPayload u.params a e) [b]) b) := by
    have h := blankBody_answered hu hf hs
    cases hb : blankAnswer b with
    | none => rw [hb] at h; exact bind_error h
    | some nb => rw [hb] at h; exact bind_ok h
  refine ⟨fun hb => ?_, fun hb hn => ?_⟩
  · have hans : blankAnswer b = some (b == 0x1B#8) := by
      obtain rfl | rfl := hb <;> rfl
    rw [hans] at hunit
    refine ⟨exec_unit_ok rfl ho ha (hunit s hc hs), fun hle => ?_⟩
    refine exec_request_ok rfl ho (rangeReady_ready ha hle) (hunit (s.accept .blankCheck) hc hs) hc.2.2 ?_
    rw [← endRequest_answered .blankCheck ho]
    rfl
  · have hans : blankAnswer b = none := by
      rw [blankAnswer, if_neg (by exact hb), if_neg (by exact hn)]
    rw [hans] at hunit
    exact ⟨exec_unit_raised rfl ho ha (hunit s hc hs),
      fun hle => exec_request_raised rfl ho (rangeReady_ready ha hle) (hunit (s.accept .blankCheck) hc hs)⟩

/-- Settles O13: `baudSetBody_answered`. -/
theorem baudSetCompletes : Obligations.BaudSetCompletes := by
  intro s f rest rate mv code volt freq vmode ho ha hc hf hs
  refine ⟨exec_unit_ok rfl ho (baudReady_ready ha) (baudSetBody_answered hc hf hs), fun hr hv hm => ?_⟩
  subst hv
  refine exec_request_ok rfl ho (baudOk_ready ha hr hm) ((setBaudRate_code (by exact hr)).trans
    (baudSetBody_answered (s := latchBaud rate mv (s.accept .setBaud)) hc hf hs)) (by exact hc.2.2) ?_
  rw [← endRequest_accept .setBaud ho]
  rfl

/-- An error that ends a request has the request's code (R158). -/
theorem takeError_accept (ho : s.seqr.op = none) (r : Req) (e : Err) : ((s.accept r).takeError e).err =
      { kind := e.kind, status := e.status, addr := e.addr, cause := e.cause, op := some r.code } ∧
    (s.accept r).takeError e = { s with err := ((s.accept r).takeError e).err, diags := ((s.accept r).takeError e).diags } := by
  rw [takeError_eq, accept_seqr, noOp_eq ho]
  exact ⟨rfl, rfl⟩

/-- Settles O14: the Transport's call, and then the register. -/
theorem setLinkBaudCompletes : Obligations.SetLinkBaudCompletes := by
  intro s rate rest ho hc
  refine ⟨fun hopen hs => ?_, fun h => ?_⟩
  · refine exec_request_ok rfl ho rfl (setLinkBaud_quiet (s := s.accept .setLinkBaud) hc hopen hs) hc ?_
    simp [State.endRequest, ho]
  · have hfails : setLinkBaud rate (s.accept .setLinkBaud) =
        .error (.raised { kind := .io }) { s.accept .setLinkBaud with script := rest } := by
      refine bind_error ?_
      obtain ⟨hopen, hs⟩ | ⟨hopen, rfl⟩ := h
      · exact control_fails hc hopen hs
      · have hm : s.moments = [] := hc
        rw [setBaud, control, bind_error (transport_closed (s := s.accept .setLinkBaud) hopen (by simp [State.undisturbed, hm]))]
        simp [hm]
    exact ⟨_, exec_request_raised rfl ho rfl hfails, takeError_accept (s := { s with script := rest }) ho _ _⟩

/-! ## The signature -/

/-- The fields of the 22-byte record (R75). -/
theorem identOf_record (p : Params) {code name fw : List Byte} (ce de : Addr) (hcode : code.length = 3)
    (hname : name.length = 10) (hfw : fw.length = 3) : identOf p (code ++ name ++ le3 ce ++ le3 de ++ fw) =
      { devCode := some code, devName := some name, fwVer := some fw, idValid := true, codeEnd := some ce,
        dataEnd := some de, codeSize := some (codeSizeOf ce), dataSize := some (dataSizeOf p de) } := by
  obtain ⟨c0, c1, c2, rfl⟩ := List.length_eq_three.1 hcode
  obtain ⟨f0, f1, f2, rfl⟩ := List.length_eq_three.1 hfw
  match name, hname with
  | [n0, n1, n2, n3, n4, n5, n6, n7, n8, n9], _ =>
    have hce : sigCodeEnd ([c0, c1, c2] ++ [n0, n1, n2, n3, n4, n5, n6, n7, n8, n9] ++ le3 ce ++ le3 de ++ [f0, f1, f2]) = ce :=
      ofLe3_le3 ce
    have hde : sigDataEnd ([c0, c1, c2] ++ [n0, n1, n2, n3, n4, n5, n6, n7, n8, n9] ++ le3 ce ++ le3 de ++ [f0, f1, f2]) = de :=
      ofLe3_le3 de
    rw [identOf, hce, hde]
    rfl

/-- Settles O15: `signatureBody_answered`, and what the record's fields are. -/
theorem signatureCompletes : Obligations.SignatureCompletes := by
  intro s f rest code name fw ce de ho ha hid hc hf hcode hname hfw hs events size ident
  have hd : (code ++ name ++ le3 ce ++ le3 de ++ fw).length = 22 := by simp [hcode, hname, hfw]
  have hident (u : State) (hu : u.params = s.params) :
      u.identify (code ++ name ++ le3 ce ++ le3 de ++ fw) = { u with ident := ident } := by
    rw [State.identify, identOf_record _ ce de hcode hname hfw, hu]
    rfl
  refine ⟨exec_unit_ok rfl ho (signatureReady_ready ha hid) ?_, exec_request_ok rfl ho (signatureReady_ready ha hid)
    (signatureBody_answered (s := s.accept .signature) hc hf hd hs) (by exact hc.2.2) ?_⟩
  · exact (signatureBody_answered hc hf hd hs).trans (congrArg _ (hident _ rfl))
  · rw [hident, ← endRequest_accept .signature ho]
    · rfl
    · rfl

/-- Settles O16: `checksumBody_answered`. -/
theorem checksumCompletes : Obligations.ChecksumCompletes := by
  intro s f rest a e d0 d1 ho ha hc hf hs events value result
  have hvalue : value16 s.params.cksumOrder d0 d1 = value := value16_eq _ d0 d1
  refine ⟨exec_unit_ok rfl ho ha ?_, fun hle => exec_request_ok rfl ho (rangeReady_ready ha hle)
    (checksumBody_answered (s := s.accept .checksum) hc hf hs) (by exact hc.2.2) ?_⟩
  · refine (checksumBody_answered hc hf hs).trans ?_
    rw [hvalue]
    rfl
  · rw [accept_params, hvalue, ← endRequest_accept .checksum ho]
    rfl

/-! ## Transfers -/

/-- The frames BLOCK_PROGRAM and BLOCK_VERIFY read are the pieces of the buffer's range. -/
theorem givesAll_source {b : Buf} {off : Nat} {bytes : List Byte} (hw : (s.buffer b).wf = true)
    (hb : off + (e.toNat - a.toNat + 1) ≤ (s.buffer b).size) (hbytes : bytes = (s.buffer b).slice off (e.toNat - a.toNat + 1)) :
    GivesAll s.code s.data (bufferFrames b off (rangeLength a e)) (framesOf bytes) := by
  subst hbytes
  exact givesAll_buffer hw hb

/-- Settles O17: `programBody_answered`, over the bytes of the row or of the buffer. -/
theorem programCompletes : Obligations.ProgramCompletes := by
  intro s f rest a e b off bytes ho ha hc hf hne hs
  refine ⟨exec_unit_ok rfl ho ha (programBody_answered (givesAll_operand ..) hc hf hne hs), fun hw hle hb hbytes => ?_⟩
  refine exec_request_ok rfl ho (sourceReady_ready ha hle hb) (programBody_answered (s := s.accept .blockProgram)
    (givesAll_source hw hb hbytes) hc hf hne hs) (by exact hc.2.2) ?_
  rw [← endRequest_accept .blockProgram ho]
  rfl

/-- Settles O18: `verifyBody_answered`, over the bytes of the row or of the buffer. -/
theorem verifyCompletes : Obligations.VerifyCompletes := by
  intro s f rest a e b off bytes ho ha hc hf hne hs
  refine ⟨exec_unit_ok rfl ho ha (verifyBody_answered (givesAll_operand ..) hc hf hne hs), fun hw hle hb hbytes => ?_⟩
  refine exec_request_ok rfl ho (sourceReady_ready ha hle hb) (verifyBody_answered (s := s.accept .blockVerify)
    (givesAll_source hw hb hbytes) hc hf hne hs) (by exact hc.2.2) ?_
  rw [← endRequest_accept .blockVerify ho]
  rfl

/-- Settles O19: the failing frame ends the stream, or the completion response the rule. -/
theorem frameFailureStops : Obligations.FrameFailureStops := by
  intro s f rest a e buf off bytes c pre post b0 b1 ho ha hc hf source failed command
  have hgives (h : source) : GivesAll s.code s.data (bufferFrames buf off (rangeLength a e)) (framesOf bytes) :=
    let ⟨hw, _, hb, hbytes⟩ := h
    givesAll_source hw hb hbytes
  have hready (h : source) : sourceReady a e buf off s = true := sourceReady_ready ha h.2.1 h.2.2.1
  refine ⟨fun hfr hn => ⟨fun hs => ⟨?_, fun h => ?_⟩, fun hs => ⟨?_, fun h => ?_⟩⟩, fun hne hb hs => ⟨?_, fun h => ?_⟩⟩
  · exact exec_unit_raised rfl ho ha (programBody_failed (givesAll_operand ..) hc hf hfr hn hs)
  · exact exec_request_raised rfl ho (hready h)
      (programBody_failed (s := s.accept .blockProgram) (hgives h) hc hf hfr hn hs)
  · exact exec_unit_raised rfl ho ha (verifyBody_failed (givesAll_operand ..) hc hf hfr hn hs)
  · exact exec_request_raised rfl ho (hready h)
      (verifyBody_failed (s := s.accept .blockVerify) (hgives h) hc hf hfr hn hs)
  · exact exec_unit_raised rfl ho ha ((programBody_completion (givesAll_operand ..) hc hf hne hs).trans (if_neg hb))
  · exact exec_request_raised rfl ho (hready h)
      ((programBody_completion (s := s.accept .blockProgram) (hgives h) hc hf hne hs).trans (if_neg hb))

end Sys2Proof.Machine
end

section
/-! PROOF. The handshake on a line that answers it (R112 to R119). -/

namespace Sys2Proof.Machine

variable {i : Instr} {s t : State} {f : List Byte → List Byte} {rest : List Tick} {proto rate mv verbose : Nat} {delayed : Bool}

/-- Settles O20: `syncStep_answered` and `modeSetStep_answered`. -/
theorem handshakeUnitsComplete : Obligations.HandshakeUnitsComplete := by
  intro s f rest ho hq hc hf
  refine ⟨fun hv hs => exec_unit_ok rfl ho ?_ (syncStep_answered hc hf hs),
    fun hv hs => exec_unit_ok rfl ho ?_ (modeSetStep_answered hc hf hs)⟩
  · simp [accepts, syncReady, hv, hq]
  · simp [accepts, modeSetReady, hv, hq]

/-- The state step 1 of an accepted INIT begins in (R40, R79). -/
def State.session (s : State) (proto rate mv : Nat) (delayed : Bool) (verbose : Nat) : State :=
  (latchInit proto rate mv delayed verbose (s.accept .init)).openSession proto

theorem body_reqInit (hc : s.calm) : body (.reqInit proto rate mv delayed verbose)
      (latched (.reqInit proto rate mv delayed verbose) (s.accept .init)) =
    initSteps (s.session proto rate mv delayed verbose) :=
  initBody_eq (s := latchInit proto rate mv delayed verbose (s.accept .init)) hc

theorem rateOk_code (h : (s.params.baudCode rate).isSome = true) (hm : mv ≤ 25599) : rateOk rate mv s = true := by
  have hv : mv ≤ Config.voltageMax := hm
  simp [rateOk, h, hv]

/-- A delayed start whose READY_IN is asserted, and any other, goes on from step 1 (R113, R117). -/
theorem session_goesOn (hc : s.calm) (hopen : s.line.isOpen = true) (hd : delayed = true → s.readyIn = true)
    (hs : s.script = [quiet, quiet, quiet, quiet] ++ rest) :
    initSteps (s.session proto rate mv delayed verbose) =
      initTail ((s.session proto rate mv delayed verbose).stepOneDone rest) :=
  initSteps_goesOn (s := s.session proto rate mv delayed verbose) hc hopen rfl hd hs

theorem session_variant {v : Variant} (hv : s.params.variantOf proto = v) :
    ((s.session proto rate mv delayed verbose).stepOneDone rest).seqr.variant = some v := congrArg some hv

/-- Settles O21: step 1, and `initTail_framed`. -/
theorem initFramedCompletes : Obligations.InitFramedCompletes := by
  intro s f rest proto rate mv verbose delayed code freq vmode ho hc hopen hf hv hcode hm hd hs
  have htail := initTail_framed (s := (s.session proto rate mv delayed verbose).stepOneDone ([quiet, quiet, quiet] ++
    (syncTicks s.params f code (voltageByte mv) freq vmode ++ rest))) hc hopen hf (session_variant hv) rfl rfl hcode rfl
  refine exec_request_ok rfl ho (rateOk_code (by simp [hcode]) hm) ((body_reqInit hc).trans
    ((session_goesOn hc hopen hd (hs.trans (List.append_assoc linesTicks _ rest))).trans htail)) (by exact hc) ?_
  simp [State.endRequest, State.stepOneDone, State.session, State.openSession, latchInit, voltageByte, hv]

/-- Settles O22: step 1, and `initTail_g10`. -/
theorem initG10Completes : Obligations.InitG10Completes := by
  intro s f rest proto rate mv verbose delayed ho hc hopen hf hv hcode hm hd hs
  have htail := initTail_g10 (s := (s.session proto rate mv delayed verbose).stepOneDone ([quiet, quiet, quiet] ++
    (rawTicks s.params f [s.params.g10ModeSet] [Config.ack, Config.ack] ++ rest))) hc hopen hf (session_variant hv) rfl
  refine exec_request_ok rfl ho (rateOk_code hcode hm) ((body_reqInit hc).trans
    ((session_goesOn hc hopen hd (hs.trans (List.append_assoc linesTicks _ rest))).trans htail)) (by exact hc) ?_
  simp [State.endRequest, State.stepOneDone, State.session, State.openSession, latchInit, hv]

/-- READY_IN lifts the hold of an INIT (R117). -/
theorem readyInput_held {u : State} (hh : s.Held) (hc : t.calm) (hm : initTail { s with readyIn := true } = .ok () t)
    (hu : t.endRequest = u) : takeInput (.ready true) s = .next u := by
  subst hu
  rw [takeInput, readyInput, if_pos (by simp [hh.op])]
  exact finish_request hm hc

/-- Settles O23: step 1 and the hold, and what the two tails answer from the hold on. -/
theorem delayedStartHolds : Obligations.DelayedStartHolds := by
  refine ⟨fun s rest proto rate mv verbose ho hc hopen hcode hm hr hs => ?_,
    fun s f rest rate mv code freq vmode hh hc hopen hf hv hrate hmv hcode hs => ?_, fun s f rest hh hc hopen hf hv hs => ?_⟩
  · have hheld := initSteps_holds (s := s.session proto rate mv true verbose) hc hopen rfl hr hs
    refine (exec_taken (i := .reqInit proto rate mv true verbose) ho (rateOk_code hcode hm)).trans ((finish_held (bind_error ((body_reqInit hc).trans hheld))).trans ?_)
    simp [State.stepOneDone, State.session, State.openSession, latchInit]
  · refine readyInput_held hh (by exact hc) (initTail_framed (s := { s with readyIn := true }) hc hopen hf hv hrate hmv hcode
      (by exact hs.trans (List.append_assoc ..))) ?_
    simp [State.endRequest, voltageByte]
  · refine readyInput_held hh (by exact hc) (initTail_g10 (s := { s with readyIn := true }) hc hopen hf hv
      (hs.trans (List.append_assoc ..))) ?_
    simp [State.endRequest]

end Sys2Proof.Machine
end

section
/-! PROOF. The rows of the whole-image variant and G10_ERASE_WRITE on a line that answers them (R143 to R151). -/

namespace Sys2Proof.Machine

variable {i : Instr} {s t : State} {f : List Byte → List Byte} {rest : List Tick} {size : Nat} {r0 r1 code : Byte}

/-! ## The rows -/

theorem exec_unit_faulted {x : Fault} (hi : i.request = none) (ho : s.seqr.op = none) (ha : accepts i s = true)
    (hm : body i s = .error (.faulted x) t) : exec i s = .fault x := by
  rw [exec_taken ho ha]
  unfold ruleOf started
  rw [hi]
  simp only [finish, hm]

/-- A NACK with no capacity code to report reads a register that holds none (R41, R147). -/
theorem nackUnit_none (hc : s.lineClear) (hf : EchoLike f) (hg : s.g10.capCode = none)
    (hs : s.script = sendTicks s.params (f [Config.nack]) [] ++ rest) :
    nackUnit s = .error (.faulted (.readNone .G10_CAP_CODE)) (s.onLine rest [] (sendEvents s.params [Config.nack])) := by
  unfold nackUnit
  rw [bind_ok (send_ok hc (by simp) (hf _) hs), getState_bind]
  refine bind_error ?_
  rw [show (s.onLine rest [] (sendEvents s.params [Config.nack])).g10.capCode = none from hg]
  rfl

/-- A word that is not acknowledged, with no word in progress, reads a register that holds none (R41, R151). -/
theorem wordUnit_none {bytes : List Byte} {b : Byte} (hc : s.lineClear) (hf : EchoLike f) (hb : bytes ≠ [])
    (hn : b ≠ Config.ack) (hw : s.g10.widx = none) (hs : s.script = rawTicks s.params f bytes [b] ++ rest) :
    wordUnit bytes s = .error (.faulted (.readNone .WIDX)) (s.onLine rest [] (rawEvents s.params bytes [b])) := by
  refine (sendRaw_bind (n := 1) (reply := [b]) hc hf hb (by simp) rfl hs).trans ?_
  rw [byteAt_zero, if_neg hn, getState_bind]
  refine bind_error ?_
  rw [show (s.onLine rest [] (rawEvents s.params bytes [b])).g10.widx = none from hw]
  rfl

theorem wordAddr_eq (w : Nat) : wordAddr w = BitVec.ofNat 24 (4 * w) := by
  rw [wordAddr, show Config.codeBase.toNat = 0 from rfl, Nat.zero_add]
  rfl

/-- Settles O31: each row's own lemma. -/
theorem imageUnits : Obligations.ImageUnits := by
  intro s f rest r0 r1 code b0 b1 b2 b3 b ho hg hc hf g10
  refine ⟨fun hs => exec_unit_ok rfl ho hg (eraseWriteOpen_answered hc hf hs),
    fun hs => exec_unit_ok rfl ho hg (crcCheckOpen_answered hc hf hs),
    fun hs => exec_unit_ok rfl ho hg (ackUnit_answered hc hf hs),
    fun hcap hs => exec_unit_raised rfl ho hg (nackUnit_answered hc hf hcap hs),
    fun hcap hs => exec_unit_faulted rfl ho hg (nackUnit_none hc hf hcap hs),
    fun hs => ⟨fun hb => exec_unit_ok rfl ho hg ?_,
      fun hb hw => exec_unit_faulted rfl ho hg (wordUnit_none hc hf (by simp) hb hw hs), fun hb w hw => ?_⟩⟩
  · subst hb
    exact wordUnit_answered hc hf (by simp) hs
  · rw [← wordAddr_eq]
    exact exec_unit_raised rfl ho hg (wordUnit_failed hc hf (by simp) hb hw hs)

/-! ## G10_ERASE_WRITE -/

/-- The opening exchange of an image that fits, and the ACK behind it; the poll and the words come next (R145, R146). -/
theorem eraseWriteBody_opened (hc : s.lineClear) (hf : EchoLike f) (h0 : size ≠ 0) (hz : s.params.g10Cap code = some size)
    (hs : s.script = rawTicks s.params f [s.params.g10EraseWrite] [r0, r1, code] ++ sendTicks s.params (f [Config.ack]) [] ++
      rest) :
    eraseWriteBody size s = (poll >>= fun _ => wordLoop (size / 4) 0)
      ((s.onLine rest [] (rawEvents s.params [s.params.g10EraseWrite] [r0, r1, code] ++
        sendEvents s.params [Config.ack])).setResponse r0 r1 code) := by
  rw [eraseWriteBody, if_neg h0, bind_ok (eraseWriteOpen_answered hc hf (hs.trans (List.append_assoc ..)))]
  refine (bind_ok (capacityCheck_fits (lineClear_opened hc _ _ r0 r1 code) hf rfl hz rfl)).trans ?_
  simp only [setResponse_onLine, onLine_onLine, setResponse_params, onLine_params]
  rfl

/-- What the opening exchange of an image that fits and the ACK behind it leave in the transcript. -/
def openedEvents (p : Params) (r0 r1 code : Byte) : List Event :=
  rawEvents p [p.g10EraseWrite] [r0, r1, code] ++ sendEvents p [Config.ack]

/-- What the calls up to the end of the erase-complete poll leave (R145 to R148). -/
def State.polled (s : State) (rest : List Tick) (r0 r1 code : Byte) (attempts : List (Option Byte)) : State :=
  ((s.onLine rest [] (openedEvents s.params r0 r1 code ++ pollEvents attempts)).setResponse r0 r1 code).setPoll attempts.length

theorem eraseWriteBody_polled {misses : List (Option Byte)} (hc : s.lineClear) (hf : EchoLike f) (h0 : size ≠ 0)
    (hz : s.params.g10Cap code = some size) (hl : misses.length < 100) (hm : ∀ m ∈ misses, m ≠ some Config.ack)
    (hs : s.script = rawTicks s.params f [s.params.g10EraseWrite] [r0, r1, code] ++ sendTicks s.params (f [Config.ack]) [] ++
      (pollTicks (misses ++ [some Config.ack]) ++ rest)) :
    eraseWriteBody size s = wordLoop (size / 4) 0 (s.polled rest r0 r1 code (misses ++ [some Config.ack])) := by
  refine (eraseWriteBody_opened hc hf h0 hz hs).trans ?_
  refine (bind_ok (poll_answered (lineClear_opened hc _ _ r0 r1 code) hl hm rfl)).trans ?_
  simp only [setResponse_onLine, onLine_onLine, State.polled, openedEvents, List.length_append, List.length_singleton]

theorem eraseWriteBody_timeout {misses : List (Option Byte)} (hc : s.lineClear) (hf : EchoLike f) (h0 : size ≠ 0)
    (hz : s.params.g10Cap code = some size) (hl : misses.length = 100) (hm : ∀ m ∈ misses, m ≠ some Config.ack)
    (hs : s.script = rawTicks s.params f [s.params.g10EraseWrite] [r0, r1, code] ++ sendTicks s.params (f [Config.ack]) [] ++
      (pollTicks misses ++ rest)) :
    eraseWriteBody size s = .error (.raised { kind := .timeout }) (s.polled rest r0 r1 code misses) := by
  refine (eraseWriteBody_opened hc hf h0 hz hs).trans ?_
  refine (bind_error (poll_timeout (lineClear_opened hc _ _ r0 r1 code) hl hm rfl)).trans ?_
  simp only [setResponse_onLine, onLine_onLine, State.polled, openedEvents, hl]

/-- Settles O32: the opening and the poll, and `wordLoop_answered`. -/
theorem eraseWriteCompletes : Obligations.EraseWriteCompletes := by
  intro s f rest size r0 r1 code misses ho hg hc hf h0 hsize h4 hz hl hm hs
  have hpolled := eraseWriteBody_polled (s := s.accept .g10EraseWrite) (r0 := r0) (r1 := r1) hc hf h0.ne' hz hl hm
    (hs.trans (by simp only [List.append_assoc]; rfl))
  have hwords := wordLoop_answered (n := size / 4) (w := 0) (rest := rest) hf
    (s := (s.accept .g10EraseWrite).polled (wordTicks s.params f (imageWords s.code (size / 4) 0) ++ rest) r0 r1 code
      (misses ++ [some Config.ack])) ⟨hc.1, rfl, hc.2.2⟩ (by show 4 * (0 + size / 4) ≤ s.code.size; omega) rfl 0
  refine exec_request_ok rfl ho (wordsReady_of_size hg hsize h4) (hpolled.trans hwords) (by exact hc.2.2) ?_
  have hn : size / 4 ≠ 0 := by omega
  simp [State.endRequest, State.polled, State.setResponse, State.setPoll, State.onLine, openedEvents, noOp_eq ho, hn, State.accept]

/-- The words before the one that is not acknowledged, and that one (R149, R151). -/
theorem wordLoop_stops {w k : Nat} {b : Byte} (hc : s.lineClear) (hf : EchoLike f) (hb : b ≠ Config.ack)
    (hz : 4 * w + 4 ≤ s.code.size)
    (hs : s.script = wordTicks s.params f (imageWords s.code w 0) ++ (rawTicks s.params f (s.code.slice (4 * w) 4) [b] ++ rest)) :
    wordLoop (w + (k + 1)) 0 s = .error (.raised { kind := .programFailed, addr := some (wordAddr w) })
      ((s.onLine rest [] (wordEvents s.params (imageWords s.code w 0) ++
        rawEvents s.params (s.code.slice (4 * w) 4) [b])).setWord w) := by
  refine (wordLoop_answered hf hc (by omega) hs (k + 1)).trans ?_
  rw [Nat.zero_add]
  refine (wordLoop_failed (rest := rest) (by exact ⟨hc.1, rfl, hc.2.2⟩) hf hb (by exact hz) (by rfl)).trans ?_
  simp [State.onLine, State.setWord]

/-- Settles O33: the poll, or the first words and the failing one. -/
theorem eraseWriteFailures : Obligations.EraseWriteFailures := by
  intro s f rest size r0 r1 code ho hg hc hf h0 hsize h4 hz opening opened
  have hready := wordsReady_of_size hg hsize h4
  refine ⟨fun misses hl hm hs => ?_, fun w b hw hb hs => ?_⟩
  · have hrun := eraseWriteBody_timeout (s := s.accept .g10EraseWrite) (r0 := r0) (r1 := r1) hc hf h0.ne' hz hl hm
      (hs.trans (List.append_assoc ..))
    refine ⟨_, exec_request_raised rfl ho hready hrun, rfl, ?_, rfl, noOp_eq ho, rfl⟩
    show G10Regs.mk _ _ _ _ _ _ _ _ = _
    rw [hl]
    rfl
  · have hpolled := eraseWriteBody_polled (s := s.accept .g10EraseWrite) (misses := []) (r0 := r0) (r1 := r1) hc hf h0.ne' hz
      (by decide) (by simp) (hs.trans (by simp only [opening, List.append_assoc]; rfl))
    obtain ⟨k, hk⟩ : ∃ k, size / 4 = w + (k + 1) := ⟨size / 4 - w - 1, by omega⟩
    rw [hk] at hpolled
    have hwords := wordLoop_stops (w := w) (k := k) (b := b) (rest := rest)
      (s := (s.accept .g10EraseWrite).polled (wordTicks s.params f (imageWords s.code w 0) ++
        (rawTicks s.params f (s.code.slice (4 * w) 4) [b] ++ rest)) r0 r1 code ([] ++ [some Config.ack]))
      ⟨hc.1, rfl, hc.2.2⟩ hf hb (by show 4 * w + 4 ≤ s.code.size; omega) rfl
    refine ⟨_, exec_request_raised rfl ho hready (hpolled.trans hwords), ?_, rfl, rfl, noOp_eq ho, ?_⟩
    · rw [← wordAddr_eq]
      rfl
    · simp [opened, openedEvents, State.polled, State.setResponse, State.setPoll, State.onLine, takeError_eq]

/-- Settles O36: an absent image ends the rule at once, and a size that is no multiple of 4 is not accepted. -/
theorem imageOfSizeZero : Obligations.ImageOfSizeZero := by
  intro s size ho hg hc
  refine ⟨exec_request_ok rfl ho (wordsReady_of_size hg (Nat.zero_le _) rfl) (t := s.accept .g10EraseWrite) rfl hc
      (endRequest_accept _ ho), exec_request_ok rfl ho (imageReady_of_size hg (Nat.zero_le _)) (t := s.accept .g10CrcCheck) rfl hc
      (endRequest_accept _ ho), fun h4 => exec_refused (r := .g10EraseWrite) rfl ?_⟩
  have h4' : (size % Config.g10Word == 0) = false := beq_eq_false_iff_ne.2 h4
  rw [accepts, wordsReady, h4', Bool.and_false]

end Sys2Proof.Machine
end

section
/-! PROOF. REGION on a line that answers it: every block worked, and the first block that fails (R125 to R137). -/

namespace Sys2Proof.Machine

variable {i : Instr} {s t : State} {f : List Byte → List Byte} {rest : List Tick} {mode : CMode} {b : Buf} {base : Addr}
  {size bs : Nat}

/-- The state the first block of an accepted region begins in (R79, R125). -/
def State.regionOpen (s : State) (mode : CMode) (b : Buf) (base : Addr) (size bs : Nat) : State :=
  ((s.accept .region).setRegion mode b base size).setBlocks (size / bs)

theorem regionOpen_buffer (s : State) : (s.regionOpen mode b base size bs).buffer b = s.buffer b := by
  simp [State.regionOpen]

theorem body_reqRegion (hc : s.calm) (hbs : s.seqr.blockSz = some bs) (h0 : size ≠ 0) :
    body (.reqRegion mode b base size) (latched (.reqRegion mode b base size) (s.accept .region)) =
      regionLoop mode b base bs (size / bs) 0 (s.regionOpen mode b base size bs) :=
  regionBody_present (s := (s.accept .region).setRegion mode b base size) hc hbs h0

/-- Settles O27: `regionLoop_worked` for all the blocks. -/
theorem regionCompletes : Obligations.RegionCompletes := by
  intro s f rest mode b base size bs answers ho ha hbs h0 hsize hend hw hc hf hl hs
  have hbuf : (s.regionOpen mode b base size bs).buffer b = s.buffer b := regionOpen_buffer s
  have hblocks : (0 + answers.length) * bs ≤ (s.buffer b).size := by
    rw [Nat.zero_add, hl]
    exact (Nat.div_mul_le_self ..).trans hsize
  obtain ⟨n, st, k, he, hloop⟩ := regionLoop_worked (s := s.regionOpen mode b base size bs) (rest := rest) (i := 0)
    (answers := answers) (mode := mode) (b := b) (base := base) (bs := bs) hf hc (by rwa [hbuf]) (fun _ => by rwa [hbuf])
    (by rw [hbuf]; exact hs)
  have hworked := hloop 0
  rw [hbuf, Nat.add_zero, Nat.zero_add, hl] at hworked
  refine ⟨_, exec_request_ok rfl ho (regionReady_of_bounds ha hbs hsize hend) ((body_reqRegion hc.2.2 hbs h0.ne').trans hworked)
    (by exact hc.2.2) rfl, ?_, he⟩
  simp [State.endRequest, State.worked, State.regionOpen, State.setRegion, State.setBlocks, State.accept, noOp_eq ho]

/-- Settles O29: `regionLoop_worked` up to the failing block, and `blockBody_failed` there. -/
theorem regionStopsAtFirstError : Obligations.RegionStopsAtFirstError := by
  intro s f rest mode b base size bs answers failing failed e ho ha hbs h0 hsize hend hw hc hf hl k hfails hs
  have hbuf : (s.regionOpen mode b base size bs).buffer b = s.buffer b := regionOpen_buffer s
  have hblock : k * bs + bs ≤ (s.buffer b).size := by
    rw [← Nat.succ_mul]
    exact (Nat.mul_le_mul_right bs hl).trans ((Nat.div_mul_le_self ..).trans hsize)
  obtain ⟨n, st, l, -, hloop⟩ := regionLoop_worked (s := s.regionOpen mode b base size bs) (rest := failing ++ rest) (i := 0)
    (answers := answers) (mode := mode) (b := b) (base := base) (bs := bs) hf hc (by rwa [hbuf])
    (fun _ => by rw [hbuf, Nat.zero_add]; exact (Nat.le_add_right ..).trans hblock)
    (by rw [hbuf]; exact hs.trans (List.append_assoc ..))
  obtain ⟨m, hm⟩ : ∃ m, size / bs = k + (m + 1) := ⟨size / bs - k - 1, by omega⟩
  have hworked := hloop (m + 1)
  rw [hbuf, Nat.zero_add, regionLoop] at hworked
  generalize hu : ({ (s.regionOpen mode b base size bs).worked _ _ _ _ _ _ with blk := _ } : State) = u at hworked
  have hu' : u.lineClear ∧ u.buffer b = s.buffer b ∧ u.script = failing ++ rest ∧ u.params = s.params ∧
      u.seqr = { s.seqr with op := some .region } ∧
      u.hist = s.hist ++ regionEvents s.params mode (s.buffer b) base bs 0 answers := by
    subst hu
    exact ⟨⟨hc.1, rfl, hc.2.2⟩, by cases b <;> rfl, rfl, rfl, rfl, rfl⟩
  obtain ⟨huc, hub, hus, hup, huq, huh⟩ := hu'
  have hgives := givesAll_buffer (s := u) (b := b) (off := k * bs) (bs := bs) (by rwa [hub]) (by rwa [hub])
  obtain ⟨t, ht, hts, hth, htq, hti⟩ := blockBody_failed (rest := rest) (s := u.setBlock k) (by exact hgives)
    (by rw [hub, setBlock_params, hup]; exact hfails) huc hf hus
  have hblockRun := (regionBlock_body (mode := mode) (base := base) huc.2.2 (by rwa [hub])).trans ht
  rw [show answers.length = k from rfl, ← hm, bind_error hblockRun] at hworked
  refine ⟨_, exec_request_raised rfl ho (regionReady_of_bounds ha hbs hsize hend)
    ((body_reqRegion hc.2.2 hbs h0.ne').trans hworked), ?_, hti, hts, ?_, ?_⟩
  · rw [takeError_eq, htq, setBlock_seqr, huq]
    rfl
  · rw [takeError_eq, htq, setBlock_seqr, huq]
    exact noOp_eq ho
  · rw [takeError_eq, hth, setBlock_hist, huh, List.append_assoc]

end Sys2Proof.Machine
end

section
/-! PROOF. Noninterference of the buffers: a rule that reads nothing that differs between two buffers runs alike over both
(R126, R130). -/

namespace Sys2Proof.Machine

variable {α β : Type} {φ ψ : Memory → Memory} {s t : State} {mode : CMode} {b : Buf} {base : Addr} {size bs : Nat}

/-- The state with other buffers, each given by the one that stood there. -/
def State.swap (φ ψ : Memory → Memory) (s : State) : State := { s with code := φ s.code, data := ψ s.data }

/-- The same outcome, with the buffers exchanged. -/
def swapped (φ ψ : Memory → Memory) : EStateM.Result Stop State α → EStateM.Result Stop State α
  | .ok a t => .ok a (t.swap φ ψ)
  | .error w t => .error w (t.swap φ ψ)

/-- A rule that runs alike over the other buffers. -/
def Natural (φ ψ : Memory → Memory) (m : Eng α) : Prop := ∀ s, m (s.swap φ ψ) = swapped φ ψ (m s)

/-! ## Sequences -/

theorem Natural.bind_at {m : Eng α} {f : α → Eng β} (hm : Natural φ ψ m)
    (hf : ∀ a t, m s = .ok a t → f a (t.swap φ ψ) = swapped φ ψ (f a t)) :
    (m >>= f) (s.swap φ ψ) = swapped φ ψ ((m >>= f) s) := by
  have h := hm s
  cases hr : m s with
  | ok a t => rw [hr] at h; rw [bind_ok h, bind_ok hr, hf a t hr]
  | error w t => rw [hr] at h; rw [bind_error h, bind_error hr]; rfl

theorem Natural.bind {m : Eng α} {f : α → Eng β} (hm : Natural φ ψ m) (hf : ∀ a, Natural φ ψ (f a)) : Natural φ ψ (m >>= f) :=
  fun _ => hm.bind_at fun a t _ => hf a t

theorem natural_pure (a : α) : Natural φ ψ (pure a : Eng α) := fun _ => rfl

theorem natural_abort (e : Err) : Natural φ ψ (abort e : Eng α) := fun _ => rfl

theorem natural_update {f : State → State} (hf : ∀ s, f (s.swap φ ψ) = (f s).swap φ ψ) : Natural φ ψ (update f) := fun s =>
  congrArg (EStateM.Result.ok ()) (hf s)

/-- A rule that looks at the state, but at no buffer. -/
theorem natural_getState {f : State → Eng β} (hf : ∀ s, f (s.swap φ ψ) = f s) (h : ∀ s, Natural φ ψ (f s)) :
    Natural φ ψ (getState >>= f) := fun s => by
  rw [getState_bind, getState_bind, hf]
  exact h s s

theorem natural_ite {c : Prop} [Decidable c] {m n : Eng α} (hm : Natural φ ψ m) (hn : Natural φ ψ n) :
    Natural φ ψ (if c then m else n) := by
  split
  · exact hm
  · exact hn

/-! ## Primitives -/

theorem swap_passed (s : State) : (s.swap φ ψ).passed = s.passed.swap φ ψ := by
  rw [passed_eq, passed_eq]
  rfl

theorem natural_moment : Natural φ ψ moment := fun s => by
  rw [moment_eq, moment_eq, swap_passed]
  show (if (s.moments.headD {}).reset then _ else _) = _
  split <;> rfl

theorem natural_primitive {f : State → State} (hf : ∀ s, f (s.swap φ ψ) = (f s).swap φ ψ) : Natural φ ψ (primitive f) :=
  natural_moment.bind fun _ => natural_update hf

theorem natural_update_bind {f : State → State} {g : Unit → Eng β} (hf : ∀ s, f (s.swap φ ψ) = (f s).swap φ ψ)
    (hg : ∀ a, Natural φ ψ (g a)) : Natural φ ψ (update f >>= g) := (natural_update hf).bind hg

theorem natural_primitive_bind {f : State → State} {g : Unit → Eng β} (hf : ∀ s, f (s.swap φ ψ) = (f s).swap φ ψ)
    (hg : ∀ a, Natural φ ψ (g a)) : Natural φ ψ (primitive f >>= g) := (natural_primitive hf).bind hg

theorem natural_waitFor (d : Delay) : Natural φ ψ (waitFor d) := natural_primitive fun _ => rfl

theorem natural_raise (e : Err) : Natural φ ψ (raise e : Eng α) := natural_moment.bind fun _ => natural_abort e

theorem natural_writes : ∀ {fs : List (State → State)}, (∀ f ∈ fs, ∀ s, f (s.swap φ ψ) = (f s).swap φ ψ) →
    Natural φ ψ (writes fs)
  | [], _ => natural_pure ()
  | f :: _, h => (natural_primitive (h f (by simp))).bind fun _ => natural_writes fun g hg => h g (by simp [hg])

theorem natural_transport : Natural φ ψ transport :=
  natural_moment.bind fun _ => natural_getState (fun _ => rfl) fun _ => natural_ite (natural_pure ()) (natural_abort _)

theorem natural_nextTick : Natural φ ψ nextTick := fun _ => rfl

theorem natural_writeBytes (bytes : List Byte) : Natural φ ψ (writeBytes bytes) :=
  natural_nextTick.bind fun t => natural_ite
    (natural_update_bind (fun _ => by split <;> rfl) fun _ => natural_abort _) (natural_update fun _ => rfl)

theorem natural_readBytes (want : Nat) : Natural φ ψ (readBytes want) :=
  natural_nextTick.bind fun _ => natural_ite (natural_abort _) (natural_update_bind (fun _ => rfl) fun _ _ => rfl)

theorem natural_recvLoop : ∀ (fuel need : Nat) (acc : List Byte), Natural φ ψ (recvLoop fuel need acc)
  | 0, _, acc => natural_pure acc
  | fuel + 1, _, acc => natural_ite (natural_pure acc) ((natural_readBytes _).bind fun _ =>
      natural_ite (natural_abort _) (natural_recvLoop fuel _ _))

theorem natural_recvExact (n : Nat) : Natural φ ψ (recvExact n) := natural_transport.bind fun _ => natural_recvLoop _ _ _

theorem natural_send (bytes : List Byte) : Natural φ ψ (send bytes) :=
  natural_transport.bind fun _ => (natural_writeBytes bytes).bind fun _ => natural_getState (fun _ => rfl) fun _ =>
    natural_ite ((natural_recvLoop _ _ _).bind fun _ => natural_update fun _ => rfl) (natural_pure ())

/-! ## The codec and the commands -/

theorem natural_sendFrame : ∀ frame : Except ErrKind (List Byte), Natural φ ψ (sendFrame frame)
  | .error _ => natural_raise _
  | .ok bytes => natural_send bytes

theorem natural_decodeResponse (n : Nat) : Natural φ ψ (decodeResponse n) :=
  (natural_recvExact 2).bind fun _ => natural_getState (fun _ => rfl) fun s => by
    split
    · exact natural_raise _
    · exact (natural_recvExact _).bind fun _ => natural_getState (fun _ => rfl) fun s => by
        split
        · exact natural_raise _
        · exact natural_update_bind (fun _ => rfl) fun _ => natural_pure _

theorem natural_exchange (o : Opcode) (pl : List Byte) (n : Nat) : Natural φ ψ (exchange o pl n) :=
  natural_getState (fun _ => rfl) fun _ => (natural_sendFrame _).bind fun _ => natural_decodeResponse n

/-- A status byte is kept, and what it says decides. -/
theorem natural_status (b : Byte) {c : Prop} [Decidable c] (e : Err) :
    Natural φ ψ (do primitive fun s => s.setStatus b; if c then pure () else raise e : Eng Unit) :=
  natural_primitive_bind (fun _ => rfl) fun _ => natural_ite (natural_pure ()) (natural_raise e)

theorem natural_statusExchange (o : Opcode) (pl : List Byte) : Natural φ ψ (statusExchange o pl) :=
  (natural_exchange o pl 1).bind fun _ => natural_status _ _

theorem natural_emit (d : Diag) : Natural φ ψ (emit d) := natural_primitive fun _ => rfl

theorem natural_blankBody (a e : Addr) : Natural φ ψ (blankBody a e) :=
  natural_getState (fun _ => rfl) fun _ => (natural_exchange _ _ 1).bind fun _ =>
    natural_primitive_bind (fun _ => rfl) fun _ => by
      split
      · exact natural_primitive_bind (fun _ => rfl) fun _ => natural_pure _
      · exact natural_raise _

theorem natural_eraseBody (a : Addr) : Natural φ ψ (eraseBody a) := natural_statusExchange _ _

theorem natural_sendData (bytes : List Byte) (last : Bool) : Natural φ ψ (sendData bytes last) :=
  natural_getState (fun _ => rfl) fun _ => natural_sendFrame _

theorem natural_settleFrame : ∀ mode : StreamMode, Natural φ ψ (settleFrame mode)
  | .program => natural_pure ()
  | .verify => natural_primitive fun _ => rfl

theorem natural_stream (mode : StreamMode) (a : Addr) : ∀ (k : Nat) {frames : List (Eng (List Byte))},
    (∀ read ∈ frames, Natural φ ψ read) → Natural φ ψ (stream mode a k frames)
  | _, [], _ => natural_pure ()
  | k, read :: r, h =>
    have hframe : Natural φ ψ (streamFrame mode a k read r.isEmpty) :=
      natural_primitive_bind (fun _ => rfl) fun _ => (h read (by simp)).bind fun _ => (natural_sendData _ _).bind fun _ =>
        (natural_settleFrame mode).bind fun _ => (natural_decodeResponse 2).bind fun _ => natural_status _ _
    hframe.bind fun _ => natural_stream mode a (k + 1) fun q hq => h q (by simp [hq])

theorem natural_programBody (a e : Addr) {frames : List (Eng (List Byte))} (h : ∀ read ∈ frames, Natural φ ψ read) :
    Natural φ ψ (programBody a e frames) :=
  (natural_statusExchange _ _).bind fun _ => (natural_stream _ a 0 h).bind fun _ =>
    (natural_waitFor _).bind fun _ => (natural_decodeResponse 1).bind fun _ => natural_status _ _

theorem natural_verifyBody (a e : Addr) {frames : List (Eng (List Byte))} (h : ∀ read ∈ frames, Natural φ ψ read) :
    Natural φ ψ (verifyBody a e frames) :=
  (natural_statusExchange _ _).bind fun _ => natural_stream _ a 0 h

/-! ## The blocks -/

/-- Two buffers of the same size that agree on their first `n` bytes. -/
structure Unseen (φ ψ : Memory → Memory) (b : Buf) (n : Nat) : Prop where
  size : ∀ s : State, ((s.swap φ ψ).buffer b).size = (s.buffer b).size
  slice : ∀ (s : State) (off k : Nat), off + k ≤ n → ((s.swap φ ψ).buffer b).slice off k = (s.buffer b).slice off k

theorem natural_memRead {n off k : Nat} (h : Unseen φ ψ b n) (hk : off + k ≤ n) : Natural φ ψ (memRead b off k) :=
  natural_moment.bind fun _ s => by
    rw [getState_bind, getState_bind, h.size, h.slice s off k hk]
    split <;> rfl

theorem natural_bufferFrames {n off k : Nat} (h : Unseen φ ψ b n) (hk : off + k ≤ n) :
    ∀ read ∈ bufferFrames b off k, Natural φ ψ read := by
  intro read hr
  obtain ⟨j, hj, rfl⟩ := List.mem_map.1 hr
  have hj' : j < (k + 255) / 256 := List.mem_range.1 hj
  exact natural_memRead h (by omega)

/-- A block whose bytes do not differ, or of which no byte is read. -/
theorem natural_regionBlock {n i : Nat} (h : mode = .erase ∨ Unseen φ ψ b n ∧ i * bs + bs ≤ n) :
    Natural φ ψ (regionBlock mode b base bs i) :=
  natural_primitive_bind (fun _ => rfl) fun _ => by
    obtain rfl | ⟨hu, hk⟩ := h
    · exact (natural_blankBody _ _).bind fun _ => natural_ite (natural_eraseBody _) (natural_emit _)
    have hframes := natural_bufferFrames hu hk
    cases mode with
    | erase => exact (natural_blankBody _ _).bind fun _ => natural_ite (natural_eraseBody _) (natural_emit _)
    | program =>
      exact (natural_memRead hu hk).bind fun _ => natural_ite (natural_emit _) ((natural_blankBody _ _).bind fun _ =>
        (natural_ite (natural_eraseBody _) (natural_pure ())).bind fun _ => natural_programBody _ _ hframes)
    | verify =>
      exact (natural_memRead hu hk).bind fun _ => natural_ite ((natural_blankBody _ _).bind fun _ =>
        natural_ite (natural_raise _) (natural_pure ())) (natural_verifyBody _ _ hframes)

theorem natural_regionLoop {n : Nat} (h : mode = .erase ∨ Unseen φ ψ b (n * bs)) : ∀ (m i : Nat), i + m ≤ n →
    Natural φ ψ (regionLoop mode b base bs m i)
  | 0, _, _ => natural_pure ()
  | m + 1, i, hm =>
    have hi : i * bs + bs ≤ n * bs := by
      rw [← Nat.succ_mul]
      exact Nat.mul_le_mul_right bs (by omega)
    (natural_regionBlock (h.imp id fun hu => ⟨hu, hi⟩)).bind fun _ => natural_regionLoop h m (i + 1) (by omega)

/-- The first writes of REGION leave the block size (R125). -/
theorem regionWrites_blockSz {a : Unit} (hbs : s.seqr.blockSz = some bs)
    (h : writes (regionWrites mode b base size) s = .ok a t) : t.seqr.blockSz = some bs := by
  have hrun := writes_run (I := fun u => u.seqr.blockSz = some bs) (fs := regionWrites mode b base size) (pre := [])
    (fun u hu => by rw [passed_eq]; exact hu) (regionWrites_aside mode b base size) hbs
  rw [show s.wrote [] = s from rfl, h] at hrun
  obtain ⟨u, hu, rfl⟩ := hrun
  exact hu

/-- The blocks of a region whose block size is known (R125). -/
theorem regionBlocks_sized (hbs : s.seqr.blockSz = some bs) : regionBlocks mode b base size s =
    (if size = 0 then pure () else do
      primitive fun s => s.setBlocks (blockCount size bs)
      regionLoop mode b base bs (blockCount size bs) 0 : Eng Unit) s := by
  unfold regionBlocks
  split
  · rfl
  · exact (getState_bind ..).trans (bind_ok (needReg_some _ hbs _))

theorem swap_regionBlocks (h : mode = .erase ∨ Unseen φ ψ b (size / bs * bs)) (hbs : s.seqr.blockSz = some bs) :
    regionBlocks mode b base size (s.swap φ ψ) = swapped φ ψ (regionBlocks mode b base size s) := by
  have hrest : Natural φ ψ (if size = 0 then pure () else do
      primitive fun s => s.setBlocks (blockCount size bs)
      regionLoop mode b base bs (blockCount size bs) 0 : Eng Unit) :=
    natural_ite (natural_pure ()) (natural_primitive_bind (fun _ => rfl) fun _ =>
      natural_regionLoop h _ 0 (by rw [Nat.zero_add]; rfl))
  rw [regionBlocks_sized hbs, regionBlocks_sized (s := s.swap φ ψ) hbs, hrest]

/-- REGION's rule, and the end of the request behind it. -/
theorem swap_ruleOf (h : mode = .erase ∨ Unseen φ ψ b (size / bs * bs)) (hbs : s.seqr.blockSz = some bs) :
    ruleOf (.reqRegion mode b base size) (s.swap φ ψ) = swapped φ ψ (ruleOf (.reqRegion mode b base size) s) := by
  have hwrites : Natural φ ψ (writes (regionWrites mode b base size)) := natural_writes fun f hf s => by
    simp only [regionWrites, List.mem_cons, List.not_mem_nil, or_false] at hf
    obtain rfl | rfl | rfl | rfl := hf <;> rfl
  have hbody : regionBody mode b base size (s.swap φ ψ) = swapped φ ψ (regionBody mode b base size s) :=
    hwrites.bind_at fun a t ht => swap_regionBlocks h (regionWrites_blockSz hbs ht)
  have hend : Natural φ ψ (primitive State.endRequest) := natural_primitive fun _ => rfl
  show (regionBody mode b base size >>= fun _ => primitive State.endRequest) (s.swap φ ψ) =
    swapped φ ψ ((regionBody mode b base size >>= fun _ => primitive State.endRequest) s)
  cases hr : regionBody mode b base size s with
  | ok a t => rw [hr] at hbody; rw [bind_ok hbody, bind_ok hr, hend]
  | error w t => rw [hr] at hbody; rw [bind_error hbody, bind_error hr]; rfl

/-- The outcome of the same run over the other buffers. -/
def outcomeOver (g : State → State) : Host.Outcome State Fault Refusal → Host.Outcome State Fault Refusal
  | .next t => .next (g t)
  | .fault r => .fault r
  | .refused r => .refused r

theorem finish_swap {m : Eng Unit} (h : m (s.swap φ ψ) = swapped φ ψ (m s)) :
    finish m (s.swap φ ψ) = outcomeOver (State.swap φ ψ) (finish m s) := by
  unfold finish
  rw [h]
  cases m s with
  | ok a t => rfl
  | error w t => cases w <;> rfl

theorem exec_swap (hz : ∀ s : State, ((s.swap φ ψ).buffer b).size = (s.buffer b).size)
    (h : mode = .erase ∨ Unseen φ ψ b (size / bs * bs)) (hbs : s.seqr.blockSz = some bs) :
    exec (.reqRegion mode b base size) (s.swap φ ψ) = outcomeOver (State.swap φ ψ) (exec (.reqRegion mode b base size) s) := by
  have hready : accepts (.reqRegion mode b base size) (s.swap φ ψ) = accepts (.reqRegion mode b base size) s := by
    simp only [accepts, regionReady, regionOk, hz]
    rfl
  by_cases ht : s.seqr.op = none ∧ accepts (.reqRegion mode b base size) s = true
  · rw [exec_taken ht.1 ht.2, exec_taken (s := s.swap φ ψ) ht.1 (hready.trans ht.2)]
    exact finish_swap (swap_ruleOf (s := started (.reqRegion mode b base size) s) h hbs)
  · rw [exec_turned_away ht, exec_turned_away (s := s.swap φ ψ) (by rw [hready]; exact ht)]
    rfl

/-! ## The obligation -/

/-- One buffer exchanged for another, where it stands under its name. -/
def replaced (b c : Buf) (m₀ m : Memory) (x : Memory) : Memory := if b = c ∧ x = m₀ then m else x

variable {m₀ m : Memory}

theorem swap_replaced (h : s.buffer b = m₀) : s.swap (replaced b .code m₀ m) (replaced b .data m₀ m) = s.withBuffer b m := by
  subst h
  cases b <;> simp [State.swap, replaced, State.withBuffer, State.buffer]

theorem replaced_buffer (s : State) : (s.swap (replaced b .code m₀ m) (replaced b .data m₀ m)).buffer b =
    if s.buffer b = m₀ then m else s.buffer b := by
  cases b <;> exact if_congr (and_iff_right rfl) rfl rfl

theorem replaced_size (hz : m.size = m₀.size) (s : State) :
    ((s.swap (replaced b .code m₀ m) (replaced b .data m₀ m)).buffer b).size = (s.buffer b).size := by
  rw [replaced_buffer]
  split
  · next h => rw [hz, h]
  · rfl

theorem replaced_unseen {n : Nat} (hz : m.size = m₀.size) (h₀ : m₀.wf = true) (h : m.wf = true)
    (hget : ∀ j < n, m.get j = m₀.get j) : Unseen (replaced b .code m₀ m) (replaced b .data m₀ m) b n where
  size := replaced_size hz
  slice s off k hk := by
    rw [replaced_buffer]
    split
    · next hs =>
      rw [hs, slice_eq_map h, slice_eq_map h₀]
      exact List.map_congr_left fun j hj => hget _ (by have := List.mem_range.1 hj; omega)
    · rfl

/-- Settles O30: the run over the other buffer, which no run writes. -/
theorem regionIgnoresTail : Obligations.RegionIgnoresTail := by
  intro s mode b base size bs m hbs hw hm hz h
  have hover := exec_swap (b := b) (base := base) (replaced_size hz) (h.imp id (replaced_unseen hz hw hm)) hbs
  rw [swap_replaced rfl] at hover
  rw [hover]
  cases hr : exec (.reqRegion mode b base size) s with
  | next t =>
    obtain ⟨hcode, hdata, -⟩ := (exec_outside_sent hr).1
    have hbuf : t.buffer b = s.buffer b := by
      cases b
      · exact hcode
      · exact hdata
    simp only [outcomeOver, swap_replaced hbuf]
  | fault r => rfl
  | refused r => rfl

end Sys2Proof.Machine
end

section
/-! PROOF. What arrives between two primitives: a request at a busy Engine (R79), and an Engine reset (R176). -/

namespace Sys2Proof.Machine

variable {α β : Type} {i : Instr} {s t u : State} {m : Moment} {k : Nat} {rest : List Tick}

/-! ## One arrival before the `k`-th primitive -/

/-- What arrives before a primitive and is not a close of the Transport. -/
def State.met (s : State) (m : Moment) : State :=
  { s with moments := [], err := m.busy.foldl (fun e c => { e with kind := .badRequest, op := some c }) s.err }

theorem passed_met (h : s.moments = [m]) (hm : m.close = false) : s.passed = s.met m := by
  rw [passed_eq, h]
  simp [State.met, hm]

theorem passed_blank {ms : List Moment} (h : s.moments = {} :: ms) : s.passed = { s with moments := ms } := by
  rw [passed_eq, h]
  rfl

section aside

variable {f : State → State} {fs : List (State → State)} (h : Aside (f :: fs))

include h

theorem Aside.tail : Aside fs := fun g hg => h g (List.mem_cons_of_mem _ hg)

theorem Aside.head_kept (s : State) : (f s).moments = s.moments ∧ (f s).err = s.err ∧ (f s).line = s.line :=
  wrote_kept (fs := [f]) (fun g hg s' => h g (by rw [List.mem_singleton.1 hg]; exact List.mem_cons_self) s') s

theorem Aside.head_with (s : State) (ms : List Moment) (e : ErrRegs) :
    f { s with moments := ms, err := e } = { f s with moments := ms, err := e } := by
  obtain ⟨-, -, hl⟩ := h.head_kept s
  have hf := h f List.mem_cons_self s ms e s.line
  generalize f s = t at hl hf ⊢
  exact hf.trans (by rw [← hl])

theorem Aside.head_met (s : State) (m : Moment) : f (s.met m) = (f s).met m := by
  rw [State.met, h.head_with, State.met, (h.head_kept s).2.1]

end aside

theorem primitive_met {f : State → State} (h : s.moments = [m]) (hm : m.close = false) :
    primitive f s = if m.reset then .error .reset (s.met m) else .ok () (f (s.met m)) := by
  rw [primitive_eq, passed_met h hm, h]
  rfl

theorem primitive_blank {f : State → State} {ms : List Moment} (h : s.moments = {} :: ms) :
    primitive f s = .ok () (f { s with moments := ms }) := by
  rw [primitive_eq, passed_blank h, h]
  rfl

/-- Register writes before the `k`-th of which `m` arrives. -/
theorem writes_met (hm : m.close = false) (fs : List (State → State)) : ∀ {k : Nat} {s : State}, Aside fs → k < fs.length →
    s.moments = List.replicate k ({} : Moment) ++ [m] →
    writes fs s = if m.reset then .error .reset ((s.met m).wrote (fs.take k)) else .ok () ((s.met m).wrote fs) := by
  induction fs with
  | nil => exact fun _ hk => absurd hk (Nat.not_lt_zero _)
  | cons f r ih =>
    intro k s ha hk hs
    rw [writes]
    cases k with
    | zero =>
      have hcalm : (f (s.met m)).calm := (ha.head_kept _).1
      have hrun := primitive_met (f := f) hs hm
      cases hr : m.reset with
      | true =>
        rw [hr] at hrun
        exact bind_error hrun
      | false =>
        rw [hr] at hrun
        exact (bind_ok hrun).trans (writes_calm ha.tail hcalm)
    | succ k =>
      have hrun := primitive_blank (f := f) (ms := List.replicate k ({} : Moment) ++ [m]) hs
      generalize hu : f { s with moments := List.replicate k ({} : Moment) ++ [m] } = u at hrun
      have hum : u.moments = List.replicate k ({} : Moment) ++ [m] := by rw [← hu, (ha.head_kept _).1]
      have hmet : u.met m = f (s.met m) := by
        rw [← hu, ← ha.head_met]
        rfl
      rw [bind_ok hrun, ih ha.tail (Nat.lt_of_succ_lt_succ hk) hum, hmet]
      rfl

theorem writes_single (f : State → State) : writes [f] = primitive f := bind_pure_unit

theorem writes_append (gs : List (State → State)) : ∀ fs : List (State → State),
    writes (fs ++ gs) = (writes fs >>= fun _ => writes gs : Eng Unit)
  | [] => (pure_bind () fun _ => writes gs).symm
  | f :: r => by
    rw [List.cons_append, writes, writes, writes_append gs r, bind_assoc]

theorem endRequest_aside : Aside [State.endRequest] := by
  intro f hf s ms e l
  rw [List.mem_singleton.1 hf]
  rfl

/-! ## A region of size 0 -/

/-- REGION of size 0 is five primitives, none of which calls the Transport (R125, R140). -/
theorem ruleOf_absentRegion (mode : CMode) (b : Buf) (base : Addr) :
    ruleOf (.reqRegion mode b base 0) = writes (regionWrites mode b base 0 ++ [State.endRequest]) := by
  rw [writes_append, writes_single]
  show ((writes _ >>= fun _ => regionBlocks mode b base 0) >>= fun _ => primitive State.endRequest) = _
  rw [bind_assoc]
  rfl

theorem regionEnd_aside (mode : CMode) (b : Buf) (base : Addr) :
    Aside (regionWrites mode b base 0 ++ [State.endRequest]) := by
  intro f hf
  obtain hf | hf := List.mem_append.1 hf
  · exact regionWrites_aside mode b base 0 f hf
  · exact endRequest_aside f hf

/-- An Engine reset wipes out what register writes have written (R176). -/
theorem engineReset_wrote : ∀ {fs : List (State → State)}, (∀ f ∈ fs, ∀ s, (f s).engineReset = s.engineReset) → ∀ s : State,
    (s.wrote fs).engineReset = s.engineReset
  | [], _, _ => rfl
  | f :: r, h, s => (engineReset_wrote (fun g hg => h g (by simp [hg])) (f s)).trans (h f (by simp) s)

theorem regionEnd_reset (mode : CMode) (b : Buf) (base : Addr) :
    ∀ f ∈ regionWrites mode b base 0 ++ [State.endRequest], ∀ s, (f s).engineReset = s.engineReset := by
  intro f hf s
  simp only [regionWrites, List.cons_append, List.nil_append, List.mem_cons, List.not_mem_nil, or_false] at hf
  obtain rfl | rfl | rfl | rfl | rfl := hf <;> rfl

theorem exec_absentRegion {mode : CMode} {b : Buf} {base : Addr} {bs : Nat} (ho : s.seqr.op = none)
    (ha : framedReady s = true) (hbs : s.seqr.blockSz = some bs) (hk : k < 5) (hm : m.close = false)
    (hs : s.moments = List.replicate k ({} : Moment) ++ [m]) :
    exec (.reqRegion mode b base 0) s =
      if m.reset then .next (State.engineReset { s with moments := [] })
      else .next { s with
        err := m.busy.foldl (fun e c => { e with kind := .badRequest, op := some c }) {}
        blk := { s.blk with cmode := some mode, rbuf := some b, rbase := some base, rsize := some 0 }
        moments := [] } := by
  have hready : accepts (.reqRegion mode b base 0) s = true :=
    regionReady_of_bounds ha hbs (Nat.zero_le _) (by simpa using base.isLt.le)
  have hrun := writes_met hm _ (regionEnd_aside mode b base) hk (s := started (.reqRegion mode b base 0) s) hs
  rw [← ruleOf_absentRegion] at hrun
  rw [exec_taken ho hready]
  cases hr : m.reset with
  | true =>
    rw [hr] at hrun
    refine (finish_reset hrun).trans (congrArg _ ?_)
    exact engineReset_wrote (fun f hf => regionEnd_reset mode b base f (List.mem_of_mem_take hf)) _
  | false =>
    rw [hr] at hrun
    refine (finish_ok hrun).trans (congrArg _ ?_)
    simp [State.met, State.wrote, regionWrites, State.endRequest, started, Instr.request, latched, latchRegion, State.accept,
      noOp_eq ho]

/-! ## SET_LINK_BAUD -/

/-- A control call of an open Transport before which something arrives that is no reset. -/
theorem control_passed {act : State → State} {ev : Event} (hr : (s.moments.headD {}).reset = false)
    (ho : s.passed.line.isOpen = true) (hs : s.script = quiet :: rest) :
    control act ev s = .ok () ((act { s.passed with script := rest }).log ev) := by
  have ht : transport s = .ok () s.passed := by
    rw [transport, bind_ok ((moment_eq s).trans (if_neg (by rw [hr]; exact Bool.false_ne_true))), getState_bind, if_pos ho]
    rfl
  have hs' : s.passed.script = quiet :: rest := by rw [passed_eq]; exact hs
  rw [control, bind_ok ht, bind_ok (nextTick_cons hs')]
  simp [quiet, State.receive]

/-- What SET_LINK_BAUD writes behind its call, and the end of the request (R98). -/
def linkBaudEnd (rate : Nat) : List (State → State) := [fun s => s.setLinkBaud rate, State.endRequest]

theorem linkBaudEnd_aside (rate : Nat) : Aside (linkBaudEnd rate) := by
  intro f hf s ms e l
  simp only [linkBaudEnd, List.mem_cons, List.not_mem_nil, or_false] at hf
  obtain rfl | rfl := hf <;> rfl

theorem ruleOf_setLinkBaud (rate : Nat) :
    ruleOf (.reqSetLinkBaud rate) = (setBaud rate >>= fun _ => writes (linkBaudEnd rate) : Eng Unit) := by
  show ((setBaud rate >>= fun _ => primitive _) >>= fun _ => primitive State.endRequest) = _
  rw [bind_assoc, linkBaudEnd, writes, writes_single]

theorem exec_setLinkBaud_busy {code : Byte} {rate : Nat} (ho : s.seqr.op = none) (hopen : s.line.isOpen = true) (hk : k < 3)
    (hs : s.script = quiet :: rest) (hm : s.moments = List.replicate k ({} : Moment) ++ [{ busy := [code] }]) :
    exec (.reqSetLinkBaud rate) s = .next { s with
      err := { kind := .badRequest, op := some code }, seqr := { s.seqr with linkBaud := some rate }
      line := { s.line with rate := some rate }, script := rest, moments := [], hist := s.hist ++ [.baud rate] } := by
  rw [exec_taken ho rfl, ruleOf_setLinkBaud]
  cases k with
  | zero =>
    have hp := passed_met (s := s.accept .setLinkBaud) hm rfl
    have hc := control_passed (act := fun s => s.setRate rate) (ev := .baud rate) (s := s.accept .setLinkBaud) (rest := rest)
      (by rw [accept_moments, hm]; rfl) (by rw [hp]; exact hopen) hs
    rw [hp] at hc
    refine (finish_ok ((bind_ok hc).trans (writes_calm (linkBaudEnd_aside rate) (by rfl)))).trans ?_
    simp [State.wrote, linkBaudEnd, State.met, State.setRate, State.setLinkBaud, State.endRequest, ho]
  | succ k =>
    have hp := passed_blank (s := s.accept .setLinkBaud) (ms := List.replicate k ({} : Moment) ++ [({ busy := [code] } : Moment)]) hm
    have hc := control_passed (act := fun s => s.setRate rate) (ev := .baud rate) (s := s.accept .setLinkBaud) (rest := rest)
      (by rw [accept_moments, hm]; rfl) (by rw [hp]; exact hopen) hs
    rw [hp] at hc
    refine (finish_ok ((bind_ok hc).trans ((writes_met (m := { busy := [code] }) rfl _
      (linkBaudEnd_aside rate) (Nat.lt_of_succ_lt_succ hk) (by rfl)).trans (if_neg Bool.false_ne_true)))).trans ?_
    simp [State.wrote, linkBaudEnd, State.met, State.setRate, State.setLinkBaud, State.endRequest, ho]

/-! ## The obligations -/

/-- Settles O38: a busy Engine turns every request away, and a refusal between two primitives lets the rule go on. -/
theorem busyEngineRefuses : Obligations.BusyEngineRefuses := by
  refine ⟨fun i r s hi ho => ?_, fun s code rate k rest ho hopen hk hs hm => exec_setLinkBaud_busy ho hopen hk hs hm,
    fun s code mode b base bs k ho ha hbs hk hs => ?_⟩
  · rw [exec_turned_away fun h => ho h.1, turnAway_request hi]
    rfl
  · exact (exec_absentRegion ho ha hbs hk rfl hs).trans (if_neg Bool.false_ne_true)

/-- An Engine reset stops the rule before its next primitive (R176). -/
theorem moment_reset {ms : List Moment} (hs : s.moments = { reset := true } :: ms) :
    moment s = .error .reset { s with moments := ms } := by
  rw [moment_eq, passed_eq, hs]
  rfl

/-- A transmission before which an Engine reset arrives is not begun (R176). -/
theorem statusExchange_reset {o : Opcode} {q : List Byte} {ms : List Moment} (hq : q.length ≤ 255)
    (hs : s.moments = { reset := true } :: ms) : statusExchange o q s = .error .reset { s with moments := ms } := by
  have hm : transport s = .error .reset { s with moments := ms } := bind_error (moment_reset hs)
  refine bind_error ((getState_bind ..).trans ?_)
  rw [encodeCommand_ok _ _ hq]
  exact bind_error (bind_error hm)

/-- Settles O47: a rule that a reset stops ends in the state it has reached, with its registers reset. -/
theorem engineResetAbandons : Obligations.EngineResetAbandons := by
  refine ⟨fun s rest hs => ?_, fun m s u h => finish_reset h, fun i k s u h => exec_resetAfter h, fun k s u ho h => ?_,
    fun s rest a ho ha hs => ?_, fun s mode b base bs k ho ha hbs hk hs => ?_, fun s e rest hs => ?_⟩
  · rw [step, hs]
    rfl
  · rw [takeInput, readyInput, if_pos (by simp [State.resetAfter, ho])]
    exact resumeInit_resetAfter h
  · rw [exec_taken ho (show accepts (.reqBlockErase a) s = true from ha)]
    exact finish_reset (bind_error (statusExchange_reset (s := s.accept .blockErase) (by simp) hs))
  · exact (exec_absentRegion ho ha hbs hk rfl hs).trans (if_pos rfl)
  · exact finish_reset (bind_error (moment_reset hs))

end Sys2Proof.Machine
end

section
/-! PROOF. A closed Transport: every rule that calls it ends with `Io` at its first call, and nothing is sent (R169). -/

namespace Sys2Proof.Machine

variable {α β : Type} {i : Instr} {r : Req} {s₀ s t : State} {a e : Addr} {b : Buf} {bs : Nat}

/-- A rule runs on a closed Transport, and no request arrives and no reset happens. -/
structure Shut (s₀ s : State) : Prop where
  undisturbed : s.undisturbed
  closed : s.line.isOpen = false
  hist : s.hist = s₀.hist
  op : s.seqr.op = s₀.seqr.op
  linkBaud : s.seqr.linkBaud = s₀.seqr.linkBaud
  params : s.params = s₀.params
  code : s.code = s₀.code
  data : s.data = s₀.data

/-- The one way to stop: `Io`. -/
def ShutStop (s₀ : State) (w : Stop) (s : State) : Prop := w = .raised { kind := .io } ∧ Shut s₀ s

/-- On a closed Transport the rule does not come to its end. -/
def Blocked (s₀ : State) (m : Eng α) : Prop := Reaches (Shut s₀) (fun _ => False) (ShutStop s₀) m

/-- The rule calls nothing: it goes on as on an open Transport. -/
abbrev Passes (s₀ : State) (m : Eng α) (Q : α → Prop := fun _ => True) : Prop := Keeps (Shut s₀) (ShutStop s₀) m Q

theorem Shut.passed (h : Shut s₀ s) : Shut s₀ s.passed := by
  rw [passed_undisturbed h.undisturbed]
  exact { h with
    undisturbed := fun m hm => h.undisturbed m (List.mem_of_mem_tail hm)
    closed := by
      show (if _ then false else s.line.isOpen) = false
      rw [h.closed, ite_self] }

theorem Shut.buffer (h : Shut s₀ s) (b : Buf) : s.buffer b = s₀.buffer b := by
  cases b
  · exact h.code
  · exact h.data

/-! ## What passes -/

theorem passes_moment : Passes s₀ moment := keeps_moment_undisturbed (fun _ h => h.undisturbed) fun _ h => h.passed

theorem passes_primitive {f : State → State} (hf : ∀ s, Shut s₀ s → Shut s₀ (f s)) : Passes s₀ (primitive f) :=
  passes_moment.bind fun _ _ => Keeps.update hf

/-- A group of register writes comes to its end. -/
theorem shut_writes {fs : List (State → State)} {E : Stop → State → Prop} (ha : Aside fs)
    (hf : ∀ s, Shut s₀ s → Shut s₀ (s.wrote fs)) : Reaches (Shut s₀) (Shut s₀) E (writes fs) :=
  writes_reaches ha (fun _ h => h.undisturbed) (fun _ h => h.passed) hf

theorem passes_memRead {off n : Nat} (hn : off + n ≤ (s₀.buffer b).size) :
    Passes s₀ (memRead b off n) fun c => c = (s₀.buffer b).slice off n :=
  passes_moment.bind fun _ _ => Keeps.getState fun s hs => by
    rw [hs.buffer b, if_pos hn]
    exact ⟨hs, rfl⟩

/-! ## What is blocked -/

theorem blocked_transport : Blocked s₀ transport := by
  intro s hs
  have hp := hs.passed
  rw [transport, bind_ok ((moment_eq s).trans (if_neg (ne_true_of_eq_false (not_reset_of_undisturbed hs.undisturbed)))), getState_bind,
    if_neg (by simp [hp.closed])]
  exact ⟨rfl, hp⟩

theorem Blocked.bind {m : Eng α} {f : α → Eng β} (hm : Blocked s₀ m) : Blocked s₀ (m >>= f) :=
  Reaches.bind hm fun _ _ h => h.elim

theorem Blocked.after {m : Eng α} {f : α → Eng β} {Q : α → Prop} (hm : Passes s₀ m Q) (hf : ∀ a, Q a → Blocked s₀ (f a)) :
    Blocked s₀ (m >>= f) := by
  intro s hs
  have h := hm s hs
  cases hr : m s with
  | ok a t => rw [hr] at h; rw [bind_ok hr]; exact hf a h.2 t h.1
  | error w t => rw [hr] at h; rw [bind_error hr]; exact h

theorem Blocked.run {m : Eng α} (hm : Blocked s₀ m) (hs : Shut s₀ s) :
    ∃ t, m s = .error (.raised { kind := .io }) t ∧ Shut s₀ t := by
  have h := hm s hs
  cases hr : m s with
  | ok a t => rw [hr] at h; exact h.elim
  | error w t =>
    rw [hr] at h
    obtain ⟨rfl, ht⟩ := h
    exact ⟨t, rfl, ht⟩

theorem blocked_getState {f : State → Eng β} (hf : ∀ s, Shut s₀ s → Blocked s₀ (f s)) : Blocked s₀ (getState >>= f) :=
  fun s hs => hf s hs s hs

theorem blocked_control (act : State → State) (ev : Event) : Blocked s₀ (control act ev) := blocked_transport.bind

theorem blocked_setLinkBaud (rate : Nat) : Blocked s₀ (setLinkBaud rate) := (blocked_control _ _).bind

theorem blocked_send (bytes : List Byte) : Blocked s₀ (send bytes) := blocked_transport.bind

theorem blocked_exchange (o : Opcode) {q : List Byte} (n : Nat) (hq : q.length ≤ 255) : Blocked s₀ (exchange o q n) :=
  blocked_getState fun s _ => by
    rw [encodeCommand_ok s.params o.byte hq]
    exact (blocked_send _).bind

theorem blocked_statusExchange (o : Opcode) {q : List Byte} (hq : q.length ≤ 255) : Blocked s₀ (statusExchange o q) :=
  (blocked_exchange o 1 hq).bind

theorem blocked_blankBody (a e : Addr) : Blocked s₀ (blankBody a e) :=
  blocked_getState fun _ _ => (blocked_exchange _ _ (length_blankPayload ..)).bind

theorem blocked_baudSetBody (code volt : Byte) : Blocked s₀ (baudSetBody code volt) :=
  (blocked_exchange _ _ (by simp)).bind

theorem blocked_setBaudRate {rate mv : Nat} (h : (s₀.params.baudCode rate).isSome = true) :
    Blocked s₀ (setBaudRate rate mv) := blocked_getState fun s hs => by
  rw [hs.params]
  obtain ⟨code, hcode⟩ := Option.isSome_iff_exists.1 h
  rw [hcode]
  exact blocked_baudSetBody _ _

theorem blocked_programBody (a e : Addr) (frames : List (Eng (List Byte))) : Blocked s₀ (programBody a e frames) :=
  (blocked_statusExchange _ (by simp)).bind

theorem blocked_verifyBody (a e : Addr) (frames : List (Eng (List Byte))) : Blocked s₀ (verifyBody a e frames) :=
  (blocked_statusExchange _ (by simp)).bind

theorem blocked_openImage (cmd : Byte) : Blocked s₀ (openImage cmd) := (blocked_send _).bind

theorem blocked_eraseWriteBody {size : Nat} (h : size ≠ 0) : Blocked s₀ (eraseWriteBody size) := by
  rw [eraseWriteBody, if_neg h]
  exact (blocked_getState fun _ _ => blocked_openImage _).bind

theorem blocked_crcCheckBody {size : Nat} (h : size ≠ 0) : Blocked s₀ (crcCheckBody size) := by
  rw [crcCheckBody, if_neg h]
  exact (blocked_getState fun _ _ => blocked_openImage _).bind

/-- What is raised again has the same kind, and a register written meanwhile is none of those in question. -/
theorem blocked_resetAndRunBody (mode : Nat) : Blocked s₀ (resetAndRunBody mode) := by
  have hlines : Blocked s₀ (onRaise id (fun s => s.setSeq .idle) runLines) := fun s hs => by
    have h : Blocked s₀ runLines := ((blocked_control _ _).bind).bind
    obtain ⟨t, hr, ht⟩ := h.run hs
    rw [onRaise_raised hr]
    exact ⟨rfl, { ht with }⟩
  exact Blocked.after (Q := fun _ => True) (Keeps.update fun _ h => { h with }) fun _ _ => hlines.bind

/-! ## The block controller -/

theorem get_of_allErased {m : Memory} {off n j : Nat} (hw : m.wf = true) (h : allErased (m.slice off n) = true)
    (hlo : off ≤ j) (hhi : j < off + n) : m.get j = Config.erased := by
  rw [slice_eq_map hw, allErased, List.all_map, List.all_eq_true] at h
  have hj := h (j - off) (List.mem_range.2 (by omega))
  rwa [Function.comp_apply, Nat.add_sub_cancel' hlo, beq_iff_eq] at hj

/-- A block that calls the Transport: any in erase and verify mode, and one that is not erased in program mode. -/
theorem blocked_regionBlock {mode : CMode} {base : Addr} {i : Nat} (hb : i * bs + bs ≤ (s₀.buffer b).size)
    (h : mode = .program → allErased ((s₀.buffer b).slice (i * bs) bs) = false) :
    Blocked s₀ (regionBlock mode b base bs i) :=
  Blocked.after (Q := fun _ => True) (passes_primitive fun _ h => { h with }) fun _ _ => by
    cases mode with
    | erase => exact (blocked_blankBody _ _).bind
    | program =>
      refine Blocked.after (passes_memRead hb) fun blk hblk => ?_
      rw [programBlock, if_neg (by simp [hblk, h rfl])]
      exact (blocked_blankBody _ _).bind
    | verify =>
      refine Blocked.after (passes_memRead hb) fun blk _ => ?_
      unfold verifyBlock
      split
      · exact (blocked_blankBody _ _).bind
      · exact blocked_verifyBody _ _ _

theorem passes_regionBlock {base : Addr} {i : Nat} (hb : i * bs + bs ≤ (s₀.buffer b).size)
    (h : allErased ((s₀.buffer b).slice (i * bs) bs) = true) : Passes s₀ (regionBlock .program b base bs i) := by
  have hset : Passes s₀ (primitive fun s => s.setBlock i) := passes_primitive fun _ h => { h with }
  refine hset.bind fun _ _ => (passes_memRead hb).bind fun blk hblk => ?_
  rw [programBlock, if_pos (by rw [hblk, h])]
  exact passes_primitive fun _ h => { h with }

/-- Some block of a loop calls the Transport. -/
theorem blocked_regionLoop {mode : CMode} {base : Addr} : ∀ (n i : Nat), n ≠ 0 → (i + n) * bs ≤ (s₀.buffer b).size →
    (mode = .program → (s₀.buffer b).wf = true ∧ ∃ j, i * bs ≤ j ∧ j < (i + n) * bs ∧ (s₀.buffer b).get j ≠ Config.erased) →
    Blocked s₀ (regionLoop mode b base bs n i)
  | 0, _, h0, _, _ => absurd rfl h0
  | n + 1, i, _, hz, h => by
    have hnext : (i + (n + 1)) * bs = i * bs + bs + n * bs := by ring
    have hb : i * bs + bs ≤ (s₀.buffer b).size := by omega
    by_cases he : mode = .program ∧ allErased ((s₀.buffer b).slice (i * bs) bs) = true
    · obtain ⟨rfl, he⟩ := he
      obtain ⟨hw, j, hlo, hhi, hj⟩ := h rfl
      have hj' : i * bs + bs ≤ j := by
        by_contra hlt
        exact hj (get_of_allErased hw he hlo (by omega))
      refine Blocked.after (passes_regionBlock hb he) fun _ _ => blocked_regionLoop n (i + 1) ?_ ?_ fun _ => ⟨hw, j, ?_, ?_, hj⟩
      · rintro rfl
        omega
      · rwa [Nat.add_assoc, Nat.add_comm 1]
      · rwa [Nat.succ_mul]
      · rwa [Nat.add_assoc, Nat.add_comm 1]
    · exact (blocked_regionBlock hb fun hm => by simpa [hm] using he).bind

/-- REGION, where one of its whole blocks calls the Transport. -/
theorem blocked_regionBody {mode : CMode} {base : Addr} {size : Nat} (hbs : s₀.seqr.blockSz = some bs) (hs : Shut s₀ s₀)
    (hn : 0 < size / bs) (hz : size ≤ (s₀.buffer b).size)
    (h : mode = .program → (s₀.buffer b).wf = true ∧ ∃ j < size / bs * bs, (s₀.buffer b).get j ≠ 0xFF#8) :
    ∃ t, regionBody mode b base size s₀ = .error (.raised { kind := .io }) t ∧ Shut s₀ t := by
  have hsize : size ≠ 0 := by
    rintro rfl
    simp at hn
  have hw := shut_writes (E := fun _ _ => False) (regionWrites_aside mode b base size) (fun _ h => { h with }) s₀ hs
  rw [regionBody]
  cases hr : writes (regionWrites mode b base size) s₀ with
  | error w t => rw [hr] at hw; exact hw.elim
  | ok a t =>
    rw [hr] at hw
    rw [bind_ok hr, regionBlocks_sized (regionWrites_blockSz hbs hr), if_neg hsize]
    have hloop : Blocked s₀ (regionLoop mode b base bs (size / bs) 0) := by
      refine blocked_regionLoop _ 0 hn.ne' ?_ fun hm => ?_
      · rw [Nat.zero_add]
        exact (Nat.div_mul_le_self ..).trans hz
      · obtain ⟨hwf, j, hj, hget⟩ := h hm
        exact ⟨hwf, j, by omega, by rwa [Nat.zero_add], hget⟩
    have hblocks : Blocked s₀ (do
        primitive fun s => s.setBlocks (blockCount size bs)
        regionLoop mode b base bs (blockCount size bs) 0 : Eng Unit) :=
      Blocked.after (Q := fun _ => True) (passes_primitive fun _ h => { h with }) fun _ _ => hloop
    exact hblocks.run hw

/-! ## A request -/

theorem started_shut (i : Instr) (hu : s.undisturbed) (hopen : s.line.isOpen = false) : Shut (started i s) (started i s) :=
  ⟨by cases i <;> exact hu, by cases i <;> exact hopen, rfl, rfl, rfl, rfl, rfl, rfl⟩

theorem started_unsent (i : Instr) (s : State) :
    (started i s).hist = s.hist ∧ (started i s).seqr.linkBaud = s.seqr.linkBaud := by
  cases i <;> exact ⟨rfl, rfl⟩

theorem exec_blocked (hi : i.request = some r) (ho : s.seqr.op = none) (ha : accepts i s = true)
    (hb : ∃ t, body i (started i s) = .error (.raised { kind := .io }) t ∧ Shut (started i s) t) :
    ∃ t, exec i s = .next t ∧ t.err = { kind := .io, op := some r.code } ∧ t.hist = s.hist ∧
      t.seqr.linkBaud = s.seqr.linkBaud := by
  obtain ⟨u, hm, hs⟩ := hb
  obtain ⟨hh, hl⟩ := started_unsent i s
  have hrule : ruleOf i (started i s) = .error (.raised { kind := .io }) u := by
    unfold ruleOf
    rw [hi]
    exact bind_error hm
  refine ⟨_, (exec_taken ho ha).trans (finish_raised hrule), ?_, hs.hist.trans hh, hs.linkBaud.trans hl⟩
  rw [takeError_eq, hs.op, started_op ho, hi]
  rfl

/-! ## INIT -/

/-- `Io` as the handshake reports it, with `SEQ` at IDLE (R118, R122). -/
def HandshakeIo (s₀ : State) (w : Stop) (s : State) : Prop :=
  w = .raised { kind := .synchronizationFailed, cause := some .io } ∧ ∃ u, Shut s₀ u ∧ s = u.setSeq .idle

/-- The first call of the handshake is the one that fails. -/
theorem initBody_blocked (proto : Nat) : Reaches (Shut s₀) (fun _ => False) (HandshakeIo s₀) (initBody proto) := by
  have hone : Blocked s₀ stepOne := blocked_getState fun _ _ => (blocked_control _ _).bind
  have hpart : Reaches (Shut s₀) (fun _ => False) (HandshakeIo s₀) (handshakePart .synchronizationFailed stepOne) := by
    intro s hs
    obtain ⟨u, hu, hus⟩ := hone.run hs
    rw [handshakePart_raised hu]
    exact ⟨rfl, u, hus, rfl⟩
  refine (shut_writes (sessionWrites_aside proto) fun s h => ?_).bind fun _ => hpart.bind fun _ _ h => h.elim
  rw [wrote_session]
  exact { h with }

theorem exec_reqInit_closed {proto rate mv verbose : Nat} {delayed : Bool} (ho : s.seqr.op = none) (hu : s.undisturbed)
    (hopen : s.line.isOpen = false) (ha : rateOk rate mv s = true) :
    ∃ t, exec (.reqInit proto rate mv delayed verbose) s = .next t ∧
      t.err = { kind := .synchronizationFailed, cause := some .io, op := some 0x01#8 } ∧ t.hist = s.hist ∧
      t.seqr.seq = .idle := by
  have hs := started_shut (.reqInit proto rate mv delayed verbose) hu hopen
  have hrun := initBody_blocked proto _ hs
  cases hr : initBody proto (started (.reqInit proto rate mv delayed verbose) s) with
  | ok a t => rw [hr] at hrun; exact hrun.elim
  | error w t =>
    rw [hr] at hrun
    obtain ⟨rfl, u, hus, rfl⟩ := hrun
    refine ⟨_, exec_request_raised rfl ho ha hr, ?_, hus.hist, rfl⟩
    rw [takeError_eq, setSeq_seqr, hus.op]
    rfl

/-! ## A close in the middle of a rule -/

/-- A Wait before which the Transport is closed passes all the same (R7, R169). -/
theorem waitFor_closes (d : Delay) (hm : s.moments = [{ close := true }]) :
    waitFor d s = .ok () { s with moments := [], line := { s.line with isOpen := false }, hist := s.hist ++ [.wait d] } := by
  rw [waitFor, primitive_eq, passed_eq, hm]
  rfl

/-- The first line is driven, the Wait passes, and the second call finds the Transport closed (R123, R169). -/
theorem runLines_closed {rest : List Tick} (hopen : s.line.isOpen = true) (hs : s.script = quiet :: rest)
    (hm : s.moments = [{}, {}, { close := true }]) : runLines s = .error (.raised { kind := .io }) { s with
      seqr := { s.seqr with lineReset := some false }, line := { s.line with reset := some false, isOpen := false }
      script := rest, moments := [], hist := s.hist ++ [.line .reset false, .wait .run] } := by
  have hp := passed_blank hm
  have hc := control_passed (act := fun s => s.drive .reset false) (ev := .line .reset false) (rest := rest)
    (by rw [hm]; rfl) (by rw [hp]; exact hopen) hs
  rw [hp] at hc
  have hline : setLine .reset false s = .ok () { s with
      seqr := { s.seqr with lineReset := some false }, line := { s.line with reset := some false }, script := rest
      moments := [{ close := true }], hist := s.hist ++ [.line .reset false] } :=
    (bind_ok hc).trans (primitive_blank (ms := [{ close := true }]) (by rfl))
  refine (bind_ok hline).trans ((bind_ok (waitFor_closes .run (by rfl))).trans ?_)
  rw [List.append_assoc]
  exact bind_error (bind_error (transport_closed (by rfl) (by simp [State.undisturbed])))

/-- Settles O44: a request that is accepted ends with `Io` where its rule is blocked. -/
theorem closedTransportIsIo : Obligations.ClosedTransportIsIo := by
  intro s rate mode proto mv verbose off size bs delayed a e b cm ho hu hopen io
  have hio {i : Instr} {r : Req} (hi : i.request = some r) (ha : accepts i s = true)
      (hb : Blocked (started i s) (body i)) : io i r.code := by
    obtain ⟨t, ht, herr, hhist, -⟩ := exec_blocked hi ho ha (hb.run (started_shut i hu hopen))
    exact ⟨t, ht, herr, hhist⟩
  refine ⟨fun ha => ⟨?_, ?_, fun hr => ?_, fun hid => ?_, fun hle => ⟨?_, ?_, fun hz => ⟨?_, ?_⟩⟩, fun hbs hn hz hend h => ?_⟩,
    fun hg h0 hz => ⟨fun h4 => ?_, ?_⟩, ?_, ?_, fun hr => ?_, fun rest hs => ?_⟩
  · exact hio (i := .reqResetCmd) rfl ha (blocked_statusExchange _ (by simp))
  · exact hio (i := .reqBlockErase a) rfl ha (blocked_statusExchange _ (by simp))
  · exact hio (i := .reqSetBaud rate mv) rfl (by simp [accepts, baudOk, ha, hr])
      (blocked_setBaudRate (Bool.and_eq_true_iff.1 hr).1)
  · exact hio (i := .reqSignature) rfl (signatureReady_ready ha hid) (blocked_statusExchange _ (by simp)).bind
  · exact hio (i := .reqBlankCheck a e) rfl (rangeReady_ready ha hle) (blocked_blankBody _ _).bind
  · exact hio (i := .reqChecksum a e) rfl (rangeReady_ready ha hle) (blocked_statusExchange _ (by simp)).bind
  · exact hio (i := .reqBlockProgram a e b off) rfl (sourceReady_ready ha hle hz) (blocked_programBody _ _ _)
  · exact hio (i := .reqBlockVerify a e b off) rfl (sourceReady_ready ha hle hz) (blocked_verifyBody _ _ _)
  · have hs := started_shut (.reqRegion cm b a size) hu hopen
    have hbuf : (started (.reqRegion cm b a size) s).buffer b = s.buffer b := by cases b <;> rfl
    obtain ⟨t, ht, herr, hhist, -⟩ := exec_blocked (i := .reqRegion cm b a size) rfl ho
      (regionReady_of_bounds ha hbs hz hend) (blocked_regionBody hbs hs hn (by rwa [hbuf]) (by rwa [hbuf]))
    exact ⟨t, ht, herr, hhist⟩
  · exact hio (i := .reqG10EraseWrite size) rfl (wordsReady_of_size hg hz h4) (blocked_eraseWriteBody h0.ne')
  · exact hio (i := .reqG10CrcCheck size) rfl (imageReady_of_size hg hz) (blocked_crcCheckBody h0.ne')
  · exact exec_blocked (i := .reqSetLinkBaud rate) rfl ho rfl
      ((blocked_setLinkBaud rate).run (started_shut (.reqSetLinkBaud rate) hu hopen))
  · exact hio (i := .reqResetAndRun mode) rfl rfl (blocked_resetAndRunBody mode)
  · exact exec_reqInit_closed ho hu hopen hr
  · have hrun := runLines_closed (rest := rest) (s := State.setWiring (State.accept { s with
      line := { s.line with isOpen := true }, moments := [{}, {}, { close := true }] } .resetAndRun) mode) rfl hs rfl
    refine ⟨_, exec_request_raised rfl ho rfl ((update_bind ..).trans (bind_error (onRaise_raised hrun))), rfl, rfl, rfl, rfl⟩

end Sys2Proof.Machine
end
